-- ==== Sys2Proof/Word.lean ====
section
/-! DEFINITION. The words the links carry and the index types of the part's tables. -/

namespace Sys2Proof

/-- A 32-bit unit of data; every address on every link is a word address of this width (00_scope, Terms). -/
abbrev Word := BitVec 32

/-- The words of one transaction as they stand on a link: three header words, data words, one trailer word (R4). -/
abbrev Frame := List Word

/-- A slot, 0 to 7. -/
abbrev SlotId := Fin 8
/-- A logical board that the steering table holds, 0 to 14. -/
abbrev BoardId := Fin 15
/-- A layout set, 0 to 3 (R62). -/
abbrev SetId := Fin 4
/-- A region record, 0 to 63 (R63). -/
abbrev RegionId := Fin 64
/-- A migration context, 0 to 15 (R79). -/
abbrev CtxId := Fin 16
/-- A flight record's number within its context (R98). -/
abbrev FlightNum := Fin 4
/-- An entry of a slot's pending reply table, 0 to 63 (R16). -/
abbrev PendIdx := Fin 64
/-- A staging entry, 0 to 31 (R99). -/
abbrev StagingId := Fin 32
/-- A record of the descriptor pool, 0 to 255 (R82). -/
abbrev SegmentId := Fin 256
/-- A record of the revisit pool, 0 to 127 (R125). -/
abbrev RangeId := Fin 128
/-- A notice group, 0 to 5 (R173). -/
abbrev GroupId := Fin 6
/-- A level or floor of the Notice Unit, 0 to 15 (R174). -/
abbrev Level := Fin 16

end Sys2Proof
end

