-- ==== Sys2Proof/Syntax.lean ====
section
/-! DEFINITION. The commands of the part: one constructor per row of spec/opcode_table.json. -/

namespace Sys2Proof

/-- A step of the part. The table gives no operands; they are read from each row's rule (assumption 1).
A row that takes the head of intake needs none, because what it takes stands in the intake queue. -/
inductive Instr
  -- the whole part (R172)
  | powerOnReset
  | resetLineAssert
  | resetLineRelease
  | startingComplete
  -- the agent link (R7, R9, R10)
  | agentArrival (frame : Frame)
  | agentLinkLost
  | agentLinkUp
  | upstreamSend
  -- taking the head of intake by the Steering Unit (R51 to R56)
  | storeTaken
  | fillStep
  | fetchTaken
  | fenceTaken
  -- slot events (R22, R25, R26, R28, R33)
  | slotPresenceActive (slot : SlotId)
  | slotPresenceLost (slot : SlotId)
  | slotLinkUp (slot : SlotId)
  | slotLinkLost (slot : SlotId)
  | helloTimerExpiry (slot : SlotId)
  | settleTimerExpiry (slot : SlotId)
  | replyTimerExpiry (slot : SlotId) (entry : PendIdx)
  -- transactions from a board (R11 to R13, R18, R30, R34)
  | grantReceived (slot : SlotId) (frame : Frame)
  | helloReceived (slot : SlotId) (frame : Frame)
  | haltReceived (slot : SlotId) (frame : Frame)
  | returnReceived (slot : SlotId) (frame : Frame)
  | fenceDoneReceived (slot : SlotId) (frame : Frame)
  | boardTransactionRejected (slot : SlotId) (frame : Frame)
  -- sending to a board (R15)
  | slotSend (slot : SlotId)
  -- the walk, its claims and its timers (R91, R103, R104, R107, R139, R152)
  | walkFetchIssue
  | zeroFillIssue
  | paceTimerExpiry (ctx : CtxId)
  | writeClaimTaken (ctx : CtxId) (record : FlightNum)
  | verifyClaimTaken (ctx : CtxId) (record : FlightNum)
  | cutoverClaimTaken (ctx : CtxId)
  -- management requests, each taking the MGMT at the head of intake (R164)
  | unknownRequest
  | readStateBridge
  | readStateSlot
  | readStateSteer
  | readStateLayout
  | readStateRegion
  | readStateContext
  | readStateSegments
  | readStateRevisit
  | readStateGaps
  | readStateSpares
  | readStateNotices
  | readStateCounters
  | softReset
  | countersClear
  | slotRetry
  | slotHalt
  | steerSet
  | steerClear
  | twinSet
  | twinClear
  | swap
  | layoutSet
  | regionLoad
  | regionClear
  | ctxOpen
  | segAppend
  | ctxStart
  | ctxPause
  | ctxResume
  | stopPoint
  | ctxAbort
  | ctxClose
  | ctxCutover
  | gapWaive
  | spareDrop
  | noticeLevel
  | noticeFloor
  | maskSet
  | maskClear
  | collect
  deriving DecidableEq, Repr

end Sys2Proof
end

