-- ==== Sys2Proof/Decode.lean ====
section
/-! DEFINITION. The command that a word of spec/opcode_table.json's bits spells. -/

namespace Sys2Proof

/-- The table gives bits for none of its rows (98_reader: rows with fixed bits 0, rows with fields 0),
so no word spells a command. The layout of transactions on the links is decoded in Machine/Operands.lean. -/
def decodeTableWord (_nbits _w : Nat) : Option Instr := none

end Sys2Proof
end

