-- ==== Sys2Proof/Config.lean ====
section
/-! DEFINITION. What revision C of the part fixes: capacities and intervals. The spec leaves no value open, so no constant here is opaque. -/

namespace Sys2Proof.Config

/-- Agent credits granted at RUNNING, and the depth of the intake queue (R6, R8). -/
def agentCredits : Nat := 64
/-- Ceiling of a slot's board credit count (R13). -/
def boardCredits : Nat := 64
/-- Depth of a slot outbound queue (R14). -/
def slotQueueDepth : Nat := 48
/-- Records of the gap list (R132). -/
def gapListDepth : Nat := 64
/-- Records of one slot's spare map (R141). -/
def spareMapDepth : Nat := 32
/-- Words of the longest FILL (R2), which also bounds a zero run (R104). -/
def maxFill : Nat := 4096
/-- Data words of the longest STORE, and so of each STORE of a write-out (R2, R151). -/
def maxStore : Nat := 16
/-- One past the top word address (R70). -/
def addressTop : Nat := 4294967296
/-- The interval of the HELLO timer in ms (R25). -/
def helloInterval : Nat := 500
/-- HELLO timer expiries in a row that disable a slot (R28). -/
def helloLimit : Nat := 3
/-- The part code and revision letter that READ-STATE BRIDGE reports (R169). -/
def partCode : Nat := 2460
def revision : Nat := 3
/-- Records of one page of a list object (R168). -/
def pageSize : Nat := 8
/-- Pending kinds one COLLECT returns (R178). -/
def collectSize : Nat := 8

end Sys2Proof.Config
end

