-- ==== Sys2Proof/Machine/State.lean ====
section
/-! DEFINITION. Everything the part holds, as plain data, and the part right after power-on reset. -/

namespace Sys2Proof.Machine

/-! ### Transactions -/

/-- The transaction kinds (R1, Table 1-2). -/
inductive TxnKind
  | store | fill | fetch | fence | ret | fenceDone | grant | hello | halt | mgmt | mgmtReply | notice
  deriving DecidableEq, Repr

/-- A transaction, its check aside (R1, R4). A field that the kind does not use is zero. -/
structure Txn where
  kind   : TxnKind
  board  : BitVec 4 := 0
  status : BitVec 4 := 0
  tag    : BitVec 8 := 0
  more   : Bool := false
  count  : Nat := 0
  addr   : Word := 0
  data   : List Word := []
  deriving DecidableEq, Repr

/-- How a queued transaction is marked (R14). -/
inductive Mark
  | agentDerived | bridgeGenerated
  deriving DecidableEq, Repr

/-- A transaction in a slot outbound queue (R14). -/
structure QTxn where
  txn  : Txn
  mark : Mark
  deriving DecidableEq, Repr

/-! ### The pending reply table (R16, R17) -/

/-- What a pending entry was made for (R16). -/
inductive PendKind
  | fetch | fence
  deriving DecidableEq, Repr

/-- The two states of an entry in use; a FREE entry is `none` in the table (R16). -/
inductive PendPhase
  | queued | sent
  deriving DecidableEq, Repr

/-- The owner of a pending entry's reply (R17). A split FETCH names its assembly record and a FENCE its
fence group by the record's number, which is the model's own (assumption 16). -/
inductive Origin
  | agent (tag : BitVec 8) (board : BoardId) (part parts : Nat) (assembly : Option Nat)
  | fenceGroup (group : Nat) (twin : Bool)
  | walk (ctx : CtxId) (record : FlightNum)
  | verify (ctx : CtxId) (record : FlightNum)
  | cutover (ctx : CtxId)
  | orphan
  deriving DecidableEq, Repr

/-- A QUEUED or SENT entry (R16). `count` is the words a FETCH asks for, 0 for a FENCE. -/
structure PendEntry where
  phase  : PendPhase
  kind   : PendKind
  count  : Nat
  origin : Origin
  deriving DecidableEq, Repr

/-! ### Slot ports (R23, R24) -/

/-- The two phases of AWAIT_HELLO (R23). -/
inductive HelloPhase
  | listening | retraining
  deriving DecidableEq, Repr

/-- The states of a slot port (R23). -/
inductive SlotState
  | down | awaitHello (phase : HelloPhase) | settling | ready | halted | disabled
  deriving DecidableEq, Repr

/-- The start causes of a HELLO (R3). -/
inductive StartCause
  | powerUp | boardReset | retrain
  deriving DecidableEq, Repr

/-- The arrival record but for its failure count (R24). -/
structure Arrival where
  boardClass : BitVec 16
  cause      : StartCause
  deriving DecidableEq, Repr

/-- Who halted the board (R24). -/
inductive HaltSource
  | board | replyTimeout | agent
  deriving DecidableEq, Repr

/-- The halt record (R24). -/
structure HaltRecord where
  source : HaltSource
  reason : BitVec 8
  deriving DecidableEq, Repr

/-- The per-slot counters (R180, numbers 7 to 10). -/
structure SlotCounters where
  sent          : Word := 0
  checkErrors   : Word := 0
  replyTimeouts : Word := 0
  helloTimeouts : Word := 0
  deriving DecidableEq, Repr

/-- One slot port (R13 to R24). A running timer holds its interval in ms. The reply timer of a pending
entry runs exactly while the entry is SENT (R22), so it has no field. `sentOrder` lists the SENT entries
in the order their transactions were sent (R37). `tx` is the frame last put on the link (assumption 8). -/
structure SlotPort where
  presence      : Bool := false
  state         : SlotState := .down
  helloTimer    : Option Nat := none
  settleTimer   : Option Nat := none
  credits       : Nat := 0
  queue         : List QTxn := []
  pend          : Vector (Option PendEntry) 64 := Vector.replicate 64 none
  sentOrder     : List PendIdx := []
  arrival       : Option Arrival := none
  helloFailures : Nat := 0
  halt          : Option HaltRecord := none
  counters      : SlotCounters := {}
  tx            : Option Frame := none
  deriving DecidableEq, Repr

/-! ### Steering (R42, R55, R56) -/

/-- One of two address geometries (R63). -/
inductive View
  | A | B
  deriving DecidableEq, Repr

/-- The condition of a steering entry's twin (R42). -/
inductive TwinState
  | none | stale | building | twinned
  deriving DecidableEq, Repr

/-- One steering entry (R42). -/
structure SteerEntry where
  primary   : Option SlotId := Option.none
  twin      : Option SlotId := Option.none
  twinState : TwinState := .none
  layoutSet : SetId := 0
  view      : View := .A
  autoSwap  : Bool := false
  bound     : Option CtxId := Option.none
  deriving DecidableEq, Repr

/-- A part of a split FETCH once it is resolved (R55). -/
structure PartResult where
  status : BitVec 4
  data   : List Word
  deriving DecidableEq, Repr

/-- The assembly record of a FETCH sent in more than one part (R55). -/
structure Assembly where
  num   : Nat
  tag   : BitVec 8
  board : BoardId
  count : Nat
  parts : List (Option PartResult)
  deriving DecidableEq, Repr

/-- The outcome of one part of a fence group (R56). -/
inductive PartOutcome
  | sent | ok | failed | absent
  deriving DecidableEq, Repr

/-- A fence group record (R56). -/
structure FenceGroup where
  num     : Nat
  tag     : BitVec 8
  board   : BoardId
  primary : PartOutcome
  twin    : PartOutcome
  deriving DecidableEq, Repr

/-! ### The Region Map (R62, R63) -/

/-- A layout set record (R62). -/
structure LayoutSet where
  baseA : Word := 0
  capA  : Nat := 0
  baseB : Word := 0
  capB  : Nat := 0
  deriving DecidableEq, Repr

/-- What a region record gives for one view (R63). -/
structure Geometry where
  base       : Word
  pitch      : Nat
  spareBase  : Word
  spareCount : Nat
  deriving DecidableEq, Repr

/-- The treatment of a region during a rebuild (R64). -/
inductive CopyMode
  | copy | zero | mirror | localOnly
  deriving DecidableEq, Repr

/-- A loaded region record (R63). `verify = some n` is SAMPLE n, `none` is NONE. -/
structure Region where
  set     : SetId
  width   : Nat
  entries : Nat
  geomA   : Geometry
  geomB   : Geometry
  mode    : CopyMode
  verify  : Option Nat
  poison  : Word
  deriving DecidableEq, Repr

/-- The four kinds of piece a span is cut into (R69). -/
inductive PieceKind
  | entry | localData | pad | outside
  deriving DecidableEq, Repr

/-- A piece of a span (R69). `region` is absent for an OUTSIDE piece; `trans` is the first address in the
other view, meaningful for ENTRY and LOCAL pieces. -/
structure Piece where
  kind   : PieceKind
  region : Option RegionId
  entry  : Nat
  offset : Nat
  len    : Nat
  view   : View
  addr   : Nat
  pos    : Nat
  trans  : Nat
  deriving DecidableEq, Repr

/-- A FILL in expansion at the head of intake (R52, R53): the pieces still to come, cut once when it became
the head (R69), and from step 1 on the slots that received it whole. -/
structure FillExpansion where
  pieces : List Piece
  whole  : Option (List SlotId)
  deriving DecidableEq, Repr

/-! ### Migration contexts (R79) -/

/-- The states of a context (R80). -/
inductive CtxState
  | idle | opened | waiting | walking | paused | synced | cutting | failed
  deriving DecidableEq, Repr

/-- A record of the descriptor pool in a context's segment list (R82). The list's order is the links' order. -/
structure Segment where
  num    : SegmentId
  region : RegionId
  first  : Nat
  count  : Nat
  deriving DecidableEq, Repr

/-- A record of the revisit pool in a context's revisit list (R123). -/
structure Range where
  num    : RangeId
  region : RegionId
  first  : Nat
  last   : Nat
  deriving DecidableEq, Repr

/-- The phase of the walk (R79). -/
inductive WalkPhase
  | walk | revisit
  deriving DecidableEq, Repr

/-- The phase of a flight record (R98). -/
inductive FlightPhase
  | fetch | staged | verify
  deriving DecidableEq, Repr

/-- A flight record (R98) with its poison mark (R133). `claim` says that its write claim (STAGED) or its
read-back claim (VERIFY) waits on the destination queue (R106, R139). -/
structure Flight where
  num     : FlightNum
  region  : RegionId
  entry   : Nat
  phase   : FlightPhase
  staging : StagingId
  rewrite : Bool := false
  poison  : Bool := false
  claim   : Bool := false
  deriving DecidableEq, Repr

/-- A stop point (R89). `region = none` is ANY. -/
structure StopPoint where
  region : Option RegionId
  value  : BitVec 24
  mask   : BitVec 24
  again  : Bool
  deriving DecidableEq, Repr

/-- Why a context is PAUSED (R79). -/
inductive PauseReason
  | agent | stopPoint
  deriving DecidableEq, Repr

/-- Why a context FAILED (R95). -/
inductive FailReason
  | sourceLost | destLost | churn | gapsFull | sparesExhausted | verifyFailed | addressRefused
  deriving DecidableEq, Repr

/-- How a context last ended (R79). -/
inductive LastOutcome
  | done | aborted | closed
  deriving DecidableEq, Repr

/-- The seven counters of a context (R96). -/
structure CtxCounters where
  entriesWritten : Word := 0
  correctedReads : Word := 0
  revisitsAdded  : Word := 0
  rewalks        : Word := 0
  verifies       : Word := 0
  sparesUsed     : Word := 0
  gapsAdded      : Word := 0
  deriving DecidableEq, Repr

/-- A context record (R79). `pace = none` is FREE, `some i` is PACED at `i` µs. `cur` is the current
segment's place in the list, counted from 0. `deferred` is the deferred reply's tag (R148).
`cutClaim` says that the cutover claim waits (R152). -/
structure Ctx where
  state         : CtxState := .idle
  board         : BoardId := 0
  src           : SlotId := 0
  dst           : SlotId := 0
  srcView       : View := .A
  priority      : Fin 4 := 0
  pace          : Option Nat := none
  window        : Nat := 1
  rewalkLimit   : Nat := 2
  autoCutover   : Bool := false
  segs          : List Segment := []
  cur           : Option Nat := none
  frontier      : Nat := 0
  phase         : WalkPhase := .walk
  rewalkCount   : Nat := 0
  verifyCounter : Nat := 0
  stop          : Option StopPoint := none
  held          : Option (RegionId × Nat) := none
  pauseReason   : Option PauseReason := none
  failReason    : Option FailReason := none
  outcome       : Option LastOutcome := none
  flights       : List Flight := []
  revisit       : List Range := []
  paceRunning   : Bool := false
  counters      : CtxCounters := {}
  deferred      : Option (BitVec 8) := none
  cutClaim      : Bool := false
  deriving DecidableEq, Repr

/-! ### The Integrity Unit (R132, R141) -/

/-- A gap record (R132). -/
structure Gap where
  ctx    : CtxId
  region : RegionId
  entry  : Nat
  deriving DecidableEq, Repr

/-- A spare map record (R141). -/
inductive SpareRec
  | remap (region : RegionId) (entry : Nat) (view : View) (idx : Nat) (owner : Option CtxId) (tally : Nat)
  | retired (region : RegionId) (view : View) (idx : Nat)
  deriving DecidableEq, Repr

/-! ### The Notice Unit (R173, R174, R176) -/

/-- The notice kinds in number order, 1 to 20 (R173). -/
inductive NoticeKind
  | slotUp | slotDown | slotHalted | helloMissing | slotDisabled | agentCheck | agentOverrun | slotCheck
  | grantExcess | autoSwap | twinStale | noBoardTraffic | ctxSynced | ctxDone | ctxFailed | ctxStopped
  | rewalk | gapAdded | gapsPending | spareUsed
  deriving DecidableEq, Repr

/-- A kind's mask (R174) and occurrence record (R176). -/
structure NoticeRec where
  mask    : Bool := false
  pending : Bool := false
  count   : BitVec 16 := 0
  detail  : BitVec 8 := 0
  sent    : Bool := false
  deriving DecidableEq, Repr

/-- The global counters (R180, numbers 1 to 6). -/
structure GlobalCounters where
  agentOverruns    : Word := 0
  agentCheckErrors : Word := 0
  noBoardDiscards  : Word := 0
  padWrites        : Word := 0
  unmappedStores   : Word := 0
  uncoveredStores  : Word := 0
  deriving DecidableEq, Repr

/-! ### The part -/

/-- The start-up states (R172); `held` while the RESET line is active. -/
inductive Startup
  | held | starting | running
  deriving DecidableEq, Repr

/-- The start cause (R169). -/
inductive PartCause
  | power | line
  deriving DecidableEq, Repr

/-- The start record (R169). -/
structure StartRecord where
  cause      : PartCause := .power
  softResets : Word := 0
  deriving DecidableEq, Repr

/-- The part. `agentTx` is the frame last put on the agent link (assumption 8); `pending` is the queue of
commands that wait, first in first out. -/
structure State where
  startup      : Startup := .starting
  startRecord  : StartRecord := {}
  agentLinkUp  : Bool := true
  agentCredits : Nat := 0
  intake       : List Txn := []
  upstream     : List Txn := []
  agentTx      : Option Frame := none
  fill         : Option FillExpansion := none
  globals      : GlobalCounters := {}
  slots        : Vector SlotPort 8 := Vector.replicate 8 {}
  steer        : Vector SteerEntry 15 := Vector.replicate 15 {}
  assemblies   : List Assembly := []
  fences       : List FenceGroup := []
  layouts      : Vector LayoutSet 4 := Vector.replicate 4 {}
  regions      : Vector (Option Region) 64 := Vector.replicate 64 none
  ctxs         : Vector Ctx 16 := Vector.replicate 16 {}
  staging      : Vector (Option (List Word)) 32 := Vector.replicate 32 none
  lastServed   : Vector CtxId 4 := Vector.replicate 4 15
  gaps         : List Gap := []
  spares       : Vector (List SpareRec) 8 := Vector.replicate 8 []
  levels       : Vector Level 6 := #v[8, 4, 12, 10, 2, 6]
  floor        : Level := 0
  notices      : Vector NoticeRec 20 := Vector.replicate 20 {}
  pending      : List Instr := []
  deriving DecidableEq, Repr

/-- Right after power-on reset (R172): STARTING with cause POWER, every block at the values its chapter
gives, which are the defaults above. No board is seated and the agent link is up (assumption 6). -/
def State.reset : State := {}

/-- Why a step could stop with a fault. The spec names no such event: what goes wrong is counted, noticed
or answered, and the part goes on. So no command raises one, and the type is empty (safe). -/
inductive Fault
  deriving DecidableEq, Repr

/-- Why a step could be refused. -/
inductive Refusal
  /-- Raised by a command that has no meaning yet; no arm of exec does so any more (safe). -/
  | notModelled (mnemonic : String)
  deriving DecidableEq, Repr

end Sys2Proof.Machine
end

