-- ==== Sys2Proof/Machine/Ops.lean ====
section
/-! DEFINITION. The named operations over the part's state: one home and one way in for every table, the upstream queue, the agent's credits, claims on a slot queue, and the pending reply table. -/

namespace Sys2Proof.Machine

/-! ### Numbers -/

/-- Adding to a 32-bit counter that saturates at its maximum (R180). -/
def satAdd (c : Word) (n : Nat) : Word := BitVec.ofNat 32 (min (c.toNat + n) 4294967295)

/-- A value of a parameter word that lies below a bound, as the index it names. -/
def toIndex (n : Nat) (v : Nat) : Option (Fin n) := if h : v < n then some ⟨v, h⟩ else none

/-- A slot or context number as a notice detail (R173). -/
def detailOf (n : Nat) : BitVec 8 := BitVec.ofNat 8 n

/-- The other of the two views. -/
def View.other : View → View
  | .A => .B
  | .B => .A

/-- The code of a view in parameter and result words (R43, R61). -/
def View.code : View → Nat
  | .A => 0
  | .B => 1

/-! ### The tables -/

def allSlots : List SlotId := [0, 1, 2, 3, 4, 5, 6, 7]
def allBoards : List BoardId := [0, 1, 2, 3, 4, 5, 6, 7, 8, 9, 10, 11, 12, 13, 14]
def allCtxs : List CtxId := [0, 1, 2, 3, 4, 5, 6, 7, 8, 9, 10, 11, 12, 13, 14, 15]
def allRegions : List RegionId := List.finRange 64

def State.slot (s : State) (k : SlotId) : SlotPort := s.slots[k]
def State.setSlot (s : State) (k : SlotId) (p : SlotPort) : State := { s with slots := s.slots.set k p }
def State.modSlot (s : State) (k : SlotId) (f : SlotPort → SlotPort) : State := s.setSlot k (f (s.slot k))

def State.entry (s : State) (b : BoardId) : SteerEntry := s.steer[b]
def State.setEntry (s : State) (b : BoardId) (e : SteerEntry) : State := { s with steer := s.steer.set b e }

def State.ctx (s : State) (c : CtxId) : Ctx := s.ctxs[c]
def State.setCtx (s : State) (c : CtxId) (x : Ctx) : State := { s with ctxs := s.ctxs.set c x }
def State.modCtx (s : State) (c : CtxId) (f : Ctx → Ctx) : State := s.setCtx c (f (s.ctx c))

def State.layout (s : State) (l : SetId) : LayoutSet := s.layouts[l]
def State.region (s : State) (r : RegionId) : Option Region := s.regions[r]
def State.setRegion (s : State) (r : RegionId) (x : Option Region) : State :=
  { s with regions := s.regions.set r x }

def State.spareMap (s : State) (k : SlotId) : List SpareRec := s.spares[k]
def State.setSpareMap (s : State) (k : SlotId) (m : List SpareRec) : State := { s with spares := s.spares.set k m }

def State.setStaging (s : State) (g : StagingId) (d : Option (List Word)) : State :=
  { s with staging := s.staging.set g d }

/-- Whether a slot is READY, which is what the other blocks see of it (chapter 2). -/
def State.isReady (s : State) (k : SlotId) : Bool := (s.slot k).state == .ready

/-! ### The upstream send queue and the agent's credits (R6, R8, R9) -/

def State.pushUp (s : State) (t : Txn) : State := { s with upstream := s.upstream ++ [t] }

/-- A GRANT toward the agent carries board 15, tag 0 and the credits returned (R9); enqueueing it raises
the credit count by as much (R6). -/
def State.pushGrant (s : State) (n : Nat) : State :=
  { s with
    upstream := s.upstream ++ [{ kind := .grant, board := 15, count := n }]
    agentCredits := s.agentCredits + n }

/-- Taking the head of intake: it leaves the queue and a GRANT(1) is enqueued upstream (R8). -/
def State.takeHead (s : State) : State := { s with intake := s.intake.tail }.pushGrant 1

/-- A RETURN toward the agent (R9): the data words follow an OK or CORRECTED status only (R2). -/
def State.pushReturn (s : State) (tag : BitVec 8) (b : BoardId) (status : BitVec 4) (count : Nat)
    (data : List Word) : State :=
  s.pushUp { kind := .ret, board := BitVec.ofNat 4 b, status := status, tag := tag, count := count, data := data }

/-- A FENCE-DONE toward the agent (R9). -/
def State.pushFenceDone (s : State) (tag : BitVec 8) (b : BoardId) (status : BitVec 4) : State :=
  s.pushUp { kind := .fenceDone, board := BitVec.ofNat 4 b, status := status, tag := tag }

/-- The codes of a RETURN's status (R3), from best to worst (R55). -/
def retOk : BitVec 4 := 0
def retCorrected : BitVec 4 := 1
def retUncorrectable : BitVec 4 := 2
def retRefused : BitVec 4 := 3
def retNoBoard : BitVec 4 := 4
/-- The codes of a FENCE-DONE's status (R3). -/
def fenceOk : BitVec 4 := 0
def fenceNoBoard : BitVec 4 := 4
def fenceTwinLost : BitVec 4 := 5

/-- The outcomes of a management request (R3). -/
inductive ReplyStatus
  | done | badArgument | noSuch | refusedState | refusedFull | unknownRequest | failed
  deriving DecidableEq, Repr

def ReplyStatus.code : ReplyStatus → BitVec 4
  | .done => 0
  | .badArgument => 1
  | .noSuch => 2
  | .refusedState => 3
  | .refusedFull => 4
  | .unknownRequest => 5
  | .failed => 6

/-- A MGMT-REPLY: board 15, the request's tag, the outcome, the request kind echoed, the result words (R165). -/
def State.pushReply (s : State) (tag : BitVec 8) (kind : BitVec 16) (st : ReplyStatus) (words : List Word)
    (more : Bool := false) : State :=
  s.pushUp { kind := .mgmtReply, board := 15, status := st.code, tag := tag, more := more, count := words.length,
             addr := kind.zeroExtend 32, data := words }

/-! ### Claims on a slot outbound queue (R14, R16) -/

/-- One transaction of a claim; a FETCH or FENCE brings the pending entry it needs. -/
structure ClaimTxn where
  txn  : Txn
  mark : Mark
  pend : Option PendEntry := none
  deriving DecidableEq, Repr

/-- The lowest-numbered FREE entry of a pending reply table (R16). -/
def SlotPort.freeEntry? (p : SlotPort) : Option PendIdx := (List.finRange 64).find? (fun i => p.pend[i].isNone)

/-- One transaction of a claim at the tail of the queue, if there is room and, for a FETCH or FENCE, a
FREE entry, whose index becomes the tag (R14, R16). -/
def SlotPort.enqueue (p : SlotPort) (c : ClaimTxn) : Option SlotPort :=
  if p.queue.length < Config.slotQueueDepth then
    match c.pend with
    | none => some { p with queue := p.queue ++ [⟨c.txn, c.mark⟩] }
    | some e =>
      match p.freeEntry? with
      | none => none
      | some i =>
        some { p with
          queue := p.queue ++ [⟨{ c.txn with tag := BitVec.ofNat 8 i }, c.mark⟩]
          pend := p.pend.set i (some e) }
  else none

def SlotPort.enqueueAll (p : SlotPort) : List ClaimTxn → Option SlotPort
  | [] => some p
  | c :: cs =>
    match p.enqueue c with
    | none => none
    | some q => q.enqueueAll cs

/-- A claim is taken whole, on a READY slot, or not at all (R14). -/
def State.claim (s : State) (k : SlotId) (cs : List ClaimTxn) : Option State :=
  if s.isReady k then
    match (s.slot k).enqueueAll cs with
    | none => none
    | some p => some (s.setSlot k p)
  else none

/-- A pending entry returns to FREE, and its reply timer stops (R16, R19, R20). -/
def SlotPort.freeEntry (p : SlotPort) (i : PendIdx) : SlotPort :=
  { p with pend := p.pend.set i none, sentOrder := p.sentOrder.filter (· ≠ i) }

def State.freePend (s : State) (k : SlotId) (i : PendIdx) : State := s.modSlot k (·.freeEntry i)

/-! ### Staging and pool records: the lowest-numbered free one (R82, R99, R125) -/

def State.freeStaging? (s : State) : Option StagingId := (List.finRange 32).find? (fun g => s.staging[g].isNone)

/-- The records of the descriptor pool that are linked in some context's list (R82). -/
def State.usedSegments (s : State) : List SegmentId := allCtxs.flatMap (fun c => (s.ctx c).segs.map (·.num))

def State.freeSegment? (s : State) : Option SegmentId :=
  (List.finRange 256).find? (fun n => !(s.usedSegments.contains n))

/-- The records of the revisit pool that belong to some context's list (R125). -/
def State.usedRanges (s : State) : List RangeId := allCtxs.flatMap (fun c => (s.ctx c).revisit.map (·.num))

def State.freeRange? (s : State) : Option RangeId :=
  (List.finRange 128).find? (fun n => !(s.usedRanges.contains n))

/-- The least number that no record of a list bears: the model's name for a new record (assumption 16). -/
def freshNum (used : List Nat) : Nat :=
  ((List.range (used.length + 1)).find? (fun n => !(used.contains n))).getD used.length

/-! ### Commands and the RESET line -/

/-- While the RESET line is active the part is held in reset, and no step of it happens (R172). -/
def State.unlessHeld (s : State) (f : State → State) : State := if s.startup = .held then s else f s

end Sys2Proof.Machine
end

