-- ==== Sys2Proof/Machine/Operands.lean ====
section
/-! DEFINITION. The operand forms: transactions as words on a link (R1 to R5), and the parameter words of a management request (R164). -/

namespace Sys2Proof.Machine

/-! ### The check (R5) -/

/-- One bit into the 16-bit register, generator x^16 + x^12 + x^5 + 1 (R5). -/
def checkBit (c : BitVec 16) (b : Bool) : BitVec 16 :=
  if c.msb != b then (c <<< 1) ^^^ 0x1021#16 else c <<< 1

/-- One word, most significant bit first (R5). -/
def checkWord (c : BitVec 16) (w : Word) : BitVec 16 :=
  (List.range 32).foldl (fun c i => checkBit c (w.getMsbD i)) c

/-- The check of the header and data words: initial value all ones, no final inversion (R5). -/
def checkOf (ws : List Word) : BitVec 16 := ws.foldl checkWord 0xFFFF#16

/-! ### Layout (R4) -/

/-- Table 1-2. -/
def TxnKind.code : TxnKind → BitVec 8
  | .store => 1
  | .fill => 2
  | .fetch => 3
  | .fence => 4
  | .ret => 9
  | .fenceDone => 10
  | .grant => 11
  | .hello => 12
  | .halt => 13
  | .mgmt => 16
  | .mgmtReply => 17
  | .notice => 18

def TxnKind.all : List TxnKind :=
  [.store, .fill, .fetch, .fence, .ret, .fenceDone, .grant, .hello, .halt, .mgmt, .mgmtReply, .notice]

def TxnKind.ofCode (c : BitVec 8) : Option TxnKind := TxnKind.all.find? (fun k => k.code == c)

/-- The header and data words of Table 1-1. -/
def Txn.body (t : Txn) : List Word :=
  [t.kind.code ++ t.board ++ t.status ++ t.tag ++ 0#7 ++ BitVec.ofBool t.more,
   0#16 ++ BitVec.ofNat 16 t.count,
   t.addr] ++ t.data

/-- A transaction as it is sent, its check in the trailer word (R4, R5). -/
def Txn.frame (t : Txn) : Frame := t.body ++ [0#16 ++ checkOf t.body]

/-- The fields of received words whose check matches and whose kind has a code; bits that Table 1-1 leaves
unused are ignored (R4, R5). -/
def Txn.parse (f : Frame) : Option Txn :=
  match f with
  | h0 :: h1 :: h2 :: rest =>
    match rest.getLast?, TxnKind.ofCode (h0.extractLsb' 24 8) with
    | some trailer, some kind =>
      if checkOf f.dropLast = trailer.extractLsb' 0 16 then
        some { kind := kind, board := h0.extractLsb' 20 4, status := h0.extractLsb' 16 4,
               tag := h0.extractLsb' 8 8, more := h0.getLsbD 0,
               count := (h1.extractLsb' 0 16).toNat, addr := h2, data := rest.dropLast }
      else none
    | _, _ => none
  | _ => none

/-- The count range and the number of data words of R2. -/
def Txn.countOk (t : Txn) : Bool :=
  match t.kind with
  | .store => decide (1 ≤ t.count) && decide (t.count ≤ 16) && t.data.length == t.count
  | .fill => decide (1 ≤ t.count) && decide (t.count ≤ 4096) && t.data.length == 1
  | .fetch => decide (1 ≤ t.count) && decide (t.count ≤ 16) && t.data.length == 0
  | .fence => t.count == 0 && t.data.length == 0
  | .ret => decide (1 ≤ t.count) && decide (t.count ≤ 16) &&
      t.data.length == (if t.status = retOk ∨ t.status = retCorrected then t.count else 0)
  | .fenceDone => t.count == 0 && t.data.length == 0
  | .grant => decide (1 ≤ t.count) && decide (t.count ≤ 64) && t.data.length == 0
  | .hello => t.count == 1 && t.data.length == 1
  | .halt => t.count == 1 && t.data.length == 1
  | .mgmt => decide (t.count ≤ 16) && t.data.length == t.count
  | .mgmtReply => decide (t.count ≤ 16) && t.data.length == t.count
  | .notice => t.count == 2 && t.data.length == 2

/-- The start cause of a HELLO, bits 1-0 of its data word; code 3 names none (R3). -/
def Txn.startCause (t : Txn) : Option StartCause :=
  match (t.data.headD 0).extractLsb' 0 2 with
  | 0#2 => some .powerUp
  | 1#2 => some .boardReset
  | 2#2 => some .retrain
  | _ => none

/-- The board class of a HELLO, bits 31-16 of its data word (Table 1-1). -/
def Txn.boardClass (t : Txn) : BitVec 16 := (t.data.headD 0).extractLsb' 16 16

/-- The reason code of a HALT, bits 7-0 of its data word (Table 1-1). -/
def Txn.haltReason (t : Txn) : BitVec 8 := (t.data.headD 0).extractLsb' 0 8

/-- Well formed on the agent link: a kind the agent may send, count and board field in range (R5). -/
def Txn.agentOk (t : Txn) : Bool :=
  t.countOk &&
    match t.kind with
    | .store | .fill | .fetch | .fence => t.board != 15
    | .mgmt => t.board == 15
    | .ret | .fenceDone | .grant | .hello | .halt | .mgmtReply | .notice => false

/-- Well formed on a slot link: a kind a board may send, with a status and start cause of R3 (R5). -/
def Txn.boardOk (t : Txn) : Bool :=
  t.countOk &&
    match t.kind with
    | .ret => decide (t.status ≤ retRefused)
    | .fenceDone => t.status == fenceOk
    | .hello => t.startCause.isSome
    | .grant | .halt => true
    | .store | .fill | .fetch | .fence | .mgmt | .mgmtReply | .notice => false

/-- The transaction accepted on the agent link, if these words are accepted (R5). The status field and
the MORE bit, which no kind that the agent sends carries, are ignored. -/
def acceptAgent (f : Frame) : Option Txn :=
  match Txn.parse f with
  | some t => if t.agentOk then some { t with status := 0, more := false } else none
  | none => none

/-- The transaction accepted on a slot link, if these words are accepted (R5). The board field and the MORE bit
are ignored. -/
def acceptBoard (f : Frame) : Option Txn :=
  match Txn.parse f with
  | some t => if t.boardOk then some { t with board := 0, more := false } else none
  | none => none

/-- The logical board a transaction of the agent addresses, 0 to 14. -/
def Txn.boardId (t : Txn) : Option BoardId := toIndex 15 t.board.toNat

/-- The request kind of a MGMT: bits 15-0 of the address word (R164). -/
def Txn.request (t : Txn) : BitVec 16 := t.addr.extractLsb' 0 16

/-! ### Request kinds (Table 1-3) -/

/-- The management requests. -/
inductive Request
  | readState | softReset | countersClear | slotRetry | slotHalt | steerSet | steerClear | twinSet | twinClear
  | swap | layoutSet | regionLoad | regionClear | ctxOpen | segAppend | ctxStart | ctxPause | ctxResume
  | stopPoint | ctxAbort | ctxClose | ctxCutover | gapWaive | spareDrop | noticeLevel | noticeFloor | maskSet
  | maskClear | collect
  deriving DecidableEq, Repr

def Request.code : Request → BitVec 16
  | .readState => 1
  | .softReset => 2
  | .countersClear => 3
  | .slotRetry => 16
  | .slotHalt => 17
  | .steerSet => 32
  | .steerClear => 33
  | .twinSet => 34
  | .twinClear => 35
  | .swap => 36
  | .layoutSet => 48
  | .regionLoad => 49
  | .regionClear => 50
  | .ctxOpen => 64
  | .segAppend => 65
  | .ctxStart => 66
  | .ctxPause => 67
  | .ctxResume => 68
  | .stopPoint => 69
  | .ctxAbort => 70
  | .ctxClose => 71
  | .ctxCutover => 72
  | .gapWaive => 80
  | .spareDrop => 81
  | .noticeLevel => 96
  | .noticeFloor => 97
  | .maskSet => 98
  | .maskClear => 99
  | .collect => 100

def Request.all : List Request :=
  [.readState, .softReset, .countersClear, .slotRetry, .slotHalt, .steerSet, .steerClear, .twinSet, .twinClear,
   .swap, .layoutSet, .regionLoad, .regionClear, .ctxOpen, .segAppend, .ctxStart, .ctxPause, .ctxResume,
   .stopPoint, .ctxAbort, .ctxClose, .ctxCutover, .gapWaive, .spareDrop, .noticeLevel, .noticeFloor, .maskSet,
   .maskClear, .collect]

/-- The request of a MGMT; none when its kind is not one of Table 1-3 (R164). -/
def Txn.asRequest (t : Txn) : Option Request := Request.all.find? (fun r => r.code == t.request)

/-! ### Parameter words (R164): each carries one value in its low bits -/

/-- The values of a transaction's parameter words. -/
def Txn.params (t : Txn) : List Nat := t.data.map (·.toNat)

/-- A flag word, 0 or 1. -/
def toFlag (v : Nat) : Option Bool := if v = 0 then some false else if v = 1 then some true else none

/-- A view word: 0 for A, 1 for B (R43). -/
def toView (v : Nat) : Option View := if v = 0 then some .A else if v = 1 then some .B else none

/-- A value that must lie in a range. -/
def toRange (lo hi v : Nat) : Option Nat := if lo ≤ v ∧ v ≤ hi then some v else none

/-- A region word that may also be 255, for ANY or ALL (R89, R137). -/
def toRegionOrAll (v : Nat) : Option (Option RegionId) := if v = 255 then some none else (toIndex 64 v).map some

/-- A copy mode word (R74). -/
def toMode (v : Nat) : Option CopyMode :=
  match v with
  | 0 => some .copy
  | 1 => some .zero
  | 2 => some .mirror
  | 3 => some .localOnly
  | _ => none

def CopyMode.code : CopyMode → Nat
  | .copy => 0
  | .zero => 1
  | .mirror => 2
  | .localOnly => 3

end Sys2Proof.Machine
end

