-- ==== Sys2Proof/Machine/Flags.lean ====
section
/-! DEFINITION. The Notice Unit's flags (chapter 11): pending, sent, mask and openness of every kind, the sending test, and the order in which kinds are returned. -/

namespace Sys2Proof.Machine

/-- The kinds in number order (R173). -/
def NoticeKind.all : List NoticeKind :=
  [.slotUp, .slotDown, .slotHalted, .helloMissing, .slotDisabled, .agentCheck, .agentOverrun, .slotCheck,
   .grantExcess, .autoSwap, .twinStale, .noBoardTraffic, .ctxSynced, .ctxDone, .ctxFailed, .ctxStopped,
   .rewalk, .gapAdded, .gapsPending, .spareUsed]

/-- A kind's place in the tables: its number (R173) less one. -/
def NoticeKind.index : NoticeKind → Fin 20
  | .slotUp => 0
  | .slotDown => 1
  | .slotHalted => 2
  | .helloMissing => 3
  | .slotDisabled => 4
  | .agentCheck => 5
  | .agentOverrun => 6
  | .slotCheck => 7
  | .grantExcess => 8
  | .autoSwap => 9
  | .twinStale => 10
  | .noBoardTraffic => 11
  | .ctxSynced => 12
  | .ctxDone => 13
  | .ctxFailed => 14
  | .ctxStopped => 15
  | .rewalk => 16
  | .gapAdded => 17
  | .gapsPending => 18
  | .spareUsed => 19

/-- The kind of a number, 1 to 20 (R173). -/
def NoticeKind.ofNumber (n : Nat) : Option NoticeKind := NoticeKind.all.find? (fun k => k.index.val + 1 == n)

/-- The group of a kind (R173): SLOT 0, LINK 1, STEER 2, CONTEXT 3, CHURN 4, INTEGRITY 5. -/
def NoticeKind.group : NoticeKind → GroupId
  | .slotUp | .slotDown | .slotHalted | .helloMissing | .slotDisabled => 0
  | .agentCheck | .agentOverrun | .slotCheck | .grantExcess => 1
  | .autoSwap | .twinStale | .noBoardTraffic => 2
  | .ctxSynced | .ctxDone | .ctxFailed | .ctxStopped => 3
  | .rewalk => 4
  | .gapAdded | .gapsPending | .spareUsed => 5

def State.notice (s : State) (k : NoticeKind) : NoticeRec := s.notices[k.index]
def State.setNotice (s : State) (k : NoticeKind) (r : NoticeRec) : State :=
  { s with notices := s.notices.set k.index r }

def State.levelOf (s : State) (k : NoticeKind) : Level := s.levels[k.group]

/-- A kind is open when its mask is clear and its group's level is above the floor (R174). -/
def State.isOpen (s : State) (k : NoticeKind) : Bool := !(s.notice k).mask && decide (s.floor < s.levelOf k)

/-- The sending test of R177. -/
def State.sendDue (s : State) (k : NoticeKind) : Bool :=
  (s.notice k).pending && !(s.notice k).sent && s.isOpen k

/-- The two data words of a NOTICE and of a kind's COLLECT result (Table 1-1). -/
def State.noticeWords (s : State) (k : NoticeKind) : List Word :=
  [BitVec.ofNat 8 (k.index.val + 1) ++ 0#4 ++ BitVec.ofNat 4 (s.levelOf k).val ++ 0#8 ++ (s.notice k).detail,
   0#16 ++ (s.notice k).count]

/-- One NOTICE of the kind goes upstream and its sent flag is set (R177). -/
def State.sendNotice (s : State) (k : NoticeKind) : State :=
  (s.pushUp { kind := .notice, board := 15, count := 2, data := s.noticeWords k }).setNotice k
    { s.notice k with sent := true }

/-- The sending test, and the sending when it passes (R177). -/
def State.trySend (s : State) (k : NoticeKind) : State := if s.sendDue k then s.sendNotice k else s

/-- A kind's record after an occurrence: pending, one more counted, the newest detail (R176). -/
def NoticeRec.occur (r : NoticeRec) (d : BitVec 8) : NoticeRec :=
  { r with pending := true, count := if r.count = 65535 then 65535 else r.count + 1, detail := d }

/-- An occurrence of a notice kind (R176). -/
def State.raise (s : State) (k : NoticeKind) (d : BitVec 8) : State :=
  (s.setNotice k ((s.notice k).occur d)).trySend k

/-- Levels from the highest to 0. -/
def levelsDown : List Level := [15, 14, 13, 12, 11, 10, 9, 8, 7, 6, 5, 4, 3, 2, 1, 0]

/-- COLLECT order: highest group level first, among equal levels the lower kind number first (R175, R178). -/
def State.collectOrder (s : State) (ks : List NoticeKind) : List NoticeKind :=
  levelsDown.flatMap (fun l => ks.filter (fun k => s.levelOf k == l))

/-- After a configuration change: every pending, unsent and now open kind is sent, in COLLECT order (R175). -/
def State.sendOpened (s : State) : State :=
  (s.collectOrder (NoticeKind.all.filter (fun k => s.sendDue k))).foldl State.trySend s

/-- The pending kinds in COLLECT order (R178). -/
def State.pendingKinds (s : State) : List NoticeKind :=
  s.collectOrder (NoticeKind.all.filter (fun k => (s.notice k).pending))

/-- The end of a kind's episode: pending, count, detail and sent are cleared, the mask stays (R176). -/
def NoticeRec.endEpisode (r : NoticeRec) : NoticeRec := { mask := r.mask }

def State.endEpisode (s : State) (k : NoticeKind) : State := s.setNotice k (s.notice k).endEpisode

end Sys2Proof.Machine
end

