-- ==== Sys2Proof/Machine/RegionMap.lean ====
section
/-! DEFINITION. The Region Map (chapter 4): lookup, translation, spare addresses, cutting a span into pieces, and the tests of a load. Addresses are computed as exact numbers. -/

namespace Sys2Proof.Machine

/-- What a region gives for a view. -/
def Region.geom (r : Region) : View → Geometry
  | .A => r.geomA
  | .B => r.geomB

/-- The address of word w of entry e in a view (R67). -/
def Region.entryAddr (r : Region) (v : View) (e w : Nat) : Nat := (r.geom v).base.toNat + e * (r.geom v).pitch + w

/-- The address of word w of spare i in a view (R71). -/
def Region.spareAddr (r : Region) (v : View) (i w : Nat) : Nat :=
  (r.geom v).spareBase.toNat + i * (r.geom v).pitch + w

/-- The number of words of a region's extent in a view, last pad words included (R66). -/
def Region.extentLen (r : Region) (v : View) : Nat := r.entries * (r.geom v).pitch

/-- Whether an address lies in a region's extent in a view (R66). -/
def Region.covers (r : Region) (v : View) (a : Nat) : Bool :=
  decide ((r.geom v).base.toNat ≤ a) && decide (a < (r.geom v).base.toNat + r.extentLen v)

/-- The loaded regions of a set, lowest number first. -/
def State.regionsOf (s : State) (set : SetId) : List (RegionId × Region) :=
  allRegions.filterMap (fun i =>
    match s.region i with
    | some r => if r.set = set then some (i, r) else none
    | none => none)

/-- The region of a set to which an address of a view belongs, or none when it lies outside every region (R66). -/
def State.lookup (s : State) (set : SetId) (v : View) (a : Nat) : Option (RegionId × Region) :=
  (s.regionsOf set).find? (fun x => x.2.covers v a)

/-- The first address above a at which a region of the set starts, or the top of the address space (R69, R70). -/
def State.nextStart (s : State) (set : SetId) (v : View) (a : Nat) : Nat :=
  (s.regionsOf set).foldl
    (fun m x => if a < (x.2.geom v).base.toNat then min m (x.2.geom v).base.toNat else m) Config.addressTop

/-- The kind of piece that data words of an entry make (R69). -/
def CopyMode.dataKind : CopyMode → PieceKind
  | .localOnly => .localData
  | .copy | .zero | .mirror => .entry

/-- The piece of a span that begins at address a, at place `pos` of the span, with `rem` words left (R69, R70). -/
def State.pieceAt (s : State) (set : SetId) (v : View) (a pos rem : Nat) : Piece :=
  match s.lookup set v a with
  | some (i, r) =>
    let e := (a - (r.geom v).base.toNat) / (r.geom v).pitch
    let w := (a - (r.geom v).base.toNat) % (r.geom v).pitch
    if w < r.width then
      { kind := r.mode.dataKind, region := some i, entry := e, offset := w, len := min (r.width - w) rem, view := v,
        addr := a, pos := pos, trans := r.entryAddr v.other e w }
    else
      { kind := .pad, region := some i, entry := e, offset := w, len := min ((r.geom v).pitch - w) rem, view := v,
        addr := a, pos := pos, trans := 0 }
  | none =>
    { kind := .outside, region := none, entry := 0, offset := 0, len := min (s.nextStart set v a - a) rem, view := v,
      addr := a, pos := pos, trans := 0 }

/-- The pieces of the words left of a span, in order; each takes at least one word, so `fuel` = words left suffices. -/
def State.cutFrom (s : State) (set : SetId) (v : View) : Nat → Nat → Nat → Nat → List Piece
  | 0, _, _, _ => []
  | fuel + 1, a, pos, rem =>
    if rem = 0 then []
    else
      let p := s.pieceAt set v a pos rem
      p :: s.cutFrom set v fuel ((a + p.len) % Config.addressTop) (pos + p.len) (rem - p.len)

/-- Cutting the span of an agent STORE, FILL or FETCH into pieces (R69). -/
def State.cut (s : State) (set : SetId) (v : View) (addr : Word) (count : Nat) : List Piece :=
  s.cutFrom set v count addr.toNat 0 count

/-! ### Use, holding and the checks of a load (R72 to R75) -/

/-- A layout set is in use while an entry that names it is BUILDING or TWINNED (R72). -/
def State.setInUse (s : State) (set : SetId) : Bool :=
  allBoards.any (fun b =>
    (s.entry b).layoutSet == set && ((s.entry b).twinState == .building || (s.entry b).twinState == .twinned))

/-- The region a spare map record names. -/
def SpareRec.region : SpareRec → RegionId
  | .remap r _ _ _ _ _ => r
  | .retired r _ _ => r

/-- A region is held by its set's use, by a segment or gap record of a context that is not IDLE, or by a
spare map record (R72). -/
def State.regionHeld (s : State) (r : RegionId) : Bool :=
  (match s.region r with
    | some x => s.setInUse x.set
    | none => false) ||
  allCtxs.any (fun c => (s.ctx c).state != .idle &&
    ((s.ctx c).segs.any (fun g => g.region == r) || s.gaps.any (fun g => g.ctx == c && g.region == r))) ||
  allSlots.any (fun k => (s.spareMap k).any (fun x => x.region == r))

/-- Whether a word lies both in [a, a+n) and in [b, b+m). -/
def overlap (a n b m : Nat) : Bool := decide (0 < n) && decide (0 < m) && decide (a < b + m) && decide (b < a + n)

/-- The number of words of a spare area, last pad words included (R65). -/
def Region.spareLen (r : Region) (v : View) : Nat := (r.geom v).spareCount * (r.geom v).pitch

/-- The window base and capacity of a set in a view (R62). -/
def LayoutSet.base (l : LayoutSet) : View → Word
  | .A => l.baseA
  | .B => l.baseB

def LayoutSet.cap (l : LayoutSet) : View → Nat
  | .A => l.capA
  | .B => l.capB

/-- Whether a set's remap window shares a word with a region's extent or spare area in a view (R73, R75). -/
def LayoutSet.hits (l : LayoutSet) (v : View) (r : Region) : Bool :=
  overlap (l.base v).toNat (2 * l.cap v) (r.geom v).base.toNat (r.extentLen v) ||
  overlap (l.base v).toNat (2 * l.cap v) (r.geom v).spareBase.toNat (r.spareLen v)

/-- Whether a region's extents and spare areas share a word with another region's in a view (R75). -/
def Region.hits (r o : Region) (v : View) : Bool :=
  overlap (r.geom v).base.toNat (r.extentLen v) (o.geom v).base.toNat (o.extentLen v) ||
  overlap (r.geom v).spareBase.toNat (r.spareLen v) (o.geom v).base.toNat (o.extentLen v) ||
  overlap (r.geom v).base.toNat (r.extentLen v) (o.geom v).spareBase.toNat (o.spareLen v) ||
  overlap (r.geom v).spareBase.toNat (r.spareLen v) (o.geom v).spareBase.toNat (o.spareLen v)

/-- Whether a region's spare area shares a word with its own extent in a view (R75). -/
def Region.hitsSelf (r : Region) (v : View) : Bool :=
  overlap (r.geom v).spareBase.toNat (r.spareLen v) (r.geom v).base.toNat (r.extentLen v)

/-- The geometry stage of REGION-LOAD in one view (R75); the record being replaced is left out. -/
def State.loadClash (s : State) (i : RegionId) (r : Region) (v : View) : Bool :=
  r.hitsSelf v || (s.regionsOf r.set).any (fun x => x.1 != i && r.hits x.2 v) || (s.layout r.set).hits v r

/-- The geometry stage of LAYOUT-SET in one view (R73). -/
def State.windowClash (s : State) (set : SetId) (l : LayoutSet) (v : View) : Bool :=
  (s.regionsOf set).any (fun x => l.hits v x.2)

end Sys2Proof.Machine
end

