-- ==== Sys2Proof/Machine/Integrity.lean ====
section
/-! DEFINITION. The Integrity Unit's tables (chapter 8): gap records, spare maps and redirect, window counting and the write-out of a cutover. -/

namespace Sys2Proof.Machine

/-! ### Redirect (R144) -/

/-- The spare index that a REMAP record of a map gives for an entry in a view (R144). A record of another
view does not apply, and RETIRED records redirect nothing. -/
def remapOf (m : List SpareRec) (r : RegionId) (e : Nat) (v : View) : Option Nat :=
  m.findSome? (fun x =>
    match x with
    | .remap r' e' v' i _ _ => if r' = r ∧ e' = e ∧ v' = v then some i else none
    | .retired _ _ _ => none)

/-- The address of word w of an entry as a slot receives it: its spare's address when the slot's map holds
a REMAP record for it in that view, its normal address otherwise (R71, R144). -/
def State.slotAddr (s : State) (k : SlotId) (v : View) (i : RegionId) (r : Region) (e w : Nat) : Nat :=
  match remapOf (s.spareMap k) i e v with
  | some x => r.spareAddr v x w
  | none => r.entryAddr v e w

/-! ### The gap list (R132) -/

/-- Removing the gap record of an entry for a context, if there is one (R135, R136). -/
def State.dropGap (s : State) (c : CtxId) (r : RegionId) (e : Nat) : State :=
  { s with gaps := s.gaps.filter (fun g => g ≠ ⟨c, r, e⟩) }

/-- Removing every gap record of a context (R93, R94, R137, R162). -/
def State.dropGapsOf (s : State) (c : CtxId) : State := { s with gaps := s.gaps.filter (fun g => g.ctx ≠ c) }

def State.gapsOf (s : State) (c : CtxId) : List Gap := s.gaps.filter (fun g => g.ctx = c)

/-! ### Spare maps (R141 to R143) -/

/-- A REMAP record loses the owner that has ended; the record stays (R143). -/
def SpareRec.disown (c : CtxId) : SpareRec → SpareRec
  | .remap r e v i o t => if o = some c then .remap r e v i none 0 else .remap r e v i o t
  | .retired r v i => .retired r v i

/-- The records a context owns in any map take owner none and tally 0 (R143). -/
def State.disown (s : State) (c : CtxId) : State := { s with spares := s.spares.map (·.map (SpareRec.disown c)) }

/-- Whether a record is the REMAP record of an entry, in any view (R142). -/
def SpareRec.isRemap (r : RegionId) (e : Nat) : SpareRec → Bool
  | .remap r' e' _ _ _ _ => r' == r && e' == e
  | .retired _ _ _ => false

/-- The tally of an entry's REMAP record when the context owns it, 0 otherwise (R142 steps 1 and 4). -/
def ownTally (m : List SpareRec) (c : CtxId) (r : RegionId) (e : Nat) : Nat :=
  match m.find? (SpareRec.isRemap r e) with
  | some (.remap _ _ _ _ o t) => if o = some c then t else 0
  | _ => 0

/-- Whether a spare of a region in a view is targeted by a REMAP or named by a RETIRED record (R141). -/
def SpareRec.uses (r : RegionId) (v : View) (i : Nat) : SpareRec → Bool
  | .remap r' _ v' i' _ _ => r' == r && v' == v && i' == i
  | .retired r' v' i' => r' == r && v' == v && i' == i

/-- The lowest spare index of a region in a view that is not in use in a map (R142 step 2). -/
def freeSpare (m : List SpareRec) (i : RegionId) (r : Region) (v : View) : Option Nat :=
  (List.range (r.geom v).spareCount).find? (fun x => !(m.any (SpareRec.uses i v x)))

/-- An entry's REMAP record becomes, in place, the RETIRED record of its spare (R142 step 4). -/
def SpareRec.retire (r : RegionId) (e : Nat) : SpareRec → SpareRec
  | .remap r' e' v i o t => if r' = r ∧ e' = e then .retired r' v i else .remap r' e' v i o t
  | .retired r' v i => .retired r' v i

/-- The map after steps 4 and 5 of R142: the old spare retired in place, the new REMAP at the end. -/
def withSpare (m : List SpareRec) (c : CtxId) (r : RegionId) (e : Nat) (v : View) (i : Nat) : List SpareRec :=
  m.map (SpareRec.retire r e) ++ [.remap r e v i (some c) (ownTally m c r e + 1)]

/-! ### The remap window (R149, R151) -/

/-- The window record of a REMAP record that counts for a layout set and view: the entry's normal address
and its spare's address (R149, R151). -/
def State.windowRecord (s : State) (set : SetId) (v : View) : SpareRec → Option (List Word)
  | .remap i e v' x _ _ =>
    match s.region i with
    | some r =>
      if r.set = set ∧ v' = v then some [BitVec.ofNat 32 (r.entryAddr v e 0), BitVec.ofNat 32 (r.spareAddr v x 0)]
      else none
    | none => none
  | .retired _ _ _ => none

/-- The window records of a slot's map, in map order (R151). -/
def State.windowRecords (s : State) (k : SlotId) (set : SetId) (v : View) : List (List Word) :=
  (s.spareMap k).filterMap (s.windowRecord set v)

/-- The layout set of the steering entry a context works on. -/
def State.ctxSet (s : State) (c : CtxId) : SetId := (s.entry (s.ctx c).board).layoutSet

/-- The destination view of a context (R79). -/
def Ctx.dstView (x : Ctx) : View := x.srcView.other

/-- The window count of a context (R149). -/
def State.windowCount (s : State) (c : CtxId) : Nat :=
  (s.windowRecords (s.ctx c).dst (s.ctxSet c) (s.ctx c).dstView).length

/-- The window capacity of a context (R149). -/
def State.windowCap (s : State) (c : CtxId) : Nat := (s.layout (s.ctxSet c)).cap (s.ctx c).dstView

/-- The check of R149: the window count does not exceed the window capacity. -/
def State.windowFits (s : State) (c : CtxId) : Bool := decide (s.windowCount c ≤ s.windowCap c)

/-- The write-out: the window records and, below the capacity, a terminating pair of zero words (R151). -/
def State.writeOut (s : State) (c : CtxId) : List Word :=
  let recs := s.windowRecords (s.ctx c).dst (s.ctxSet c) (s.ctx c).dstView
  if recs.length < s.windowCap c then recs.flatten ++ [0, 0] else recs.flatten

/-- Words in groups of 16, the last group holding the remainder (R151). -/
def chunks16 : Nat → List Word → List (List Word)
  | 0, _ => []
  | fuel + 1, ws => if ws.isEmpty then [] else ws.take Config.maxStore :: chunks16 fuel (ws.drop Config.maxStore)

/-- The write-out STOREs in window order: STORE j starts at window base + 16 × j (R151). -/
def State.writeOutStores (s : State) (c : CtxId) : List Txn :=
  let base := ((s.layout (s.ctxSet c)).base (s.ctx c).dstView).toNat
  (chunks16 (s.writeOut c).length (s.writeOut c)).zipIdx.map (fun x =>
    { kind := .store, count := x.1.length, addr := BitVec.ofNat 32 (base + Config.maxStore * x.2), data := x.1 })

end Sys2Proof.Machine
end

