-- ==== Sys2Proof/Machine/SteeringOps.lean ====
section
/-! DEFINITION. The Steering Unit's shared operations (chapter 3): releases, SWAP and auto-swap, loss of a board of a pair, FETCH assembly and fence groups. -/

namespace Sys2Proof.Machine

/-! ### Entries (R42, R46, R47) -/

/-- The one entry that names a slot, as primary or as twin (R42). -/
def State.boardNaming (s : State) (k : SlotId) : Option BoardId :=
  allBoards.find? (fun b => (s.entry b).primary == some k || (s.entry b).twin == some k)

/-- The slots exchange places and the primary view changes (R46). -/
def SteerEntry.swapped (e : SteerEntry) : SteerEntry :=
  { e with primary := e.twin, twin := e.primary, view := e.view.other }

/-- Release to STALE of the entry a context is bound to, if it is BUILDING and bound to it (R47, R92). -/
def State.releaseStale (s : State) (c : CtxId) : State :=
  let b := (s.ctx c).board
  if (s.entry b).twinState = .building ∧ (s.entry b).bound = some c then
    s.setEntry b { s.entry b with twinState := .stale, bound := none }
  else s

/-- Release to TWINNED of the entry a context is bound to, if it is BUILDING and bound to it (R47, R154). -/
def State.releaseTwinned (s : State) (c : CtxId) : State :=
  let b := (s.ctx c).board
  if (s.entry b).twinState = .building ∧ (s.entry b).bound = some c then
    s.setEntry b { s.entry b with twinState := .twinned, bound := none }
  else s

/-- The primary-loss rule for an entry whose primary is not READY (R58). -/
def State.primaryLoss (s : State) (b : BoardId) : State :=
  let e := s.entry b
  match e.twinState, e.primary, e.twin with
  | .twinned, some p, some t =>
    if s.isReady t then
      if e.autoSwap then (s.setEntry b { e.swapped with twinState := .stale }).raise .autoSwap (detailOf p) else s
    else (s.setEntry b { e with twinState := .stale }).raise .twinStale (detailOf t)
  | _, _, _ => s

/-- The twin-loss rule (R59). -/
def State.twinLoss (s : State) (b : BoardId) (k : SlotId) : State :=
  if (s.entry b).twinState = .twinned then
    (s.setEntry b { s.entry b with twinState := .stale }).raise .twinStale (detailOf k)
  else s

/-- The Steering Unit's reaction to the report that a slot has left READY (R38, R58, R59). -/
def State.steeringLeft (s : State) (k : SlotId) : State :=
  match s.boardNaming k with
  | none => s
  | some b => if (s.entry b).primary = some k then s.primaryLoss b else s.twinLoss b k

/-! ### Assembly of a split FETCH (R55) -/

/-- The worst status among the parts; a status's code is its rank (R3, R55). -/
def worstStatus (ps : List PartResult) : BitVec 4 := ps.foldl (fun m p => if m < p.status then p.status else m) retOk

/-- The parts of a record when all are resolved. -/
def allResolved : List (Option PartResult) → Option (List PartResult)
  | [] => some []
  | none :: _ => none
  | some p :: ps => (allResolved ps).map (p :: ·)

/-- The one RETURN of an assembly whose parts are all in (R55). -/
def State.pushAssembled (s : State) (a : Assembly) (ps : List PartResult) : State :=
  s.pushReturn a.tag a.board (worstStatus ps) a.count
    (if worstStatus ps = retOk ∨ worstStatus ps = retCorrected then ps.flatMap (·.data) else [])

/-- Part `part`, counted from 1, of an assembly resolves; the last one sends the RETURN and discards the record (R55). -/
def State.resolvePart (s : State) (num part : Nat) (res : PartResult) : State :=
  match s.assemblies.find? (fun a => a.num == num) with
  | none => s
  | some a =>
    let a' := { a with parts := a.parts.set (part - 1) (some res) }
    match allResolved a'.parts with
    | some ps => { s with assemblies := s.assemblies.filter (fun x => x.num ≠ num) }.pushAssembled a ps
    | none => { s with assemblies := s.assemblies.map (fun x => if x.num = num then a' else x) }

/-! ### Fence groups (R56, R57) -/

/-- The status of the FENCE-DONE to the agent (R57). -/
def FenceGroup.status (g : FenceGroup) : BitVec 4 :=
  match g.primary, g.twin with
  | .ok, .failed => fenceTwinLost
  | .ok, _ => fenceOk
  | _, _ => fenceNoBoard

/-- A part of a fence group takes its outcome; when no part remains SENT the FENCE-DONE is enqueued and the
record discarded (R57). -/
def State.resolveFence (s : State) (num : Nat) (twin : Bool) (o : PartOutcome) : State :=
  match s.fences.find? (fun g => g.num == num) with
  | none => s
  | some g =>
    let g' := if twin then { g with twin := o } else { g with primary := o }
    if g'.primary = .sent ∨ g'.twin = .sent then
      { s with fences := s.fences.map (fun x => if x.num = num then g' else x) }
    else { s with fences := s.fences.filter (fun x => x.num ≠ num) }.pushFenceDone g'.tag g'.board g'.status

end Sys2Proof.Machine
end

