-- ==== Sys2Proof/Machine/Engine.lean ====
section
/-! DEFINITION. The Migration Engine's shared operations (chapters 5 to 9): release, failure, SYNCED and cutover, walk position, the arbiter, classification, the revisit list, read-back and spare allocation. -/

namespace Sys2Proof.Machine

/-! ### States and codes -/

/-- OPEN, WAITING, WALKING, PAUSED, SYNCED and CUTTING are live (R80). -/
def CtxState.isLive : CtxState → Bool
  | .opened | .waiting | .walking | .paused | .synced | .cutting => true
  | .idle | .failed => false

def CtxState.code : CtxState → Nat
  | .idle => 0
  | .opened => 1
  | .waiting => 2
  | .walking => 3
  | .paused => 4
  | .synced => 5
  | .cutting => 6
  | .failed => 7

/-- The failure reason codes (R95). -/
def FailReason.code : FailReason → Nat
  | .sourceLost => 1
  | .destLost => 2
  | .churn => 3
  | .gapsFull => 4
  | .sparesExhausted => 5
  | .verifyFailed => 6
  | .addressRefused => 7

/-! ### Release of the holdings (R92, R21, R143) -/

/-- Whether a pending entry's owner is a context (R21). -/
def Origin.isOf (c : CtxId) : Origin → Bool
  | .walk x _ | .verify x _ | .cutover x => x == c
  | .agent _ _ _ _ _ | .fenceGroup _ _ | .orphan => false

def PendEntry.orphan (c : CtxId) (e : PendEntry) : PendEntry := if e.origin.isOf c then { e with origin := .orphan } else e

/-- The entries of a context become ORPHAN, QUEUED or SENT, and keep all else (R21). -/
def SlotPort.orphan (c : CtxId) (p : SlotPort) : SlotPort := { p with pend := p.pend.map (Option.map (PendEntry.orphan c)) }

def State.orphan (s : State) (c : CtxId) : State := { s with slots := s.slots.map (SlotPort.orphan c) }

/-- Freeing the staging entries of flight records (R92, R99). -/
def State.freeStagingOf (s : State) (fs : List Flight) : State := fs.foldl (fun s f => s.setStaging f.staging none) s

/-- What a context record loses at the release: flight records with their claims, the cutover claim, the
revisit and segment lists, the pace timer, stop point and held entry (R92). -/
def Ctx.released (x : Ctx) : Ctx :=
  { x with flights := [], cutClaim := false, revisit := [], segs := [], cur := none, paceRunning := false,
           stop := none, held := none }

/-- Release of a context's holdings (R92, with R143). -/
def State.release (s : State) (c : CtxId) : State :=
  ((((s.freeStagingOf (s.ctx c).flights).orphan c).modCtx c Ctx.released).releaseStale c).disown c

/-! ### The deferred cutover reply (R161) -/

/-- The deferred reply, if present, is sent with an outcome and becomes absent (R161). -/
def State.sendDeferred (s : State) (c : CtxId) (st : ReplyStatus) (words : List Word) : State :=
  match (s.ctx c).deferred with
  | none => s
  | some tag => (s.modCtx c (fun x => { x with deferred := none })).pushReply tag Request.ctxCutover.code st words

/-! ### Failure (R95) -/

def Ctx.fail (r : FailReason) (x : Ctx) : Ctx := { x with state := .failed, failReason := some r, pauseReason := none }

/-- A context enters FAILED with a reason: release, the record, the deferred reply (R156), CTX_FAILED. A
context that is not live is not touched (R80, R95). -/
def State.failCtx (s : State) (c : CtxId) (r : FailReason) : State :=
  if (s.ctx c).state.isLive then
    (((s.release c).modCtx c (Ctx.fail r)).sendDeferred c .failed [BitVec.ofNat 32 r.code]).raise .ctxFailed (detailOf c)
  else s

/-! ### CUTTING and SYNCED (R111, R112, R150) -/

/-- The record on entry to CUTTING: pace timer stopped, stop point absent, the cutover claim placed (R150). -/
def Ctx.cut (x : Ctx) : Ctx := { x with state := .cutting, paceRunning := false, stop := none, cutClaim := true }

/-- Entry to CUTTING (R150). A claim placed on a destination that is not READY is refused at once, which
fails the context (R14, R156). -/
def State.enterCutting (s : State) (c : CtxId) : State :=
  let s' := s.modCtx c Ctx.cut
  if s.isReady (s.ctx c).dst then s' else s'.failCtx c .destLost

/-- The condition for SYNCED (R111). -/
def Ctx.syncDue (x : Ctx) : Bool := x.state == .walking && x.phase == .revisit && x.revisit.isEmpty && x.flights.isEmpty

/-- What the auto-cutover flag and the gap records decide on entry to SYNCED (R112). -/
def State.autoCutover (s : State) (c : CtxId) : State :=
  if (s.ctx c).autoCutover then
    if (s.gapsOf c).isEmpty then
      if s.windowFits c then s.enterCutting c else s
    else s.raise .gapsPending (detailOf c)
  else s

/-- The test for SYNCED and what follows it (R111, R112). -/
def State.testSynced (s : State) (c : CtxId) : State :=
  if (s.ctx c).syncDue then
    ((s.modCtx c (fun x => { x with state := .synced })).raise .ctxSynced (detailOf c)).autoCutover c
  else s

/-! ### The position of the walk (R84, R109, R118) -/

def Ctx.curSeg (x : Ctx) : Option Segment :=
  match x.cur with
  | none => none
  | some i => x.segs[i]?

/-- F is advanced in phase WALK, and the position is checked against the current segment (R109). -/
def Ctx.advance (f : Nat) (x : Ctx) : Ctx :=
  match x.cur, x.curSeg with
  | some i, some g =>
    if f < g.first + g.count then { x with frontier := f }
    else
      match x.segs[i + 1]? with
      | some h => { x with cur := some (i + 1), frontier := h.first }
      | none => { x with frontier := f, phase := .revisit }
  | _, _ => { x with frontier := f }

/-- The position at the head of the segment list, phase WALK (R84, R126). -/
def Ctx.toHead (x : Ctx) : Ctx :=
  match x.segs with
  | [] => { x with cur := none, phase := .walk }
  | g :: _ => { x with cur := some 0, frontier := g.first, phase := .walk }

def Segment.has (g : Segment) (r : RegionId) (e : Nat) : Bool := g.region == r && decide (g.first ≤ e) && decide (e < g.first + g.count)

/-- The list place of the segment that covers an entry (R84). -/
def Ctx.segPlace (x : Ctx) (r : RegionId) (e : Nat) : Option Nat := x.segs.findIdx? (fun g => g.has r e)

/-- Whether a covered entry is walked (R118). -/
def Ctx.walked (x : Ctx) (r : RegionId) (e : Nat) : Bool :=
  match x.segPlace r e, x.cur with
  | some i, some j => decide (i < j) || (i == j && decide (e < x.frontier))
  | _, _ => false

def Ctx.inFlight (x : Ctx) (r : RegionId) (e : Nat) : Bool := x.flights.any (fun f => f.region == r && f.entry == e)

/-! ### Next work, eligibility and the walk arbiter (R100 to R102) -/

/-- A context's next work: a fetch or a zero fill of an entry of a region (R100). -/
structure Work where
  zero   : Bool
  id     : RegionId
  region : Region
  entry  : Nat
  deriving DecidableEq, Repr

/-- Next work on an entry of a region, by the region's copy mode; MIRROR and LOCAL are not walked (R64). -/
def State.workAt (s : State) (i : RegionId) (e : Nat) : Option Work :=
  match s.region i with
  | none => none
  | some r =>
    match r.mode with
    | .copy => some ⟨false, i, r, e⟩
    | .zero => some ⟨true, i, r, e⟩
    | .mirror | .localOnly => none

/-- The next work of a context, blocked or not (R100). A revisit is a fetch. -/
def State.nextWork (s : State) (c : CtxId) : Option Work :=
  let x := s.ctx c
  match x.phase with
  | .walk =>
    match x.curSeg with
    | none => none
    | some g => s.workAt g.region x.frontier
  | .revisit =>
    match x.revisit with
    | [] => none
    | g :: _ => (s.region g.region).map (fun r => ⟨false, g.region, r, g.first⟩)

/-- Whether a slot can take one transaction now: READY and room in the queue (R101). -/
def State.hasRoom (s : State) (k : SlotId) : Bool :=
  s.isReady k && decide ((s.slot k).queue.length < Config.slotQueueDepth)

/-- The column of R101 for a piece of work. -/
def State.workEligible (s : State) (c : CtxId) (w : Work) : Bool :=
  let x := s.ctx c
  !(x.inFlight w.id w.entry) &&
    if w.zero then s.hasRoom x.dst
    else decide (x.flights.length < x.window) && s.freeStaging?.isSome && s.hasRoom x.src &&
      (s.slot x.src).freeEntry?.isSome

/-- Eligibility for the walk arbiter (R101). -/
def State.eligible (s : State) (c : CtxId) : Bool :=
  (s.ctx c).state == .walking && !(s.ctx c).paceRunning &&
    match s.nextWork c with
    | none => false
    | some w => s.workEligible c w

/-- The contexts in search order: from the one after the last served, wrapping from 15 to 0 (R102). -/
def searchOrder (last : CtxId) : List CtxId := allCtxs.map (fun i => last + 1 + i)

/-- The arbiter's choice: the highest priority with an eligible context, round-robin within it (R102). -/
def State.arbiter (s : State) : Option CtxId :=
  ([3, 2, 1, 0] : List (Fin 4)).findSome? (fun p =>
    (searchOrder s.lastServed[p]).find? (fun c => (s.ctx c).priority == p && s.eligible c))

/-- A grant updates the pointer of its priority (R102). -/
def State.served (s : State) (c : CtxId) : State := { s with lastServed := s.lastServed.set (s.ctx c).priority c }

/-- A PACED context's timer starts at each fetch or zero fill (R91). -/
def Ctx.startPace (x : Ctx) : Ctx := { x with paceRunning := x.paceRunning || x.pace.isSome }

/-! ### Stop points (R90) -/

def StopPoint.hits (p : StopPoint) (r : RegionId) (e : Nat) : Bool :=
  (p.region == none || p.region == some r) && (BitVec.ofNat 24 e &&& p.mask) == (p.value &&& p.mask)

/-- Whether the context's stop point fires before the fetch of an entry: phase WALK, no skip, a match (R90). -/
def Ctx.stopFires (x : Ctx) (r : RegionId) (e : Nat) : Bool :=
  x.phase == .walk && x.held != some (r, e) &&
    match x.stop with
    | none => false
    | some p => p.hits r e

/-- The firing of a stop point (R90). -/
def Ctx.firePoint (r : RegionId) (e : Nat) (x : Ctx) : Ctx :=
  { x with state := .paused, pauseReason := some .stopPoint, held := some (r, e),
           stop := x.stop.filter (fun p => p.again) }

/-! ### The order of the revisit list (R123) -/

/-- Whether a range stands before another in list order: by segment place, then by first entry (R123). -/
def Ctx.rangeBefore (x : Ctx) (g h : Range) : Bool :=
  let pg := (x.segPlace g.region g.first).getD x.segs.length
  let ph := (x.segPlace h.region h.first).getD x.segs.length
  decide (pg < ph) || (pg == ph && decide (g.first < h.first))

/-- Placing a range in list order (R123). -/
def Ctx.placeRange (x : Ctx) (g : Range) : List Range → List Range
  | [] => [g]
  | h :: hs => if x.rangeBefore g h then g :: h :: hs else h :: x.placeRange g hs

/-- The first entry leaves the first revisit range; an emptied range leaves the list (R110). A range whose new
first entry lies in a later segment moves to its place in list order (R123). -/
def Ctx.popRevisit (x : Ctx) : List Range :=
  match x.revisit with
  | [] => []
  | g :: gs => if g.first < g.last then x.placeRange { g with first := g.first + 1 } gs else gs

/-! ### A fetch (R103, R110) -/

/-- The lowest record number not in use (R98). -/
def Ctx.freeFlight (x : Ctx) : FlightNum :=
  (([0, 1, 2, 3] : List FlightNum).find? (fun n => !(x.flights.any (fun f => f.num == n)))).getD 0

/-- Steps 4 to 6 of R103 on the record: the flight record, the position or the revisit list, the pace timer. -/
def Ctx.issued (w : Work) (g : StagingId) (x : Ctx) : Ctx :=
  let y : Ctx := { x with
    held := if x.held = some (w.id, w.entry) then none else x.held
    flights := x.flights ++ [{ num := x.freeFlight, region := w.id, entry := w.entry, phase := .fetch, staging := g }] }
  let z : Ctx := match x.phase with
    | .walk => y.advance (w.entry + 1)
    | .revisit => { y with revisit := y.popRevisit }
  z.startPace

/-- The FETCH of a walk (R103 step 2). -/
def State.walkFetch (s : State) (c : CtxId) (w : Work) : ClaimTxn :=
  { txn := { kind := .fetch, count := w.region.width,
             addr := BitVec.ofNat 32 (s.slotAddr (s.ctx c).src (s.ctx c).srcView w.id w.region w.entry 0) }
    mark := .bridgeGenerated
    pend := some { phase := .queued, kind := .fetch, count := w.region.width,
                   origin := .walk c (s.ctx c).freeFlight } }

/-- A grant of a fetch whose stop point does not fire (R103 steps 2 to 6). -/
def State.issueFetch (s : State) (c : CtxId) (w : Work) : State :=
  match s.freeStaging?, s.claim (s.ctx c).src [s.walkFetch c w] with
  | some g, some t => ((t.setStaging g (some [])).modCtx c (Ctx.issued w g)).testSynced c
  | _, _ => s

/-- A grant of a fetch (R103). The grant counts as served whether it fetched or fired a stop point (R102). -/
def State.grantFetch (s : State) (c : CtxId) (w : Work) : State :=
  let s := s.served c
  if (s.ctx c).stopFires w.id w.entry then
    (s.modCtx c (Ctx.firePoint w.id w.entry)).raise .ctxStopped (detailOf c)
  else s.issueFetch c w

/-! ### A zero fill (R104) -/

/-- How many of the next n entries, from e on, come before the first with a REMAP record. -/
def plainRun (m : List SpareRec) (i : RegionId) (v : View) : Nat → Nat → Nat
  | 0, _ => 0
  | n + 1, e => if (remapOf m i e v).isSome then 0 else plainRun m i v n (e + 1) + 1

/-- The number of entries of the zero run that starts at the next work's entry (R104). -/
def State.zeroRun (s : State) (c : CtxId) (w : Work) : Nat :=
  let x := s.ctx c
  let m := s.spareMap x.dst
  if (remapOf m w.id w.entry x.dstView).isSome || decide ((w.region.geom x.dstView).pitch ≠ w.region.width) then 1
  else
    match x.curSeg with
    | none => 1
    | some g => plainRun m w.id x.dstView (min (g.first + g.count - w.entry) (Config.maxFill / w.region.width)) w.entry

/-- The FILL of a zero run (R104). -/
def State.zeroFill (s : State) (c : CtxId) (w : Work) : ClaimTxn :=
  { txn := { kind := .fill, count := s.zeroRun c w * w.region.width,
             addr := BitVec.ofNat 32 (s.slotAddr (s.ctx c).dst (s.ctx c).dstView w.id w.region w.entry 0), data := [0] }
    mark := .bridgeGenerated }

def CtxCounters.addWritten (n : Nat) (k : CtxCounters) : CtxCounters := { k with entriesWritten := satAdd k.entriesWritten n }

/-- The record after a zero run of n entries, its pace timer started, before any test for SYNCED (R104, assumption 30). -/
def Ctx.zeroed (e n : Nat) (x : Ctx) : Ctx :=
  (({ x with counters := x.counters.addWritten n } : Ctx).advance (e + n)).startPace

/-- A grant of a zero fill (R104). R104 starts the pace timer and R109 to R112, with R150, may take the context to SYNCED and to
CUTTING, where the timer stops, at the same enqueue; no rule orders the two. The model starts the timer first and tests for SYNCED
afterwards, so that the timer ends stopped in CUTTING (assumption 30). -/
def State.grantZero (s : State) (c : CtxId) (w : Work) : State :=
  let s := s.served c
  match s.claim (s.ctx c).dst [s.zeroFill c w] with
  | some t => (t.modCtx c (Ctx.zeroed w.entry (s.zeroRun c w))).testSynced c
  | none => s

/-! ### Flight records -/

def Ctx.flight? (x : Ctx) (n : FlightNum) : Option Flight := x.flights.find? (fun f => f.num == n)

def Ctx.dropFlight (n : FlightNum) (x : Ctx) : Ctx := { x with flights := x.flights.filter (fun f => f.num ≠ n) }

def Ctx.putFlight (f : Flight) (x : Ctx) : Ctx :=
  { x with flights := x.flights.map (fun g => if g.num = f.num then f else g) }

/-- A flight record leaves the flight table: its staging entry becomes free, and the context is tested for
SYNCED (R99, R107, R111). -/
def State.leaveFlight (s : State) (c : CtxId) (f : Flight) : State :=
  ((s.setStaging f.staging none).modCtx c (Ctx.dropFlight f.num)).testSynced c

/-- A record enters STAGED and places its write claim; a claim on a slot that is not READY is refused (R106). -/
def State.stage (s : State) (c : CtxId) (f : Flight) : State :=
  s.modCtx c (Ctx.putFlight { f with phase := .staged, claim := s.isReady (s.ctx c).dst })

/-! ### The RETURN of a walk fetch (R105, R133) -/

def CtxCounters.addCorrected (k : CtxCounters) : CtxCounters := { k with correctedReads := satAdd k.correctedReads 1 }
def CtxCounters.addGap (k : CtxCounters) : CtxCounters := { k with gapsAdded := satAdd k.gapsAdded 1 }
def CtxCounters.addVerify (k : CtxCounters) : CtxCounters := { k with verifies := satAdd k.verifies 1 }
def CtxCounters.addSpare (k : CtxCounters) : CtxCounters := { k with sparesUsed := satAdd k.sparesUsed 1 }
def CtxCounters.addRevisit (k : CtxCounters) : CtxCounters := { k with revisitsAdded := satAdd k.revisitsAdded 1 }
def CtxCounters.addRewalk (k : CtxCounters) : CtxCounters := { k with rewalks := satAdd k.rewalks 1 }

/-- A gap is recorded at the end of the list, unless it is there already (R133 cases 1 and 3). -/
def State.addGap (s : State) (c : CtxId) (r : RegionId) (e : Nat) : State :=
  if s.gaps.contains ⟨c, r, e⟩ then s
  else
    (({ s with gaps := s.gaps ++ [⟨c, r, e⟩] } : State).modCtx c (fun x => { x with counters := x.counters.addGap })).raise
      .gapAdded (detailOf c)

/-- An unreadable source entry (R133). -/
def State.unreadable (s : State) (c : CtxId) (f : Flight) : State :=
  if !(s.gaps.contains ⟨c, f.region, f.entry⟩) && decide (Config.gapListDepth ≤ s.gaps.length) then
    s.failCtx c .gapsFull
  else
    match s.region f.region with
    | none => s
    | some r =>
      ((s.addGap c f.region f.entry).setStaging f.staging (some (List.replicate r.width r.poison))).stage c
        { f with poison := true }

/-- A RETURN delivered to a flight record in FETCH (R105). -/
def State.walkReturn (s : State) (c : CtxId) (n : FlightNum) (status : BitVec 4) (data : List Word) : State :=
  match (s.ctx c).flight? n with
  | none => s
  | some f =>
    if f.phase ≠ .fetch then s
    else if status = retOk then (s.setStaging f.staging (some data)).stage c f
    else if status = retCorrected then
      ((s.setStaging f.staging (some data)).modCtx c (fun x => { x with counters := x.counters.addCorrected })).stage c f
    else if status = retUncorrectable then s.unreadable c f
    else s.failCtx c .addressRefused

/-! ### Read-back and spare allocation (R140, R142) -/

/-- Steps 4 to 7 of R142, once a spare is found. -/
def State.takeSpare (s : State) (c : CtxId) (f : Flight) (i : Nat) : State :=
  let x := s.ctx c
  (((s.setSpareMap x.dst (withSpare (s.spareMap x.dst) c f.region f.entry x.dstView i)).modCtx c
    (fun y => { y with counters := y.counters.addSpare })).raise .spareUsed (detailOf c)).stage c
      { f with rewrite := true }

/-- A read-back mismatch (R142); the first failing step fails the context. -/
def State.mismatch (s : State) (c : CtxId) (f : Flight) : State :=
  let x := s.ctx c
  let m := s.spareMap x.dst
  if ownTally m c f.region f.entry = 2 then s.failCtx c .verifyFailed
  else
    match s.region f.region with
    | none => s
    | some r =>
      match freeSpare m f.region r x.dstView with
      | none => s.failCtx c .sparesExhausted
      | some i => if Config.spareMapDepth ≤ m.length then s.failCtx c .sparesExhausted else s.takeSpare c f i

/-- A RETURN delivered to a flight record in VERIFY (R140). -/
def State.verifyReturn (s : State) (c : CtxId) (n : FlightNum) (status : BitVec 4) (data : List Word) : State :=
  match (s.ctx c).flight? n with
  | none => s
  | some f =>
    if f.phase ≠ .verify then s
    else
      let t := s.modCtx c (fun x => { x with counters := x.counters.addVerify })
      if status = retOk ∨ status = retCorrected then
        if s.staging[f.staging] = some data then t.leaveFlight c f else t.mismatch c f
      else if status = retUncorrectable then t.mismatch c f
      else t.failCtx c .addressRefused

/-! ### The write claim (R107, R134, R135, R138) -/

/-- The read-back selection: whether a write is read back, and the verify sample counter after it (R138). -/
def selectVerify (r : Region) (f : Flight) (counter : Nat) : Bool × Nat :=
  if f.poison then (false, counter)
  else if f.rewrite then (true, counter)
  else
    match r.verify with
    | none => (false, counter)
    | some n => if n ≤ counter + 1 then (true, 0) else (false, counter + 1)

/-- The STORE of a staged record (R106). -/
def State.walkStore (s : State) (c : CtxId) (f : Flight) (r : Region) : ClaimTxn :=
  { txn := { kind := .store, count := r.width,
             addr := BitVec.ofNat 32 (s.slotAddr (s.ctx c).dst (s.ctx c).dstView f.region r f.entry 0),
             data := (s.staging[f.staging]).getD [] }
    mark := .bridgeGenerated }

/-- What follows the enqueue of a walk write: the count, the selection, a gap repaired by good data (R107, R135).
R107, R111 and R112 on one side and R135 on the other give the test for SYNCED, its look at the gap records and the removal
of a gap record all to this one step, and do not order them. The model removes the record first and tests afterwards
(DESIGN CHOICE, assumption 15). -/
def State.written (s : State) (c : CtxId) (f : Flight) (r : Region) : State :=
  let sel := selectVerify r f (s.ctx c).verifyCounter
  let t := s.modCtx c (fun x => { x with counters := x.counters.addWritten 1, verifyCounter := sel.2 })
  let t := if f.poison then t else t.dropGap c f.region f.entry
  if sel.1 then t.modCtx c (Ctx.putFlight { f with phase := .verify, claim := t.isReady (t.ctx c).dst })
  else t.leaveFlight c f

/-- The write claim of a STAGED record is taken when it fits (R107). -/
def State.takeWrite (s : State) (c : CtxId) (n : FlightNum) : State :=
  match (s.ctx c).flight? n with
  | none => s
  | some f =>
    if f.phase = .staged ∧ f.claim = true then
      match s.region f.region with
      | none => s
      | some r =>
        match s.claim (s.ctx c).dst [s.walkStore c f r] with
        | none => s
        | some t => t.written c f r
    else s

/-- The read-back FETCH of a record in VERIFY (R139). -/
def State.verifyFetch (s : State) (c : CtxId) (f : Flight) (r : Region) : ClaimTxn :=
  { txn := { kind := .fetch, count := r.width,
             addr := BitVec.ofNat 32 (s.slotAddr (s.ctx c).dst (s.ctx c).dstView f.region r f.entry 0) }
    mark := .bridgeGenerated
    pend := some { phase := .queued, kind := .fetch, count := r.width, origin := .verify c f.num } }

/-- The read-back claim of a record in VERIFY is taken when it fits (R139). -/
def State.takeVerify (s : State) (c : CtxId) (n : FlightNum) : State :=
  match (s.ctx c).flight? n with
  | none => s
  | some f =>
    if f.phase = .verify ∧ f.claim = true then
      match s.region f.region with
      | none => s
      | some r =>
        match s.claim (s.ctx c).dst [s.verifyFetch c f r] with
        | none => s
        | some t => t.modCtx c (Ctx.putFlight { f with claim := false })
    else s

/-! ### The cutover claim and completion (R152, R154) -/

/-- The transactions of the cutover claim: the write-out STOREs, then one FENCE (R152). -/
def State.cutoverClaim (s : State) (c : CtxId) : List ClaimTxn :=
  (s.writeOutStores c).map (fun t => { txn := t, mark := .bridgeGenerated }) ++
    [{ txn := { kind := .fence }, mark := .bridgeGenerated,
       pend := some { phase := .queued, kind := .fence, count := 0, origin := .cutover c } }]

/-- The cutover claim is taken when it fits (R152). -/
def State.takeCutover (s : State) (c : CtxId) : State :=
  if (s.ctx c).state = .cutting ∧ (s.ctx c).cutClaim = true then
    match s.claim (s.ctx c).dst (s.cutoverClaim c) with
    | none => s
    | some t => t.modCtx c (fun x => { x with cutClaim := false })
  else s

/-- The record at the completion of a cutover (R154 steps 2 and 3). -/
def Ctx.complete (x : Ctx) : Ctx :=
  { x with state := .idle, outcome := some .done, failReason := none, pauseReason := none, segs := [], cur := none }

/-- The primary check of R154 step 6 and R155: the primary-loss rule, if the primary is not READY. -/
def State.primaryCheck (s : State) (b : BoardId) : State :=
  match (s.entry b).primary with
  | some p => if s.isReady p then s else s.primaryLoss b
  | none => s

/-- The cutover FENCE is answered: the cutover completes (R154). -/
def State.cutoverDone (s : State) (c : CtxId) : State :=
  if (s.ctx c).state = .cutting then
    let b := (s.ctx c).board
    (((((s.releaseTwinned c).disown c).modCtx c Ctx.complete).sendDeferred c .done []).raise .ctxDone
      (detailOf c)).primaryCheck b
  else s

/-! ### Reports of the slot ports (R33, R86, R113, R114, R156 to R158) -/

/-- The source of a SYNCED context leaves READY: emergency cutover, or failure (R158). -/
def State.sourceGone (s : State) (c : CtxId) : State :=
  if (s.gapsOf c).isEmpty && s.windowFits c then s.enterCutting c else s.failCtx c .sourceLost

/-- One context's reaction to the report that a slot has left READY (R86, R113, R156 to R158). -/
def State.ctxLeft (k : SlotId) (s : State) (c : CtxId) : State :=
  let x := s.ctx c
  match x.state with
  | .idle | .failed => s
  | .opened | .walking | .paused =>
    if x.src = k then s.failCtx c .sourceLost else if x.dst = k then s.failCtx c .destLost else s
  | .waiting => if x.src = k then s.failCtx c .sourceLost else s
  | .synced => if x.src = k then s.sourceGone c else if x.dst = k then s.failCtx c .destLost else s
  | .cutting => if x.src = k then s else if x.dst = k then s.failCtx c .destLost else s

/-- The Migration Engine's reaction to the report that a slot has left READY (R38). -/
def State.engineLeft (s : State) (k : SlotId) : State := allCtxs.foldl (State.ctxLeft k) s

/-- A WAITING context whose destination has entered READY starts to walk (R86). -/
def Ctx.dstReady (k : SlotId) (x : Ctx) : Ctx :=
  if x.state = .waiting ∧ x.dst = k then { x with state := .walking } else x

/-- The Migration Engine's reaction to the report that a slot has entered READY (R33, R86). -/
def State.engineEntered (s : State) (k : SlotId) : State := { s with ctxs := s.ctxs.map (Ctx.dstReady k) }

/-- A per-entry loss report of a walk or verify entry fails a WALKING, PAUSED or SYNCED context (R114). -/
def State.entryLost (s : State) (c : CtxId) (r : FailReason) : State :=
  match (s.ctx c).state with
  | .walking | .paused | .synced => s.failCtx c r
  | .idle | .opened | .waiting | .cutting | .failed => s

/-- The loss report of a cutover FENCE's entry fails a CUTTING context (R156). -/
def State.cutoverLost (s : State) (c : CtxId) : State :=
  if (s.ctx c).state = .cutting then s.failCtx c .destLost else s

/-- A context's claims that wait on a slot are refused back to it: write and read-back claims are dropped
(R106, R139), a cutover claim fails it (R156). -/
def State.refuseClaims (k : SlotId) (s : State) (c : CtxId) : State :=
  if (s.ctx c).dst = k then
    let t := s.modCtx c (fun x => { x with flights := x.flights.map (fun f => { f with claim := false }) })
    if (s.ctx c).cutClaim then (t.modCtx c (fun x => { x with cutClaim := false })).failCtx c .destLost else t
  else s

/-! ### The revisit list (R123 to R127) -/

def Range.has (g : Range) (r : RegionId) (e : Nat) : Bool := g.region == r && decide (g.first ≤ e) && decide (e ≤ g.last)

/-- The list after an addition that needs no new record, if there is one (R124 cases 2 to 4). -/
def Ctx.extendRevisit (x : Ctx) (r : RegionId) (e : Nat) : Option (List Range) :=
  match x.revisit.find? (fun g => g.region == r && g.last + 1 == e),
        x.revisit.find? (fun g => g.region == r && g.first == e + 1) with
  | some b, some a =>
    some ((x.revisit.filter (fun g => g.num ≠ a.num)).map (fun g => if g.num = b.num then { g with last := a.last } else g))
  | some b, none => some (x.revisit.map (fun g => if g.num = b.num then { g with last := e } else g))
  | none, some a => some (x.placeRange { a with first := e } (x.revisit.filter (fun g => g.num ≠ a.num)))
  | none, none => none

/-- The record of a rewalk (R126 steps 1 to 4). -/
def Ctx.rewalk (x : Ctx) : Ctx :=
  { x with revisit := [], rewalkCount := x.rewalkCount + 1, counters := x.counters.addRewalk, held := none }.toHead

/-- The pool is empty: a rewalk below the limit, CHURN at it (R126, R127). -/
def State.exhausted (s : State) (c : CtxId) : State :=
  if (s.ctx c).rewalkCount < (s.ctx c).rewalkLimit then (s.modCtx c Ctx.rewalk).raise .rewalk (detailOf c)
  else s.failCtx c .churn

/-- An addition to a context's revisit list (R124). The flag says that it ended in a rewalk or a failure,
after which the rest of a STORE's additions are not made (R120). -/
def State.addRevisit (s : State) (c : CtxId) (r : RegionId) (e : Nat) : State × Bool :=
  let x := s.ctx c
  if x.revisit.any (fun g => g.has r e) then (s, false)
  else
    match x.extendRevisit r e with
    | some l => (s.modCtx c (fun y => { y with revisit := l, counters := y.counters.addRevisit }), false)
    | none =>
      match s.freeRange? with
      | some n =>
        (s.modCtx c (fun y => { y with
          revisit := y.placeRange ⟨n, r, e, e⟩ y.revisit
          counters := y.counters.addRevisit }), false)
      | none => (s.exhausted c, true)

/-! ### Classification (R117) -/

/-- The first test of R117 that applies. -/
inductive Class
  | mirrorMode | uncovered | inFlight | walked | ahead
  deriving DecidableEq, Repr

def Class.isMirror : Class → Bool
  | .mirrorMode | .walked => true
  | .uncovered | .inFlight | .ahead => false

/-- The classification of an ENTRY piece for an entry of a region against a context (R117). -/
def State.classify (s : State) (c : CtxId) (i : RegionId) (mode : CopyMode) (e : Nat) : Class :=
  let x := s.ctx c
  if mode = .mirror then .mirrorMode
  else if (x.segPlace i e).isNone then .uncovered
  else if x.inFlight i e then .inFlight
  else if x.walked i e then .walked
  else .ahead

end Sys2Proof.Machine
end

