-- ==== Sys2Proof/Machine/SlotOps.lean ====
section
/-! DEFINITION. The slot ports' shared operations (chapters 1 and 2): delivery and closure of pending entries, leaving READY, entering DOWN, halting, settling. -/

namespace Sys2Proof.Machine

/-! ### Delivery and closure of a pending entry (R19, R20) -/

/-- A matched RETURN goes to its owner (R19). -/
def State.deliverReturn (s : State) (o : Origin) (t : Txn) : State :=
  match o with
  | .agent tag b _ _ none => s.pushReturn tag b t.status t.count t.data
  | .agent _ _ part _ (some a) => s.resolvePart a part ⟨t.status, t.data⟩
  | .walk c n => s.walkReturn c n t.status t.data
  | .verify c n => s.verifyReturn c n t.status t.data
  | .fenceGroup _ _ | .cutover _ | .orphan => s

/-- A matched FENCE-DONE goes to its owner (R19). -/
def State.deliverFence (s : State) (o : Origin) : State :=
  match o with
  | .fenceGroup g twin => s.resolveFence g twin .ok
  | .cutover c => s.cutoverDone c
  | .agent _ _ _ _ _ | .walk _ _ | .verify _ _ | .orphan => s

/-- An entry closed without a reply is handed to its owner as a failure (R20). -/
def State.deliverLoss (s : State) (o : Origin) (count : Nat) : State :=
  match o with
  | .agent tag b _ _ none => s.pushReturn tag b retNoBoard count []
  | .agent _ _ part _ (some a) => s.resolvePart a part ⟨retNoBoard, []⟩
  | .fenceGroup g twin => s.resolveFence g twin .failed
  | .walk c _ => s.entryLost c .sourceLost
  | .verify c _ => s.entryLost c .destLost
  | .cutover c => s.cutoverLost c
  | .orphan => s

/-- Closing one pending entry: it becomes FREE and its owner is told (R20). -/
def State.closeEntry (k : SlotId) (s : State) (i : PendIdx) : State :=
  match (s.slot k).pend[i] with
  | none => s
  | some e => (s.freePend k i).deliverLoss e.origin e.count

/-! ### Leaving READY (R37, R38) -/

/-- The pending entries of the FETCHes and FENCEs that stand in a queue, in queue order; the tag is the
entry's index (R16). -/
def queuedEntries (q : List QTxn) : List PendIdx :=
  q.filterMap (fun x =>
    match x.txn.kind with
    | .fetch | .fence => toIndex 64 x.txn.tag.toNat
    | .store | .fill | .ret | .fenceDone | .grant | .hello | .halt | .mgmt | .mgmtReply | .notice => none)

/-- The order in which a departure closes the pending entries: the SENT ones in send order, then the QUEUED
ones in queue order (R37 step 2). -/
def SlotPort.closeOrder (p : SlotPort) : List PendIdx := p.sentOrder ++ queuedEntries p.queue

/-- Leaving READY for a new state: the new state current, the queue emptied, the pending entries closed,
credits 0, waiting claims refused (R37), then the report to the Steering Unit and the Migration Engine (R38). -/
def State.leaveReady (s : State) (k : SlotId) (st : SlotState) : State :=
  let order := (s.slot k).closeOrder
  let s := s.modSlot k (fun p => { p with state := st, queue := [] })
  let s := order.foldl (State.closeEntry k) s
  let s := s.modSlot k (fun p => { p with credits := 0 })
  let s := allCtxs.foldl (State.refuseClaims k) s
  (s.steeringLeft k).engineLeft k

/-- The effects of leaving READY where the slot is READY, the new state alone where it is not. -/
def State.depart (s : State) (k : SlotId) (st : SlotState) : State :=
  if s.isReady k then s.leaveReady k st else s.modSlot k (fun p => { p with state := st })

/-! ### Entering DOWN (R26, R27) -/

/-- What entering DOWN does to the slot port (R27). -/
def SlotPort.toDown (p : SlotPort) : SlotPort :=
  { p with state := .down, credits := 0, helloTimer := none, settleTimer := none, arrival := none,
           helloFailures := 0, halt := none }

/-- Entering DOWN: the slot port and the slot's spare map (R27). -/
def State.enterDown (s : State) (k : SlotId) : State := (s.modSlot k SlotPort.toDown).setSpareMap k []

/-- A slot in any state but DOWN goes to DOWN (R26). -/
def State.goDown (s : State) (k : SlotId) : State :=
  if (s.slot k).state = .down then s
  else ((s.depart k .down).enterDown k).raise .slotDown (detailOf k)

/-! ### HALTED, SETTLING, READY, retraining -/

/-- A slot goes to HALTED: leaving READY where needed, the halt record, SLOT_HALTED (R22, R34, R35). -/
def State.goHalted (s : State) (k : SlotId) (source : HaltSource) (reason : BitVec 8) : State :=
  ((s.depart k .halted).modSlot k (fun p => { p with settleTimer := none, halt := some ⟨source, reason⟩ })).raise
    .slotHalted (detailOf k)

/-- The settle interval of a start cause in ms (R30). -/
def StartCause.settleInterval : StartCause → Nat
  | .powerUp => 250
  | .boardReset => 40
  | .retrain => 2

def StartCause.code : StartCause → Nat
  | .powerUp => 0
  | .boardReset => 1
  | .retrain => 2

/-- The record and timer of a slot that begins to settle after a HELLO (R30 to R32). -/
def SlotPort.settle (a : Arrival) (p : SlotPort) : SlotPort :=
  { p with state := .settling, helloTimer := none, settleTimer := some a.cause.settleInterval, arrival := some a }

/-- An accepted HELLO in each state (R30, R31, R32). -/
def State.helloAccepted (s : State) (k : SlotId) (a : Arrival) : State :=
  match (s.slot k).state with
  | .awaitHello .listening => s.modSlot k (fun p => { p.settle a with helloFailures := 0 })
  | .settling => s.modSlot k (fun p => { p.settle a with credits := 0 })
  | .ready | .halted => (s.depart k .settling).modSlot k (fun p => { p.settle a with credits := 0 })
  | .down | .awaitHello .retraining | .disabled => s

/-- An accepted HALT in each state (R34). -/
def State.haltAccepted (s : State) (k : SlotId) (reason : BitVec 8) : State :=
  match (s.slot k).state with
  | .ready | .settling | .halted => s.goHalted k .board reason
  | .down | .awaitHello _ | .disabled => s

/-- Retraining starts: AWAIT_HELLO, retraining phase, HELLO timer stopped, credits 0 (R28, R29). -/
def SlotPort.retrain (p : SlotPort) : SlotPort :=
  { p with state := .awaitHello .retraining, helloTimer := none, credits := 0 }

/-- The listening phase begins: the HELLO timer starts (R25, R29). -/
def SlotPort.listen (p : SlotPort) : SlotPort :=
  { p with state := .awaitHello .listening, helloTimer := some Config.helloInterval }

/-- Whether the slot receives from its board: its link is trained (R11, R23, R29). -/
def SlotState.receives : SlotState → Bool
  | .awaitHello .listening | .settling | .ready | .halted => true
  | .down | .awaitHello .retraining | .disabled => false

/-! ### Credits and rejections (R12, R13) -/

/-- A GRANT from the board: its count is added up to 64; beyond that GRANT_EXCESS is raised (R13). -/
def State.addCredits (s : State) (k : SlotId) (n : Nat) : State :=
  let sum := (s.slot k).credits + n
  if Config.boardCredits < sum then
    (s.modSlot k (fun p => { p with credits := Config.boardCredits })).raise .grantExcess (detailOf k)
  else s.modSlot k (fun p => { p with credits := sum })

def SlotCounters.addSent (c : SlotCounters) : SlotCounters := { c with sent := satAdd c.sent 1 }
def SlotCounters.addCheck (c : SlotCounters) : SlotCounters := { c with checkErrors := satAdd c.checkErrors 1 }
def SlotCounters.addReplyTimeout (c : SlotCounters) : SlotCounters := { c with replyTimeouts := satAdd c.replyTimeouts 1 }
def SlotCounters.addHelloTimeout (c : SlotCounters) : SlotCounters := { c with helloTimeouts := satAdd c.helloTimeouts 1 }

/-- A transaction or reply of a board is rejected: counted, and SLOT_CHECK raised (R12). -/
def State.rejectBoard (s : State) (k : SlotId) : State :=
  (s.modSlot k (fun p => { p with counters := p.counters.addCheck })).raise .slotCheck (detailOf k)

/-! ### Matching a reply (R18) -/

/-- The pending entry a reply names, when the reply is matched (R18). -/
def SlotPort.matched (p : SlotPort) (kind : PendKind) (t : Txn) : Option (PendIdx × PendEntry) :=
  match toIndex 64 t.tag.toNat with
  | none => none
  | some i =>
    match p.pend[i] with
    | none => none
    | some e =>
      if e.phase = .sent ∧ e.kind = kind ∧ (kind = .fetch → t.count = e.count) then some (i, e) else none

/-- A reply accepted on a slot link: matched and delivered in READY, rejected there when it does not match,
discarded uncounted in the other states (R11, R18, R19). -/
def State.replyAccepted (s : State) (k : SlotId) (kind : PendKind) (t : Txn) : State :=
  if s.isReady k then
    match (s.slot k).matched kind t with
    | none => s.rejectBoard k
    | some (i, e) =>
      match kind with
      | .fetch => (s.freePend k i).deliverReturn e.origin t
      | .fence => (s.freePend k i).deliverFence e.origin
  else s

/-! ### Sending (R15) -/

/-- The head of the queue is sent: one credit, the counter, and for a FETCH or FENCE its entry SENT with its
timer running (R15, R22). -/
def SlotPort.sendHead (p : SlotPort) (x : QTxn) (rest : List QTxn) : SlotPort :=
  let p := { p with credits := p.credits - 1, queue := rest, counters := p.counters.addSent, tx := some x.txn.frame }
  match (queuedEntries [x]).head? with
  | none => p
  | some i =>
    match p.pend[i] with
    | none => p
    | some e => { p with pend := p.pend.set i (some { e with phase := .sent }), sentOrder := p.sentOrder ++ [i] }

/-- The slot port sends, if it is READY, holds a credit and has a head to send (R15). -/
def State.sendSlot (s : State) (k : SlotId) : State :=
  match (s.slot k).queue with
  | [] => s
  | x :: rest =>
    if s.isReady k ∧ 1 ≤ (s.slot k).credits then s.modSlot k (fun p => p.sendHead x rest) else s

/-! ### Soft reset of a slot port (R21, R41, R163) -/

/-- BRIDGE-GENERATED transactions leave the queue and their entries become FREE (R21). -/
def SlotPort.softReset (p : SlotPort) : SlotPort :=
  let removed := queuedEntries (p.queue.filter (fun x => x.mark == .bridgeGenerated))
  { removed.foldl SlotPort.freeEntry p with queue := p.queue.filter (fun x => x.mark != .bridgeGenerated) }

end Sys2Proof.Machine
end

