-- ==== Sys2Proof/Machine/AgentPort.lean ====
section
/-! DEFINITION. The Agent Port (chapters 1 and 10): resets and start-up, arrivals on the agent link, the link's loss and return, sending upstream. -/

namespace Sys2Proof.Machine

/-! ### The head of intake (R8, R69) -/

/-- When a FILL becomes the head of intake, it is cut in the view and against the set then in force (R69). -/
def State.cutHead (s : State) : State :=
  match s.intake, s.fill with
  | t :: _, none =>
    match t.kind, t.boardId with
    | .fill, some b =>
      { s with fill := some ⟨s.cut (s.entry b).layoutSet (s.entry b).view t.addr t.count, none⟩ }
    | _, _ => s
  | _, _ => s

/-! ### Resets and start-up (R169, R172) -/

/-- A slot port after a power-on or line reset: its reset values, but for the presence line, which is a pin (R40). -/
def SlotPort.reset (p : SlotPort) : SlotPort := { presence := p.presence }

/-- Every block at its power-on or line reset values, in a start-up state and with a start record (R172).
The pins (presence lines, agent link) and the model's queue of commands are not the part's to reset (assumption 6). -/
def State.resetPart (s : State) (st : Startup) (r : StartRecord) : State :=
  { startup := st, startRecord := r, agentLinkUp := s.agentLinkUp, slots := s.slots.map SlotPort.reset,
    pending := s.pending }

/-- Power-up (R172). With the RESET line active the part stays held in reset, with start cause POWER until the
line's release (R169). -/
def execPowerOnReset (s : State) : Host.Outcome State Fault Refusal :=
  .next (s.resetPart (if s.startup = .held then .held else .starting) { cause := .power })

/-- The RESET line becomes active: everything in progress ends without an answer, and the part is held (R172).
The start record is written on entry to STARTING (R169), so it stands until then. -/
def execResetLineAssert (s : State) : Host.Outcome State Fault Refusal :=
  .next (s.resetPart .held s.startRecord)

/-- The release of an active RESET line starts STARTING with start cause LINE (R169, R172). -/
def execResetLineRelease (s : State) : Host.Outcome State Fault Refusal :=
  .next (if s.startup = .held then s.resetPart .starting { cause := .line } else s)

/-- The end of the 1 ms of STARTING: RUNNING, credits 64, and a GRANT(64) behind what waits upstream (R6, R172). -/
def execStartingComplete (s : State) : Host.Outcome State Fault Refusal :=
  .next (if s.startup = .starting then
    { s with startup := .running, agentCredits := 0 }.pushGrant Config.agentCredits
  else s)

/-! ### The agent link (R7, R9, R10) -/

def GlobalCounters.addOverrun (g : GlobalCounters) : GlobalCounters := { g with agentOverruns := satAdd g.agentOverruns 1 }
def GlobalCounters.addCheckError (g : GlobalCounters) : GlobalCounters :=
  { g with agentCheckErrors := satAdd g.agentCheckErrors 1 }

/-- An arrival that finds no credit (R7, first row). -/
def State.agentOverrun (s : State) : State := { s with globals := s.globals.addOverrun }.raise .agentOverrun 0

/-- A rejected arrival: the credit is spent and returned at once (R7, second row). -/
def State.agentReject (s : State) : State :=
  ({ s with agentCredits := s.agentCredits - 1, globals := s.globals.addCheckError }.pushGrant 1).raise .agentCheck 0

/-- An accepted arrival joins the tail of intake (R7, third row). -/
def State.agentAccept (s : State) (t : Txn) : State :=
  { s with agentCredits := s.agentCredits - 1, intake := s.intake ++ [t] }.cutHead

/-- An arrival on the agent link; the overrun is decided before the check (R7). -/
def State.agentArrives (s : State) (f : Frame) : State :=
  if s.agentCredits = 0 then s.agentOverrun
  else
    match acceptAgent f with
    | none => s.agentReject
    | some t => s.agentAccept t

/-- Words arrive on the agent link; while it is down nothing is received (R7, R10). -/
def execAgentArrival (f : Frame) (s : State) : Host.Outcome State Fault Refusal :=
  .next (s.unlessHeld (fun s => if s.agentLinkUp then s.agentArrives f else s))

/-- The loss of the agent link changes nothing but the link (R10). -/
def execAgentLinkLost (s : State) : Host.Outcome State Fault Refusal := .next { s with agentLinkUp := false }

/-- The return of the agent link. Sending is one step, so a transaction that the loss cut short is still the
queue's head, and is sent whole by the next sending (R10). -/
def execAgentLinkUp (s : State) : Host.Outcome State Fault Refusal := .next { s with agentLinkUp := true }

/-- The head of the upstream send queue is sent, in RUNNING and with the link up (R9, R10, R172). -/
def State.sendUpstream (s : State) : State :=
  match s.upstream with
  | [] => s
  | t :: rest => if s.startup = .running ∧ s.agentLinkUp then { s with upstream := rest, agentTx := some t.frame } else s

def execUpstreamSend (s : State) : Host.Outcome State Fault Refusal := .next (s.unlessHeld State.sendUpstream)

end Sys2Proof.Machine
end

