-- ==== Sys2Proof/Machine/Management.lean ====
section
/-! DEFINITION. The Management Decoder (chapter 10): taking a MGMT at the head of intake and answering it, and the requests on the part and its slots: unknown kinds, SOFT-RESET, COUNTERS-CLEAR, SLOT-RETRY, SLOT-HALT. -/

namespace Sys2Proof.Machine

/-! ### The envelope (R164 to R166) -/

/-- What a MGMT-REPLY carries besides the request's tag and kind (R165). -/
structure Answer where
  status : ReplyStatus
  words  : List Word := []
  more   : Bool := false
  deriving DecidableEq, Repr

def Answer.done : Answer := { status := .done }
def Answer.badArgument : Answer := { status := .badArgument }
def Answer.noSuch : Answer := { status := .noSuch }
def Answer.refusedState : Answer := { status := .refusedState }
def Answer.refusedFull : Answer := { status := .refusedFull }
/-- DONE with numbers as result words. -/
def Answer.results (ns : List Nat) : Answer := { status := .done, words := ns.map (BitVec.ofNat 32) }

/-- The reply to a request, behind all its effects placed upstream; none while it is deferred (R165, R166). -/
def State.answer (s : State) (t : Txn) : Option Answer → State
  | some a => s.pushReply t.tag t.request a.status a.words a.more
  | none => s

/-- The MGMT at the head of intake is taken, carried out and answered, when it is one that the step takes (R164).
The GRANT of the taking stands before the effects, and the reply behind them (assumption 9). -/
def State.decode (s : State) (mine : Txn → Bool) (body : Txn → State → State × Option Answer) : State :=
  match s.intake with
  | [] => s
  | t :: _ =>
    if t.kind = .mgmt ∧ mine t = true then
      ((body t s.takeHead).1.answer t (body t s.takeHead).2).cutHead
    else s

/-- A request whose effect and immediate answer follow from its parameter words. -/
def State.serve (s : State) (r : Request) (body : List Nat → State → State × Answer) : State :=
  s.decode (fun t => t.asRequest == some r) (fun t s => ((body t.params s).1, some (body t.params s).2))

/-- A kind that is not in Table 1-3: UNKNOWN-REQUEST and nothing else (R164). -/
def execUnknownRequest (s : State) : Host.Outcome State Fault Refusal :=
  .next (s.unlessHeld (fun s =>
    s.decode (fun t => t.asRequest == none) (fun _ s => (s, some { status := .unknownRequest }))))

/-! ### SOFT-RESET (R21, R60, R132, R162, R163, R170) -/

/-- What soft reset leaves of a context that was not IDLE (R162). -/
def Ctx.softReset (x : Ctx) : Ctx :=
  { x with state := .idle, outcome := some .aborted, failReason := none, pauseReason := none }

/-- One context at soft reset: holdings released, its deferred reply FAILED with result word 9 (R162, R163). -/
def State.softResetCtx (s : State) (c : CtxId) : State :=
  if (s.ctx c).state = .idle then s
  else ((s.release c).modCtx c Ctx.softReset).sendDeferred c .failed [9]

/-- BRIDGE-GENERATED transactions leave every slot queue, and their pending entries become FREE (R21). -/
def State.softResetSlots (s : State) : State := { s with slots := s.slots.map SlotPort.softReset }

/-- Every episode ends; masks, levels and floor stay (R174, R176). -/
def State.endEpisodes (s : State) : State := { s with notices := s.notices.map NoticeRec.endEpisode }

def StartRecord.addSoftReset (r : StartRecord) : StartRecord := { r with softResets := satAdd r.softResets 1 }

/-- The effects of a soft reset (R170); contexts in ascending order (R163). -/
def State.softReset (s : State) : State :=
  let s := allCtxs.foldl State.softResetCtx s
  let s := { s with gaps := [] }.softResetSlots.endEpisodes
  { s with startRecord := s.startRecord.addSoftReset }

def reqSoftReset (ps : List Nat) (s : State) : State × Answer :=
  match ps with
  | [] => (s.softReset, .done)
  | _ => (s, .badArgument)

def execSoftReset (s : State) : Host.Outcome State Fault Refusal :=
  .next (s.unlessHeld (fun s => s.serve .softReset reqSoftReset))

/-! ### COUNTERS-CLEAR (R171) -/

def SlotPort.clearCounters (p : SlotPort) : SlotPort := { p with counters := {} }
def Ctx.clearCounters (x : Ctx) : Ctx := { x with counters := {} }

def State.clearGlobals (s : State) : State := { s with globals := {} }

/-- Every counter of the part (R171, scope ALL). -/
def State.clearAll (s : State) : State :=
  { s with globals := {}, slots := s.slots.map SlotPort.clearCounters, ctxs := s.ctxs.map Ctx.clearCounters }

/-- The scopes of COUNTERS-CLEAR with an index in range (R171). -/
inductive Scope
  | all | global | slot (k : SlotId) | ctx (c : CtxId)
  deriving DecidableEq, Repr

def parseScope : List Nat → Option Scope
  | [0, 0] => some .all
  | [1, 0] => some .global
  | [2, k] => (toIndex 8 k).map .slot
  | [3, c] => (toIndex 16 c).map .ctx
  | _ => none

def State.clearScope (s : State) : Scope → State
  | .all => s.clearAll
  | .global => s.clearGlobals
  | .slot k => s.modSlot k SlotPort.clearCounters
  | .ctx c => s.modCtx c Ctx.clearCounters

def reqCountersClear (ps : List Nat) (s : State) : State × Answer :=
  match parseScope ps with
  | some x => (s.clearScope x, .done)
  | none => (s, .badArgument)

def execCountersClear (s : State) : Host.Outcome State Fault Refusal :=
  .next (s.unlessHeld (fun s => s.serve .countersClear reqCountersClear))

/-! ### Requests of one parameter word -/

/-- The one parameter word of a request, as an index below n. -/
def parseIndex (n : Nat) : List Nat → Option (Fin n)
  | [v] => toIndex n v
  | _ => none

/-! ### SLOT-RETRY and SLOT-HALT (R35, R36) -/

/-- The slot port when SLOT-RETRY starts retraining (R36). -/
def SlotPort.retry (p : SlotPort) : SlotPort := { p.retrain with helloFailures := 0 }

def State.retrySlot (s : State) (k : SlotId) : State × Answer :=
  match (s.slot k).state with
  | .disabled | .halted => (s.modSlot k SlotPort.retry, .done)
  | .down | .awaitHello _ | .settling | .ready => (s, .refusedState)

def reqSlotRetry (ps : List Nat) (s : State) : State × Answer :=
  match parseIndex 8 ps with
  | some k => s.retrySlot k
  | none => (s, .badArgument)

def execSlotRetry (s : State) : Host.Outcome State Fault Refusal :=
  .next (s.unlessHeld (fun s => s.serve .slotRetry reqSlotRetry))

def State.haltSlot (s : State) (k : SlotId) : State × Answer :=
  if s.isReady k then (s.goHalted k .agent 0, .done) else (s, .refusedState)

def reqSlotHalt (ps : List Nat) (s : State) : State × Answer :=
  match parseIndex 8 ps with
  | some k => s.haltSlot k
  | none => (s, .badArgument)

def execSlotHalt (s : State) : Host.Outcome State Fault Refusal :=
  .next (s.unlessHeld (fun s => s.serve .slotHalt reqSlotHalt))

end Sys2Proof.Machine
end

