-- ==== Sys2Proof/Machine/ContextRequests.lean ====
section
/-! DEFINITION. The requests on migration contexts and on the Integrity Unit (chapters 5, 8 and 9). -/

namespace Sys2Proof.Machine

/-! ### CTX-OPEN (R81) -/

structure OpenParams where
  ctx         : CtxId
  board       : BoardId
  priority    : Fin 4
  pace        : Option Nat
  window      : Nat
  autoCutover : Bool
  rewalkLimit : Nat
  deriving DecidableEq, Repr

/-- The pace word: 0 for FREE, an interval in µs for PACED (R81). -/
def toPace (v : Nat) : Option (Option Nat) := if v = 0 then some none else (toRange 1 65535 v).map some

def parseOpenWords (c b p i w a l : Nat) : Option OpenParams := do
  let c ← toIndex 16 c
  let b ← toIndex 15 b
  let p ← toIndex 4 p
  let i ← toPace i
  let w ← toRange 1 4 w
  let a ← toFlag a
  let l ← toRange 0 7 l
  return ⟨c, b, p, i, w, a, l⟩

/-- Six words, with rewalk limit 2, or seven (R81). -/
def parseOpen : List Nat → Option OpenParams
  | [c, b, p, i, w, a] => parseOpenWords c b p i w a 2
  | [c, b, p, i, w, a, l] => parseOpenWords c b p i w a l
  | _ => none

/-- The context record after CTX-OPEN (R81). -/
def Ctx.opened (q : OpenParams) (src dst : SlotId) (v : View) (x : Ctx) : Ctx :=
  { x with
    state := .opened, board := q.board, src := src, dst := dst, srcView := v, priority := q.priority, pace := q.pace
    window := q.window, rewalkLimit := q.rewalkLimit, autoCutover := q.autoCutover, segs := [], cur := none
    stop := none, frontier := 0, rewalkCount := 0, verifyCounter := 0, phase := .walk, pauseReason := none
    failReason := none, outcome := none, counters := {} }

/-- The bind of R47. -/
def State.bind (s : State) (b : BoardId) (c : CtxId) : State :=
  s.setEntry b { s.entry b with twinState := .building, bound := some c }

def State.openCtx (s : State) (q : OpenParams) : State × Answer :=
  if (s.ctx q.ctx).state ≠ .idle then (s, .refusedState)
  else
    match (s.entry q.board).primary, (s.entry q.board).twin with
    | none, _ => (s, .noSuch)
    | some p, some t =>
      if (s.entry q.board).twinState = .stale then
        ((s.modCtx q.ctx (Ctx.opened q p t (s.entry q.board).view)).bind q.board q.ctx, .done)
      else (s, .refusedState)
    | some _, none => (s, .refusedState)

def reqCtxOpen (ps : List Nat) (s : State) : State × Answer :=
  match parseOpen ps with
  | some q => s.openCtx q
  | none => (s, .badArgument)

def execCtxOpen (s : State) : Host.Outcome State Fault Refusal :=
  .next (s.unlessHeld (fun s => s.serve .ctxOpen reqCtxOpen))

/-! ### SEG-APPEND (R82, R83) -/

structure SegParams where
  ctx    : CtxId
  region : RegionId
  first  : Nat
  count  : Nat
  deriving DecidableEq, Repr

def parseSeg : List Nat → Option SegParams
  | [c, r, f, n] => do
    let c ← toIndex 16 c
    let r ← toIndex 64 r
    let f ← toRange 0 16777215 f
    let n ← toRange 1 16777216 n
    return ⟨c, r, f, n⟩
  | _ => none

/-- The region is loaded in the context's set, COPY or ZERO, and holds the entries given (R83 tests 3 and 4). -/
def State.segFits (s : State) (q : SegParams) : Bool :=
  match s.region q.region with
  | some r =>
    r.set == s.ctxSet q.ctx && (r.mode == .copy || r.mode == .zero) && decide (q.first + q.count ≤ r.entries)
  | none => false

/-- A segment of the list shares an entry with the range given (R83 test 5). -/
def Ctx.segClash (x : Ctx) (q : SegParams) : Bool :=
  x.segs.any (fun g => g.region == q.region && decide (g.first < q.first + q.count) && decide (q.first < g.first + g.count))

def State.appendSeg (s : State) (q : SegParams) : State × Answer :=
  if (s.ctx q.ctx).state ≠ .opened then (s, .refusedState)
  else if !s.segFits q || (s.ctx q.ctx).segClash q then (s, .badArgument)
  else
    match s.freeSegment? with
    | none => (s, .refusedFull)
    | some n =>
      (s.modCtx q.ctx (fun x => { x with segs := x.segs ++ [⟨n, q.region, q.first, q.count⟩] }), .results [n])

def reqSegAppend (ps : List Nat) (s : State) : State × Answer :=
  match parseSeg ps with
  | some q => s.appendSeg q
  | none => (s, .badArgument)

def execSegAppend (s : State) : Host.Outcome State Fault Refusal :=
  .next (s.unlessHeld (fun s => s.serve .segAppend reqSegAppend))

/-! ### CTX-START, CTX-PAUSE, CTX-RESUME (R85, R87, R88) -/

def State.startCtx (s : State) (c : CtxId) : State × Answer :=
  if (s.ctx c).state ≠ .opened then (s, .refusedState)
  else if (s.ctx c).segs = [] then (s, .noSuch)
  else if s.isReady (s.ctx c).src then
    (s.modCtx c (fun x => { x.toHead with state := if s.isReady x.dst then .walking else .waiting }), .done)
  else (s, .refusedState)

def reqCtxStart (ps : List Nat) (s : State) : State × Answer :=
  match parseIndex 16 ps with
  | some c => s.startCtx c
  | none => (s, .badArgument)

def execCtxStart (s : State) : Host.Outcome State Fault Refusal :=
  .next (s.unlessHeld (fun s => s.serve .ctxStart reqCtxStart))

def State.pauseCtx (s : State) (c : CtxId) : State × Answer :=
  match (s.ctx c).state with
  | .walking | .paused => (s.modCtx c (fun x => { x with state := .paused, pauseReason := some .agent }), .done)
  | .idle | .opened | .waiting | .synced | .cutting | .failed => (s, .refusedState)

def reqCtxPause (ps : List Nat) (s : State) : State × Answer :=
  match parseIndex 16 ps with
  | some c => s.pauseCtx c
  | none => (s, .badArgument)

def execCtxPause (s : State) : Host.Outcome State Fault Refusal :=
  .next (s.unlessHeld (fun s => s.serve .ctxPause reqCtxPause))

/-- The context walks again, and is tested for SYNCED at once (R88, R111). -/
def State.resumeCtx (s : State) (c : CtxId) : State × Answer :=
  if (s.ctx c).state = .paused then
    ((s.modCtx c (fun x => { x with state := .walking, pauseReason := none })).testSynced c, .done)
  else (s, .refusedState)

def reqCtxResume (ps : List Nat) (s : State) : State × Answer :=
  match parseIndex 16 ps with
  | some c => s.resumeCtx c
  | none => (s, .badArgument)

def execCtxResume (s : State) : Host.Outcome State Fault Refusal :=
  .next (s.unlessHeld (fun s => s.serve .ctxResume reqCtxResume))

/-! ### STOP-POINT (R89) -/

/-- The mode word: remove, ONE-SHOT or REPEAT; the flag of a point says REPEAT (R89). -/
def toStop (r : Option RegionId) (v m : Nat) : Nat → Option (Option StopPoint)
  | 0 => some none
  | 1 => some (some ⟨r, BitVec.ofNat 24 v, BitVec.ofNat 24 m, false⟩)
  | 2 => some (some ⟨r, BitVec.ofNat 24 v, BitVec.ofNat 24 m, true⟩)
  | _ => none

def parseStop : List Nat → Option (CtxId × Option StopPoint)
  | [c, r, v, m, mode] => do
    let c ← toIndex 16 c
    let r ← toRegionOrAll r
    let v ← toRange 0 16777215 v
    let m ← toRange 0 16777215 m
    let p ← toStop r v m mode
    return (c, p)
  | _ => none

def State.setStop (s : State) (c : CtxId) (p : Option StopPoint) : State × Answer :=
  match (s.ctx c).state with
  | .opened | .waiting | .walking | .paused => (s.modCtx c (fun x => { x with stop := p }), .done)
  | .idle | .synced | .cutting | .failed => (s, .refusedState)

def reqStopPoint (ps : List Nat) (s : State) : State × Answer :=
  match parseStop ps with
  | some (c, p) => s.setStop c p
  | none => (s, .badArgument)

def execStopPoint (s : State) : Host.Outcome State Fault Refusal :=
  .next (s.unlessHeld (fun s => s.serve .stopPoint reqStopPoint))

/-! ### CTX-ABORT and CTX-CLOSE (R93, R94, R160) -/

/-- The record of a context that ends by request. -/
def Ctx.ended (o : LastOutcome) (x : Ctx) : Ctx :=
  { x with state := .idle, outcome := some o, failReason := none, pauseReason := none }

/-- Release of the holdings and of the gap records, then IDLE (R93, R94). -/
def State.endCtx (s : State) (c : CtxId) (o : LastOutcome) : State := ((s.release c).dropGapsOf c).modCtx c (Ctx.ended o)

/-- CTX-ABORT; in CUTTING the deferred reply goes first, FAILED with reason code 8 (R93, R160). -/
def State.abortCtx (s : State) (c : CtxId) : State × Answer :=
  if (s.ctx c).state = .idle then (s, .refusedState)
  else ((s.sendDeferred c .failed [8]).endCtx c .aborted, .done)

def reqCtxAbort (ps : List Nat) (s : State) : State × Answer :=
  match parseIndex 16 ps with
  | some c => s.abortCtx c
  | none => (s, .badArgument)

def execCtxAbort (s : State) : Host.Outcome State Fault Refusal :=
  .next (s.unlessHeld (fun s => s.serve .ctxAbort reqCtxAbort))

def State.closeCtx (s : State) (c : CtxId) : State × Answer :=
  match (s.ctx c).state with
  | .failed | .opened => (s.endCtx c .closed, .done)
  | .idle | .waiting | .walking | .paused | .synced | .cutting => (s, .refusedState)

def reqCtxClose (ps : List Nat) (s : State) : State × Answer :=
  match parseIndex 16 ps with
  | some c => s.closeCtx c
  | none => (s, .badArgument)

def execCtxClose (s : State) : Host.Outcome State Fault Refusal :=
  .next (s.unlessHeld (fun s => s.serve .ctxClose reqCtxClose))

/-! ### CTX-CUTOVER (R148, R166) -/

/-- The checks of CTX-CUTOVER; accepted, its reply is deferred under the request's tag (R148). -/
def State.cutover (s : State) (c : CtxId) (tag : BitVec 8) : State × Option Answer :=
  if (s.ctx c).state ≠ .synced then (s, some .refusedState)
  else if s.gapsOf c ≠ [] then (s, some .refusedState)
  else if s.windowFits c then ((s.modCtx c (fun x => { x with deferred := some tag })).enterCutting c, none)
  else (s, some .refusedFull)

def reqCtxCutover (t : Txn) (s : State) : State × Option Answer :=
  match parseIndex 16 t.params with
  | some c => s.cutover c t.tag
  | none => (s, some .badArgument)

def execCtxCutover (s : State) : Host.Outcome State Fault Refusal :=
  .next (s.unlessHeld (fun s => s.decode (fun t => t.asRequest == some .ctxCutover) reqCtxCutover))

/-! ### GAP-WAIVE (R137) -/

structure WaiveParams where
  ctx    : CtxId
  region : Option RegionId
  entry  : Nat
  deriving DecidableEq, Repr

def parseWaive : List Nat → Option WaiveParams
  | [c, r, e] => do
    let c ← toIndex 16 c
    let r ← toRegionOrAll r
    let e ← toRange 0 16777215 e
    return ⟨c, r, e⟩
  | _ => none

def State.waive (s : State) (q : WaiveParams) : State × Answer :=
  if (s.ctx q.ctx).state = .idle then (s, .refusedState)
  else
    match q.region with
    | none => (s.dropGapsOf q.ctx, .results [(s.gapsOf q.ctx).length])
    | some r =>
      if s.gaps.contains ⟨q.ctx, r, q.entry⟩ then (s.dropGap q.ctx r q.entry, .results [1]) else (s, .noSuch)

def reqGapWaive (ps : List Nat) (s : State) : State × Answer :=
  match parseWaive ps with
  | some q => s.waive q
  | none => (s, .badArgument)

def execGapWaive (s : State) : Host.Outcome State Fault Refusal :=
  .next (s.unlessHeld (fun s => s.serve .gapWaive reqGapWaive))

/-! ### SPARE-DROP (R145) -/

/-- A map stays while its slot is a primary, or a BUILDING or TWINNED twin (R145). -/
def State.mapLocked (s : State) (k : SlotId) : Bool :=
  allBoards.any (fun b =>
    (s.entry b).primary == some k ||
      ((s.entry b).twin == some k && ((s.entry b).twinState == .building || (s.entry b).twinState == .twinned)))

def State.dropMap (s : State) (k : SlotId) : State × Answer :=
  if s.mapLocked k then (s, .refusedState) else (s.setSpareMap k [], .results [(s.spareMap k).length])

def reqSpareDrop (ps : List Nat) (s : State) : State × Answer :=
  match parseIndex 8 ps with
  | some k => s.dropMap k
  | none => (s, .badArgument)

def execSpareDrop (s : State) : Host.Outcome State Fault Refusal :=
  .next (s.unlessHeld (fun s => s.serve .spareDrop reqSpareDrop))

end Sys2Proof.Machine
end

