-- ==== Sys2Proof/Machine/Forwarding.lean ====
section
/-! DEFINITION. The Steering Unit at the head of intake: targets, runs, and the taking of STORE, FILL, FETCH and FENCE (chapter 3, with the side effects of chapter 7). -/

namespace Sys2Proof.Machine

/-! ### Targets of a piece (R49, R116) -/

/-- Data words of one entry, which have an address in both views (R69). -/
def PieceKind.isData : PieceKind → Bool
  | .entry | .localData => true
  | .pad | .outside => false

/-- Whether the primary is a target: READY, and the piece has an address in its view (R49, R53). -/
def State.reachesPrimary (s : State) (e : SteerEntry) (p : Piece) : Bool :=
  match e.primary with
  | none => false
  | some k => s.isReady k && (p.kind.isData || p.view == e.view)

/-- The classification of a piece, where it is classified: an ENTRY piece of a BUILDING entry (R116, R117). -/
def State.pieceClass (s : State) (e : SteerEntry) (p : Piece) : Option Class :=
  match e.twinState, p.kind, e.bound, p.region with
  | .building, .entry, some c, some i => (s.region i).map (fun r => s.classify c i r.mode p.entry)
  | _, _, _, _ => none

/-- Whether the twin is a target (R49). -/
def State.reachesTwin (s : State) (e : SteerEntry) (p : Piece) : Bool :=
  match e.twin with
  | none => false
  | some k =>
    s.isReady k && p.kind == .entry &&
      match e.twinState with
      | .twinned => true
      | .building => (s.pieceClass e p).any Class.isMirror
      | .none | .stale => false

/-- What an evaluation decides for a piece: its targets under R49 and its classification. -/
structure Verdict where
  piece   : Piece
  primary : Bool
  twin    : Bool
  cls     : Option Class
  deriving DecidableEq, Repr

def State.judge (s : State) (e : SteerEntry) (p : Piece) : Verdict :=
  ⟨p, s.reachesPrimary e p, s.reachesTwin e p, s.pieceClass e p⟩

/-! ### Addresses and runs (R50, R144) -/

/-- The redirect of a piece in a slot's map, for the view of the slot (R71, R144). -/
def State.redirect (s : State) (k : SlotId) (v : View) (p : Piece) : Option Nat :=
  match p.kind.isData, p.region with
  | true, some i =>
    match s.region i, remapOf (s.spareMap k) i p.entry v with
    | some r, some x => some (r.spareAddr v x p.offset)
    | _, _ => none
  | _, _ => none

/-- The address of a piece in the slot's view, redirected (R50 steps 1 and 2). -/
def State.sendAddr (s : State) (k : SlotId) (v : View) (p : Piece) : Nat :=
  (s.redirect k v p).getD (if p.view = v then p.addr else p.trans)

/-- A run: the agent's address and the target's of its first word, its words, the places of its pieces in the agent's span
(R50), and whether it is a redirected piece, which stays by itself (R71, R144). -/
structure Run where
  agent : Nat
  addr  : Nat
  len   : Nat
  spans : List (Nat × Nat)
  alone : Bool := false
  deriving DecidableEq, Repr

/-- Whether a run and the one behind it are one: the later address follows the earlier, the pieces taken in ascending order
of their agent addresses (R50 step 3), so that the words on the two sides of the wrap are never one run, whatever their
addresses in the slot's view (R70, assumption 29); and neither is a redirected entry, which does not join its neighbours
whatever its spare's address (R71, R144). -/
def Run.joins (x r : Run) : Bool := r.addr == x.addr + x.len && decide (x.agent < r.agent) && !x.alone && !r.alone

/-- Pieces of one slot, in the agent's order, joined into runs (R50 step 3). -/
def joinRuns : List Run → List Run
  | [] => []
  | x :: xs =>
    match joinRuns xs with
    | [] => [x]
    | r :: rs => if x.joins r then ⟨x.agent, x.addr, x.len + r.len, x.spans ++ r.spans, false⟩ :: rs else x :: r :: rs

/-- A piece bound for a slot, as a run of its own (R50 steps 1 and 2). -/
def State.pieceRun (s : State) (k : SlotId) (v : View) (p : Piece) : Run :=
  ⟨p.addr, s.sendAddr k v p, p.len, [(p.pos, p.len)], (s.redirect k v p).isSome⟩

/-- The runs of pieces bound for a slot (R50). -/
def State.runsFor (s : State) (k : SlotId) (v : View) (ps : List Piece) : List Run := joinRuns (ps.map (s.pieceRun k v))

/-- The agent's data words of a run (R50). -/
def Run.words (data : List Word) (r : Run) : List Word := r.spans.flatMap (fun x => (data.drop x.1).take x.2)

/-- A run as one STORE (R50). -/
def Run.store (data : List Word) (r : Run) : ClaimTxn :=
  { txn := { kind := .store, count := r.len, addr := BitVec.ofNat 32 r.addr, data := r.words data }
    mark := .agentDerived }

/-- A run as one FILL with the pattern word (R50). -/
def Run.fill (data : List Word) (r : Run) : ClaimTxn :=
  { txn := { kind := .fill, count := r.len, addr := BitVec.ofNat 32 r.addr, data := [data.headD 0] }
    mark := .agentDerived }

/-! ### Claims on several queues, taken together (R51, R52, R56) -/

/-- A claim on each queue that has any transaction to receive, all of them or none. -/
def State.claimAll (s : State) : List (SlotId × List ClaimTxn) → Option State
  | [] => some s
  | (_, []) :: rest => s.claimAll rest
  | (k, c :: cs) :: rest =>
    match s.claim k (c :: cs) with
    | none => none
    | some t => t.claimAll rest

/-- The pieces a predicate picks out of an evaluation. -/
def picked (f : Verdict → Bool) (vs : List Verdict) : List Piece := (vs.filter f).map (·.piece)

/-- The claims for the primary and the twin: the runs of the pieces each receives, in its slot view (R42, R50). -/
def State.claimsFor (s : State) (e : SteerEntry) (f : Run → ClaimTxn) (toPrimary toTwin : List Piece) :
    List (SlotId × List ClaimTxn) :=
  (match e.primary with
    | some k => [(k, (s.runsFor k e.view toPrimary).map f)]
    | none => []) ++
  (match e.twin with
    | some k => [(k, (s.runsFor k e.view.other toTwin).map f)]
    | none => [])

/-! ### Side effects of a piece at the take (R49, R120 to R122) -/

def GlobalCounters.addDiscard (g : GlobalCounters) : GlobalCounters :=
  { g with noBoardDiscards := satAdd g.noBoardDiscards 1 }
def GlobalCounters.addPad (g : GlobalCounters) : GlobalCounters := { g with padWrites := satAdd g.padWrites 1 }
def GlobalCounters.addUnmapped (g : GlobalCounters) : GlobalCounters :=
  { g with unmappedStores := satAdd g.unmappedStores 1 }
def GlobalCounters.addUncovered (g : GlobalCounters) : GlobalCounters :=
  { g with uncoveredStores := satAdd g.uncoveredStores 1 }

/-- The detail of NO_BOARD_TRAFFIC (R49). -/
def SteerEntry.discardDetail (e : SteerEntry) : BitVec 8 :=
  match e.primary with
  | some k => detailOf k
  | none => 255

/-- A piece with an empty target set is discarded and counted (R49). -/
def State.countDiscard (s : State) (e : SteerEntry) (v : Verdict) : State :=
  if v.primary || v.twin then s
  else ({ s with globals := s.globals.addDiscard }).raise .noBoardTraffic e.discardDetail

/-- Pad and outside pieces of a BUILDING or TWINNED entry are counted, delivered or not (R49). -/
def State.countWithheld (s : State) (e : SteerEntry) (v : Verdict) : State :=
  match e.twinState, v.piece.kind with
  | .building, .pad | .twinned, .pad => { s with globals := s.globals.addPad }
  | .building, .outside | .twinned, .outside => { s with globals := s.globals.addUnmapped }
  | _, _ => s

/-- Uncovered pieces are counted, delivered or not (R122). -/
def State.countUncovered (s : State) (v : Verdict) : State :=
  if v.cls = some .uncovered then { s with globals := s.globals.addUncovered } else s

/-- Whether a piece covers all words of its entry (R121). -/
def State.coversEntry (s : State) (p : Piece) : Bool :=
  match p.region with
  | some i =>
    match s.region i with
    | some r => p.offset == 0 && p.len == r.width
    | none => false
  | none => false

/-- The gap report of a MIRROR piece that covers its entry and reached the twin (R121, R136). -/
def State.reportGap (s : State) (e : SteerEntry) (v : Verdict) : State :=
  match e.bound, v.piece.region with
  | some c, some i =>
    if v.cls.any Class.isMirror && v.twin && s.coversEntry v.piece then s.dropGap c i v.piece.entry else s
  | _, _ => s

/-- The revisit addition of a piece on an entry in flight that reached the primary (R120). The flag says that an
earlier addition of the same transaction ended in a rewalk or a failure. -/
def State.reportRevisit (s : State) (e : SteerEntry) (v : Verdict) (stop : Bool) : State × Bool :=
  match e.bound, v.piece.region with
  | some c, some i =>
    if v.cls = some .inFlight ∧ v.primary = true ∧ stop = false then s.addRevisit c i v.piece.entry else (s, stop)
  | _, _ => (s, stop)

/-- All that comes with one piece at the take. -/
def State.settlePiece (e : SteerEntry) (x : State × Bool) (v : Verdict) : State × Bool :=
  let s := ((x.1.countDiscard e v).countWithheld e v).countUncovered v
  (s.reportGap e v).reportRevisit e v x.2

/-- The side effects of pieces, in ascending address order (R120). -/
def State.settlePieces (s : State) (e : SteerEntry) (vs : List Verdict) : State :=
  (vs.foldl (State.settlePiece e) (s, false)).1

/-! ### STORE (R51) -/

/-- The evaluation of a STORE: its pieces, their targets and classification, computed afresh (R48). -/
def State.judgeStore (s : State) (t : Txn) (b : BoardId) : List Verdict :=
  (s.cut (s.entry b).layoutSet (s.entry b).view t.addr t.count).map (s.judge (s.entry b))

/-- The claims of a STORE at an evaluation (R50, R51). -/
def State.storeClaims (s : State) (t : Txn) (b : BoardId) : List (SlotId × List ClaimTxn) :=
  s.claimsFor (s.entry b) (Run.store t.data) (picked (·.primary) (s.judgeStore t b)) (picked (·.twin) (s.judgeStore t b))

/-- An agent STORE at the head of intake is taken if its claims fit; otherwise it stays and nothing changes (R51). -/
def State.takeStore (s : State) (t : Txn) (b : BoardId) : State :=
  match s.claimAll (s.storeClaims t b) with
  | none => s
  | some u => (u.settlePieces (s.entry b) (s.judgeStore t b)).takeHead.cutHead

/-- The head of intake, when it is of a kind and addresses a logical board, handed to a step that may take it. -/
def State.withHead (s : State) (kind : TxnKind) (f : State → Txn → BoardId → State) : State :=
  match s.intake with
  | [] => s
  | t :: _ =>
    match t.boardId with
    | some b => if t.kind = kind then f s t b else s
    | none => s

def execStoreTaken (s : State) : Host.Outcome State Fault Refusal :=
  .next (s.unlessHeld (fun s => s.withHead .store State.takeStore))

/-! ### FILL (R52, R53, R129) -/

/-- The FILL is taken: its expansion ends with it (R52). -/
def State.endFill (s : State) : State := { s with fill := none }.takeHead.cutHead

/-- Whether a slot receives the FILL whole: not BUILDING, a target of every piece, one run (R52). -/
def State.isWhole (s : State) (e : SteerEntry) (k : SlotId) (v : View) (f : Verdict → Bool) (vs : List Verdict) : Bool :=
  e.twinState != .building && vs.all f && (s.runsFor k v (vs.map (·.piece))).length == 1

/-- The slots that receive the FILL whole (R52). -/
def State.wholeSet (s : State) (e : SteerEntry) (vs : List Verdict) : List SlotId :=
  (match e.primary with
    | some k => if s.isWhole e k e.view (·.primary) vs then [k] else []
    | none => []) ++
  (match e.twin with
    | some k => if s.isWhole e k e.view.other (·.twin) vs then [k] else []
    | none => [])

/-- Whether a role's slot already received the FILL whole. -/
def hasWhole (w : List SlotId) : Option SlotId → Bool
  | some k => w.contains k
  | none => false

/-- Whether every target of every piece is a whole target, so that step 1 is the last step (R52). -/
def allWhole (e : SteerEntry) (w : List SlotId) (vs : List Verdict) : Bool :=
  vs.all (fun v => (!v.primary || hasWhole w e.primary) && (!v.twin || hasWhole w e.twin))

/-- Step 1: one FILL on each whole target's queue, together (R52). -/
def State.fillWhole (s : State) (t : Txn) (e : SteerEntry) (w : List SlotId) (ps : List Piece) (vs : List Verdict) : State :=
  match s.claimAll (s.claimsFor e (Run.fill t.data) (if hasWhole w e.primary then ps else [])
    (if hasWhole w e.twin then ps else [])) with
  | none => s
  | some u =>
    if allWhole e w vs then (u.settlePieces e vs).endFill else { u with fill := some ⟨ps, some w⟩ }

/-- A following step: one piece, for every target that did not receive the FILL whole (R52, R129). -/
def State.fillPiece (s : State) (t : Txn) (e : SteerEntry) (w : List SlotId) (p : Piece) (ps : List Piece) : State :=
  let v := s.judge e p
  match s.claimAll (s.claimsFor e (Run.fill t.data) (if v.primary && !hasWhole w e.primary then [p] else [])
    (if v.twin && !hasWhole w e.twin then [p] else [])) with
  | none => s
  | some u =>
    let u := u.settlePieces e [v]
    if ps.isEmpty then u.endFill else { u with fill := some ⟨ps, some w⟩ }

/-- One step of an agent FILL in expansion (R52). With no whole target there is no FILL to place in step 1, and
the step takes the first piece (assumption 12). -/
def State.stepFill (s : State) (t : Txn) (b : BoardId) : State :=
  match s.fill with
  | none => s
  | some x =>
    let e := s.entry b
    match x.whole, x.pieces with
    | _, [] => s.endFill
    | some w, p :: ps => s.fillPiece t e w p ps
    | none, p :: ps =>
      let vs := (p :: ps).map (s.judge e)
      if (s.wholeSet e vs).isEmpty then s.fillPiece t e [] p ps
      else s.fillWhole t e (s.wholeSet e vs) (p :: ps) vs

def execFillStep (s : State) : Host.Outcome State Fault Refusal :=
  .next (s.unlessHeld (fun s => s.withHead .fill State.stepFill))

/-! ### FETCH (R54, R55) -/

/-- A part of an agent FETCH (R54). -/
def fetchPart (tag : BitVec 8) (b : BoardId) (parts : Nat) (asm : Option Nat) (x : Run × Nat) : ClaimTxn :=
  { txn := { kind := .fetch, count := x.1.len, addr := BitVec.ofNat 32 x.1.addr }
    mark := .agentDerived
    pend := some { phase := .queued, kind := .fetch, count := x.1.len, origin := .agent tag b (x.2 + 1) parts asm } }

/-- The number of a new assembly record. -/
def State.freshAssembly (s : State) : Nat := freshNum (s.assemblies.map (·.num))

/-- The parts of a FETCH on a READY primary, numbered from 1 in address order (R54). -/
def State.fetchParts (s : State) (t : Txn) (b : BoardId) (k : SlotId) : List ClaimTxn :=
  let e := s.entry b
  let rs := s.runsFor k e.view (s.cut e.layoutSet e.view t.addr t.count)
  rs.zipIdx.map (fetchPart t.tag b rs.length (if rs.length = 1 then none else some s.freshAssembly))

/-- The assembly record of a split FETCH (R55). -/
def State.openAssembly (s : State) (num : Nat) (t : Txn) (b : BoardId) (parts : Nat) : State :=
  if parts = 1 then s
  else { s with assemblies := s.assemblies ++ [⟨num, t.tag, b, t.count, List.replicate parts none⟩] }

/-- An agent FETCH at the head of intake is answered NO-BOARD, or taken if its parts fit on the primary (R54). -/
def State.takeFetch (s : State) (t : Txn) (b : BoardId) : State :=
  match (s.entry b).primary with
  | none => (s.takeHead.pushReturn t.tag b retNoBoard t.count []).cutHead
  | some k =>
    if s.isReady k then
      match s.claim k (s.fetchParts t b k) with
      | none => s
      | some u => (u.openAssembly s.freshAssembly t b (s.fetchParts t b k).length).takeHead.cutHead
    else (s.takeHead.pushReturn t.tag b retNoBoard t.count []).cutHead

def execFetchTaken (s : State) : Host.Outcome State Fault Refusal :=
  .next (s.unlessHeld (fun s => s.withHead .fetch State.takeFetch))

/-! ### FENCE (R56) -/

/-- The primary's part of the target set of a FENCE (R56). -/
def State.fencePrimary (s : State) (e : SteerEntry) : Option SlotId := e.primary.filter s.isReady

/-- The twin's part of the target set of a FENCE: BUILDING or TWINNED, whatever was classified (R56, R130). -/
def State.fenceTwin (s : State) (e : SteerEntry) : Option SlotId :=
  match e.twinState with
  | .building | .twinned => e.twin.filter s.isReady
  | .none | .stale => none

/-- One FENCE of a group (R56). -/
def fencePart (group : Nat) (twin : Bool) : ClaimTxn :=
  { txn := { kind := .fence }, mark := .agentDerived
    pend := some { phase := .queued, kind := .fence, count := 0, origin := .fenceGroup group twin } }

/-- The number of a new fence group record. -/
def State.freshGroup (s : State) : Nat := freshNum (s.fences.map (·.num))

/-- The claims of a FENCE (R56). -/
def State.fenceClaims (s : State) (e : SteerEntry) (g : Nat) : List (SlotId × List ClaimTxn) :=
  ((s.fencePrimary e).map (fun k => (k, [fencePart g false]))).toList ++
    ((s.fenceTwin e).map (fun k => (k, [fencePart g true]))).toList

/-- The outcome of a part at the creation of its group (R56). -/
def partOutcome (missing : PartOutcome) : Option SlotId → PartOutcome
  | some _ => .sent
  | none => missing

/-- The record of a new fence group (R56). -/
def State.openGroup (s : State) (t : Txn) (b : BoardId) : FenceGroup :=
  { num := s.freshGroup, tag := t.tag, board := b, primary := partOutcome .failed (s.fencePrimary (s.entry b)),
    twin := partOutcome .absent (s.fenceTwin (s.entry b)) }

/-- An agent FENCE at the head of intake is answered NO-BOARD, or taken if its parts fit (R56). -/
def State.takeFence (s : State) (t : Txn) (b : BoardId) : State :=
  match s.fenceClaims (s.entry b) s.freshGroup with
  | [] => (s.takeHead.pushFenceDone t.tag b fenceNoBoard).cutHead
  | cs =>
    match s.claimAll cs with
    | none => s
    | some u => { u with fences := u.fences ++ [s.openGroup t b] }.takeHead.cutHead

def execFenceTaken (s : State) : Host.Outcome State Fault Refusal :=
  .next (s.unlessHeld (fun s => s.withHead .fence State.takeFence))

end Sys2Proof.Machine
end

