-- ==== Sys2Proof/Machine/NoticeRequests.lean ====
section
/-! DEFINITION. The requests on the Notice Unit (R175, R178). -/

namespace Sys2Proof.Machine

/-! ### Levels and floor (R175) -/

def parseLevel : List Nat → Option (GroupId × Level)
  | [g, l] => do
    let g ← toIndex 6 g
    let l ← toIndex 16 l
    return (g, l)
  | _ => none

/-- The change, then the NOTICEs of the kinds it opened (R175). -/
def State.setLevel (s : State) (g : GroupId) (l : Level) : State := { s with levels := s.levels.set g l }.sendOpened

def reqNoticeLevel (ps : List Nat) (s : State) : State × Answer :=
  match parseLevel ps with
  | some (g, l) => (s.setLevel g l, .done)
  | none => (s, .badArgument)

def execNoticeLevel (s : State) : Host.Outcome State Fault Refusal :=
  .next (s.unlessHeld (fun s => s.serve .noticeLevel reqNoticeLevel))

def State.setFloor (s : State) (l : Level) : State := { s with floor := l }.sendOpened

def reqNoticeFloor (ps : List Nat) (s : State) : State × Answer :=
  match parseIndex 16 ps with
  | some l => (s.setFloor l, .done)
  | none => (s, .badArgument)

def execNoticeFloor (s : State) : Host.Outcome State Fault Refusal :=
  .next (s.unlessHeld (fun s => s.serve .noticeFloor reqNoticeFloor))

/-! ### Masks (R175) -/

/-- The kinds of a list of numbers, when every one is 1 to 20. -/
def kindsOf : List Nat → Option (List NoticeKind)
  | [] => some []
  | n :: ns => do
    let k ← NoticeKind.ofNumber n
    let ks ← kindsOf ns
    return k :: ks

/-- One to sixteen kind numbers (R175). -/
def parseKinds (ps : List Nat) : Option (List NoticeKind) :=
  if 1 ≤ ps.length ∧ ps.length ≤ 16 then kindsOf ps else none

def State.setMask (m : Bool) (s : State) (k : NoticeKind) : State := s.setNotice k { s.notice k with mask := m }

def State.setMasks (s : State) (m : Bool) (ks : List NoticeKind) : State := (ks.foldl (State.setMask m) s).sendOpened

def reqMask (m : Bool) (ps : List Nat) (s : State) : State × Answer :=
  match parseKinds ps with
  | some ks => (s.setMasks m ks, .done)
  | none => (s, .badArgument)

def execMaskSet (s : State) : Host.Outcome State Fault Refusal :=
  .next (s.unlessHeld (fun s => s.serve .maskSet (reqMask true)))

def execMaskClear (s : State) : Host.Outcome State Fault Refusal :=
  .next (s.unlessHeld (fun s => s.serve .maskClear (reqMask false)))

/-! ### COLLECT (R178) -/

/-- The first eight or fewer pending kinds, and whether more remain (R178). -/
def State.collect (s : State) : State × Answer :=
  let ks := s.pendingKinds
  let taken := ks.take Config.collectSize
  (taken.foldl State.endEpisode s,
    { status := .done, words := taken.flatMap s.noticeWords, more := decide (Config.collectSize < ks.length) })

def reqCollect (ps : List Nat) (s : State) : State × Answer :=
  match ps with
  | [] => s.collect
  | _ => (s, .badArgument)

def execCollect (s : State) : Host.Outcome State Fault Refusal :=
  .next (s.unlessHeld (fun s => s.serve .collect reqCollect))

end Sys2Proof.Machine
end

