-- ==== Sys2Proof/Machine/Reading.lean ====
section
/-! DEFINITION. READ-STATE (R167, R168) and its twelve objects. -/

namespace Sys2Proof.Machine

/-! ### The request (R167) -/

/-- The objects of READ-STATE. -/
inductive Object
  | bridge | slot | steer | layout | region | context | segments | revisit | gaps | spares | notices | counters
  deriving DecidableEq, Repr

def Object.code : Object → Nat
  | .bridge => 0
  | .slot => 1
  | .steer => 2
  | .layout => 3
  | .region => 4
  | .context => 5
  | .segments => 6
  | .revisit => 7
  | .gaps => 8
  | .spares => 9
  | .notices => 10
  | .counters => 11

/-- Whether the parameter words name some object: three words, object code 0 to 11 (R167). -/
def namesObject : List Nat → Bool
  | [o, _, _] => decide (o ≤ 11)
  | _ => false

/-- Whether a step that reads an object takes a READ-STATE with these words: those that name its object, and
those that name none, which every such step answers alike (assumption 11). -/
def Object.takes (o : Object) (ps : List Nat) : Bool := !namesObject ps || ps.head? == some o.code

/-- The index and page of a READ-STATE for an object, with the page in range (R167). -/
def Object.operands (o : Object) : List Nat → Option (Nat × Nat)
  | [c, i, p] => if c = o.code ∧ p ≤ 255 then some (i, p) else none
  | _ => none

/-- READ-STATE of an object: the view of an index and page, or BAD-ARGUMENT where there is none (R167). It reads
the state as it stands once the request has left intake, and changes nothing. -/
def State.read (s : State) (o : Object) (view : State → Nat → Nat → Option Answer) : State :=
  s.decode (fun t => t.asRequest == some .readState && o.takes t.params) (fun t s =>
    (s, some
      (match o.operands t.params with
      | some (i, p) => (view s i p).getD .badArgument
      | none => .badArgument)))

/-- A view of a record object whose index is in range (R167). -/
def indexed (n : Nat) (i : Nat) (f : Fin n → Answer) : Option Answer := (toIndex n i).map f

/-! ### Packing and paging (R168) -/

/-- A field: its width in bits and its value. -/
abbrev Field := Nat × Nat

/-- Fields one after another, the first uppermost, as one number with its number of bits. -/
def packBits (fs : List Field) : Nat × Nat := fs.foldl (fun x f => (x.1 * 2 ^ f.1 + f.2 % 2 ^ f.1, x.2 + f.1)) (0, 0)

/-- Fields packed from bit 31 of the first word downward, the bits left over zero (R168). -/
def packWords (fs : List Field) : List Word :=
  let x := packBits fs
  let k := (x.2 + 31) / 32
  let n := x.1 * 2 ^ (32 * k - x.2)
  (List.range k).map (fun i => BitVec.ofNat 32 (n / 2 ^ (32 * (k - 1 - i))))

/-- The page count of a list (R168). -/
def pageCount (n : Nat) : Nat := max 1 ((n + Config.pageSize - 1) / Config.pageSize)

/-- The page of a list: header and records packed, MORE when it is not the last (R168). -/
def readList (recs : List (List Field)) (page : Nat) : Answer :=
  let served := page % pageCount recs.length
  let recsServed := (recs.drop (Config.pageSize * served)).take Config.pageSize
  { status := .done
    words := packWords ([(9, recs.length), (5, served)] ++ recsServed.flatten)
    more := decide (served + 1 < pageCount recs.length) }

/-! ### Codes of results -/

def flagCode (b : Bool) : Nat := if b then 1 else 0

/-- 255 stands for none (R61, R147). -/
def finCode {n : Nat} : Option (Fin n) → Nat
  | some k => k.val
  | none => 255

def SlotState.code : SlotState → Nat
  | .down => 0
  | .awaitHello _ => 1
  | .settling => 2
  | .ready => 3
  | .halted => 4
  | .disabled => 5

/-- Word 3 of a SLOT report (R39). -/
def SlotPort.linkCode (p : SlotPort) : Nat :=
  match p.state with
  | .down => flagCode p.presence
  | .awaitHello .retraining => 2
  | .awaitHello .listening | .settling | .ready | .halted => 3
  | .disabled => 4

def HaltSource.code : HaltSource → Nat
  | .board => 0
  | .replyTimeout => 1
  | .agent => 2

def TwinState.code : TwinState → Nat
  | .none => 0
  | .stale => 1
  | .building => 2
  | .twinned => 3

def PartCause.code : PartCause → Nat
  | .power => 0
  | .line => 1

def LastOutcome.code : LastOutcome → Nat
  | .done => 1
  | .aborted => 2
  | .closed => 3

def PauseReason.code : PauseReason → Nat
  | .agent => 1
  | .stopPoint => 2

def WalkPhase.code : WalkPhase → Nat
  | .walk => 0
  | .revisit => 1

/-- A code, or 0 for an absent field. -/
def codeOr0 {α : Type} (f : α → Nat) : Option α → Nat
  | some a => f a
  | none => 0

/-! ### BRIDGE (R169) -/

def viewBridge (s : State) (i _page : Nat) : Option Answer :=
  indexed 1 i (fun _ =>
    .results [Config.partCode, Config.revision, s.startRecord.cause.code, s.startRecord.softResets.toNat])

def execReadStateBridge (s : State) : Host.Outcome State Fault Refusal :=
  .next (s.unlessHeld (fun s => s.read .bridge viewBridge))

/-! ### SLOT (R39) -/

/-- The number of QUEUED and SENT entries. -/
def SlotPort.pendCount (p : SlotPort) : Nat := p.pend.toList.countP (·.isSome)

def slotWords (k : SlotId) (p : SlotPort) : List Nat :=
  [k.val, p.state.code, p.linkCode, p.credits, p.queue.length, p.pendCount, flagCode p.arrival.isSome,
   codeOr0 (fun a => a.boardClass.toNat) p.arrival, codeOr0 (fun a => a.cause.code) p.arrival, p.helloFailures,
   flagCode p.halt.isSome, codeOr0 (fun h => h.source.code) p.halt, codeOr0 (fun h => h.reason.toNat) p.halt]

def viewSlot (s : State) (i _page : Nat) : Option Answer := indexed 8 i (fun k => .results (slotWords k (s.slot k)))

def execReadStateSlot (s : State) : Host.Outcome State Fault Refusal :=
  .next (s.unlessHeld (fun s => s.read .slot viewSlot))

/-! ### STEER (R61) -/

def steerWords (b : BoardId) (e : SteerEntry) : List Nat :=
  [b.val, finCode e.primary, finCode e.twin, e.twinState.code, e.layoutSet.val, e.view.code, flagCode e.autoSwap,
   finCode e.bound]

def viewSteer (s : State) (i _page : Nat) : Option Answer := indexed 15 i (fun b => .results (steerWords b (s.entry b)))

def execReadStateSteer (s : State) : Host.Outcome State Fault Refusal :=
  .next (s.unlessHeld (fun s => s.read .steer viewSteer))

/-! ### LAYOUT and REGION (R78) -/

def layoutWords (s : State) (l : SetId) : List Nat :=
  [l.val, (s.layout l).baseA.toNat, (s.layout l).capA, (s.layout l).baseB.toNat, (s.layout l).capB,
   (s.regionsOf l).length, allBoards.countP (fun b => (s.entry b).primary.isSome && (s.entry b).layoutSet == l),
   flagCode (s.setInUse l)]

def viewLayout (s : State) (i _page : Nat) : Option Answer := indexed 4 i (fun l => .results (layoutWords s l))

def execReadStateLayout (s : State) : Host.Outcome State Fault Refusal :=
  .next (s.unlessHeld (fun s => s.read .layout viewLayout))

def regionWords (s : State) (i : RegionId) : List Nat :=
  match s.region i with
  | none => [i.val, 255] ++ List.replicate 14 0
  | some r =>
    [i.val, r.set.val, r.width, r.entries, r.geomA.base.toNat, r.geomA.pitch, r.geomB.base.toNat, r.geomB.pitch,
     r.mode.code, r.verify.getD 0, r.poison.toNat, r.geomA.spareBase.toNat, r.geomA.spareCount,
     r.geomB.spareBase.toNat, r.geomB.spareCount, flagCode (s.regionHeld i)]

def viewRegion (s : State) (i _page : Nat) : Option Answer := indexed 64 i (fun r => .results (regionWords s r))

def execReadStateRegion (s : State) : Host.Outcome State Fault Refusal :=
  .next (s.unlessHeld (fun s => s.read .region viewRegion))

/-! ### CONTEXT and SEGMENTS (R97) -/

/-- Page 0, setup and outcome. -/
def ctxWords0 (s : State) (c : CtxId) : List Nat :=
  let x := s.ctx c
  [c.val, x.state.code, x.board.val, flagCode ((s.entry x.board).bound == some c), x.src.val, x.dst.val, x.srcView.code,
   x.priority.val, x.pace.getD 0, x.window, x.rewalkLimit + 8 * flagCode x.autoCutover,
   codeOr0 FailReason.code x.failReason, codeOr0 LastOutcome.code x.outcome]

/-- Words 10 to 13 of page 1. -/
def stopWords : Option StopPoint → List Nat
  | none => [0, 0, 0, 0]
  | some p => [if p.again then 2 else 1, finCode p.region, p.value.toNat, p.mask.toNat]

/-- Page 1, progress. -/
def ctxWords1 (s : State) (c : CtxId) : List Nat :=
  let x := s.ctx c
  [c.val, x.state.code, x.segs.length, codeOr0 (· + 1) x.cur, x.frontier, x.phase.code, x.rewalkCount,
   x.flights.length, x.verifyCounter] ++ stopWords x.stop ++
  [codeOr0 PauseReason.code x.pauseReason, 256 - s.usedSegments.length]

/-- Two pages, taken modulo 2; MORE on page 0 (R97). -/
def viewContext (s : State) (i page : Nat) : Option Answer :=
  indexed 16 i (fun c =>
    if page % 2 = 0 then { Answer.results (ctxWords0 s c) with more := true } else .results (ctxWords1 s c))

def execReadStateContext (s : State) : Host.Outcome State Fault Refusal :=
  .next (s.unlessHeld (fun s => s.read .context viewContext))

def Segment.fields (g : Segment) : List Field := [(8, g.num.val), (6, g.region.val), (24, g.first), (24, g.count - 1)]

def viewSegments (s : State) (i page : Nat) : Option Answer :=
  indexed 16 i (fun c => readList ((s.ctx c).segs.map Segment.fields) page)

def execReadStateSegments (s : State) : Host.Outcome State Fault Refusal :=
  .next (s.unlessHeld (fun s => s.read .segments viewSegments))

/-! ### REVISIT (R131) -/

def Range.fields (g : Range) : List Field := [(7, g.num.val), (6, g.region.val), (24, g.first), (24, g.last)]

def viewRevisit (s : State) (i page : Nat) : Option Answer :=
  indexed 16 i (fun c => readList ((s.ctx c).revisit.map Range.fields) page)

def execReadStateRevisit (s : State) : Host.Outcome State Fault Refusal :=
  .next (s.unlessHeld (fun s => s.read .revisit viewRevisit))

/-! ### GAPS and SPARES (R147) -/

def Gap.fields (g : Gap) : List Field := [(4, g.ctx.val), (6, g.region.val), (24, g.entry)]

/-- Index 16 reads the whole list (R147). -/
def viewGaps (s : State) (i page : Nat) : Option Answer :=
  if i = 16 then some (readList (s.gaps.map Gap.fields) page)
  else indexed 16 i (fun c => readList ((s.gapsOf c).map Gap.fields) page)

def execReadStateGaps (s : State) : Host.Outcome State Fault Refusal :=
  .next (s.unlessHeld (fun s => s.read .gaps viewGaps))

/-- A RETIRED record has no entry, owner or tally: entry 0, owner 255, tally 0 (R147). -/
def SpareRec.fields : SpareRec → List Field
  | .remap r e v i o t => [(1, 0), (6, r.val), (24, e), (1, v.code), (4, i), (8, finCode o), (2, t)]
  | .retired r v i => [(1, 1), (6, r.val), (24, 0), (1, v.code), (4, i), (8, 255), (2, 0)]

def viewSpares (s : State) (i page : Nat) : Option Answer :=
  indexed 8 i (fun k => readList ((s.spareMap k).map SpareRec.fields) page)

def execReadStateSpares (s : State) : Host.Outcome State Fault Refusal :=
  .next (s.unlessHeld (fun s => s.read .spares viewSpares))

/-! ### NOTICES and COUNTERS (R179, R181) -/

def noticeFields (s : State) (k : NoticeKind) : List Field :=
  let r := s.notice k
  [(5, k.index.val + 1), (3, k.group.val), (4, (s.levelOf k).val), (4, s.floor.val), (1, flagCode r.mask),
   (1, flagCode r.pending), (1, flagCode r.sent), (16, r.count.toNat), (8, r.detail.toNat)]

def viewNotices (s : State) (i page : Nat) : Option Answer :=
  indexed 1 i (fun _ => readList (NoticeKind.all.map (noticeFields s)) page)

def execReadStateNotices (s : State) : Host.Outcome State Fault Refusal :=
  .next (s.unlessHeld (fun s => s.read .notices viewNotices))

/-- The records of counters numbered from n on (R181). -/
def counterRecords (n : Nat) (cs : List Word) : List (List Field) := cs.zipIdx.map (fun x => [(6, n + x.2), (32, x.1.toNat)])

/-- Counters 1 to 6 (R180). -/
def GlobalCounters.list (g : GlobalCounters) : List Word :=
  [g.agentOverruns, g.agentCheckErrors, g.noBoardDiscards, g.padWrites, g.unmappedStores, g.uncoveredStores]

/-- Counters 7 to 10 (R180). -/
def SlotCounters.list (c : SlotCounters) : List Word := [c.sent, c.checkErrors, c.replyTimeouts, c.helloTimeouts]

/-- Counters 11 to 17 (R180). -/
def CtxCounters.list (c : CtxCounters) : List Word :=
  [c.entriesWritten, c.correctedReads, c.revisitsAdded, c.rewalks, c.verifies, c.sparesUsed, c.gapsAdded]

/-- The scope of an index: global, slot index − 1, context index − 9 (R181). -/
def viewCounters (s : State) (i page : Nat) : Option Answer :=
  if i = 0 then some (readList (counterRecords 1 s.globals.list) page)
  else if i ≤ 8 then indexed 8 (i - 1) (fun k => readList (counterRecords 7 (s.slot k).counters.list) page)
  else indexed 16 (i - 9) (fun c => readList (counterRecords 11 (s.ctx c).counters.list) page)

def execReadStateCounters (s : State) : Host.Outcome State Fault Refusal :=
  .next (s.unlessHeld (fun s => s.read .counters viewCounters))

end Sys2Proof.Machine
end

