-- ==== Sys2Proof/Machine/RegionRequests.lean ====
section
/-! DEFINITION. The requests on the Region Map (R72 to R76). -/

namespace Sys2Proof.Machine

/-! ### LAYOUT-SET (R73) -/

/-- A window that occupies words must end at or below the top of the address space (R73). -/
def windowInRange (base cap : Nat) : Bool := cap == 0 || decide (base + 2 * cap ≤ Config.addressTop)

def parseLayout : List Nat → Option (SetId × LayoutSet)
  | [l, ba, ca, bb, cb] => do
    let l ← toIndex 4 l
    let ca ← toRange 0 64 ca
    let cb ← toRange 0 64 cb
    if windowInRange ba ca && windowInRange bb cb then
      return (l, ⟨BitVec.ofNat 32 ba, ca, BitVec.ofNat 32 bb, cb⟩)
    else none
  | _ => none

/-- The state stage: the set is in use, or a region of it is held (R72). -/
def State.layoutLocked (s : State) (l : SetId) : Bool :=
  s.setInUse l || (s.regionsOf l).any (fun x => s.regionHeld x.1)

def State.setLayout (s : State) (l : SetId) (x : LayoutSet) : State × Answer :=
  if s.layoutLocked l then (s, .refusedState)
  else if s.windowClash l x .A || s.windowClash l x .B then (s, .badArgument)
  else ({ s with layouts := s.layouts.set l x }, .done)

def reqLayoutSet (ps : List Nat) (s : State) : State × Answer :=
  match parseLayout ps with
  | some (l, x) => s.setLayout l x
  | none => (s, .badArgument)

def execLayoutSet (s : State) : Host.Outcome State Fault Refusal :=
  .next (s.unlessHeld (fun s => s.serve .layoutSet reqLayoutSet))

/-! ### REGION-LOAD (R74, R75) -/

/-- The range stage of a geometry: pitch, extent and spare area below the top of the address space (R74). -/
def parseGeometry (width count base pitch spareBase spareCount : Nat) : Option Geometry := do
  let pitch ← toRange width 256 pitch
  let spareCount ← toRange 0 16 spareCount
  if base + count * pitch ≤ Config.addressTop ∧
      (spareCount = 0 ∨ spareBase + spareCount * pitch ≤ Config.addressTop) then
    return ⟨BitVec.ofNat 32 base, pitch, BitVec.ofNat 32 spareBase, spareCount⟩
  else none

/-- The verify mode word: 0 for NONE, n for SAMPLE n (R74). -/
def toVerify (v : Nat) : Option (Option Nat) := if v = 0 then some none else (toRange 1 255 v).map some

def parseRegion : List Nat → Option (RegionId × Region)
  | [i, l, w, n, ba, pa, bb, pb, m, v, poison, sba, sca, sbb, scb] => do
    let i ← toIndex 64 i
    let l ← toIndex 4 l
    let w ← toRange 1 16 w
    let n ← toRange 1 16777216 n
    let ga ← parseGeometry w n ba pa sba sca
    let gb ← parseGeometry w n bb pb sbb scb
    let m ← toMode m
    let v ← toVerify v
    return (i, ⟨l, w, n, ga, gb, m, v, BitVec.ofNat 32 poison⟩)
  | _ => none

/-- The state stage: the record is loaded and held, or the set named is in use (R72). -/
def State.loadLocked (s : State) (i : RegionId) (l : SetId) : Bool :=
  ((s.region i).isSome && s.regionHeld i) || s.setInUse l

def State.loadRegion (s : State) (i : RegionId) (r : Region) : State × Answer :=
  if s.loadLocked i r.set then (s, .refusedState)
  else if s.loadClash i r .A || s.loadClash i r .B then (s, .badArgument)
  else (s.setRegion i (some r), .done)

def reqRegionLoad (ps : List Nat) (s : State) : State × Answer :=
  match parseRegion ps with
  | some (i, r) => s.loadRegion i r
  | none => (s, .badArgument)

def execRegionLoad (s : State) : Host.Outcome State Fault Refusal :=
  .next (s.unlessHeld (fun s => s.serve .regionLoad reqRegionLoad))

/-! ### REGION-CLEAR (R76) -/

def State.clearRegion (s : State) (i : RegionId) : State × Answer :=
  if s.region i = none then (s, .noSuch)
  else if s.regionHeld i then (s, .refusedState)
  else (s.setRegion i none, .done)

def reqRegionClear (ps : List Nat) (s : State) : State × Answer :=
  match parseIndex 64 ps with
  | some i => s.clearRegion i
  | none => (s, .badArgument)

def execRegionClear (s : State) : Host.Outcome State Fault Refusal :=
  .next (s.unlessHeld (fun s => s.serve .regionClear reqRegionClear))

end Sys2Proof.Machine
end

