-- ==== Sys2Proof/Machine/Slots.lean ====
section
/-! DEFINITION. The slot events: presence, training, timers, transactions from a board, sending to a board (chapters 1 and 2). -/

namespace Sys2Proof.Machine

/-! ### Presence and link (R25, R26, R29) -/

/-- The presence line becomes active; in DOWN the slot trains from now on (R25). It is a pin, and follows the
shelf while the part is held in reset too. -/
def execSlotPresenceActive (k : SlotId) (s : State) : Host.Outcome State Fault Refusal :=
  .next (s.modSlot k (fun p => { p with presence := true }))

/-- The presence line becomes inactive: a slot outside DOWN goes to DOWN (R25, R26). -/
def execSlotPresenceLost (k : SlotId) (s : State) : Host.Outcome State Fault Refusal :=
  let t := s.modSlot k (fun p => { p with presence := false })
  .next (t.unlessHeld (fun t => t.goDown k))

/-- Training completes: from DOWN with the board seated, or from the retraining phase (R25, R29). -/
def State.linkUp (s : State) (k : SlotId) : State :=
  match (s.slot k).state with
  | .down => if (s.slot k).presence then s.modSlot k SlotPort.listen else s
  | .awaitHello .retraining => s.modSlot k SlotPort.listen
  | .awaitHello .listening | .settling | .ready | .halted | .disabled => s

def execSlotLinkUp (k : SlotId) (s : State) : Host.Outcome State Fault Refusal :=
  .next (s.unlessHeld (fun s => s.linkUp k))

/-- The slot's link is lost; in DOWN that is a failed training, with no effect (R25, R26, R29). -/
def execSlotLinkLost (k : SlotId) (s : State) : Host.Outcome State Fault Refusal :=
  .next (s.unlessHeld (fun s => s.goDown k))

/-! ### Timers (R22, R28, R33) -/

/-- The counter, the failure count and HELLO_MISSING of an expiry (R28). -/
def State.helloMissed (s : State) (k : SlotId) : State :=
  (s.modSlot k (fun p => { p with
    counters := p.counters.addHelloTimeout
    helloFailures := p.helloFailures + 1 })).raise .helloMissing (detailOf k)

/-- The link is held idle (R28). -/
def SlotPort.disable (p : SlotPort) : SlotPort := { p with state := .disabled, helloTimer := none, credits := 0 }

/-- Expiry of the HELLO timer: retraining, or DISABLED at the third failure (R28). -/
def State.helloExpires (s : State) (k : SlotId) : State :=
  if (s.slot k).state = .awaitHello .listening then
    let t := s.helloMissed k
    if (t.slot k).helloFailures < Config.helloLimit then t.modSlot k SlotPort.retrain
    else (t.modSlot k SlotPort.disable).raise .slotDisabled (detailOf k)
  else s

def execHelloTimerExpiry (k : SlotId) (s : State) : Host.Outcome State Fault Refusal :=
  .next (s.unlessHeld (fun s => s.helloExpires k))

/-- Expiry of the settle timer: READY, SLOT_UP, and the report to the Migration Engine (R33, R86). -/
def State.settleExpires (s : State) (k : SlotId) : State :=
  if (s.slot k).state = .settling then
    ((s.modSlot k (fun p => { p with state := .ready, settleTimer := none })).raise .slotUp (detailOf k)).engineEntered k
  else s

def execSettleTimerExpiry (k : SlotId) (s : State) : Host.Outcome State Fault Refusal :=
  .next (s.unlessHeld (fun s => s.settleExpires k))

/-- Whether a pending entry is SENT, which is when its reply timer runs (R22). -/
def SlotPort.isSent (p : SlotPort) (i : PendIdx) : Bool :=
  match p.pend[i] with
  | some e => e.phase == .sent
  | none => false

/-- Expiry of the reply timer of a SENT entry: the counter, then HALTED with source REPLY_TIMEOUT (R22). -/
def State.replyExpires (s : State) (k : SlotId) (i : PendIdx) : State :=
  if s.isReady k ∧ (s.slot k).isSent i then
    (s.modSlot k (fun p => { p with counters := p.counters.addReplyTimeout })).goHalted k .replyTimeout 0
  else s

def execReplyTimerExpiry (k : SlotId) (i : PendIdx) (s : State) : Host.Outcome State Fault Refusal :=
  .next (s.unlessHeld (fun s => s.replyExpires k i))

/-! ### Transactions from a board (R11 to R13, R18, R30 to R34) -/

/-- The transaction of a kind that these words bring to a slot that receives from its board (R5, R11). -/
def State.boardBrings (s : State) (k : SlotId) (kind : TxnKind) (f : Frame) : Option Txn :=
  if (s.slot k).state.receives then
    match acceptBoard f with
    | some t => if t.kind = kind then some t else none
    | none => none
  else none

/-- An accepted GRANT adds its credits (R11, R13). -/
def State.grantArrives (s : State) (k : SlotId) (f : Frame) : State :=
  match s.boardBrings k .grant f with
  | some t => s.addCredits k t.count
  | none => s

def execGrantReceived (k : SlotId) (f : Frame) (s : State) : Host.Outcome State Fault Refusal :=
  .next (s.unlessHeld (fun s => s.grantArrives k f))

/-- An accepted HELLO (R30 to R32). -/
def State.helloArrives (s : State) (k : SlotId) (f : Frame) : State :=
  match s.boardBrings k .hello f with
  | some t =>
    match t.startCause with
    | some c => s.helloAccepted k ⟨t.boardClass, c⟩
    | none => s
  | none => s

def execHelloReceived (k : SlotId) (f : Frame) (s : State) : Host.Outcome State Fault Refusal :=
  .next (s.unlessHeld (fun s => s.helloArrives k f))

/-- An accepted HALT (R34). -/
def State.haltArrives (s : State) (k : SlotId) (f : Frame) : State :=
  match s.boardBrings k .halt f with
  | some t => s.haltAccepted k t.haltReason
  | none => s

def execHaltReceived (k : SlotId) (f : Frame) (s : State) : Host.Outcome State Fault Refusal :=
  .next (s.unlessHeld (fun s => s.haltArrives k f))

/-- An accepted RETURN (R11, R18, R19). -/
def State.returnArrives (s : State) (k : SlotId) (f : Frame) : State :=
  match s.boardBrings k .ret f with
  | some t => s.replyAccepted k .fetch t
  | none => s

def execReturnReceived (k : SlotId) (f : Frame) (s : State) : Host.Outcome State Fault Refusal :=
  .next (s.unlessHeld (fun s => s.returnArrives k f))

/-- An accepted FENCE-DONE (R11, R18, R19). -/
def State.fenceDoneArrives (s : State) (k : SlotId) (f : Frame) : State :=
  match s.boardBrings k .fenceDone f with
  | some t => s.replyAccepted k .fence t
  | none => s

def execFenceDoneReceived (k : SlotId) (f : Frame) (s : State) : Host.Outcome State Fault Refusal :=
  .next (s.unlessHeld (fun s => s.fenceDoneArrives k f))

/-- Words that R5 rejects, on a link that is trained: discarded, counted and noticed (R12). -/
def State.badWordsArrive (s : State) (k : SlotId) (f : Frame) : State :=
  if (s.slot k).state.receives ∧ acceptBoard f = none then s.rejectBoard k else s

def execBoardTransactionRejected (k : SlotId) (f : Frame) (s : State) : Host.Outcome State Fault Refusal :=
  .next (s.unlessHeld (fun s => s.badWordsArrive k f))

/-! ### Sending (R15) -/

def execSlotSend (k : SlotId) (s : State) : Host.Outcome State Fault Refusal :=
  .next (s.unlessHeld (fun s => s.sendSlot k))

end Sys2Proof.Machine
end

