-- ==== Sys2Proof/Machine/SteeringRequests.lean ====
section
/-! DEFINITION. The requests on the steering table (R43 to R46). -/

namespace Sys2Proof.Machine

/-- Whether the twin state holds the entry for a rebuild or a pair. -/
def SteerEntry.paired (e : SteerEntry) : Bool := e.twinState == .building || e.twinState == .twinned

/-! ### STEER-SET (R43) -/

structure SteerParams where
  board    : BoardId
  slot     : SlotId
  set      : SetId
  view     : View
  autoSwap : Bool
  deriving DecidableEq, Repr

def parseSteer : List Nat → Option SteerParams
  | [b, k, l, v, a] => do
    let b ← toIndex 15 b
    let k ← toIndex 8 k
    let l ← toIndex 4 l
    let v ← toView v
    let a ← toFlag a
    return ⟨b, k, l, v, a⟩
  | _ => none

/-- Whether a slot may be the primary of an entry: no other entry names it, and it is not the entry's twin (R43). -/
def State.slotFreeFor (s : State) (b : BoardId) (k : SlotId) : Bool :=
  (s.entry b).twin != some k &&
    allBoards.all (fun x => x == b || ((s.entry x).primary != some k && (s.entry x).twin != some k))

/-- Whether the geometry given is the one the entry holds (R43). -/
def SteerEntry.sameGeometry (e : SteerEntry) (p : SteerParams) : Bool :=
  e.primary == some p.slot && e.layoutSet == p.set && e.view == p.view

def State.setSteer (s : State) (p : SteerParams) : State :=
  s.setEntry p.board { s.entry p.board with
    primary := some p.slot, layoutSet := p.set, view := p.view, autoSwap := p.autoSwap }

def reqSteerSet (ps : List Nat) (s : State) : State × Answer :=
  match parseSteer ps with
  | none => (s, .badArgument)
  | some p =>
    if s.slotFreeFor p.board p.slot = false then (s, .refusedState)
    else if (s.entry p.board).paired = true ∧ (s.entry p.board).sameGeometry p = false then (s, .refusedState)
    else (s.setSteer p, .done)

def execSteerSet (s : State) : Host.Outcome State Fault Refusal :=
  .next (s.unlessHeld (fun s => s.serve .steerSet reqSteerSet))

/-! ### STEER-CLEAR (R44) -/

def State.clearSteer (s : State) (b : BoardId) : State × Answer :=
  if (s.entry b).primary = none then (s, .noSuch)
  else if (s.entry b).paired then (s, .refusedState)
  else (s.setEntry b {}, .done)

def reqSteerClear (ps : List Nat) (s : State) : State × Answer :=
  match parseIndex 15 ps with
  | some b => s.clearSteer b
  | none => (s, .badArgument)

def execSteerClear (s : State) : Host.Outcome State Fault Refusal :=
  .next (s.unlessHeld (fun s => s.serve .steerClear reqSteerClear))

/-! ### TWIN-SET and TWIN-CLEAR (R45) -/

def parseTwin : List Nat → Option (BoardId × SlotId)
  | [b, k] => do
    let b ← toIndex 15 b
    let k ← toIndex 8 k
    return (b, k)
  | _ => none

def State.setTwin (s : State) (b : BoardId) (k : SlotId) : State × Answer :=
  if (s.entry b).primary = none then (s, .noSuch)
  else
    match (s.entry b).twinState with
    | .none =>
      if (s.boardNaming k).isSome then (s, .refusedState)
      else (s.setEntry b { s.entry b with twin := some k, twinState := .stale }, .done)
    | .stale | .building | .twinned => (s, .refusedState)

def reqTwinSet (ps : List Nat) (s : State) : State × Answer :=
  match parseTwin ps with
  | some (b, k) => s.setTwin b k
  | none => (s, .badArgument)

def execTwinSet (s : State) : Host.Outcome State Fault Refusal :=
  .next (s.unlessHeld (fun s => s.serve .twinSet reqTwinSet))

def State.clearTwin (s : State) (b : BoardId) : State × Answer :=
  if (s.entry b).primary = none then (s, .noSuch)
  else
    match (s.entry b).twinState with
    | .stale => (s.setEntry b { s.entry b with twin := none, twinState := .none }, .done)
    | .none | .building | .twinned => (s, .refusedState)

def reqTwinClear (ps : List Nat) (s : State) : State × Answer :=
  match parseIndex 15 ps with
  | some b => s.clearTwin b
  | none => (s, .badArgument)

def execTwinClear (s : State) : Host.Outcome State Fault Refusal :=
  .next (s.unlessHeld (fun s => s.serve .twinClear reqTwinClear))

/-! ### SWAP (R46) -/

/-- Whether the slot of an optional name is READY. -/
def State.readyOpt (s : State) : Option SlotId → Bool
  | some k => s.isReady k
  | none => false

/-- The entry after a SWAP: the new twin, the former primary, stays TWINNED only if it is READY (R46). -/
def State.swapEntry (s : State) (e : SteerEntry) : SteerEntry :=
  { e.swapped with twinState := if s.readyOpt e.primary then .twinned else .stale }

def State.swap (s : State) (b : BoardId) : State × Answer :=
  if (s.entry b).primary = none then (s, .noSuch)
  else if (s.entry b).twinState = .twinned then (s.setEntry b (s.swapEntry (s.entry b)), .done)
  else (s, .refusedState)

def reqSwap (ps : List Nat) (s : State) : State × Answer :=
  match parseIndex 15 ps with
  | some b => s.swap b
  | none => (s, .badArgument)

def execSwap (s : State) : Host.Outcome State Fault Refusal :=
  .next (s.unlessHeld (fun s => s.serve .swap reqSwap))

end Sys2Proof.Machine
end

