-- ==== Sys2Proof/Machine/Walk.lean ====
section
/-! DEFINITION. The walk's steps: the arbiter's grants, the pace timer, and the claims of the Migration Engine (chapters 6, 8 and 9). -/

namespace Sys2Proof.Machine

/-- A grant of the arbiter when the next work of the context it chooses is of the kind asked for (R100, R102). -/
def State.grantIf (s : State) (zero : Bool) (f : State → CtxId → Work → State) : State :=
  match s.arbiter with
  | none => s
  | some c =>
    match s.nextWork c with
    | none => s
    | some w => if w.zero = zero then f s c w else s

/-- The arbiter grants a fetch, or the stop point fires (R90, R103). -/
def execWalkFetchIssue (s : State) : Host.Outcome State Fault Refusal :=
  .next (s.unlessHeld (fun s => s.grantIf false State.grantFetch))

/-- The arbiter grants a zero fill (R104). -/
def execZeroFillIssue (s : State) : Host.Outcome State Fault Refusal :=
  .next (s.unlessHeld (fun s => s.grantIf true State.grantZero))

/-- A pace timer expires and becomes stopped (R91). -/
def execPaceTimerExpiry (c : CtxId) (s : State) : Host.Outcome State Fault Refusal :=
  .next (s.unlessHeld (fun s => s.modCtx c (fun x => { x with paceRunning := false })))

/-- The write claim of a STAGED record (R107, R134). -/
def execWriteClaimTaken (c : CtxId) (n : FlightNum) (s : State) : Host.Outcome State Fault Refusal :=
  .next (s.unlessHeld (fun s => s.takeWrite c n))

/-- The read-back claim of a record in VERIFY (R139). -/
def execVerifyClaimTaken (c : CtxId) (n : FlightNum) (s : State) : Host.Outcome State Fault Refusal :=
  .next (s.unlessHeld (fun s => s.takeVerify c n))

/-- The cutover claim (R152). -/
def execCutoverClaimTaken (c : CtxId) (s : State) : Host.Outcome State Fault Refusal :=
  .next (s.unlessHeld (fun s => s.takeCutover c))

end Sys2Proof.Machine
end

