-- ==== Sys2Proof/Machine/Dispatch.lean ====
section
/-! DEFINITION. The meaning of every command: one arm per constructor of Instr. -/

namespace Sys2Proof.Machine

/-- The effect of a command on everything but the queue. -/
def exec (i : Instr) (s : State) : Host.Outcome State Fault Refusal :=
  match i with
  | .powerOnReset => Sys2Proof.Machine.execPowerOnReset s
  | .resetLineAssert => Sys2Proof.Machine.execResetLineAssert s
  | .resetLineRelease => Sys2Proof.Machine.execResetLineRelease s
  | .startingComplete => Sys2Proof.Machine.execStartingComplete s
  | .agentArrival f => Sys2Proof.Machine.execAgentArrival f s
  | .agentLinkLost => Sys2Proof.Machine.execAgentLinkLost s
  | .agentLinkUp => Sys2Proof.Machine.execAgentLinkUp s
  | .upstreamSend => Sys2Proof.Machine.execUpstreamSend s
  | .storeTaken => Sys2Proof.Machine.execStoreTaken s
  | .fillStep => Sys2Proof.Machine.execFillStep s
  | .fetchTaken => Sys2Proof.Machine.execFetchTaken s
  | .fenceTaken => Sys2Proof.Machine.execFenceTaken s
  | .slotPresenceActive k => Sys2Proof.Machine.execSlotPresenceActive k s
  | .slotPresenceLost k => Sys2Proof.Machine.execSlotPresenceLost k s
  | .slotLinkUp k => Sys2Proof.Machine.execSlotLinkUp k s
  | .slotLinkLost k => Sys2Proof.Machine.execSlotLinkLost k s
  | .helloTimerExpiry k => Sys2Proof.Machine.execHelloTimerExpiry k s
  | .settleTimerExpiry k => Sys2Proof.Machine.execSettleTimerExpiry k s
  | .replyTimerExpiry k n => Sys2Proof.Machine.execReplyTimerExpiry k n s
  | .grantReceived k f => Sys2Proof.Machine.execGrantReceived k f s
  | .helloReceived k f => Sys2Proof.Machine.execHelloReceived k f s
  | .haltReceived k f => Sys2Proof.Machine.execHaltReceived k f s
  | .returnReceived k f => Sys2Proof.Machine.execReturnReceived k f s
  | .fenceDoneReceived k f => Sys2Proof.Machine.execFenceDoneReceived k f s
  | .boardTransactionRejected k f => Sys2Proof.Machine.execBoardTransactionRejected k f s
  | .slotSend k => Sys2Proof.Machine.execSlotSend k s
  | .walkFetchIssue => Sys2Proof.Machine.execWalkFetchIssue s
  | .zeroFillIssue => Sys2Proof.Machine.execZeroFillIssue s
  | .paceTimerExpiry c => Sys2Proof.Machine.execPaceTimerExpiry c s
  | .writeClaimTaken c n => Sys2Proof.Machine.execWriteClaimTaken c n s
  | .verifyClaimTaken c n => Sys2Proof.Machine.execVerifyClaimTaken c n s
  | .cutoverClaimTaken c => Sys2Proof.Machine.execCutoverClaimTaken c s
  | .unknownRequest => Sys2Proof.Machine.execUnknownRequest s
  | .readStateBridge => Sys2Proof.Machine.execReadStateBridge s
  | .readStateSlot => Sys2Proof.Machine.execReadStateSlot s
  | .readStateSteer => Sys2Proof.Machine.execReadStateSteer s
  | .readStateLayout => Sys2Proof.Machine.execReadStateLayout s
  | .readStateRegion => Sys2Proof.Machine.execReadStateRegion s
  | .readStateContext => Sys2Proof.Machine.execReadStateContext s
  | .readStateSegments => Sys2Proof.Machine.execReadStateSegments s
  | .readStateRevisit => Sys2Proof.Machine.execReadStateRevisit s
  | .readStateGaps => Sys2Proof.Machine.execReadStateGaps s
  | .readStateSpares => Sys2Proof.Machine.execReadStateSpares s
  | .readStateNotices => Sys2Proof.Machine.execReadStateNotices s
  | .readStateCounters => Sys2Proof.Machine.execReadStateCounters s
  | .softReset => Sys2Proof.Machine.execSoftReset s
  | .countersClear => Sys2Proof.Machine.execCountersClear s
  | .slotRetry => Sys2Proof.Machine.execSlotRetry s
  | .slotHalt => Sys2Proof.Machine.execSlotHalt s
  | .steerSet => Sys2Proof.Machine.execSteerSet s
  | .steerClear => Sys2Proof.Machine.execSteerClear s
  | .twinSet => Sys2Proof.Machine.execTwinSet s
  | .twinClear => Sys2Proof.Machine.execTwinClear s
  | .swap => Sys2Proof.Machine.execSwap s
  | .layoutSet => Sys2Proof.Machine.execLayoutSet s
  | .regionLoad => Sys2Proof.Machine.execRegionLoad s
  | .regionClear => Sys2Proof.Machine.execRegionClear s
  | .ctxOpen => Sys2Proof.Machine.execCtxOpen s
  | .segAppend => Sys2Proof.Machine.execSegAppend s
  | .ctxStart => Sys2Proof.Machine.execCtxStart s
  | .ctxPause => Sys2Proof.Machine.execCtxPause s
  | .ctxResume => Sys2Proof.Machine.execCtxResume s
  | .stopPoint => Sys2Proof.Machine.execStopPoint s
  | .ctxAbort => Sys2Proof.Machine.execCtxAbort s
  | .ctxClose => Sys2Proof.Machine.execCtxClose s
  | .ctxCutover => Sys2Proof.Machine.execCtxCutover s
  | .gapWaive => Sys2Proof.Machine.execGapWaive s
  | .spareDrop => Sys2Proof.Machine.execSpareDrop s
  | .noticeLevel => Sys2Proof.Machine.execNoticeLevel s
  | .noticeFloor => Sys2Proof.Machine.execNoticeFloor s
  | .maskSet => Sys2Proof.Machine.execMaskSet s
  | .maskClear => Sys2Proof.Machine.execMaskClear s
  | .collect => Sys2Proof.Machine.execCollect s

end Sys2Proof.Machine
end

