-- ==== Sys2Proof/Safety.lean ====
section
/-! DEFINITION. The invariants of the part that the spec's rules state, as predicates of a state, and the vocabulary of the statements. -/

namespace Sys2Proof.Machine

/-! ### The vocabulary of the statements -/

/-- A GRANT toward the agent (R9). -/
def Txn.grantOf (n : Nat) : Txn := { kind := .grant, board := 15, count := n }

/-- The MGMT-REPLY to a request: board 15, its tag, an outcome, its kind echoed, the result words (R165). -/
def Txn.replyTo (t : Txn) (st : ReplyStatus) (words : List Word) (more : Bool) : Txn :=
  { kind := .mgmtReply, board := 15, status := st.code, tag := t.tag, more := more, count := words.length,
    addr := t.request.zeroExtend 32, data := words }

/-- The RETURN that answers an agent FETCH without a board (R20, R54). -/
def Txn.noBoardReturn (tag : BitVec 8) (b : BoardId) (count : Nat) : Txn :=
  { kind := .ret, board := BitVec.ofNat 4 b, status := retNoBoard, tag := tag, count := count }

/-- The FENCE-DONE to the agent (R9). -/
def Txn.fenceDoneOf (tag : BitVec 8) (b : BoardId) (status : BitVec 4) : Txn :=
  { kind := .fenceDone, board := BitVec.ofNat 4 b, status := status, tag := tag }

/-- The head of intake is a request of a kind, and the RESET line does not hold the part. -/
def State.Requested (s : State) (r : Request) (t : Txn) (rest : List Txn) : Prop :=
  s.startup ≠ .held ∧ s.intake = t :: rest ∧ t.kind = .mgmt ∧ t.asRequest = some r

/-- The head of intake is a transaction of a kind for a logical board, and the RESET line does not hold the part. -/
def State.Heads (s : State) (kind : TxnKind) (t : Txn) (b : BoardId) (rest : List Txn) : Prop :=
  s.startup ≠ .held ∧ s.intake = t :: rest ∧ t.kind = kind ∧ t.boardId = some b

/-- The head has left intake, and its credit is granted back (R8). -/
def State.taken (s : State) (rest : List Txn) : State :=
  { s with intake := rest, agentCredits := s.agentCredits + 1, upstream := s.upstream ++ [Txn.grantOf 1] }

/-- A request is answered; the head behind it, if it is a FILL, is cut into pieces as it becomes the head (R69). -/
def State.replied (s : State) (t : Txn) (st : ReplyStatus) (words : List Word := []) (more : Bool := false) : State :=
  { s with upstream := s.upstream ++ [t.replyTo st words more] }.cutHead

/-- The port of a slot after words from its board were rejected: one more check error, and nothing else (R12). -/
def SlotPort.checkError (p : SlotPort) : SlotPort :=
  { p with counters := { p.counters with checkErrors := satAdd p.counters.checkErrors 1 } }

/-- The transactions toward the agent that answer its FETCHes and FENCEs (R9). -/
def Txn.isAnswer (t : Txn) : Bool := t.kind == .ret || t.kind == .fenceDone

/-- What the agent's traffic gets from a pending entry that closes without a reply (R20): an unsplit FETCH is answered NO-BOARD,
a part of a split one resolves NO-BOARD, a part of a fence group becomes FAILED. The entry is FREE, and closes once. -/
def State.lossAnswered (k : SlotId) (s : State) (i : PendIdx) : State :=
  match (s.slot k).pend[i] with
  | none => s
  | some e =>
    let u := s.setSlot k { s.slot k with pend := (s.slot k).pend.set i none }
    match e.origin with
    | .agent tag b _ _ none => { u with upstream := u.upstream ++ [Txn.noBoardReturn tag b e.count] }
    | .agent _ _ part _ (some n) => u.resolvePart n part ⟨4, []⟩
    | .fenceGroup n twin => u.resolveFence n twin .failed
    | .walk _ _ | .verify _ _ | .cutover _ | .orphan => u

/-- What leaving READY does, whatever the cause (R20, R37, R38): the queue is empty and the pending entries are FREE; the
agent's FETCHes and FENCEs that were outstanding are answered in the order in which the entries close, the SENT ones in send
order and then the QUEUED ones in queue order, and nothing but NOTICEs and MGMT-REPLYs stands between the answers; the
assembly records and fence groups are what that leaves of them; every other slot port stands as it did, but for owners of
its pending entries; so do the agent's side, the layout and the counters that are not the slot's. -/
def State.LeftReady (k : SlotId) (s t : State) : Prop :=
  (t.slot k).queue = [] ∧
  (∀ i : PendIdx, ((s.slot k).pend[i] = none ∨ i ∈ (s.slot k).closeOrder) → (t.slot k).pend[i] = none) ∧
  (let told := (s.slot k).closeOrder.foldl (State.lossAnswered k) { s with upstream := [] }
   t.assemblies = told.assemblies ∧ t.fences = told.fences ∧
   ∃ l, t.upstream = s.upstream ++ l ∧ l.filter Txn.isAnswer = told.upstream ∧
     ∀ x ∈ l, x.isAnswer = true ∨ x.kind = .notice ∨ x.kind = .mgmtReply) ∧
  (∀ j, j ≠ k → t.slot j = { s.slot j with pend := (t.slot j).pend }) ∧
  t.startup = s.startup ∧ t.startRecord = s.startRecord ∧ t.agentCredits = s.agentCredits ∧ t.intake = s.intake ∧
  t.fill = s.fill ∧ t.globals = s.globals ∧ t.layouts = s.layouts ∧ t.regions = s.regions ∧ t.levels = s.levels ∧
  t.floor = s.floor ∧ t.lastServed = s.lastServed ∧ t.pending = s.pending

/-- A request is taken and answered with an outcome, and nothing else is done (R164, R165). -/
def Refuses (c : Instr) (s : State) (t : Txn) (rest : List Txn) (st : ReplyStatus) : Prop :=
  exec c s = .next ((s.taken rest).replied t st)

/-- The kinds that meet a test, each once, the highest group level first and among equal levels the lower number (R175, R178). -/
def State.InCollectOrder (s : State) (test : NoticeKind → Bool) (ks : List NoticeKind) : Prop :=
  ks.Nodup ∧ (∀ k, k ∈ ks ↔ test k = true) ∧
    ks.Pairwise (fun a b => s.levelOf b < s.levelOf a ∨ (s.levelOf a = s.levelOf b ∧ a.index < b.index))

/-- The NOTICE of a kind, as things stand (R177). -/
def State.noticeTxn (s : State) (k : NoticeKind) : Txn :=
  { kind := .notice, board := 15, count := 2, data := s.noticeWords k }

/-- The words of a region's extent (R66), of its spare area (R65) and of a set's remap window (R62), in a view. -/
def Region.Extent (r : Region) (v : View) (a : Nat) : Prop :=
  (r.geom v).base.toNat ≤ a ∧ a < (r.geom v).base.toNat + r.entries * (r.geom v).pitch

def Region.SpareArea (r : Region) (v : View) (a : Nat) : Prop :=
  (r.geom v).spareBase.toNat ≤ a ∧ a < (r.geom v).spareBase.toNat + (r.geom v).spareCount * (r.geom v).pitch

def LayoutSet.Window (l : LayoutSet) (v : View) (a : Nat) : Prop :=
  (l.base v).toNat ≤ a ∧ a < (l.base v).toNat + 2 * l.cap v

/-- A layout set is in use (R72). -/
def State.InUse (s : State) (l : SetId) : Prop :=
  ∃ b, (s.entry b).layoutSet = l ∧ ((s.entry b).twinState = .building ∨ (s.entry b).twinState = .twinned)

/-- A region is held (R72). -/
def State.Held (s : State) (i : RegionId) : Prop :=
  (∃ r, s.region i = some r ∧ s.InUse r.set) ∨
  (∃ c, (s.ctx c).state ≠ .idle ∧ ((∃ g ∈ (s.ctx c).segs, g.region = i) ∨ ∃ g ∈ s.gaps, g.ctx = c ∧ g.region = i)) ∨
  ∃ k, ∃ x ∈ s.spareMap k, x.region = i

/-- The release of a context's holdings and nothing else (R92, R143): its record, its steering entry if BUILDING and bound to
it, its pending entries, which become ORPHAN, its staging entries, and its name in the spare maps. -/
def State.Released (c : CtxId) (s t : State) : Prop :=
  t = { s with ctxs := t.ctxs, steer := t.steer, slots := t.slots, staging := t.staging, spares := t.spares } ∧
  t.ctx c = { s.ctx c with
    flights := [], cutClaim := false, revisit := [], segs := [], cur := none, paceRunning := false, stop := none
    held := none } ∧
  (∀ d, d ≠ c → t.ctx d = s.ctx d) ∧
  (∀ b, t.entry b =
    if b = (s.ctx c).board ∧ (s.entry b).twinState = .building ∧ (s.entry b).bound = some c then
      { s.entry b with twinState := .stale, bound := none }
    else s.entry b) ∧
  (∀ k, t.slot k = { s.slot k with pend := (t.slot k).pend }) ∧
  (∀ k (i : PendIdx), (t.slot k).pend[i] =
    match (s.slot k).pend[i] with
    | some e => some (if e.origin.isOf c then { e with origin := .orphan } else e)
    | none => none) ∧
  (∀ g : StagingId, t.staging[g] = if (s.ctx c).flights.any (fun f => f.staging == g) then none else s.staging[g]) ∧
  (∀ k, t.spareMap k = (s.spareMap k).map (SpareRec.disown c))

/-- The deferred reply of a context leaves it, with an outcome and result words; without one nothing happens (R161). -/
def State.deferredSent (s : State) (c : CtxId) (st : ReplyStatus) (words : List Word) : State :=
  match (s.ctx c).deferred with
  | none => s
  | some tag =>
    { s.setCtx c { s.ctx c with deferred := none } with
      upstream := s.upstream ++
        [{ kind := .mgmtReply, board := 15, status := st.code, tag := tag, count := words.length, addr := 72, data := words }] }

/-- A context's next work is the fetch of an entry of a region, or its zero fill (R100). -/
def State.NextFetch (s : State) (c : CtxId) (i : RegionId) (r : Region) (e : Nat) : Prop :=
  s.region i = some r ∧
    (((s.ctx c).phase = .walk ∧ r.mode = .copy ∧ (s.ctx c).frontier = e ∧
        ∃ n g, (s.ctx c).cur = some n ∧ (s.ctx c).segs[n]? = some g ∧ g.region = i) ∨
     ((s.ctx c).phase = .revisit ∧ ∃ g gs, (s.ctx c).revisit = g :: gs ∧ g.region = i ∧ g.first = e))

def State.NextZero (s : State) (c : CtxId) (i : RegionId) (r : Region) (e : Nat) : Prop :=
  s.region i = some r ∧ (s.ctx c).phase = .walk ∧ r.mode = .zero ∧ (s.ctx c).frontier = e ∧
    ∃ n g, (s.ctx c).cur = some n ∧ (s.ctx c).segs[n]? = some g ∧ g.region = i

/-- A context is eligible for the walk arbiter: the two columns of R101. -/
def State.Eligible (s : State) (c : CtxId) : Prop :=
  (s.ctx c).state = .walking ∧ (s.ctx c).paceRunning = false ∧
    ∃ i r e, (∀ f ∈ (s.ctx c).flights, ¬ (f.region = i ∧ f.entry = e)) ∧
      ((s.NextFetch c i r e ∧ (s.ctx c).flights.length < (s.ctx c).window ∧ (∃ g : StagingId, s.staging[g] = none) ∧
          s.isReady (s.ctx c).src = true ∧ (s.slot (s.ctx c).src).queue.length < 48 ∧
          ∃ j : PendIdx, (s.slot (s.ctx c).src).pend[j] = none) ∨
       (s.NextZero c i r e ∧ s.isReady (s.ctx c).dst = true ∧ (s.slot (s.ctx c).dst).queue.length < 48))

/-- The lowest-numbered index of a table that meets a test. -/
def Lowest {n : Nat} (free : Fin n → Prop) (i : Fin n) : Prop := free i ∧ ∀ j, j < i → ¬ free j

/-- The slot port of a slot with transactions added at the tail of its queue. -/
def State.queued (s : State) (k : SlotId) (l : List QTxn) : SlotPort := { s.slot k with queue := (s.slot k).queue ++ l }

/-! ### The side effects of a STORE's or FILL's pieces (R49, R120 to R122, R136) -/

/-- A piece finds no target (R49). -/
def Verdict.discarded (x : Verdict) : Bool := !x.primary && !x.twin

/-- A piece repairs a gap record: it is mirrored, covers its entry, and reaches the twin (R121, R136). -/
def Verdict.repairs (s : State) (e : SteerEntry) (x : Verdict) (g : Gap) : Bool :=
  x.twin && (x.cls == some .mirrorMode || x.cls == some .walked) && e.bound == some g.ctx &&
    x.piece.region == some g.region && x.piece.entry == g.entry && x.piece.offset == 0 &&
    (s.region g.region).any (fun r => x.piece.len == r.width)

/-- The global counters after pieces: the discards (R49), the pad and outside pieces of a BUILDING or TWINNED entry (R49),
the uncovered pieces (R122). -/
def GlobalCounters.after (n : GlobalCounters) (e : SteerEntry) (vs : List Verdict) : GlobalCounters :=
  let rebuilt := e.twinState == .building || e.twinState == .twinned
  { n with
    noBoardDiscards := satAdd n.noBoardDiscards (vs.countP Verdict.discarded)
    padWrites := satAdd n.padWrites (vs.countP (fun x => rebuilt && x.piece.kind == .pad))
    unmappedStores := satAdd n.unmappedStores (vs.countP (fun x => rebuilt && x.piece.kind == .outside))
    uncoveredStores := satAdd n.uncoveredStores (vs.countP (fun x => x.cls == some .uncovered)) }

/-- What a piece reports: NO_BOARD_TRAFFIC where it is discarded, its detail the primary's slot number or 255 (R49); the
revisit addition where its entry is in flight and the primary received it, until an addition of the same transaction has
ended in a rewalk or a failure (R120). -/
def SteerEntry.report (e : SteerEntry) (x : State × Bool) (v : Verdict) : State × Bool :=
  if v.discarded then (x.1.raise .noBoardTraffic ((e.primary.map (fun k => BitVec.ofNat 8 k)).getD 255), x.2)
  else
    match e.bound, v.piece.region with
    | some c, some i =>
      if v.cls = some .inFlight ∧ v.primary = true ∧ x.2 = false then x.1.addRevisit c i v.piece.entry else x
    | _, _ => x

/-- The state after all that comes with the pieces of one transaction: what they report, in ascending order, the counters,
and the gap records they repair. -/
def State.settled (s : State) (e : SteerEntry) (vs : List Verdict) : State :=
  { (vs.foldl e.report (s, false)).1 with
    globals := s.globals.after e vs, gaps := s.gaps.filter (fun g => !vs.any (fun x => x.repairs s e g)) }

/-- Transactions placed at the tails of the slot queues. -/
def State.placed (s : State) (q : SlotId → List QTxn) : State := { s with slots := Vector.ofFn (fun k => s.queued k (q k)) }

/-! ### The Migration Engine's reaction to a slot's departure (R86, R106, R113, R114, R156 to R158) -/

/-- What the closure of a pending entry means to a context in a state: a walk FETCH is the loss of the source, a read-back
FETCH the loss of the destination (R114), the cutover FENCE the loss of the destination (R156). -/
def Origin.loss (c : CtxId) (st : CtxState) : Origin → Option FailReason
  | .walk d _ => if d = c ∧ (st = .walking ∨ st = .paused ∨ st = .synced) then some .sourceLost else none
  | .verify d _ => if d = c ∧ (st = .walking ∨ st = .paused ∨ st = .synced) then some .destLost else none
  | .cutover d => if d = c ∧ st = .cutting then some .destLost else none
  | .agent _ _ _ _ _ | .fenceGroup _ _ | .orphan => none

/-- Why a context fails when a slot leaves READY, if it does: by the first of its pending entries there that closes (R114,
R156), by its refused cutover claim (R156), or by the slot's report (R86, R113, R156 to R158). -/
def State.lossReason (s : State) (k : SlotId) (c : CtxId) : Option FailReason :=
  let x := s.ctx c
  if x.state = .idle ∨ x.state = .failed then none
  else
    match (s.slot k).closeOrder.findSome? (fun i => (s.slot k).pend[i].bind (fun e => e.origin.loss c x.state)) with
    | some r => some r
    | none =>
      if x.dst = k ∧ x.cutClaim = true then some .destLost
      else
        match x.state with
        | .opened | .walking | .paused =>
          if x.src = k then some .sourceLost else if x.dst = k then some .destLost else none
        | .waiting => if x.src = k then some .sourceLost else none
        | .synced =>
          if x.src = k then
            if (∀ g ∈ s.gaps, g.ctx ≠ c) ∧ s.windowFits c = true then
              if x.dst ≠ k ∧ s.isReady x.dst = true then none else some .destLost
            else some .sourceLost
          else if x.dst = k then some .destLost
          else none
        | .cutting => if x.src ≠ k ∧ x.dst = k then some .destLost else none
        | .idle | .failed => none

/-- A context's record after a slot has left READY: failed with its reason (R95), in an emergency cutover (R158), or as it
stood, its claims on that slot refused (R106). -/
def State.ctxAfterLoss (s : State) (k : SlotId) (c : CtxId) : Ctx :=
  let x := s.ctx c
  match s.lossReason k c with
  | some r => { x with
      state := .failed, failReason := some r, pauseReason := none, flights := [], cutClaim := false, revisit := [], segs := []
      cur := none, paceRunning := false, stop := none, held := none, deferred := none }
  | none =>
    if x.state = .synced ∧ x.src = k then { x with state := .cutting, paceRunning := false, stop := none, cutClaim := true }
    else if x.dst = k then { x with flights := x.flights.map (fun f => { f with claim := false }), cutClaim := false }
    else x

/-! ### The invariants -/

/-- R6: in RUNNING, the agent credit count plus the intake queue's length is 64; outside RUNNING both are empty. -/
def State.CreditsConserved (s : State) : Prop :=
  match s.startup with
  | .running => s.agentCredits + s.intake.length = Config.agentCredits
  | .held | .starting => s.agentCredits = 0 ∧ s.intake = []

/-- R13, R14: a slot's credit count lies between 0 and 64, and its outbound queue holds at most 48 transactions. -/
def SlotPort.Bounded (p : SlotPort) : Prop :=
  p.credits ≤ Config.boardCredits ∧ p.queue.length ≤ Config.slotQueueDepth

def State.SlotsBounded (s : State) : Prop := ∀ k, (s.slot k).Bounded

/-- R13, R16, R23, R33: the outbound queue holds STOREs, FILLs, FETCHes and FENCEs only. The SENT entries are those of
the send order, the QUEUED entries those whose FETCH or FENCE stands in the queue, each once. Outside READY the queue
is empty and every entry FREE; a slot that receives nothing has no credit. -/
def SlotPort.Agrees (p : SlotPort) : Prop :=
  (∀ x ∈ p.queue, x.txn.kind = .store ∨ x.txn.kind = .fill ∨
    (x.txn.kind = .fetch ∨ x.txn.kind = .fence) ∧ x.txn.tag.toNat < 64) ∧
  (∀ i : PendIdx, i ∈ p.sentOrder ↔ p.pend[i].map (·.phase) = some .sent) ∧
  (∀ i : PendIdx, i ∈ queuedEntries p.queue ↔ p.pend[i].map (·.phase) = some .queued) ∧
  (queuedEntries p.queue).Nodup ∧
  (p.state ≠ .ready → p.queue = [] ∧ ∀ i : PendIdx, p.pend[i] = none) ∧
  (p.state.receives = false → p.credits = 0)

def State.SlotsAgree (s : State) : Prop := ∀ k, (s.slot k).Agrees

/-- The spare of a region that a record of a spare map uses (R141). -/
def SpareRec.spare : SpareRec → RegionId × View × Nat
  | .remap r _ v i _ _ => (r, v, i)
  | .retired r v i => (r, v, i)

/-- The region entry that a record of a spare map names, if it does (R141). -/
def SpareRec.row : SpareRec → Option (RegionId × Nat)
  | .remap r e _ _ _ _ => some (r, e)
  | .retired _ _ _ => none

/-- No two records of a spare map name the same region entry, and no two the same spare of a region (R141). -/
def SparesApart (m : List SpareRec) : Prop := (m.map SpareRec.spare).Nodup ∧ (m.filterMap SpareRec.row).Nodup

/-- R132, R141: the gap list holds at most 64 records and no record twice, and a spare map at most 32 records, no two of which
name the same region entry or the same spare. -/
def State.TablesSound (s : State) : Prop :=
  s.gaps.length ≤ Config.gapListDepth ∧ s.gaps.Nodup ∧
    ∀ k, (s.spareMap k).length ≤ Config.spareMapDepth ∧ SparesApart (s.spareMap k)

/-- R132: each gap record names a context in a state other than IDLE; nor is that context CUTTING, since a context with gap
records is not cut over (R112, R150, R158). -/
def State.GapsOwned (s : State) : Prop := ∀ g ∈ s.gaps, (s.ctx g.ctx).state ≠ .idle ∧ (s.ctx g.ctx).state ≠ .cutting

/-- R85, R86, R113: a context walks, or stands PAUSED, only while its destination is READY. -/
def State.DestsReady (s : State) : Prop :=
  ∀ c, (s.ctx c).state = .walking ∨ (s.ctx c).state = .paused → s.isReady (s.ctx c).dst = true

/-- R141: the spare map of a slot in state DOWN is empty. -/
def State.DownMapsEmpty (s : State) : Prop := ∀ k, (s.slot k).state = .down → s.spareMap k = []

/-- Numbers that the contexts' lists bear are borne once over all of them. -/
def UsedOnce {α : Type} (l : CtxId → List α) : Prop := (∀ c, (l c).Nodup) ∧ ∀ c d, c ≠ d → ∀ n ∈ l c, n ∉ l d

/-- R98, R99: a flight table holds at most its context's window of records, at most 4, each with a number of its own below
the window, and one record for an entry; only a WALKING or PAUSED context has any. No staging entry belongs to two records,
and the occupied ones are exactly those that belong to a record. -/
def State.FlightsSound (s : State) : Prop :=
  (∀ c, let x := s.ctx c
    x.window ≤ 4 ∧ x.flights.length ≤ x.window ∧ (∀ f ∈ x.flights, f.num.val < x.window) ∧ (x.flights.map (·.num)).Nodup ∧
      (x.flights.map (fun f => (f.region, f.entry))).Nodup ∧ (x.flights ≠ [] → x.state = .walking ∨ x.state = .paused)) ∧
  UsedOnce (fun c => (s.ctx c).flights.map (·.staging)) ∧
  ∀ g : StagingId, s.staging[g] ≠ none ↔ ∃ c, ∃ f ∈ (s.ctx c).flights, f.staging = g

/-- Two ranges neither overlap nor adjoin (R123). -/
def Range.Clear (g h : Range) : Prop := g.region = h.region → g.last + 1 < h.first ∨ h.last + 1 < g.first

/-- R123: no range of a revisit list begins above its end, and no two overlap or adjoin. -/
def RangesApart (l : List Range) : Prop := (∀ g ∈ l, g.first ≤ g.last) ∧ l.Pairwise Range.Clear

/-- R82, R123, R125: a record of the descriptor pool, and one of the revisit pool, belongs to at most one place of one list, and
no two ranges of one revisit list overlap or adjoin. -/
def State.PoolsSound (s : State) : Prop :=
  UsedOnce (fun c => (s.ctx c).segs.map (·.num)) ∧ UsedOnce (fun c => (s.ctx c).revisit.map (·.num)) ∧
    ∀ c, RangesApart (s.ctx c).revisit

/-- R42: an empty entry has no twin, the twin slot is present exactly when the twin state is not NONE, the bound
context exactly when it is BUILDING, and the two slots differ. -/
def SteerEntry.Legal (e : SteerEntry) : Prop :=
  (e.primary = none → e.twin = none) ∧ (e.twin.isSome = true ↔ e.twinState ≠ .none) ∧
    (e.bound.isSome = true ↔ e.twinState = .building) ∧ (e.primary.isSome = true → e.primary ≠ e.twin)

/-- An entry names a slot, as primary or as twin. -/
def SteerEntry.Names (e : SteerEntry) (k : SlotId) : Prop := e.primary = some k ∨ e.twin = some k

/-- R42: every entry is legal, and a slot is named by at most one entry. -/
def State.SteeringLegal (s : State) : Prop :=
  (∀ b, (s.entry b).Legal) ∧ ∀ a b k, (s.entry a).Names k → (s.entry b).Names k → a = b

/-- R47: an entry's bound context is a live context of that logical board, and every live context is bound. -/
def State.BindingLegal (s : State) : Prop :=
  ∀ b c, (s.entry b).bound = some c ↔ ((s.ctx c).state.isLive = true ∧ (s.ctx c).board = b)

/-- R62 to R66, R73 to R75: every loaded region lies within the address space in both views, overlaps no other region of
its set there, extents and spare areas alike, nor its own spare area, nor its set's remap windows. -/
def State.LayoutSound (s : State) : Prop :=
  ∀ i r, s.region i = some r → ∀ v,
    1 ≤ r.width ∧ r.width ≤ (r.geom v).pitch ∧ (r.geom v).base.toNat + r.extentLen v ≤ Config.addressTop ∧
    r.hitsSelf v = false ∧ (s.layout r.set).hits v r = false ∧
    ∀ j o, j ≠ i → s.region j = some o → o.set = r.set → r.hits o v = false

/-- R42 and R47 together: the steering table and the contexts agree. -/
def State.Wired (s : State) : Prop := s.SteeringLegal ∧ s.BindingLegal

end Sys2Proof.Machine
end

