-- ==== Sys2Proof/Certificates/Slice0/Obligations.lean ====
section
/-! DEFINITION. The statements for the provers. -/

open Sys2Proof Sys2Proof.Machine

/-! ### The queue of commands (the model's own, assumptions 2 and 4) -/

/-- A step takes the command at the front of the queue and is its meaning on the state with the queue's rest; with no command
waiting the part idles (assumptions 2 and 4). -/
def Obligations.StepRunsTheFrontCommand : Prop :=
  (∀ (c : Instr) (rest : List Instr) (s : State), s.pending = c :: rest →
    step s = exec c { s with pending := rest }) ∧
  ∀ s : State, s.pending = [] → step s = .next s

/-! ### Resets (R6, R40, R42, R62, R63, R79, R132, R169, R172, R174, R176) -/

/-- What power-on leaves in every block, field by field, and that the invariants of the other statements hold there. The presence
and link pins (assumption 6), the frames last sent (assumption 8), the send order (assumption 18) and the command queue
(assumption 4) are the model's. -/
def Obligations.ResetState : Prop :=
  let s := State.reset
  s.startup = .starting ∧ s.startRecord = ⟨.power, 0⟩ ∧ s.agentCredits = 0 ∧ s.intake = [] ∧ s.upstream = [] ∧
  s.agentLinkUp = true ∧ s.agentTx = none ∧ s.pending = [] ∧ s.fill = none ∧ s.globals = ⟨0, 0, 0, 0, 0, 0⟩ ∧ s.assemblies = [] ∧ s.fences = [] ∧ s.gaps = [] ∧
  (∀ k, s.slot k = {
      presence := false, state := .down, helloTimer := none, settleTimer := none, credits := 0, queue := []
      pend := Vector.replicate 64 none, sentOrder := [], arrival := none, helloFailures := 0, halt := none
      counters := ⟨0, 0, 0, 0⟩, tx := none } ∧ s.spareMap k = []) ∧
  (∀ b, s.entry b = ⟨none, none, .none, 0, .A, false, none⟩) ∧
  (∀ l, s.layout l = ⟨0, 0, 0, 0⟩) ∧ (∀ i, s.region i = none) ∧
  (∀ c, s.ctx c = {
      state := .idle, board := 0, src := 0, dst := 0, srcView := .A, priority := 0, pace := none, window := 1
      rewalkLimit := 2, autoCutover := false, segs := [], cur := none, frontier := 0, phase := .walk, rewalkCount := 0
      verifyCounter := 0, stop := none, held := none, pauseReason := none, failReason := none, outcome := none
      flights := [], revisit := [], paceRunning := false, counters := ⟨0, 0, 0, 0, 0, 0, 0⟩, deferred := none
      cutClaim := false }) ∧
  (∀ g : StagingId, s.staging[g] = none) ∧ (∀ p : Fin 4, s.lastServed[p] = 15) ∧
  s.levels = #v[8, 4, 12, 10, 2, 6] ∧ s.floor = 0 ∧ (∀ n, s.notice n = ⟨false, false, 0, 0, false⟩) ∧
  s.CreditsConserved ∧ s.SlotsBounded ∧ s.SlotsAgree ∧ s.TablesSound ∧ s.DownMapsEmpty ∧ s.Wired ∧ s.LayoutSound ∧
  s.FlightsSound ∧ s.PoolsSound ∧ s.GapsOwned ∧ s.DestsReady

/-- Power-on and the RESET line put every block at those values; the line's cause and the presence and link pins are the
only rest (R169, R172; that a power-on under an active line stays held, that a release of an idle line does nothing and
that pins and waiting commands stay are the model's choices, assumptions 3, 6 and 7). While the line holds the part, no
command but a reset or a pin's change does anything. The end of STARTING: RUNNING, 64 credits, a GRANT(64) at the tail of the
upstream queue, and nothing else (R6, R172). -/
def Obligations.ResetsAndStartUp : Prop :=
  (∀ (c : Instr) (s : State), s.startup = .held →
    match c with
    | .powerOnReset | .resetLineAssert | .resetLineRelease | .agentLinkLost | .agentLinkUp | .slotPresenceActive _
    | .slotPresenceLost _ => True
    | _ => exec c s = .next s) ∧
  (∀ s : State, s.startup = .starting →
    exec .startingComplete s = .next { s with
      startup := .running, agentCredits := 64, upstream := s.upstream ++ [Txn.grantOf 64] }) ∧
  ∀ s : State,
    let cleared : Startup → StartRecord → State := fun st r => { State.reset with
      startup := st, startRecord := r, agentLinkUp := s.agentLinkUp
      slots := s.slots.map (fun p => { presence := p.presence }), pending := s.pending }
    (s.startup ≠ .held → exec .powerOnReset s = .next (cleared .starting ⟨.power, 0⟩)) ∧
    (s.startup = .held → exec .powerOnReset s = .next (cleared .held ⟨.power, 0⟩)) ∧
    exec .resetLineAssert s = .next (cleared .held s.startRecord) ∧
    (s.startup = .held → exec .resetLineRelease s = .next (cleared .starting ⟨.line, 0⟩)) ∧
    (s.startup ≠ .held → exec .resetLineRelease s = .next s)

/-! ### The agent link (R4, R5, R7, R9, R10) -/

/-- R7: the three rows of the table, the overrun decided before the check. R69: a FILL that becomes the head of intake is cut
then, with the set and the primary view that its board's entry has in force; any other head, and a FILL cut before, stands. -/
def Obligations.AgentArrivalByCreditAndCheck : Prop :=
  (∀ s : State,
    (∀ (t : Txn) (b : BoardId) (rest : List Txn), s.fill = none → s.intake = t :: rest → t.kind = .fill →
      t.boardId = some b → s.cutHead = { s with
        fill := some ⟨s.cut (s.entry b).layoutSet (s.entry b).view t.addr t.count, none⟩ }) ∧
    ((s.fill ≠ none ∨ ∀ (t : Txn) (b : BoardId) (rest : List Txn), s.intake = t :: rest →
      ¬ (t.kind = .fill ∧ t.boardId = some b)) → s.cutHead = s)) ∧
  ∀ (f : Frame) (s : State), s.startup ≠ .held → s.agentLinkUp = true →
    (s.agentCredits = 0 →
      exec (.agentArrival f) s = .next ({ s with
        globals := { s.globals with agentOverruns := satAdd s.globals.agentOverruns 1 } }.raise .agentOverrun 0)) ∧
    (0 < s.agentCredits → acceptAgent f = none →
      exec (.agentArrival f) s = .next ({ s with
        globals := { s.globals with agentCheckErrors := satAdd s.globals.agentCheckErrors 1 }
        upstream := s.upstream ++ [Txn.grantOf 1] }.raise .agentCheck 0)) ∧
    (∀ t, 0 < s.agentCredits → acceptAgent f = some t →
      exec (.agentArrival f) s = .next ({ s with
        agentCredits := s.agentCredits - 1, intake := s.intake ++ [t] }.cutHead))

/-- The agent link: its loss and return change the link alone, nothing arrives while it is down, and the upstream queue
sends its head only in RUNNING with the link up (R9, R10, R172). -/
def Obligations.AgentLinkAndUpstreamSend : Prop :=
  ∀ s : State,
    exec .agentLinkLost s = .next { s with agentLinkUp := false } ∧
    exec .agentLinkUp s = .next { s with agentLinkUp := true } ∧
    (∀ f, s.agentLinkUp = false → exec (.agentArrival f) s = .next s) ∧
    (∀ t rest, s.startup = .running → s.agentLinkUp = true → s.upstream = t :: rest →
      exec .upstreamSend s = .next { s with upstream := rest, agentTx := some t.frame }) ∧
    ((s.startup ≠ .running ∨ s.agentLinkUp = false ∨ s.upstream = []) → exec .upstreamSend s = .next s)

/-- Bits as a polynomial over the two-element field, bit i the coefficient of X^i. -/
noncomputable def bitsPoly {n : Nat} (b : BitVec n) : Polynomial (ZMod 2) :=
  ∑ i ∈ Finset.range n, if b.getLsbD i then Polynomial.X ^ i else 0

/-- Words as one polynomial, the first bit sent, which is the first word's bit 31, the coefficient of the highest power. -/
noncomputable def wordsPoly (ws : List Word) : Polynomial (ZMod 2) :=
  ws.foldl (fun p w => p * Polynomial.X ^ 32 + bitsPoly w) 0

/-- Where Table 1-1 puts the fields of a transaction, and the codes of Table 1-2 (R4). The check is that of R5: the remainder
by X^16 + X^12 + X^5 + 1 of the words before it, most significant bit first, followed by sixteen zero bits, from the initial
value of sixteen ones. -/
def Obligations.FrameLayout : Prop :=
  (∀ t : Txn,
    let w : Nat → Word := fun i => t.frame.getD i 0
    t.frame.length = 4 + t.data.length ∧
    (w 0).extractLsb' 24 8 = t.kind.code ∧ (w 0).extractLsb' 20 4 = t.board ∧ (w 0).extractLsb' 16 4 = t.status ∧
    (w 0).extractLsb' 8 8 = t.tag ∧ (w 0).extractLsb' 1 7 = 0 ∧ (w 0).extractLsb' 0 1 = BitVec.ofBool t.more ∧
    (w 1).extractLsb' 16 16 = 0 ∧ (w 1).extractLsb' 0 16 = BitVec.ofNat 16 t.count ∧ w 2 = t.addr ∧
    (t.frame.drop 3).take t.data.length = t.data ∧
    (w (3 + t.data.length)).extractLsb' 16 16 = 0 ∧
    (w (3 + t.data.length)).extractLsb' 0 16 = checkOf (t.frame.take (3 + t.data.length))) ∧
  (∀ ws : List Word, ∃ q : Polynomial (ZMod 2),
    wordsPoly ws * Polynomial.X ^ 16 + bitsPoly 0xFFFF#16 * Polynomial.X ^ (32 * ws.length) =
      q * (Polynomial.X ^ 16 + Polynomial.X ^ 12 + Polynomial.X ^ 5 + 1) + bitsPoly (checkOf ws)) ∧
  TxnKind.store.code = 1 ∧ TxnKind.fill.code = 2 ∧ TxnKind.fetch.code = 3 ∧ TxnKind.fence.code = 4 ∧
  TxnKind.ret.code = 9 ∧ TxnKind.fenceDone.code = 10 ∧ TxnKind.grant.code = 11 ∧ TxnKind.hello.code = 12 ∧
  TxnKind.halt.code = 13 ∧ TxnKind.mgmt.code = 16 ∧ TxnKind.mgmtReply.code = 17 ∧ TxnKind.notice.code = 18

/-- Every transaction whose count and data words agree with R2 is read back whole from the words it is sent as; what the
agent may send is accepted on the agent link, and what a board may send on a slot link (R4, R5). Which counts and numbers of
data words agree is `countOk`, and where the spec leaves that open it is the model's reading (assumption 22); that the fields
a link does not use read as 0 once a transaction is accepted is the model's (assumption 27). R2, R3, R5: any words at all are
accepted on a link exactly when their check matches and their kind, number of data words, count, board, status and start cause are
some that the link carries, and the fields accepted are those that Table 1-1 places. Every other bit is ignored. -/
def Obligations.TransactionsRoundTrip : Prop :=
  (∀ t : Txn, t.countOk = true →
    Txn.parse t.frame = some t ∧
    (t.agentOk = true → acceptAgent t.frame = some { t with status := 0, more := false }) ∧
    (t.boardOk = true → acceptBoard t.frame = some { t with board := 0, more := false })) ∧
  ∀ f : Frame,
    let w : Nat → Word := fun i => f.getD i 0
    let kind := (w 0).extractLsb' 24 8
    let board := (w 0).extractLsb' 20 4
    let status := (w 0).extractLsb' 16 4
    let count := ((w 1).extractLsb' 0 16).toNat
    let words := f.length - 4
    let checked := 4 ≤ f.length ∧ (w (f.length - 1)).extractLsb' 0 16 = checkOf (f.take (f.length - 1))
    ((∃ t, acceptAgent f = some t) ↔ checked ∧
      ((kind = 1 ∧ 1 ≤ count ∧ count ≤ 16 ∧ words = count ∧ board ≠ 15) ∨
       (kind = 2 ∧ 1 ≤ count ∧ count ≤ 4096 ∧ words = 1 ∧ board ≠ 15) ∨
       (kind = 3 ∧ 1 ≤ count ∧ count ≤ 16 ∧ words = 0 ∧ board ≠ 15) ∨
       (kind = 4 ∧ count = 0 ∧ words = 0 ∧ board ≠ 15) ∨
       (kind = 16 ∧ count ≤ 16 ∧ words = count ∧ board = 15))) ∧
    ((∃ t, acceptBoard f = some t) ↔ checked ∧
      ((kind = 9 ∧ 1 ≤ count ∧ count ≤ 16 ∧ (((status = 0 ∨ status = 1) ∧ words = count) ∨
          ((status = 2 ∨ status = 3) ∧ words = 0))) ∨
       (kind = 10 ∧ count = 0 ∧ words = 0 ∧ status = 0) ∨
       (kind = 11 ∧ 1 ≤ count ∧ count ≤ 64 ∧ words = 0) ∨
       (kind = 12 ∧ count = 1 ∧ words = 1 ∧ (w 3).extractLsb' 0 2 ≠ 3) ∨
       (kind = 13 ∧ count = 1 ∧ words = 1))) ∧
    ∀ t, (acceptAgent f = some t → t.board = board ∧ t.status = 0) ∧ (acceptBoard f = some t → t.board = 0 ∧ t.status = status) ∧
      (acceptAgent f = some t ∨ acceptBoard f = some t → t.kind.code = kind ∧ t.tag = (w 0).extractLsb' 8 8 ∧
        t.more = false ∧ t.count = count ∧ t.addr = w 2 ∧ t.data = (f.drop 3).take words)

/-! ### Slot presence, training and timers (R22, R25 to R29, R33) -/

/-- R25, R29: presence in DOWN, training that completes, training that fails. That a link which comes up in DOWN without presence
changes nothing is the model's (assumption 3). -/
def Obligations.PresenceAndTraining : Prop :=
  ∀ (k : SlotId) (s : State),
    let p := s.slot k
    let listening : SlotPort := { p with state := .awaitHello .listening, helloTimer := some 500 }
    exec (.slotPresenceActive k) s = .next (s.setSlot k { p with presence := true }) ∧
    (p.state = .down → exec (.slotPresenceLost k) s = .next (s.setSlot k { p with presence := false })) ∧
    (p.state = .down → exec (.slotLinkLost k) s = .next s) ∧
    (s.startup ≠ .held → p.state = .down → p.presence = true →
      exec (.slotLinkUp k) s = .next (s.setSlot k listening)) ∧
    (s.startup ≠ .held → p.state = .awaitHello .retraining →
      exec (.slotLinkUp k) s = .next (s.setSlot k listening)) ∧
    (p.state = .down → p.presence = false → exec (.slotLinkUp k) s = .next s)

/-- R26, R27: presence loss or link loss outside DOWN takes the slot to DOWN; from READY the effects of leaving READY
come first, and SLOT_DOWN is raised last. -/
def Obligations.LossTakesTheSlotDown : Prop :=
  ∀ (k : SlotId) (s : State), s.startup ≠ .held → (s.slot k).state ≠ .down →
    let fallen : SlotPort → SlotPort := fun p => { p with
      state := .down, credits := 0, helloTimer := none, settleTimer := none, arrival := none, helloFailures := 0
      halt := none }
    (s.isReady k = false →
      exec (.slotLinkLost k) s =
        .next (((s.setSlot k (fallen (s.slot k))).setSpareMap k []).raise .slotDown (BitVec.ofNat 8 k)) ∧
      exec (.slotPresenceLost k) s =
        .next (((s.setSlot k { fallen (s.slot k) with presence := false }).setSpareMap k []).raise .slotDown
          (BitVec.ofNat 8 k))) ∧
    (s.isReady k = true →
      (∃ u, exec (.slotLinkLost k) s = .next (u.raise .slotDown (BitVec.ofNat 8 k)) ∧ State.LeftReady k s u ∧
        u.spareMap k = [] ∧
        u.slot k = { fallen (s.slot k) with
          queue := [], pend := (u.slot k).pend, sentOrder := (u.slot k).sentOrder }) ∧
      (∃ u, exec (.slotPresenceLost k) s = .next (u.raise .slotDown (BitVec.ofNat 8 k)) ∧ State.LeftReady k s u ∧
        u.spareMap k = [] ∧
        u.slot k = { fallen (s.slot k) with
          presence := false, queue := [], pend := (u.slot k).pend, sentOrder := (u.slot k).sentOrder }))

/-- R28: expiry of the HELLO timer, below the third in a row and at it, after which the link is not trained again. R33, R86:
expiry of the settle timer: READY, SLOT_UP, and every context WAITING on the slot walks. -/
def Obligations.HelloAndSettleTimers : Prop :=
  (∀ (k : SlotId) (s : State), s.startup ≠ .held → (s.slot k).state = .awaitHello .listening →
    let p : SlotPort := { s.slot k with
      counters := { (s.slot k).counters with helloTimeouts := satAdd (s.slot k).counters.helloTimeouts 1 }
      helloFailures := (s.slot k).helloFailures + 1 }
    let u := (s.setSlot k p).raise .helloMissing (BitVec.ofNat 8 k)
    (p.helloFailures < 3 →
      exec (.helloTimerExpiry k) s =
        .next (u.setSlot k { p with state := .awaitHello .retraining, helloTimer := none, credits := 0 })) ∧
    (3 ≤ p.helloFailures →
      exec (.helloTimerExpiry k) s =
        .next ((u.setSlot k { p with state := .disabled, helloTimer := none, credits := 0 }).raise .slotDisabled
          (BitVec.ofNat 8 k)))) ∧
  (∀ (k : SlotId) (s : State), (s.slot k).state = .disabled → exec (.slotLinkUp k) s = .next s) ∧
  ∀ (k : SlotId) (s : State), s.startup ≠ .held → (s.slot k).state = .settling →
    let u := (s.setSlot k { s.slot k with state := .ready, settleTimer := none }).raise .slotUp (BitVec.ofNat 8 k)
    exec (.settleTimerExpiry k) s = .next { u with
      ctxs := u.ctxs.map (fun x => if x.state = .waiting ∧ x.dst = k then { x with state := .walking } else x) }

/-- R22: expiry of a SENT entry's reply timer halts the slot with source REPLY_TIMEOUT, after the effects of leaving READY. -/
def Obligations.ReplyTimerExpiry : Prop :=
  ∀ (k : SlotId) (i : PendIdx) (e : PendEntry) (s : State), s.startup ≠ .held → s.isReady k = true →
    (s.slot k).pend[i] = some e → e.phase = .sent →
    ∃ u, exec (.replyTimerExpiry k i) s = .next (u.raise .slotHalted (BitVec.ofNat 8 k)) ∧ State.LeftReady k s u ∧
      u.slot k = { s.slot k with
        state := .halted, credits := 0, settleTimer := none, halt := some ⟨.replyTimeout, 0⟩
        counters := { (s.slot k).counters with replyTimeouts := satAdd (s.slot k).counters.replyTimeouts 1 }
        queue := [], pend := (u.slot k).pend, sentOrder := (u.slot k).sentOrder }

/-! ### Transactions from a board, and sending to it (R11 to R13, R15, R18, R19, R30 to R34) -/

/-- The words of a board that brings a transaction of a kind to a slot whose link is trained (R5, R11). -/
def SlotBrings (s : State) (k : SlotId) (f : Frame) (t : Txn) (kind : TxnKind) : Prop :=
  s.startup ≠ .held ∧ (s.slot k).state.receives = true ∧ acceptBoard f = some t ∧ t.kind = kind

/-- R11, R13: a GRANT's count is added, up to 64; past 64 GRANT_EXCESS is raised. -/
def Obligations.GrantAddsCredits : Prop :=
  ∀ (k : SlotId) (f : Frame) (t : Txn) (s : State), SlotBrings s k f t .grant →
    ((s.slot k).credits + t.count ≤ 64 →
      exec (.grantReceived k f) s = .next (s.setSlot k { s.slot k with credits := (s.slot k).credits + t.count })) ∧
    (64 < (s.slot k).credits + t.count →
      exec (.grantReceived k f) s =
        .next ((s.setSlot k { s.slot k with credits := 64 }).raise .grantExcess (BitVec.ofNat 8 k)))

/-- R30 to R32: a HELLO in each state that receives one. -/
def Obligations.HelloByState : Prop :=
  ∀ (k : SlotId) (f : Frame) (t : Txn) (c : StartCause) (s : State), SlotBrings s k f t .hello →
    t.startCause = some c →
    let interval : Nat := match c with
      | .powerUp => 250
      | .boardReset => 40
      | .retrain => 2
    let settling : SlotPort → SlotPort := fun p => { p with
      state := .settling, helloTimer := none, settleTimer := some interval, arrival := some ⟨t.boardClass, c⟩ }
    ((s.slot k).state = .awaitHello .listening →
      exec (.helloReceived k f) s = .next (s.setSlot k { settling (s.slot k) with helloFailures := 0 })) ∧
    ((s.slot k).state = .settling ∨ (s.slot k).state = .halted →
      exec (.helloReceived k f) s = .next (s.setSlot k { settling (s.slot k) with credits := 0 })) ∧
    ((s.slot k).state = .ready →
      ∃ u, exec (.helloReceived k f) s = .next u ∧ State.LeftReady k s u ∧
        u.slot k = { settling (s.slot k) with
          credits := 0, queue := [], pend := (u.slot k).pend, sentOrder := (u.slot k).sentOrder })

/-- R34: a HALT in each state that receives one. -/
def Obligations.HaltByState : Prop :=
  ∀ (k : SlotId) (f : Frame) (t : Txn) (s : State), SlotBrings s k f t .halt →
    let halted : SlotPort → SlotPort := fun p => { p with
      state := .halted, settleTimer := none, halt := some ⟨.board, t.haltReason⟩ }
    ((s.slot k).state = .ready →
      ∃ u, exec (.haltReceived k f) s = .next (u.raise .slotHalted (BitVec.ofNat 8 k)) ∧ State.LeftReady k s u ∧
        u.slot k = { halted (s.slot k) with
          credits := 0, queue := [], pend := (u.slot k).pend, sentOrder := (u.slot k).sentOrder }) ∧
    ((s.slot k).state = .settling ∨ (s.slot k).state = .halted →
      exec (.haltReceived k f) s = .next ((s.setSlot k (halted (s.slot k))).raise .slotHalted (BitVec.ofNat 8 k))) ∧
    ((s.slot k).state = .awaitHello .listening → exec (.haltReceived k f) s = .next s)

/-- R12: words that the check or the form rejects are discarded, counted and noticed, and nothing else of the slot moves. R11,
R18: so is a reply that matches no SENT entry of its kind and count, and its entry stays; a reply outside READY is discarded
without a count. -/
def Obligations.RejectedAndUnmatchedAreCounted : Prop :=
  (∀ (k : SlotId) (f : Frame) (s : State), s.startup ≠ .held → (s.slot k).state.receives = true → acceptBoard f = none →
    exec (.boardTransactionRejected k f) s =
      .next ((s.setSlot k (s.slot k).checkError).raise .slotCheck (BitVec.ofNat 8 k))) ∧
  ∀ (k : SlotId) (f : Frame) (t : Txn) (s : State),
    (SlotBrings s k f t .ret → s.isReady k = true →
      (∀ (i : PendIdx) (e : PendEntry), i.val = t.tag.toNat → (s.slot k).pend[i] = some e →
        ¬ (e.phase = .sent ∧ e.kind = .fetch ∧ e.count = t.count)) →
      exec (.returnReceived k f) s = .next ((s.setSlot k (s.slot k).checkError).raise .slotCheck (BitVec.ofNat 8 k))) ∧
    (SlotBrings s k f t .fenceDone → s.isReady k = true →
      (∀ (i : PendIdx) (e : PendEntry), i.val = t.tag.toNat → (s.slot k).pend[i] = some e →
        ¬ (e.phase = .sent ∧ e.kind = .fence)) →
      exec (.fenceDoneReceived k f) s = .next ((s.setSlot k (s.slot k).checkError).raise .slotCheck (BitVec.ofNat 8 k))) ∧
    (s.isReady k = false → exec (.returnReceived k f) s = .next s ∧ exec (.fenceDoneReceived k f) s = .next s)

/-- R9, R19: a matched RETURN of an unsplit agent FETCH goes to the agent under the agent's tag, and its entry becomes FREE. R19,
R21: a RETURN or FENCE-DONE that matches a SENT entry of origin ORPHAN frees the entry and is discarded: nothing else changes. -/
def Obligations.MatchedReturnReachesTheAgent : Prop :=
  ∀ (k : SlotId) (f : Frame) (t : Txn) (i : PendIdx) (e : PendEntry) (s : State), s.isReady k = true →
    i.val = t.tag.toNat → (s.slot k).pend[i] = some e → e.phase = .sent →
    let u := s.setSlot k { s.slot k with
      pend := (s.slot k).pend.set i none, sentOrder := (s.slot k).sentOrder.filter (fun j => j ≠ i) }
    (∀ (tag : BitVec 8) (b : BoardId) (part parts : Nat), SlotBrings s k f t .ret → e.kind = .fetch → e.count = t.count →
      e.origin = .agent tag b part parts none →
      exec (.returnReceived k f) s = .next { u with
        upstream := s.upstream ++ [{ kind := .ret, board := BitVec.ofNat 4 b, status := t.status, tag := tag,
                                     count := t.count, data := t.data }] }) ∧
    (SlotBrings s k f t .ret → e.kind = .fetch → e.count = t.count → e.origin = .orphan →
      exec (.returnReceived k f) s = .next u) ∧
    (SlotBrings s k f t .fenceDone → e.kind = .fence → e.origin = .orphan → exec (.fenceDoneReceived k f) s = .next u)

/-- The status of the FENCE-DONE that ends a fence group (R57). -/
def groupStatus (p w : PartOutcome) : BitVec 4 :=
  match p, w with
  | .ok, .failed => 5
  | .ok, _ => 0
  | _, _ => 4

/-- R19, R56, R57: the FENCE-DONE of a fence group's last outstanding part answers the agent by the table of R57 and ends
the group; while the other part is SENT it is recorded alone. So does the failure of a part (R20). -/
def Obligations.FenceDoneResolvesItsGroup : Prop :=
  (∀ (n : Nat) (twin : Bool) (o : PartOutcome) (s : State),
    (s.fences.find? (fun x => x.num == n) = none → s.resolveFence n twin o = s) ∧
    ∀ g, s.fences.find? (fun x => x.num == n) = some g →
      let p := if twin then g.primary else o
      let w := if twin then o else g.twin
      (p = .sent ∨ w = .sent → s.resolveFence n twin o = { s with
        fences := s.fences.map (fun x => if x.num = n then { g with primary := p, twin := w } else x) }) ∧
      (p ≠ .sent → w ≠ .sent → s.resolveFence n twin o = { s with
        fences := s.fences.filter (fun x => x.num ≠ n)
        upstream := s.upstream ++ [Txn.fenceDoneOf g.tag g.board (groupStatus p w)] })) ∧
  ∀ (k : SlotId) (f : Frame) (t : Txn) (i : PendIdx) (e : PendEntry) (n : Nat) (twin : Bool) (g : FenceGroup) (s : State),
    SlotBrings s k f t .fenceDone → s.isReady k = true → i.val = t.tag.toNat → (s.slot k).pend[i] = some e →
    e.phase = .sent → e.kind = .fence → e.origin = .fenceGroup n twin → s.fences.find? (fun x => x.num == n) = some g →
    let u := s.setSlot k { s.slot k with
      pend := (s.slot k).pend.set i none, sentOrder := (s.slot k).sentOrder.filter (fun j => j ≠ i) }
    let p := if twin then g.primary else .ok
    let w := if twin then .ok else g.twin
    (p = .sent ∨ w = .sent →
      exec (.fenceDoneReceived k f) s = .next { u with
        fences := s.fences.map (fun x => if x.num = n then { g with primary := p, twin := w } else x) }) ∧
    (p ≠ .sent → w ≠ .sent →
      exec (.fenceDoneReceived k f) s = .next { u with
        fences := s.fences.filter (fun x => x.num ≠ n)
        upstream := s.upstream ++ [Txn.fenceDoneOf g.tag g.board (groupStatus p w)] })

/-- R15: the head of a READY slot's queue is sent for one credit and counted; a FETCH's or FENCE's entry becomes SENT. With
no credit, no head or outside READY nothing is sent. -/
def Obligations.SlotSendsForACredit : Prop :=
  ∀ (k : SlotId) (s : State), s.startup ≠ .held →
    (∀ x rest, s.isReady k = true → 1 ≤ (s.slot k).credits → (s.slot k).queue = x :: rest →
      let p : SlotPort := { s.slot k with
        credits := (s.slot k).credits - 1, queue := rest, tx := some x.txn.frame
        counters := { (s.slot k).counters with sent := satAdd (s.slot k).counters.sent 1 } }
      (x.txn.kind = .store ∨ x.txn.kind = .fill → exec (.slotSend k) s = .next (s.setSlot k p)) ∧
      (∀ (i : PendIdx) e, x.txn.kind = .fetch ∨ x.txn.kind = .fence → i.val = x.txn.tag.toNat →
        (s.slot k).pend[i] = some e →
        exec (.slotSend k) s = .next (s.setSlot k { p with
          pend := (s.slot k).pend.set i (some { e with phase := .sent })
          sentOrder := (s.slot k).sentOrder ++ [i] }))) ∧
    (s.isReady k = false ∨ (s.slot k).credits = 0 ∨ (s.slot k).queue = [] → exec (.slotSend k) s = .next s)

/-! ### Steering: STORE, FILL, FETCH and FENCE at the head of intake (R49 to R57) -/

/-- A span from an address does not wrap, and a slot's spare map redirects no entry of which the span has data words, in the
primary view of a logical board's entry. -/
def PlainSpan (s : State) (b : BoardId) (k : SlotId) (addr : Word) (count : Nat) : Prop :=
  addr.toNat + count ≤ 4294967296 ∧
    ∀ p ∈ s.cut (s.entry b).layoutSet (s.entry b).view addr count, ∀ i, p.region = some i → p.kind ≠ .pad →
      ∀ x o n, .remap i p.entry (s.entry b).view x o n ∉ s.spareMap k

/-- The entry of a logical board has a READY primary and no twin that takes traffic. -/
def OneBoard (s : State) (b : BoardId) (k : SlotId) : Prop :=
  (s.entry b).primary = some k ∧ (s.entry b).twin ≠ some k ∧ s.isReady k = true ∧
    ((s.entry b).twinState = .none ∨ (s.entry b).twinState = .stale)

/-- R16, R49 to R52, R54: where the span does not wrap and no entry in it is redirected, whatever regions it meets, and with
room on its queue, one READY board receives an agent STORE as it is, a FILL whole in its first step, and a FETCH unsplit, for
which the lowest FREE entry becomes QUEUED with the agent's tag and board and its index is the tag on the slot link. The head
leaves intake. -/
def Obligations.OneBoardTraffic : Prop :=
  ∀ (t : Txn) (b : BoardId) (rest : List Txn) (k : SlotId) (s : State), PlainSpan s b k t.addr t.count → t.countOk = true →
    (s.slot k).queue.length < 48 →
    (s.Heads .store t b rest → OneBoard s b k →
      exec .storeTaken s = .next ((s.setSlot k (s.queued k
        [⟨{ kind := .store, count := t.count, addr := t.addr, data := t.data }, .agentDerived⟩])).taken rest).cutHead) ∧
    (s.Heads .fill t b rest → OneBoard s b k →
      s.fill = some ⟨s.cut (s.entry b).layoutSet (s.entry b).view t.addr t.count, none⟩ →
      exec .fillStep s = .next ({ s.setSlot k (s.queued k
        [⟨{ kind := .fill, count := t.count, addr := t.addr, data := [t.data.headD 0] }, .agentDerived⟩]) with
        fill := none }.taken rest).cutHead) ∧
    ∀ i : PendIdx, s.Heads .fetch t b rest → (s.entry b).primary = some k → s.isReady k = true →
      Lowest (fun j => (s.slot k).pend[j] = none) i →
      exec .fetchTaken s = .next ((s.setSlot k { s.queued k
          [⟨{ kind := .fetch, tag := BitVec.ofNat 8 i, count := t.count, addr := t.addr }, .agentDerived⟩] with
        pend := (s.slot k).pend.set i (some ⟨.queued, .fetch, t.count, .agent t.tag b 1 1 none⟩) }).taken rest).cutHead

/-- A board's STORE, FILL and FETCH of a run of an agent transaction (R50, R54). -/
def runStore (t : Txn) (r : Run) : QTxn :=
  ⟨{ kind := .store, count := r.len, addr := BitVec.ofNat 32 r.addr
     data := r.spans.flatMap (fun x => (t.data.drop x.1).take x.2) }, .agentDerived⟩

def runFill (t : Txn) (r : Run) : QTxn :=
  ⟨{ kind := .fill, count := r.len, addr := BitVec.ofNat 32 r.addr, data := [t.data.headD 0] }, .agentDerived⟩

def runFetch (r : Run) (i : PendIdx) : QTxn :=
  ⟨{ kind := .fetch, tag := BitVec.ofNat 8 i, count := r.len, addr := BitVec.ofNat 32 r.addr }, .agentDerived⟩

/-- The STOREs that a STORE at the head makes for a slot: one for each run of the pieces that the slot receives (R49, R50). -/
def storesFor (s : State) (t : Txn) (b : BoardId) (k : SlotId) : List QTxn :=
  let e := s.entry b
  let vs := s.judgeStore t b
  if e.primary = some k then (s.runsFor k e.view (picked (·.primary) vs)).map (runStore t)
  else if e.twin = some k then (s.runsFor k e.view.other (picked (·.twin) vs)).map (runStore t)
  else []

/-- R49 to R51, R120 to R122, R136: a STORE whose runs fit on the queue of every slot that is to receive any is always taken:
every target's runs are placed at once, the side effects of its pieces take place, and the credit goes back last. There are no
more runs for a slot than words. A STORE that lacks room on a queue that is to receive runs of it stays at the head, and
nothing changes. That the pieces' NOTICEs come piece by piece and the GRANT after them is the model's choice (assumptions 9
and 10). -/
def Obligations.StoreIsTakenWithRoom : Prop :=
  ∀ (t : Txn) (b : BoardId) (rest : List Txn) (s : State), s.Heads .store t b rest → (s.entry b).Legal →
    ((∃ k, storesFor s t b k ≠ [] ∧ 48 < (s.slot k).queue.length + (storesFor s t b k).length) →
      exec .storeTaken s = .next s) ∧
    ((∀ k, storesFor s t b k ≠ [] → (s.slot k).queue.length + (storesFor s t b k).length ≤ 48) →
      exec .storeTaken s =
        .next ((((s.placed (storesFor s t b)).settled (s.entry b) (s.judgeStore t b)).taken rest).cutHead)) ∧
    ∀ k, (storesFor s t b k).length ≤ t.count

/-- The entry of a logical board has no slot that takes traffic: the primary is none or not READY, and so is a BUILDING or
TWINNED twin. -/
def NoBoard (s : State) (b : BoardId) : Prop :=
  (∀ k, (s.entry b).primary = some k → s.isReady k = false) ∧
    ∀ k, (s.entry b).twin = some k → (s.entry b).twinState = .building ∨ (s.entry b).twinState = .twinned →
      s.isReady k = false

/-- R49, R54, R56: traffic that finds no board is taken at once. Every piece of a STORE is discarded and counted, withheld pad and
outside pieces and uncovered ones too, and NO_BOARD_TRAFFIC carries the primary's slot number, or 255 for an empty entry; a
FETCH with no READY primary and a FENCE with no target, whatever a STALE twin's state, are answered NO-BOARD. That the GRANT
comes after a STORE's NOTICEs and ahead of the answers is the model's choice (assumption 9). -/
def Obligations.TrafficWithoutABoard : Prop :=
  ∀ (t : Txn) (b : BoardId) (rest : List Txn) (s : State),
    (s.Heads .store t b rest → t.countOk = true → NoBoard s b →
      let d : BitVec 8 := ((s.entry b).primary.map (fun k => BitVec.ofNat 8 k)).getD 255
      let u : State := (s.judgeStore t b).foldl (fun u _ => u.raise .noBoardTraffic d) s
      (∀ x ∈ s.judgeStore t b, x.discarded = true) ∧
      exec .storeTaken s =
        .next (({ u with globals := s.globals.after (s.entry b) (s.judgeStore t b) }.taken rest).cutHead) ∧
      (u.notice .noBoardTraffic).pending = true ∧ (u.notice .noBoardTraffic).detail = d) ∧
    (s.Heads .fetch t b rest → (∀ k, (s.entry b).primary = some k → s.isReady k = false) →
      exec .fetchTaken s = .next { s.taken rest with
        upstream := (s.taken rest).upstream ++ [Txn.noBoardReturn t.tag b t.count] }.cutHead) ∧
    (s.Heads .fence t b rest → NoBoard s b →
      exec .fenceTaken s = .next { s.taken rest with
        upstream := (s.taken rest).upstream ++ [Txn.fenceDoneOf t.tag b 4] }.cutHead)

/-- The FILL that one piece of a FILL makes for a slot which did not receive the FILL whole (R49, R52). -/
def fillsFor (s : State) (t : Txn) (b : BoardId) (w : List SlotId) (p : Piece) (k : SlotId) : List QTxn :=
  let e := s.entry b
  let made : View → List QTxn := fun v =>
    [⟨{ kind := .fill, count := p.len, addr := BitVec.ofNat 32 (s.sendAddr k v p), data := [t.data.headD 0] }, .agentDerived⟩]
  if k ∈ w then []
  else if e.primary = some k then if s.reachesPrimary e p = true then made e.view else []
  else if e.twin = some k then if s.reachesTwin e p = true then made e.view.other else []
  else []

/-- A slot of an entry receives a FILL whole: the entry is not BUILDING, every piece reaches the slot, and the pieces make one
run for it (R52). -/
def TakesWhole (s : State) (b : BoardId) (ps : List Piece) (k : SlotId) : Prop :=
  let e := s.entry b
  e.twinState ≠ .building ∧
    ((e.primary = some k ∧ (∀ p ∈ ps, s.reachesPrimary e p = true) ∧ (s.runsFor k e.view ps).length = 1) ∨
     (e.twin = some k ∧ (∀ p ∈ ps, s.reachesTwin e p = true) ∧ (s.runsFor k e.view.other ps).length = 1))

/-- The one FILL of a slot that receives a FILL whole (R52). -/
def wholeFor (s : State) (t : Txn) (b : BoardId) (w : List SlotId) (ps : List Piece) (k : SlotId) : List QTxn :=
  let e := s.entry b
  if k ∈ w then (s.runsFor k (if e.primary = some k then e.view else e.view.other) ps).map (runFill t) else []

/-- R52, R53, R129: a FILL is expanded. Its first step places one FILL on each slot that receives it whole, the primary first,
and is the last where every target of every piece receives it whole; with no such slot the first step is the first piece's
(assumption 12). A following step takes one piece: exactly the slots that the piece reaches, and that did not receive the FILL
whole, get one FILL each, at the piece's address in the slot's view, redirected, and the piece's side effects take place
(that a piece whose only target received the FILL whole is not discarded is assumption 13). The FILL is taken with its last
piece, its GRANT last (assumption 9). A step that lacks room on a queue that is to receive from it changes nothing. -/
def Obligations.FillAdvancesByOnePiece : Prop :=
  ∀ (t : Txn) (b : BoardId) (rest : List Txn) (p : Piece) (ps : List Piece) (s : State),
    s.Heads .fill t b rest → (s.entry b).Legal →
    let e := s.entry b
    let done : State → State := fun u => ({ u with fill := none }.taken rest).cutHead
    (∀ w, s.fill = some ⟨p :: ps, some w⟩ ∨ (s.fill = some ⟨p :: ps, none⟩ ∧ w = [] ∧ ∀ k, ¬ TakesWhole s b (p :: ps) k) →
      let q := fillsFor s t b w p
      let u := (s.placed q).settled e [s.judge e p]
      ((∃ k, q k ≠ [] ∧ 48 ≤ (s.slot k).queue.length) → exec .fillStep s = .next s) ∧
      ((∀ k, q k ≠ [] → (s.slot k).queue.length < 48) →
        (ps ≠ [] → exec .fillStep s = .next { u with fill := some ⟨ps, some w⟩ }) ∧
        (ps = [] → exec .fillStep s = .next (done u)))) ∧
    ∀ w : List SlotId, s.fill = some ⟨p :: ps, none⟩ → w ≠ [] → (∀ k, k ∈ w ↔ TakesWhole s b (p :: ps) k) → w.Nodup →
      (∀ k, e.primary = some k → k ∈ w → w.head? = some k) →
      let q := wholeFor s t b w (p :: ps)
      let all := ∀ x ∈ p :: ps, (s.reachesPrimary e x = true → ∃ k ∈ w, e.primary = some k) ∧
        (s.reachesTwin e x = true → ∃ k ∈ w, e.twin = some k)
      ((∃ k ∈ w, 48 ≤ (s.slot k).queue.length) → exec .fillStep s = .next s) ∧
      ((∀ k ∈ w, (s.slot k).queue.length < 48) →
        (all → exec .fillStep s = .next (done ((s.placed q).settled e ((p :: ps).map (s.judge e))))) ∧
        (¬ all → exec .fillStep s = .next { s.placed q with fill := some ⟨p :: ps, some w⟩ }))

/-- The lowest-numbered indexes of a table that meet a test, in ascending order. -/
def LowestOnes {n : Nat} (free : Fin n → Prop) (is : List (Fin n)) : Prop :=
  is.Pairwise (· < ·) ∧ (∀ i ∈ is, free i) ∧ ∀ j, free j → j ∉ is → ∀ i ∈ is, i < j

/-- R16, R54, R55: a FETCH on a READY primary is taken when the queue has room for one part per run and the pending reply table
a FREE entry for each: the parts are queued in address order (the order of the span, where it wraps, assumption 26) with the
lowest FREE entries, and each entry carries the agent's tag, the board, its part's number and the number of parts; more than
one part makes an assembly record, which they name.
Otherwise it stays, and nothing changes. A RETURN for a part resolves it; a part that is not the last is recorded alone. The
last part to resolve sends one RETURN, of the worst status, with the parts' data in order when that is OK or CORRECTED, and
the record is gone. The record's number is the model's own (assumption 16); that the GRANT comes first is assumption 9. -/
def Obligations.SplitFetchIsTakenAndAssembled : Prop :=
  (∀ (t : Txn) (b : BoardId) (rest : List Txn) (k : SlotId) (s : State), s.Heads .fetch t b rest → t.countOk = true →
    (s.entry b).primary = some k → s.isReady k = true →
    let e := s.entry b
    let rs := s.runsFor k e.view (s.cut e.layoutSet e.view t.addr t.count)
    (48 < (s.slot k).queue.length + rs.length ∨
        (List.finRange 64).countP (fun i : PendIdx => (s.slot k).pend[i].isNone) < rs.length →
      exec .fetchTaken s = .next s) ∧
    ∀ is : List PendIdx, (s.slot k).queue.length + rs.length ≤ 48 → is.length = rs.length →
      LowestOnes (fun i : PendIdx => (s.slot k).pend[i] = none) is →
      ∃ (n : Nat) (pend : Vector (Option PendEntry) 64), (∀ a ∈ s.assemblies, a.num ≠ n) ∧
        (∀ (j : Nat) (r : Run) (i : PendIdx), rs[j]? = some r → is[j]? = some i →
          pend[i] = some ⟨.queued, .fetch, r.len,
            .agent t.tag b (j + 1) rs.length (if rs.length = 1 then none else some n)⟩) ∧
        (∀ i : PendIdx, i ∉ is → pend[i] = (s.slot k).pend[i]) ∧
        exec .fetchTaken s = .next ({ s.setSlot k { s.queued k (List.zipWith runFetch rs is) with pend := pend } with
          assemblies := if rs.length = 1 then s.assemblies
            else s.assemblies ++ [(⟨n, t.tag, b, t.count, List.replicate rs.length none⟩ : Assembly)] }.taken rest).cutHead) ∧
  (∀ (k : SlotId) (f : Frame) (t : Txn) (i : PendIdx) (tag : BitVec 8) (b : BoardId) (part parts n : Nat) (s : State),
    SlotBrings s k f t .ret → s.isReady k = true → i.val = t.tag.toNat →
    (s.slot k).pend[i] = some ⟨.sent, .fetch, t.count, .agent tag b part parts (some n)⟩ →
    exec (.returnReceived k f) s = .next ((s.setSlot k { s.slot k with
      pend := (s.slot k).pend.set i none, sentOrder := (s.slot k).sentOrder.filter (fun j => j ≠ i) }).resolvePart n part
        ⟨t.status, t.data⟩)) ∧
  ∀ (s : State) (a : Assembly) (part : Nat) (r : PartResult), s.assemblies.find? (fun x => x.num == a.num) = some a →
    (none ∈ a.parts.set (part - 1) (some r) → s.resolvePart a.num part r = { s with
      assemblies := s.assemblies.map (fun x =>
        if x.num = a.num then { a with parts := a.parts.set (part - 1) (some r) } else x) }) ∧
    ∀ ps : List PartResult, (a.parts.set (part - 1) (some r)) = ps.map some →
      ∃ p ∈ ((⟨0, []⟩ : PartResult) :: ps), (∀ q ∈ ps, q.status ≤ p.status) ∧
        s.resolvePart a.num part r = { s with
          assemblies := s.assemblies.filter (fun x => x.num ≠ a.num)
          upstream := s.upstream ++ [{ kind := .ret, board := BitVec.ofNat 4 a.board, status := p.status, tag := a.tag,
                                       count := a.count
                                       data := if p.status = 0 ∨ p.status = 1 then ps.flatMap (·.data) else [] }] }

/-- The slot port of a slot that has received one FENCE of a group, with the pending entry it takes (R16, R56). -/
def fenced (s : State) (k : SlotId) (i : PendIdx) (n : Nat) (twin : Bool) : SlotPort :=
  { s.queued k [⟨{ kind := .fence, tag := BitVec.ofNat 8 i }, .agentDerived⟩] with
    pend := (s.slot k).pend.set i (some ⟨.queued, .fence, 0, .fenceGroup n twin⟩) }

/-- R16, R17, R56: a FENCE to a READY primary whose twin takes no part, be it STALE, none, or BUILDING or TWINNED on a slot not
READY (R130), places one FENCE on the primary and makes a fence group of one part; to a BUILDING or TWINNED pair, both READY, one
on each queue, in one group (R130); with the primary not READY and the twin READY, one on the twin alone, in a group whose
primary part is FAILED. Each takes the lowest FREE entry of its slot. Where a target
lacks room or a FREE entry the FENCE stays, and nothing changes. The group's number is the model's own (assumption 16). -/
def Obligations.FenceReachesItsTargets : Prop :=
  ∀ (t : Txn) (b : BoardId) (rest : List Txn) (s : State), s.Heads .fence t b rest →
    let e := s.entry b
    let paired := e.twinState = .building ∨ e.twinState = .twinned
    let free : SlotId → PendIdx → Prop := fun k => Lowest (fun j => (s.slot k).pend[j] = none)
    let lacks : SlotId → Prop := fun k => 48 ≤ (s.slot k).queue.length ∨ ∀ i : PendIdx, (s.slot k).pend[i] ≠ none
    (∀ k, s.isReady k = true → lacks k → e.primary = some k ∨ (e.twin = some k ∧ paired) → exec .fenceTaken s = .next s) ∧
    (∀ (k : SlotId) (i : PendIdx), e.primary = some k → s.isReady k = true →
      (∀ j, e.twin = some j → paired → s.isReady j = false) → (s.slot k).queue.length < 48 → free k i →
      ∃ n, (∀ g ∈ s.fences, g.num ≠ n) ∧
        exec .fenceTaken s = .next ({ s.setSlot k (fenced s k i n false) with
          fences := s.fences ++ [(⟨n, t.tag, b, .sent, .absent⟩ : FenceGroup)] }.taken rest).cutHead) ∧
    (∀ (k j : SlotId) (i h : PendIdx), e.primary = some k → e.twin = some j → k ≠ j → paired → s.isReady k = true →
      s.isReady j = true → (s.slot k).queue.length < 48 → (s.slot j).queue.length < 48 → free k i → free j h →
      ∃ n, (∀ g ∈ s.fences, g.num ≠ n) ∧
        exec .fenceTaken s = .next ({ (s.setSlot k (fenced s k i n false)).setSlot j (fenced s j h n true) with
          fences := s.fences ++ [(⟨n, t.tag, b, .sent, .sent⟩ : FenceGroup)] }.taken rest).cutHead) ∧
    ∀ (j : SlotId) (h : PendIdx), (∀ k, e.primary = some k → s.isReady k = false) → e.twin = some j → paired →
      s.isReady j = true → (s.slot j).queue.length < 48 → free j h →
      ∃ n, (∀ g ∈ s.fences, g.num ≠ n) ∧
        exec .fenceTaken s = .next ({ s.setSlot j (fenced s j h n true) with
          fences := s.fences ++ [(⟨n, t.tag, b, .failed, .sent⟩ : FenceGroup)] }.taken rest).cutHead

/-- Command `cmd` takes slot `k` out of READY, from `s` to `u`: one of the six that can. -/
def Departs (k : SlotId) (cmd : Instr) (s u : State) : Prop :=
  s.startup ≠ .held ∧ s.isReady k = true ∧ exec cmd s = .next u ∧ u.isReady k = false ∧
    (cmd = .slotPresenceLost k ∨ cmd = .slotLinkLost k ∨ (∃ i, cmd = .replyTimerExpiry k i) ∨
      (∃ f, cmd = .helloReceived k f) ∨ (∃ f, cmd = .haltReceived k f) ∨ cmd = .slotHalt)

/-- R58, R59: the Steering Unit's reaction to a slot's departure from READY, by role, twin state and auto-swap; and every
command that brings a departure carries it out, on the two slots as they are with the slot not READY. Every entry that no failing
context releases, and the records of the two kinds the reaction raises, are as the reaction leaves them. -/
def Obligations.SteeringReactsToADeparture : Prop :=
  (∀ (k : SlotId) (cmd : Instr) (s u : State), Departs k cmd s u →
    let w := (s.setSlot k { s.slot k with state := .halted }).steeringLeft k
    (∀ b, ¬ (∃ c, (s.lossReason k c).isSome = true ∧ (s.ctx c).board = b ∧ (s.entry b).twinState = .building ∧
      (s.entry b).bound = some c) → u.entry b = w.entry b) ∧
    u.notice .autoSwap = w.notice .autoSwap ∧ u.notice .twinStale = w.notice .twinStale) ∧
  ∀ (s : State) (b : BoardId) (k : SlotId), s.SteeringLegal →
    ((s.entry b).primary = some k →
      ((s.entry b).twinState ≠ .twinned → s.steeringLeft k = s) ∧
      (∀ t, (s.entry b).twinState = .twinned → (s.entry b).twin = some t →
        (s.isReady t = true → (s.entry b).autoSwap = true →
          s.steeringLeft k = (s.setEntry b { s.entry b with
            primary := some t, twin := some k, view := (s.entry b).view.other, twinState := .stale }).raise .autoSwap
              (BitVec.ofNat 8 k)) ∧
        (s.isReady t = true → (s.entry b).autoSwap = false → s.steeringLeft k = s) ∧
        (s.isReady t = false →
          s.steeringLeft k = (s.setEntry b { s.entry b with twinState := .stale }).raise .twinStale
            (BitVec.ofNat 8 t)))) ∧
    ((s.entry b).twin = some k →
      ((s.entry b).twinState ≠ .twinned → s.steeringLeft k = s) ∧
      ((s.entry b).twinState = .twinned →
        s.steeringLeft k = (s.setEntry b { s.entry b with twinState := .stale }).raise .twinStale (BitVec.ofNat 8 k))) ∧
    ((∀ a, ¬ (s.entry a).Names k) → s.steeringLeft k = s)

/-- R86, R92, R95, R106, R113, R114, R143, R156 to R158, R161: the Migration Engine's reaction to a slot's departure from
READY, whatever command brings it. Every context either fails, with the reason that reaches it first, or starts an emergency
cutover, or stands; a failing context gives up its holdings, its entry returns to STALE, its deferred reply is sent as FAILED
with the reason's code, and CTX_FAILED is raised. Gap records stay. -/
def Obligations.EngineReactsToADeparture : Prop :=
  ∀ (k : SlotId) (cmd : Instr) (s u : State), Departs k cmd s u →
    let fails : CtxId → Bool := fun c => (s.lossReason k c).isSome
    (∀ c, u.ctx c = s.ctxAfterLoss k c) ∧
    u.gaps = s.gaps ∧
    (∀ c, fails c = true → ∀ b, (s.ctx c).board = b → (s.entry b).twinState = .building → (s.entry b).bound = some c →
      u.entry b = { s.entry b with twinState := .stale, bound := none }) ∧
    (∀ g : StagingId, u.staging[g] =
      if ∃ c, fails c = true ∧ ∃ f ∈ (s.ctx c).flights, f.staging = g then none else s.staging[g]) ∧
    (∀ j, j ≠ k → ∀ i : PendIdx, (u.slot j).pend[i] = (s.slot j).pend[i].map (fun e =>
      if ∃ c, fails c = true ∧ e.origin.isOf c = true then { e with origin := .orphan } else e)) ∧
    (∀ j, j ≠ k ∨ (u.slot k).state ≠ .down → u.spareMap j = (s.spareMap j).map (fun x =>
      match x with
      | .remap r e v i (some c) n => if fails c then .remap r e v i none 0 else .remap r e v i (some c) n
      | y => y)) ∧
    (∀ c r, s.lossReason k c = some r → (u.notice .ctxFailed).pending = true ∧
      ∀ tag, (s.ctx c).deferred = some tag → ∃ l, u.upstream = s.upstream ++ l ∧
        ({ kind := .mgmtReply, board := 15, status := 6, tag := tag, count := 1, addr := 72
           data := [BitVec.ofNat 32 r.code] } : Txn) ∈ l)

/-! ### The Region Map, spare maps and the classification of agent pieces (R49, R66 to R71, R116 to R127, R144) -/

/-- R66 to R70: the pieces of a span cover it once, in order. An OUTSIDE piece lies outside every region of the set and ends at
a region's start, at the top of the address space or with the span; a piece of a region lies in the data words or in the pad
words of one entry, and a data piece carries its address in the other view. -/
def Obligations.PiecesCoverTheSpan : Prop :=
  ∀ (s : State) (l : SetId) (v : View) (addr : Word) (count : Nat),
    let ps := s.cut l v addr count
    (ps.map (·.len)).sum = count ∧
    (∀ (n : Nat) (p : Piece), ps[n]? = some p →
      p.pos = ((ps.take n).map (·.len)).sum ∧ p.addr = (addr.toNat + p.pos) % 4294967296 ∧ 1 ≤ p.len ∧ p.view = v) ∧
    ∀ p ∈ ps,
      (p.kind = .outside ↔ p.region = none) ∧
      (p.region = none →
        (∀ i r a, s.region i = some r → r.set = l → p.addr ≤ a → a < p.addr + p.len → ¬ r.Extent v a) ∧
        (p.pos + p.len = count ∨ p.addr + p.len = 4294967296 ∨
          ∃ i r, s.region i = some r ∧ r.set = l ∧ (r.geom v).base.toNat = p.addr + p.len)) ∧
      ∀ i, p.region = some i → ∃ r, s.region i = some r ∧ r.set = l ∧ p.entry < r.entries ∧
        p.addr = (r.geom v).base.toNat + p.entry * (r.geom v).pitch + p.offset ∧
        (p.kind = .pad → r.width ≤ p.offset ∧ p.offset + p.len ≤ (r.geom v).pitch ∧
          (p.pos + p.len = count ∨ p.offset + p.len = (r.geom v).pitch)) ∧
        (p.kind ≠ .pad → p.offset + p.len ≤ r.width ∧ (p.pos + p.len = count ∨ p.offset + p.len = r.width) ∧
          p.kind = (if r.mode = .localOnly then .localData else .entry) ∧
          p.trans = (r.geom v.other).base.toNat + p.entry * (r.geom v.other).pitch + p.offset)

/-- A piece's entry has a REMAP record for the slot's view in the slot's spare map. -/
def Redirected (s : State) (k : SlotId) (v : View) (p : Piece) : Prop :=
  (p.kind = .entry ∨ p.kind = .localData) ∧ ∃ i r, p.region = some i ∧ s.region i = some r ∧
    ∃ x o n, .remap i p.entry v x o n ∈ s.spareMap k

/-- Two neighbouring pieces join in a slot's run: neither is redirected, the agent's addresses ascend, and the later address
follows the earlier. -/
def Joins (s : State) (k : SlotId) (v : View) (p q : Piece) : Prop :=
  ¬ Redirected s k v p ∧ ¬ Redirected s k v q ∧ p.addr < q.addr ∧ s.sendAddr k v q = s.sendAddr k v p + p.len

/-- R71, R144: where a slot receives a word of an entry, by its spare map, on the walk's path and on the agent's. R50, R70, R71,
R144: the runs of the pieces bound for a slot: neighbours join exactly where the agent's addresses ascend, which they do not from
one side of the wrap to the other, the later address in the slot's view follows the earlier, and neither is redirected. That no
run crosses the wrap over words withheld from the slot is the model's reading (assumption 29). R149, R151: what a cutover writes
into the remap window, in STOREs of 16 words, and when it fits. -/
def Obligations.SpareMapsRedirectAndAreWrittenOut : Prop :=
  (∀ (s : State) (k : SlotId) (v : View) (p : Piece),
    (∀ i r x o n, (p.kind = .entry ∨ p.kind = .localData) → p.region = some i → s.region i = some r →
      .remap i p.entry v x o n ∈ s.spareMap k → (∀ y q m, .remap i p.entry v y q m ∈ s.spareMap k → y = x) →
      s.sendAddr k v p = (r.geom v).spareBase.toNat + x * (r.geom v).pitch + p.offset) ∧
    (¬ Redirected s k v p → s.sendAddr k v p = if p.view = v then p.addr else p.trans)) ∧
  (∀ (s : State) (k : SlotId) (v : View) (ps : List Piece), ∃ gs : List (List Piece), gs.flatten = ps ∧ [] ∉ gs ∧
    (s.runsFor k v ps).map (fun r => (r.addr, r.len, r.spans)) = gs.map (fun g =>
      ((g.head?.map (s.sendAddr k v)).getD 0, (g.map (·.len)).sum, g.map (fun p => (p.pos, p.len)))) ∧
    (∀ g ∈ gs, g.IsChain (Joins s k v)) ∧
    ∀ before g h after, gs = before ++ g :: h :: after → ∀ p q, g.getLast? = some p → h.head? = some q → ¬ Joins s k v p q) ∧
  (∀ (s : State) (k : SlotId) (v : View) (i : RegionId) (r : Region) (e w x : Nat) (o : Option CtxId) (n : Nat),
    (.remap i e v x o n ∈ s.spareMap k → (∀ y p m, .remap i e v y p m ∈ s.spareMap k → y = x) →
      s.slotAddr k v i r e w = (r.geom v).spareBase.toNat + x * (r.geom v).pitch + w) ∧
    ((∀ y p m, .remap i e v y p m ∉ s.spareMap k) →
      s.slotAddr k v i r e w = (r.geom v).base.toNat + e * (r.geom v).pitch + w)) ∧
  ∀ (s : State) (c : CtxId),
    let x := s.ctx c
    let v := x.srcView.other
    let l := (s.entry x.board).layoutSet
    let recs : List (List Word) := (s.spareMap x.dst).filterMap (fun y =>
      match y with
      | .remap i e u n _ _ => (s.region i).bind (fun r =>
          if r.set = l ∧ u = v then
            some [BitVec.ofNat 32 ((r.geom v).base.toNat + e * (r.geom v).pitch),
                  BitVec.ofNat 32 ((r.geom v).spareBase.toNat + n * (r.geom v).pitch)]
          else none)
      | .retired _ _ _ => none)
    let words := recs.flatten ++ if recs.length < (s.layout l).cap v then [0, 0] else []
    (s.windowFits c = true ↔ recs.length ≤ (s.layout l).cap v) ∧
    (s.writeOutStores c).length = (words.length + 15) / 16 ∧
    ∀ j, 16 * j < words.length → (s.writeOutStores c)[j]? =
      some { kind := .store, count := min 16 (words.length - 16 * j)
             addr := BitVec.ofNat 32 (((s.layout l).base v).toNat + 16 * j), data := (words.drop (16 * j)).take 16 }

/-- R117, R118: the tests in order, the first that applies; a covered entry is walked in a finished segment, or below F in the
current one. R49: which pieces reach the primary and which the twin. -/
def Obligations.TargetsAndClassification : Prop :=
  (∀ (s : State) (c : CtxId) (i : RegionId) (mode : CopyMode) (e : Nat),
    let x := s.ctx c
    let covers : Segment → Prop := fun g => g.region = i ∧ g.first ≤ e ∧ e < g.first + g.count
    let flying := ∃ f ∈ x.flights, f.region = i ∧ f.entry = e
    let walked := ∃ m n g, x.segs[m]? = some g ∧ covers g ∧ (∀ h ∈ x.segs.take m, ¬ covers h) ∧ x.cur = some n ∧
      (m < n ∨ (m = n ∧ e < x.frontier))
    (mode = .mirror → s.classify c i mode e = .mirrorMode) ∧
    (mode ≠ .mirror → (∀ g ∈ x.segs, ¬ covers g) → s.classify c i mode e = .uncovered) ∧
    (mode ≠ .mirror → (∃ g ∈ x.segs, covers g) →
      (flying → s.classify c i mode e = .inFlight) ∧
      (¬ flying → walked → s.classify c i mode e = .walked) ∧
      (¬ flying → ¬ walked → s.classify c i mode e = .ahead))) ∧
  ∀ (s : State) (e : SteerEntry) (p : Piece), e.Legal →
    (s.reachesPrimary e p = true ↔
      ∃ k, e.primary = some k ∧ s.isReady k = true ∧ (p.kind = .entry ∨ p.kind = .localData ∨ p.view = e.view)) ∧
    (s.reachesTwin e p = true ↔
      ∃ k, e.twin = some k ∧ s.isReady k = true ∧ p.kind = .entry ∧
        (e.twinState = .twinned ∨
         (e.twinState = .building ∧ ∃ c i r, e.bound = some c ∧ p.region = some i ∧ s.region i = some r ∧
            (s.classify c i r.mode p.entry = .mirrorMode ∨ s.classify c i r.mode p.entry = .walked))))

/-- R123 to R127: an addition to a revisit list: contained, merging, extending upward, extending downward, a new record placed
in list order, and with the pool empty a rewalk, or at the limit the failure with CHURN. -/
def Obligations.RevisitAdditions : Prop :=
  ∀ (s : State) (c : CtxId) (i : RegionId) (e : Nat),
    let x := s.ctx c
    let within := ∃ g ∈ x.revisit, g.region = i ∧ g.first ≤ e ∧ e ≤ g.last
    let below := x.revisit.find? (fun g => g.region == i && g.last + 1 == e)
    let above := x.revisit.find? (fun g => g.region == i && g.first == e + 1)
    let ordered : List Range → Prop := fun l => l.Pairwise (fun g h => x.rangeBefore h g = false)
    let added : List Range → State := fun l => s.setCtx c { x with
      revisit := l, counters := { x.counters with revisitsAdded := satAdd x.counters.revisitsAdded 1 } }
    (within → s.addRevisit c i e = (s, false)) ∧
    (∀ g h, ¬ within → below = some g → above = some h →
      s.addRevisit c i e = (added ((x.revisit.filter (fun y => y.num ≠ h.num)).map (fun y =>
        if y.num = g.num then { y with last := h.last } else y)), false)) ∧
    (∀ g, ¬ within → below = some g → above = none →
      s.addRevisit c i e = (added (x.revisit.map (fun y => if y.num = g.num then { y with last := e } else y)), false)) ∧
    (∀ h, ¬ within → below = none → above = some h →
      ∃ l, s.addRevisit c i e = (added l, false) ∧
        l.Perm ({ h with first := e } :: x.revisit.filter (fun y => y.num ≠ h.num)) ∧ (ordered x.revisit → ordered l)) ∧
    (¬ within → below = none → above = none →
      (∀ n, Lowest (fun m : RangeId => ∀ d, ∀ g ∈ (s.ctx d).revisit, g.num ≠ m) n →
        ∃ l, s.addRevisit c i e = (added l, false) ∧ l.Perm (⟨n, i, e, e⟩ :: x.revisit) ∧
          (ordered x.revisit → ordered l)) ∧
      ((∀ m : RangeId, ∃ d, ∃ g ∈ (s.ctx d).revisit, g.num = m) →
        (∀ g gs, x.segs = g :: gs → x.rewalkCount < x.rewalkLimit →
          s.addRevisit c i e = ((s.setCtx c { x with
            revisit := [], cur := some 0, frontier := g.first, phase := .walk, rewalkCount := x.rewalkCount + 1, held := none
            counters := { x.counters with rewalks := satAdd x.counters.rewalks 1 } }).raise .rewalk (BitVec.ofNat 8 c),
            true)) ∧
        (x.rewalkLimit ≤ x.rewalkCount → s.addRevisit c i e = (s.failCtx c .churn, true))))

/-! ### Notices (R173 to R178) -/

/-- R176, R177: an occurrence sets pending, counts and keeps the newest detail; the NOTICE is sent once an episode, when the
kind is open (R174), laid out as Table 1-1 says. -/
def Obligations.OccurrenceRecordsAndSends : Prop :=
  ∀ (s : State) (k : NoticeKind) (d : BitVec 8),
    let r : NoticeRec := { s.notice k with
      pending := true, detail := d
      count := if (s.notice k).count = 65535 then 65535 else (s.notice k).count + 1 }
    let isOpen := r.mask = false ∧ s.floor < s.levelOf k
    (r.sent = false → isOpen →
      s.raise k d = { s with
        upstream := s.upstream ++ [(s.setNotice k r).noticeTxn k]
        notices := s.notices.set k.index { r with sent := true } }) ∧
    (¬ (r.sent = false ∧ isOpen) → s.raise k d = { s with notices := s.notices.set k.index r }) ∧
    ∃ v w, s.noticeWords k = [v, w] ∧
      v.extractLsb' 24 8 = BitVec.ofNat 8 (k.index + 1) ∧ v.extractLsb' 20 4 = 0 ∧
      v.extractLsb' 16 4 = BitVec.ofNat 4 (s.levelOf k) ∧ v.extractLsb' 8 8 = 0 ∧
      v.extractLsb' 0 8 = (s.notice k).detail ∧ w.extractLsb' 16 16 = 0 ∧ w.extractLsb' 0 16 = (s.notice k).count

/-- R175: the four configuration requests, and the NOTICEs of the kinds that a change opens, in COLLECT order, before the reply. -/
def Obligations.NoticeConfiguration : Prop :=
  (∀ (t : Txn) (rest : List Txn) (s : State),
    (s.Requested .noticeLevel t rest →
      (∀ (g : GroupId) (l : Level), t.params = [g.val, l.val] → exec .noticeLevel s = .next
        ({ s.taken rest with levels := s.levels.set g l }.sendOpened.replied t .done)) ∧
      ((∀ (g : GroupId) (l : Level), t.params ≠ [g.val, l.val]) → Refuses .noticeLevel s t rest .badArgument)) ∧
    (s.Requested .noticeFloor t rest →
      (∀ l : Level, t.params = [l.val] → exec .noticeFloor s = .next
        ({ s.taken rest with floor := l }.sendOpened.replied t .done)) ∧
      ((∀ l : Level, t.params ≠ [l.val]) → Refuses .noticeFloor s t rest .badArgument)) ∧
    ∀ (c : Instr) (r : Request) (m : Bool), (c = .maskSet ∧ r = .maskSet ∧ m = true) ∨
        (c = .maskClear ∧ r = .maskClear ∧ m = false) → s.Requested r t rest →
      (∀ ks : List NoticeKind, t.params = ks.map (fun k => k.index.val + 1) → 1 ≤ ks.length → ks.length ≤ 16 →
        ∃ u : State, exec c s = .next (u.sendOpened.replied t .done) ∧ u = { s.taken rest with notices := u.notices } ∧
          ∀ k, u.notice k = if k ∈ ks then { s.notice k with mask := m } else s.notice k) ∧
      ((∀ ks : List NoticeKind, ks.length ≤ 16 → 1 ≤ ks.length → t.params ≠ ks.map (fun k => k.index.val + 1)) →
        Refuses c s t rest .badArgument)) ∧
  ∀ s : State, ∃ ks, s.InCollectOrder
      (fun k => (s.notice k).pending && !(s.notice k).sent && !(s.notice k).mask && decide (s.floor < s.levelOf k)) ks ∧
    ∃ u, s.sendOpened = u ∧ u = { s with upstream := s.upstream ++ ks.map s.noticeTxn, notices := u.notices } ∧
      ∀ k, u.notice k = if k ∈ ks then { s.notice k with sent := true } else s.notice k

/-- R178: COLLECT returns the first eight or fewer pending kinds in order, ends their episodes, and sets MORE when others
remain. -/
def Obligations.CollectReturnsPendingKinds : Prop :=
  ∀ (t : Txn) (rest : List Txn) (s : State), s.Requested .collect t rest →
    (t.params ≠ [] → Refuses .collect s t rest .badArgument) ∧
    (t.params = [] → ∃ (ks : List NoticeKind) (u : State), s.InCollectOrder (fun k => (s.notice k).pending) ks ∧
      exec .collect s = .next (u.replied t .done ((ks.take 8).flatMap s.noticeWords) (decide (8 < ks.length))) ∧
      u = { s.taken rest with notices := u.notices } ∧
      ∀ k, u.notice k = if k ∈ ks.take 8 then ⟨(s.notice k).mask, false, 0, 0, false⟩ else s.notice k)

/-! ### In-band management (R164 to R171) -/

/-- R164, R167: a MGMT whose kind is not one of Table 1-3 is answered UNKNOWN-REQUEST, and nothing else is done. A READ-STATE that
names no object, an index that its object lacks or a page above 255 is answered BAD-ARGUMENT; a row that reads another object
leaves the request alone, as a head of another kind does (assumption 3; that each row answers a request that names none is
assumption 11). That the GRANT stands ahead of the reply is assumption 9. -/
def Obligations.RequestsThatNameNothing : Prop :=
  (∀ (t : Txn) (rest : List Txn) (s : State), s.startup ≠ .held → s.intake = t :: rest → t.kind = .mgmt →
    t.asRequest = none → Refuses .unknownRequest s t rest .unknownRequest) ∧
  (∀ t : Txn, t.asRequest = none ↔ t.addr.extractLsb' 0 16 ∉
    ([1, 2, 3, 16, 17, 32, 33, 34, 35, 36, 48, 49, 50, 64, 65, 66, 67, 68, 69, 70, 71, 72, 80, 81, 96, 97, 98, 99, 100] :
      List (BitVec 16))) ∧
  ∀ (t : Txn) (rest : List Txn) (s : State), s.Requested .readState t rest →
    ∀ x ∈ ([(.readStateBridge, 0, 1), (.readStateSlot, 1, 8), (.readStateSteer, 2, 15), (.readStateLayout, 3, 4),
        (.readStateRegion, 4, 64), (.readStateContext, 5, 16), (.readStateSegments, 6, 16), (.readStateRevisit, 7, 16),
        (.readStateGaps, 8, 17), (.readStateSpares, 9, 8), (.readStateNotices, 10, 1), (.readStateCounters, 11, 25)] :
        List (Instr × Nat × Nat)),
      ((∀ o i p, t.params = [o, i, p] → 11 < o) → Refuses x.1 s t rest .badArgument) ∧
      (∀ i p, t.params = [x.2.1, i, p] → x.2.2 ≤ i ∨ 255 < p → Refuses x.1 s t rest .badArgument) ∧
      (∀ o i p, t.params = [o, i, p] → o ≤ 11 → o ≠ x.2.1 → exec x.1 s = .next s)

/-- R39, R61, R78, R97, R167, R169: READ-STATE of the six record objects, word by word. It changes nothing but the reply. -/
def Obligations.ReadStateRecords : Prop :=
  ∀ (t : Txn) (rest : List Txn) (page : Nat) (s : State), s.Requested .readState t rest → page ≤ 255 →
    let answers : Instr → List Nat → Bool → Prop := fun c ns more =>
      exec c s = .next ((s.taken rest).replied t .done (ns.map (BitVec.ofNat 32)) more)
    let none255 : Option Nat → Nat := fun x => x.getD 255
    (t.params = [0, 0, page] → answers .readStateBridge
      [2460, 3, match s.startRecord.cause with | .power => 0 | .line => 1, s.startRecord.softResets.toNat] false) ∧
    (∀ k : SlotId, t.params = [1, k.val, page] →
      let p := s.slot k
      answers .readStateSlot
        [k.val, p.state.code, p.linkCode, p.credits, p.queue.length, p.pend.toList.countP (·.isSome), p.arrival.isSome.toNat,
         (p.arrival.map (·.boardClass.toNat)).getD 0, (p.arrival.map (·.cause.code)).getD 0, p.helloFailures,
         p.halt.isSome.toNat, (p.halt.map (·.source.code)).getD 0, (p.halt.map (·.reason.toNat)).getD 0] false) ∧
    (∀ b : BoardId, t.params = [2, b.val, page] →
      let e := s.entry b
      answers .readStateSteer
        [b.val, none255 (e.primary.map (·.val)), none255 (e.twin.map (·.val)), e.twinState.code, e.layoutSet.val,
         e.view.code, e.autoSwap.toNat, none255 (e.bound.map (·.val))] false) ∧
    (∀ l : SetId, t.params = [3, l.val, page] →
      let x := s.layout l
      answers .readStateLayout
        [l.val, x.baseA.toNat, x.capA, x.baseB.toNat, x.capB, s.regions.toList.countP (fun r => r.any (fun y => y.set == l)),
         s.steer.toList.countP (fun e => e.primary.isSome && e.layoutSet == l), (s.setInUse l).toNat] false ∧
      (s.setInUse l = true ↔ s.InUse l)) ∧
    (∀ i : RegionId, t.params = [4, i.val, page] →
      (s.region i = none → answers .readStateRegion [i.val, 255, 0, 0, 0, 0, 0, 0, 0, 0, 0, 0, 0, 0, 0, 0] false) ∧
      (∀ r, s.region i = some r → answers .readStateRegion
        [i.val, r.set.val, r.width, r.entries, r.geomA.base.toNat, r.geomA.pitch, r.geomB.base.toNat, r.geomB.pitch,
         r.mode.code, r.verify.getD 0, r.poison.toNat, r.geomA.spareBase.toNat, r.geomA.spareCount, r.geomB.spareBase.toNat,
         r.geomB.spareCount, (s.regionHeld i).toNat] false) ∧
      (s.regionHeld i = true ↔ s.Held i)) ∧
    (∀ c : CtxId, t.params = [5, c.val, page] →
      let x := s.ctx c
      (page % 2 = 0 → answers .readStateContext
        [c.val, x.state.code, x.board.val, (decide ((s.entry x.board).bound = some c)).toNat, x.src.val, x.dst.val,
         x.srcView.code, x.priority.val, x.pace.getD 0, x.window, x.rewalkLimit + 8 * x.autoCutover.toNat,
         (x.failReason.map (·.code)).getD 0, (x.outcome.map (·.code)).getD 0] true) ∧
      (page % 2 = 1 → answers .readStateContext
        [c.val, x.state.code, x.segs.length, (x.cur.map (· + 1)).getD 0, x.frontier, x.phase.code, x.rewalkCount,
         x.flights.length, x.verifyCounter, (x.stop.map (fun p => if p.again then 2 else 1)).getD 0,
         (x.stop.map (fun p => none255 (p.region.map (·.val)))).getD 0, (x.stop.map (·.value.toNat)).getD 0,
         (x.stop.map (·.mask.toNat)).getD 0, (x.pauseReason.map (·.code)).getD 0,
         256 - (s.ctxs.toList.map (·.segs.length)).sum] false))

/-- R131, R147, R167, R168, R179, R181: READ-STATE of the six list objects in pages of eight records, each field at its width
from bit 31 of the first word downward; MORE until the last page. A RETIRED record's owner reads 255 and its tally 0, which the
model deduces (assumption 24). -/
def Obligations.ReadStateLists : Prop :=
  (∀ (t : Txn) (rest : List Txn) (page : Nat) (s : State), s.Requested .readState t rest → page ≤ 255 →
    let answers : Instr → List (List (Nat × Nat)) → Prop := fun c recs =>
      let pages := max 1 ((recs.length + 7) / 8)
      exec c s = .next ((s.taken rest).replied t .done
        (packWords ([(9, recs.length), (5, page % pages)] ++ ((recs.drop (8 * (page % pages))).take 8).flatten))
        (decide (page % pages + 1 < pages)))
    let gapFields : Gap → List (Nat × Nat) := fun g => [(4, g.ctx.val), (6, g.region.val), (24, g.entry)]
    (∀ c : CtxId, t.params = [6, c.val, page] → answers .readStateSegments ((s.ctx c).segs.map (fun g =>
      [(8, g.num.val), (6, g.region.val), (24, g.first), (24, g.count - 1)]))) ∧
    (∀ c : CtxId, t.params = [7, c.val, page] → answers .readStateRevisit ((s.ctx c).revisit.map (fun g =>
      [(7, g.num.val), (6, g.region.val), (24, g.first), (24, g.last)]))) ∧
    (∀ c : CtxId, t.params = [8, c.val, page] →
      answers .readStateGaps ((s.gaps.filter (fun g : Gap => g.ctx = c)).map gapFields)) ∧
    (t.params = [8, 16, page] → answers .readStateGaps (s.gaps.map gapFields)) ∧
    (∀ k : SlotId, t.params = [9, k.val, page] → answers .readStateSpares ((s.spareMap k).map (fun x =>
      match x with
      | .remap r e v i o n => [(1, 0), (6, r.val), (24, e), (1, v.code), (4, i), (8, (o.map (·.val)).getD 255), (2, n)]
      | .retired r v i => [(1, 1), (6, r.val), (24, 0), (1, v.code), (4, i), (8, 255), (2, 0)]))) ∧
    (t.params = [10, 0, page] → answers .readStateNotices (NoticeKind.all.map (fun k =>
      [(5, k.index.val + 1), (3, k.group.val), (4, (s.levelOf k).val), (4, s.floor.val), (1, (s.notice k).mask.toNat),
       (1, (s.notice k).pending.toNat), (1, (s.notice k).sent.toNat), (16, (s.notice k).count.toNat),
       (8, (s.notice k).detail.toNat)]))) ∧
    (t.params = [11, 0, page] →
      let g := s.globals
      answers .readStateCounters
        [[(6, 1), (32, g.agentOverruns.toNat)], [(6, 2), (32, g.agentCheckErrors.toNat)], [(6, 3), (32, g.noBoardDiscards.toNat)],
         [(6, 4), (32, g.padWrites.toNat)], [(6, 5), (32, g.unmappedStores.toNat)], [(6, 6), (32, g.uncoveredStores.toNat)]]) ∧
    (∀ k : SlotId, t.params = [11, k.val + 1, page] →
      let n := (s.slot k).counters
      answers .readStateCounters
        [[(6, 7), (32, n.sent.toNat)], [(6, 8), (32, n.checkErrors.toNat)], [(6, 9), (32, n.replyTimeouts.toNat)],
         [(6, 10), (32, n.helloTimeouts.toNat)]]) ∧
    (∀ c : CtxId, t.params = [11, c.val + 9, page] →
      let n := (s.ctx c).counters
      answers .readStateCounters
        [[(6, 11), (32, n.entriesWritten.toNat)], [(6, 12), (32, n.correctedReads.toNat)], [(6, 13), (32, n.revisitsAdded.toNat)],
         [(6, 14), (32, n.rewalks.toNat)], [(6, 15), (32, n.verifies.toNat)], [(6, 16), (32, n.sparesUsed.toNat)],
         [(6, 17), (32, n.gapsAdded.toNat)]])) ∧
  ∀ fs : List (Nat × Nat),
    let words := packWords fs
    let number := words.foldl (fun n w => n * 4294967296 + w.toNat) 0
    words.length = ((fs.map (·.1)).sum + 31) / 32 ∧
    number % 2 ^ (32 * words.length - (fs.map (·.1)).sum) = 0 ∧
    ∀ before w v after, fs = before ++ (w, v) :: after →
      number / 2 ^ (32 * words.length - ((before.map (·.1)).sum + w)) % 2 ^ w = v % 2 ^ w

/-- R21, R60, R132, R143, R162, R163, R170, R176: the effects of SOFT-RESET on every block, and the order of its replies. -/
def Obligations.SoftResetClearsTheMigrationState : Prop :=
  ∀ (t : Txn) (rest : List Txn) (s : State), s.Requested .softReset t rest →
    (t.params ≠ [] → Refuses .softReset s t rest .badArgument) ∧
    (t.params = [] → s.Wired →
      let ends : CtxId → Bool := fun c => decide ((s.ctx c).state ≠ .idle)
      let removed : SlotId → PendIdx → Prop := fun k i => ∃ x ∈ (s.slot k).queue, x.mark = .bridgeGenerated ∧
        (x.txn.kind = .fetch ∨ x.txn.kind = .fence) ∧ x.txn.tag.toNat = i.val
      ∃ u : State, exec .softReset s = .next (u.replied t .done) ∧
        u = { s.taken rest with
          startRecord := ⟨s.startRecord.cause, satAdd s.startRecord.softResets 1⟩, gaps := [], ctxs := u.ctxs, steer := u.steer
          slots := u.slots, staging := u.staging, spares := u.spares, notices := u.notices
          upstream := (s.taken rest).upstream ++ (List.finRange 16).filterMap (fun c =>
            if ends c then (s.ctx c).deferred.map (fun tag => ({ kind := .mgmtReply, board := 15, status := 6, tag := tag, count := 1, addr := 72, data := [9] } : Txn))
            else none) } ∧
        (∀ c, u.ctx c = if ends c then { s.ctx c with
            state := .idle, outcome := some .aborted, failReason := none, pauseReason := none, flights := [], cutClaim := false
            revisit := [], segs := [], cur := none, paceRunning := false, stop := none, held := none, deferred := none }
          else s.ctx c) ∧
        (∀ b, u.entry b = if (s.entry b).twinState = .building then
            { s.entry b with twinState := .stale, bound := none } else s.entry b) ∧
        (∀ k, u.slot k = { s.slot k with
          queue := (s.slot k).queue.filter (fun x : QTxn => x.mark != .bridgeGenerated)
          pend := (u.slot k).pend, sentOrder := (u.slot k).sentOrder }) ∧
        (∀ k i, removed k i → (u.slot k).pend[i] = none ∧ i ∉ (u.slot k).sentOrder) ∧
        (∀ k i, ¬ removed k i → (i ∈ (u.slot k).sentOrder ↔ i ∈ (s.slot k).sentOrder) ∧
          (u.slot k).pend[i] = (s.slot k).pend[i].map (fun e =>
            if ∃ c, ends c = true ∧ e.origin.isOf c = true then { e with origin := .orphan } else e)) ∧
        (∀ g : StagingId, u.staging[g] =
          if ∃ c, ends c = true ∧ ∃ f ∈ (s.ctx c).flights, f.staging = g then none else s.staging[g]) ∧
        (∀ k, u.spareMap k = (s.spareMap k).map (fun x =>
          match x with
          | .remap r e v i (some c) n => if ends c then .remap r e v i none 0 else .remap r e v i (some c) n
          | y => y)) ∧
        ∀ k, u.notice k = ⟨(s.notice k).mask, false, 0, 0, false⟩)

/-- R171: COUNTERS-CLEAR, scope by scope. -/
def Obligations.CountersClearByScope : Prop :=
  ∀ (t : Txn) (rest : List Txn) (s : State), s.Requested .countersClear t rest →
    let u := s.taken rest
    let clearedSlot : SlotPort → SlotPort := fun p => { p with counters := ⟨0, 0, 0, 0⟩ }
    let clearedCtx : Ctx → Ctx := fun x => { x with counters := ⟨0, 0, 0, 0, 0, 0, 0⟩ }
    (t.params = [0, 0] → exec .countersClear s = .next ({ u with
      globals := ⟨0, 0, 0, 0, 0, 0⟩, slots := u.slots.map clearedSlot, ctxs := u.ctxs.map clearedCtx }.replied t .done)) ∧
    (t.params = [1, 0] → exec .countersClear s = .next ({ u with globals := ⟨0, 0, 0, 0, 0, 0⟩ }.replied t .done)) ∧
    (∀ k : SlotId, t.params = [2, k.val] →
      exec .countersClear s = .next ((u.setSlot k (clearedSlot (u.slot k))).replied t .done)) ∧
    (∀ c : CtxId, t.params = [3, c.val] →
      exec .countersClear s = .next ((u.setCtx c (clearedCtx (u.ctx c))).replied t .done)) ∧
    (t.params ≠ [0, 0] → t.params ≠ [1, 0] → (∀ k : SlotId, t.params ≠ [2, k.val]) →
      (∀ c : CtxId, t.params ≠ [3, c.val]) → Refuses .countersClear s t rest .badArgument)

/-- R35, R36: SLOT-RETRY and SLOT-HALT in every state of the slot. -/
def Obligations.SlotRetryAndHalt : Prop :=
  ∀ (t : Txn) (rest : List Txn) (s : State),
    (s.Requested .slotRetry t rest →
      ((∀ k : SlotId, t.params ≠ [k.val]) → Refuses .slotRetry s t rest .badArgument) ∧
      ∀ k : SlotId, t.params = [k.val] →
        ((s.slot k).state = .disabled ∨ (s.slot k).state = .halted →
          exec .slotRetry s = .next (((s.taken rest).setSlot k { s.slot k with
            state := .awaitHello .retraining, helloTimer := none, credits := 0, helloFailures := 0 }).replied t .done)) ∧
        ((s.slot k).state ≠ .disabled → (s.slot k).state ≠ .halted → Refuses .slotRetry s t rest .refusedState)) ∧
    (s.Requested .slotHalt t rest →
      ((∀ k : SlotId, t.params ≠ [k.val]) → Refuses .slotHalt s t rest .badArgument) ∧
      ∀ k : SlotId, t.params = [k.val] →
        (s.isReady k = true → ∃ u,
          exec .slotHalt s = .next ((u.raise .slotHalted (BitVec.ofNat 8 k)).replied t .done) ∧
          State.LeftReady k (s.taken rest) u ∧
          u.slot k = { s.slot k with
            state := .halted, credits := 0, settleTimer := none, halt := some ⟨.agent, 0⟩
            queue := [], pend := (u.slot k).pend, sentOrder := (u.slot k).sentOrder }) ∧
        (s.isReady k = false → Refuses .slotHalt s t rest .refusedState))

/-! ### The steering requests (R43 to R46) -/

/-- R43: STEER-SET. -/
def Obligations.SteerSet : Prop :=
  ∀ (t : Txn) (rest : List Txn) (s : State), s.Requested .steerSet t rest →
    ((∀ (b : BoardId) (k : SlotId) (l : SetId) (v : View) (a : Bool),
        t.params ≠ [b.val, k.val, l.val, v.code, a.toNat]) → Refuses .steerSet s t rest .badArgument) ∧
    ∀ (b : BoardId) (k : SlotId) (l : SetId) (v : View) (a : Bool), t.params = [b.val, k.val, l.val, v.code, a.toNat] →
      let e := s.entry b
      let fits := (∀ x, x ≠ b → ¬ (s.entry x).Names k) ∧ e.twin ≠ some k ∧
        (e.twinState = .building ∨ e.twinState = .twinned → e.primary = some k ∧ e.layoutSet = l ∧ e.view = v)
      (¬ fits → Refuses .steerSet s t rest .refusedState) ∧
      (fits → exec .steerSet s = .next (((s.taken rest).setEntry b { e with
        primary := some k, layoutSet := l, view := v, autoSwap := a }).replied t .done))

/-- R44, R45: STEER-CLEAR, TWIN-SET and TWIN-CLEAR. -/
def Obligations.SteerClearAndTwin : Prop :=
  ∀ (t : Txn) (rest : List Txn) (s : State),
    (s.Requested .steerClear t rest →
      ((∀ b : BoardId, t.params ≠ [b.val]) → Refuses .steerClear s t rest .badArgument) ∧
      ∀ b : BoardId, t.params = [b.val] →
        ((s.entry b).primary = none → Refuses .steerClear s t rest .noSuch) ∧
        ((s.entry b).primary ≠ none → (s.entry b).twinState = .building ∨ (s.entry b).twinState = .twinned →
          Refuses .steerClear s t rest .refusedState) ∧
        ((s.entry b).primary ≠ none → (s.entry b).twinState = .none ∨ (s.entry b).twinState = .stale →
          exec .steerClear s =
            .next (((s.taken rest).setEntry b ⟨none, none, .none, 0, .A, false, none⟩).replied t .done))) ∧
    (s.Requested .twinSet t rest →
      ((∀ (b : BoardId) (k : SlotId), t.params ≠ [b.val, k.val]) → Refuses .twinSet s t rest .badArgument) ∧
      ∀ (b : BoardId) (k : SlotId), t.params = [b.val, k.val] →
        ((s.entry b).primary = none → Refuses .twinSet s t rest .noSuch) ∧
        ((s.entry b).primary ≠ none → ((s.entry b).twinState ≠ .none ∨ ∃ x, (s.entry x).Names k) →
          Refuses .twinSet s t rest .refusedState) ∧
        ((s.entry b).primary ≠ none → (s.entry b).twinState = .none → (∀ x, ¬ (s.entry x).Names k) →
          exec .twinSet s =
            .next (((s.taken rest).setEntry b { s.entry b with twin := some k, twinState := .stale }).replied t .done))) ∧
    (s.Requested .twinClear t rest →
      ((∀ b : BoardId, t.params ≠ [b.val]) → Refuses .twinClear s t rest .badArgument) ∧
      ∀ b : BoardId, t.params = [b.val] →
        ((s.entry b).primary = none → Refuses .twinClear s t rest .noSuch) ∧
        ((s.entry b).primary ≠ none → (s.entry b).twinState ≠ .stale → Refuses .twinClear s t rest .refusedState) ∧
        ((s.entry b).primary ≠ none → (s.entry b).twinState = .stale →
          exec .twinClear s =
            .next (((s.taken rest).setEntry b { s.entry b with twin := none, twinState := .none }).replied t .done)))

/-- R46: SWAP exchanges the slots and the view; the former primary stays TWINNED as twin only if it is READY. -/
def Obligations.SwapExchangesThePair : Prop :=
  ∀ (t : Txn) (rest : List Txn) (s : State), s.Requested .swap t rest →
    ((∀ b : BoardId, t.params ≠ [b.val]) → Refuses .swap s t rest .badArgument) ∧
    ∀ b : BoardId, t.params = [b.val] →
      ((s.entry b).primary = none → Refuses .swap s t rest .noSuch) ∧
      ((s.entry b).primary ≠ none → (s.entry b).twinState ≠ .twinned → Refuses .swap s t rest .refusedState) ∧
      ∀ k, (s.entry b).primary = some k → (s.entry b).twinState = .twinned →
        exec .swap s = .next (((s.taken rest).setEntry b { s.entry b with
          primary := (s.entry b).twin, twin := some k, view := (s.entry b).view.other
          twinState := if s.isReady k then .twinned else .stale }).replied t .done)

/-! ### The Region Map requests (R72 to R76) -/

/-- R72, R73, R76: LAYOUT-SET in its three stages, and REGION-CLEAR. -/
def Obligations.LayoutSetAndRegionClear : Prop :=
  ∀ (t : Txn) (rest : List Txn) (s : State),
    (s.Requested .layoutSet t rest →
      let inRange : Nat → Nat → Nat → Nat → Prop := fun ba ca bb cb => ca ≤ 64 ∧ cb ≤ 64 ∧
        (0 < ca → ba + 2 * ca ≤ 4294967296) ∧ (0 < cb → bb + 2 * cb ≤ 4294967296)
      ((∀ (l : SetId) (ba ca bb cb : Nat), t.params = [l.val, ba, ca, bb, cb] → ¬ inRange ba ca bb cb) →
        Refuses .layoutSet s t rest .badArgument) ∧
      ∀ (l : SetId) (ba ca bb cb : Nat), t.params = [l.val, ba, ca, bb, cb] → inRange ba ca bb cb →
        let x : LayoutSet := ⟨BitVec.ofNat 32 ba, ca, BitVec.ofNat 32 bb, cb⟩
        let locked := s.InUse l ∨ ∃ i r, s.region i = some r ∧ r.set = l ∧ s.Held i
        let clash := ∃ v i r a, s.region i = some r ∧ r.set = l ∧ x.Window v a ∧ (r.Extent v a ∨ r.SpareArea v a)
        (locked → Refuses .layoutSet s t rest .refusedState) ∧
        (¬ locked → clash → Refuses .layoutSet s t rest .badArgument) ∧
        (¬ locked → ¬ clash →
          exec .layoutSet s = .next ({ s.taken rest with layouts := s.layouts.set l x }.replied t .done))) ∧
    (s.Requested .regionClear t rest →
      ((∀ i : RegionId, t.params ≠ [i.val]) → Refuses .regionClear s t rest .badArgument) ∧
      ∀ i : RegionId, t.params = [i.val] →
        (s.region i = none → Refuses .regionClear s t rest .noSuch) ∧
        (s.region i ≠ none → s.Held i → Refuses .regionClear s t rest .refusedState) ∧
        (s.region i ≠ none → ¬ s.Held i →
          exec .regionClear s = .next (((s.taken rest).setRegion i none).replied t .done)))

/-- R72, R74, R75: REGION-LOAD in its three stages. -/
def Obligations.RegionLoadInThreeStages : Prop :=
  ∀ (t : Txn) (rest : List Txn) (s : State), s.Requested .regionLoad t rest →
    let code : CopyMode → Nat := fun m => match m with | .copy => 0 | .zero => 1 | .mirror => 2 | .localOnly => 3
    let inRange : Region → Prop := fun r =>
      1 ≤ r.width ∧ r.width ≤ 16 ∧ 1 ≤ r.entries ∧ r.entries ≤ 16777216 ∧ (∀ n, r.verify = some n → 1 ≤ n ∧ n ≤ 255) ∧
      ∀ v, r.width ≤ (r.geom v).pitch ∧ (r.geom v).pitch ≤ 256 ∧ (r.geom v).spareCount ≤ 16 ∧
        (r.geom v).base.toNat + r.entries * (r.geom v).pitch ≤ 4294967296 ∧
        (0 < (r.geom v).spareCount →
          (r.geom v).spareBase.toNat + (r.geom v).spareCount * (r.geom v).pitch ≤ 4294967296)
    let words : RegionId → Region → List Nat := fun i r =>
      [i.val, r.set.val, r.width, r.entries, r.geomA.base.toNat, r.geomA.pitch, r.geomB.base.toNat, r.geomB.pitch,
       code r.mode, r.verify.getD 0, r.poison.toNat, r.geomA.spareBase.toNat, r.geomA.spareCount,
       r.geomB.spareBase.toNat, r.geomB.spareCount]
    ((∀ i r, inRange r → t.params ≠ words i r) → Refuses .regionLoad s t rest .badArgument) ∧
    ∀ i r, inRange r → t.params = words i r →
      let locked := (s.region i ≠ none ∧ s.Held i) ∨ s.InUse r.set
      let clash := ∃ v a,
        (r.SpareArea v a ∧ r.Extent v a) ∨
        (∃ j o, j ≠ i ∧ s.region j = some o ∧ o.set = r.set ∧ (r.Extent v a ∨ r.SpareArea v a) ∧
          (o.Extent v a ∨ o.SpareArea v a)) ∨
        ((s.layout r.set).Window v a ∧ (r.Extent v a ∨ r.SpareArea v a))
      (locked → Refuses .regionLoad s t rest .refusedState) ∧
      (¬ locked → clash → Refuses .regionLoad s t rest .badArgument) ∧
      (¬ locked → ¬ clash →
        exec .regionLoad s = .next (((s.taken rest).setRegion i (some r)).replied t .done))

/-! ### Migration contexts by request (R81 to R95, R137, R145, R148) -/

/-- R47, R81 to R83: CTX-OPEN and SEG-APPEND. -/
def Obligations.ContextIsOpenedAndListed : Prop :=
  ∀ (t : Txn) (rest : List Txn) (s : State),
    (s.Requested .ctxOpen t rest →
      let carries : CtxId → BoardId → Fin 4 → Nat → Nat → Bool → Nat → Prop := fun c b p i w a l =>
        i ≤ 65535 ∧ 1 ≤ w ∧ w ≤ 4 ∧ l ≤ 7 ∧
          (t.params = [c.val, b.val, p.val, i, w, a.toNat, l] ∨ (l = 2 ∧ t.params = [c.val, b.val, p.val, i, w, a.toNat]))
      ((∀ c b p i w a l, ¬ carries c b p i w a l) → Refuses .ctxOpen s t rest .badArgument) ∧
      ∀ c b p i w a l, carries c b p i w a l →
        ((s.ctx c).state ≠ .idle → Refuses .ctxOpen s t rest .refusedState) ∧
        ((s.ctx c).state = .idle → (s.entry b).primary = none → Refuses .ctxOpen s t rest .noSuch) ∧
        ((s.ctx c).state = .idle → (s.entry b).primary ≠ none → (s.entry b).twinState ≠ .stale →
          Refuses .ctxOpen s t rest .refusedState) ∧
        ∀ src dst, (s.ctx c).state = .idle → (s.entry b).primary = some src → (s.entry b).twin = some dst →
          (s.entry b).twinState = .stale →
          exec .ctxOpen s = .next ((((s.taken rest).setCtx c { s.ctx c with
            state := .opened, board := b, src := src, dst := dst, srcView := (s.entry b).view, priority := p
            pace := if i = 0 then none else some i, window := w, rewalkLimit := l, autoCutover := a, segs := [], cur := none
            frontier := 0, phase := .walk, rewalkCount := 0, verifyCounter := 0, stop := none, pauseReason := none
            failReason := none, outcome := none, counters := ⟨0, 0, 0, 0, 0, 0, 0⟩ }).setEntry b
              { s.entry b with twinState := .building, bound := some c }).replied t .done)) ∧
    (s.Requested .segAppend t rest →
      let carries : CtxId → RegionId → Nat → Nat → Prop := fun c i f n =>
        t.params = [c.val, i.val, f, n] ∧ f ≤ 16777215 ∧ 1 ≤ n ∧ n ≤ 16777216
      ((∀ c i f n, ¬ carries c i f n) → Refuses .segAppend s t rest .badArgument) ∧
      ∀ c i f n, carries c i f n →
        let x := s.ctx c
        let fits := (∃ r, s.region i = some r ∧ r.set = (s.entry x.board).layoutSet ∧ (r.mode = .copy ∨ r.mode = .zero) ∧
            f + n ≤ r.entries) ∧
          ∀ g ∈ x.segs, g.region = i → ∀ e, f ≤ e → e < f + n → ¬ (g.first ≤ e ∧ e < g.first + g.count)
        (x.state ≠ .opened → Refuses .segAppend s t rest .refusedState) ∧
        (x.state = .opened → ¬ fits → (∀ g ∈ x.segs, 1 ≤ g.count) → Refuses .segAppend s t rest .badArgument) ∧
        (x.state = .opened → fits → (∀ g ∈ x.segs, 1 ≤ g.count) →
          ((∀ m : SegmentId, ∃ d, ∃ g ∈ (s.ctx d).segs, g.num = m) → Refuses .segAppend s t rest .refusedFull) ∧
          ∀ m, Lowest (fun m : SegmentId => ∀ d, ∀ g ∈ (s.ctx d).segs, g.num ≠ m) m →
            exec .segAppend s = .next
              (((s.taken rest).setCtx c { x with segs := x.segs ++ [⟨m, i, f, n⟩] }).replied t .done [BitVec.ofNat 32 m])))

/-- R85, R87 to R89: CTX-START, CTX-PAUSE, CTX-RESUME and STOP-POINT. -/
def Obligations.ContextIsStartedAndPaused : Prop :=
  ∀ (t : Txn) (rest : List Txn) (s : State),
    (s.Requested .ctxStart t rest →
      ((∀ c : CtxId, t.params ≠ [c.val]) → Refuses .ctxStart s t rest .badArgument) ∧
      ∀ c : CtxId, t.params = [c.val] →
        let x := s.ctx c
        (x.state ≠ .opened → Refuses .ctxStart s t rest .refusedState) ∧
        (x.state = .opened → x.segs = [] → Refuses .ctxStart s t rest .noSuch) ∧
        (x.state = .opened → x.segs ≠ [] → s.isReady x.src = false → Refuses .ctxStart s t rest .refusedState) ∧
        ∀ g gs, x.state = .opened → x.segs = g :: gs → s.isReady x.src = true →
          exec .ctxStart s = .next (((s.taken rest).setCtx c { x with
            state := if s.isReady x.dst then .walking else .waiting, cur := some 0, frontier := g.first
            phase := .walk }).replied t .done)) ∧
    (s.Requested .ctxPause t rest →
      ((∀ c : CtxId, t.params ≠ [c.val]) → Refuses .ctxPause s t rest .badArgument) ∧
      ∀ c : CtxId, t.params = [c.val] →
        let x := s.ctx c
        (x.state = .walking ∨ x.state = .paused → exec .ctxPause s = .next (((s.taken rest).setCtx c { x with
          state := .paused, pauseReason := some .agent }).replied t .done)) ∧
        (x.state ≠ .walking → x.state ≠ .paused → Refuses .ctxPause s t rest .refusedState)) ∧
    (s.Requested .ctxResume t rest →
      ((∀ c : CtxId, t.params ≠ [c.val]) → Refuses .ctxResume s t rest .badArgument) ∧
      ∀ c : CtxId, t.params = [c.val] →
        let x := s.ctx c
        let walks : Ctx := { x with state := .walking, pauseReason := none }
        let done := x.phase = .revisit ∧ x.revisit = [] ∧ x.flights = []
        (x.state ≠ .paused → Refuses .ctxResume s t rest .refusedState) ∧
        (x.state = .paused → ¬ done → exec .ctxResume s = .next (((s.taken rest).setCtx c walks).replied t .done)) ∧
        (x.state = .paused → done →
          exec .ctxResume s = .next ((((s.taken rest).setCtx c walks).testSynced c).replied t .done))) ∧
    (s.Requested .stopPoint t rest →
      let carries : CtxId → Option RegionId → Nat → Nat → Nat → Prop := fun c i v m mode =>
        t.params = [c.val, (i.map (·.val)).getD 255, v, m, mode] ∧ v ≤ 16777215 ∧ m ≤ 16777215 ∧ mode ≤ 2
      ((∀ c i v m mode, ¬ carries c i v m mode) → Refuses .stopPoint s t rest .badArgument) ∧
      ∀ c i v m mode, carries c i v m mode →
        let x := s.ctx c
        let takes := x.state = .opened ∨ x.state = .waiting ∨ x.state = .walking ∨ x.state = .paused
        (¬ takes → Refuses .stopPoint s t rest .refusedState) ∧
        (takes → exec .stopPoint s = .next (((s.taken rest).setCtx c { x with
          stop := if mode = 0 then none else some ⟨i, BitVec.ofNat 24 v, BitVec.ofNat 24 m, mode = 2⟩ }).replied t .done)))

/-- R92 to R95, R160, R161: CTX-ABORT, CTX-CLOSE and a failure release the context's holdings; abort and close remove its gap
records, a failure keeps them and raises CTX_FAILED; a deferred reply is sent as FAILED. -/
def Obligations.EndOfAContext : Prop :=
  (∀ (t : Txn) (rest : List Txn) (s : State),
    (s.Requested .ctxAbort t rest →
      ((∀ c : CtxId, t.params ≠ [c.val]) → Refuses .ctxAbort s t rest .badArgument) ∧
      ∀ c : CtxId, t.params = [c.val] →
        ((s.ctx c).state = .idle → Refuses .ctxAbort s t rest .refusedState) ∧
        ((s.ctx c).state ≠ .idle → ∃ u : State, State.Released c ((s.taken rest).deferredSent c .failed [8]) u ∧
          exec .ctxAbort s = .next (({ u with gaps := u.gaps.filter (fun g : Gap => g.ctx ≠ c) }.setCtx c { u.ctx c with
            state := .idle, outcome := some .aborted, failReason := none, pauseReason := none }).replied t .done))) ∧
    (s.Requested .ctxClose t rest →
      ((∀ c : CtxId, t.params ≠ [c.val]) → Refuses .ctxClose s t rest .badArgument) ∧
      ∀ c : CtxId, t.params = [c.val] →
        ((s.ctx c).state ≠ .failed → (s.ctx c).state ≠ .opened → Refuses .ctxClose s t rest .refusedState) ∧
        ((s.ctx c).state = .failed ∨ (s.ctx c).state = .opened → ∃ u : State, State.Released c (s.taken rest) u ∧
          exec .ctxClose s = .next (({ u with gaps := u.gaps.filter (fun g : Gap => g.ctx ≠ c) }.setCtx c { u.ctx c with
            state := .idle, outcome := some .closed, failReason := none, pauseReason := none }).replied t .done)))) ∧
  ∀ (s : State) (c : CtxId) (r : FailReason),
    ((s.ctx c).state = .idle ∨ (s.ctx c).state = .failed → s.failCtx c r = s) ∧
    ((s.ctx c).state ≠ .idle → (s.ctx c).state ≠ .failed → ∃ u : State, State.Released c s u ∧
      s.failCtx c r = ((u.setCtx c { u.ctx c with
        state := .failed, failReason := some r, pauseReason := none }).deferredSent c .failed
          [BitVec.ofNat 32 r.code]).raise .ctxFailed (BitVec.ofNat 8 c))

/-- R148, R150: CTX-CUTOVER, refused or accepted with its reply deferred. R111, R112: the test for SYNCED and what follows. On a
destination that is not READY the cutover claim is refused at once, and the context fails (R14, R156). That the GRANT of the
request stands ahead of its reply is the model's choice (assumption 9). -/
def Obligations.SyncedAndCutover : Prop :=
  (∀ (t : Txn) (rest : List Txn) (s : State), s.Requested .ctxCutover t rest →
    ((∀ c : CtxId, t.params ≠ [c.val]) → Refuses .ctxCutover s t rest .badArgument) ∧
    ∀ c : CtxId, t.params = [c.val] →
      let x := s.ctx c
      ((x.state ≠ .synced ∨ ∃ g ∈ s.gaps, g.ctx = c) → Refuses .ctxCutover s t rest .refusedState) ∧
      (x.state = .synced → (∀ g ∈ s.gaps, g.ctx ≠ c) → s.windowFits c = false → Refuses .ctxCutover s t rest .refusedFull) ∧
      (x.state = .synced → (∀ g ∈ s.gaps, g.ctx ≠ c) → s.windowFits c = true → s.isReady x.dst = true →
        exec .ctxCutover s = .next (((s.taken rest).setCtx c { x with
          state := .cutting, deferred := some t.tag, paceRunning := false, stop := none, cutClaim := true }).cutHead)) ∧
      (x.state = .synced → (∀ g ∈ s.gaps, g.ctx ≠ c) → s.windowFits c = true → s.isReady x.dst = false →
        exec .ctxCutover s = .next ((((s.taken rest).setCtx c { x with
          state := .cutting, deferred := some t.tag, paceRunning := false, stop := none, cutClaim := true }).failCtx c
            .destLost).cutHead))) ∧
  ∀ (s : State) (c : CtxId),
    let x := s.ctx c
    let due := x.state = .walking ∧ x.phase = .revisit ∧ x.revisit = [] ∧ x.flights = []
    let synced := (s.setCtx c { x with state := .synced }).raise .ctxSynced (BitVec.ofNat 8 c)
    (¬ due → s.testSynced c = s) ∧
    (due → (x.autoCutover = false ∨ ((∀ g ∈ s.gaps, g.ctx ≠ c) ∧ s.windowFits c = false)) → s.testSynced c = synced) ∧
    (due → x.autoCutover = true → (∃ g ∈ s.gaps, g.ctx = c) →
      s.testSynced c = synced.raise .gapsPending (BitVec.ofNat 8 c)) ∧
    (due → x.autoCutover = true → (∀ g ∈ s.gaps, g.ctx ≠ c) → s.windowFits c = true → s.isReady x.dst = true →
      s.testSynced c = synced.setCtx c { x with state := .cutting, paceRunning := false, stop := none, cutClaim := true }) ∧
    (due → x.autoCutover = true → (∀ g ∈ s.gaps, g.ctx ≠ c) → s.windowFits c = true → s.isReady x.dst = false →
      s.testSynced c = (synced.setCtx c { x with
        state := .cutting, paceRunning := false, stop := none, cutClaim := true }).failCtx c .destLost)

/-- R137, R145: GAP-WAIVE and SPARE-DROP. -/
def Obligations.WaiveAndDrop : Prop :=
  ∀ (t : Txn) (rest : List Txn) (s : State),
    (s.Requested .gapWaive t rest →
      let carries : CtxId → Option RegionId → Nat → Prop := fun c i e =>
        t.params = [c.val, (i.map (·.val)).getD 255, e] ∧ e ≤ 16777215
      ((∀ c i e, ¬ carries c i e) → Refuses .gapWaive s t rest .badArgument) ∧
      ∀ c i e, carries c i e →
        ((s.ctx c).state = .idle → Refuses .gapWaive s t rest .refusedState) ∧
        ((s.ctx c).state ≠ .idle →
          (i = none → exec .gapWaive s = .next
            ({ s.taken rest with gaps := s.gaps.filter (fun g : Gap => g.ctx ≠ c) }.replied t .done
              [BitVec.ofNat 32 (s.gaps.filter (fun g : Gap => g.ctx = c)).length])) ∧
          ∀ j, i = some j →
            ((⟨c, j, e⟩ : Gap) ∈ s.gaps → exec .gapWaive s = .next
              ({ s.taken rest with gaps := s.gaps.filter (fun g : Gap => g ≠ (⟨c, j, e⟩ : Gap)) }.replied t .done [1])) ∧
            ((⟨c, j, e⟩ : Gap) ∉ s.gaps → Refuses .gapWaive s t rest .noSuch))) ∧
    (s.Requested .spareDrop t rest →
      ((∀ k : SlotId, t.params ≠ [k.val]) → Refuses .spareDrop s t rest .badArgument) ∧
      ∀ k : SlotId, t.params = [k.val] →
        let locked := ∃ b, (s.entry b).primary = some k ∨ ((s.entry b).twin = some k ∧
          ((s.entry b).twinState = .building ∨ (s.entry b).twinState = .twinned))
        (locked → Refuses .spareDrop s t rest .refusedState) ∧
        (¬ locked → exec .spareDrop s = .next
          (((s.taken rest).setSpareMap k []).replied t .done [BitVec.ofNat 32 (s.spareMap k).length])))

/-! ### The walk (R90, R91, R100 to R110) -/

/-- R101, R102: the arbiter grants an eligible context of the highest priority, round-robin from the one after the last served. -/
def Obligations.ArbiterChoosesByPriority : Prop :=
  ∀ s : State, (s.arbiter = none ↔ ∀ c, ¬ s.Eligible c) ∧
    ∀ c, s.arbiter = some c → s.Eligible c ∧ ∀ d, s.Eligible d → d ≠ c →
      (s.ctx d).priority < (s.ctx c).priority ∨
      ((s.ctx d).priority = (s.ctx c).priority ∧
        (c - s.lastServed[(s.ctx c).priority] - 1).val < (d - s.lastServed[(s.ctx c).priority] - 1).val)

/-- A flight table with a record put in the place of the one of its number. -/
def flightsWith (x : Ctx) (f : Flight) : List Flight := x.flights.map (fun g => if g.num = f.num then f else g)

/-- R90, R91, R100, R103, R104, R109, R110: a grant of a fetch or of a zero fill, the firing of a stop point, and the pace timer.
In phase REVISIT the entry leaves the front of the revisit list, which stands in list order again (R123). That a zero run stops
at a REMAP record of the destination's view alone is the model's reading of R104 (assumption 21). That a zero fill starts the pace
timer ahead of the test for SYNCED, which may stop it on entry to CUTTING, is the model's choice (assumption 30). -/
def Obligations.WalkGrants : Prop :=
  ∀ (s : State) (c : CtxId), s.startup ≠ .held →
    let x := s.ctx c
    let stepped : Nat → Ctx → Ctx := fun f y =>
      match x.cur, x.cur.bind (x.segs[·]?) with
      | some n, some g =>
        if f < g.first + g.count then { y with frontier := f }
        else
          match x.segs[n + 1]? with
          | some h => { y with cur := some (n + 1), frontier := h.first }
          | none => { y with frontier := f, phase := .revisit }
      | _, _ => y
    let served := s.lastServed.set x.priority c
    let ordered : List Range → Prop := fun l => l.Pairwise (fun g h => x.rangeBefore h g = false)
    exec (.paceTimerExpiry c) s = .next (s.setCtx c { x with paceRunning := false }) ∧
    (s.arbiter = none → exec .walkFetchIssue s = .next s ∧ exec .zeroFillIssue s = .next s) ∧
    (∀ i r e, s.arbiter = some c → s.NextFetch c i r e →
      let fires := x.phase = .walk ∧ x.held ≠ some (i, e) ∧ ∃ p, x.stop = some p ∧ (p.region = none ∨ p.region = some i) ∧
        BitVec.ofNat 24 e &&& p.mask = p.value &&& p.mask
      exec .zeroFillIssue s = .next s ∧
      (∀ p, x.stop = some p → fires → exec .walkFetchIssue s = .next
        (({ s with lastServed := served }.setCtx c { x with
          state := .paused, pauseReason := some .stopPoint, held := some (i, e)
          stop := if p.again then some p else none }).raise .ctxStopped (BitVec.ofNat 8 c))) ∧
      ∀ (j : PendIdx) (g : StagingId) (n : FlightNum), ¬ fires → Lowest (fun j => (s.slot x.src).pend[j] = none) j →
        Lowest (fun g : StagingId => s.staging[g] = none) g → Lowest (fun n => ∀ f ∈ x.flights, f.num ≠ n) n →
        let y : Ctx := { x with
          held := if x.held = some (i, e) then none else x.held, paceRunning := x.paceRunning || x.pace.isSome
          flights := x.flights ++ [⟨n, i, e, .fetch, g, false, false, false⟩] }
        let u : State := { s.setSlot x.src { s.queued x.src
            [⟨{ kind := .fetch, tag := BitVec.ofNat 8 j, count := r.width
                addr := BitVec.ofNat 32 (s.slotAddr x.src x.srcView i r e 0) }, .bridgeGenerated⟩] with
          pend := (s.slot x.src).pend.set j (some ⟨.queued, .fetch, r.width, .walk c n⟩) } with
          lastServed := served, staging := s.staging.set g (some []) }
        (x.phase = .walk → exec .walkFetchIssue s = .next ((u.setCtx c (stepped (e + 1) y)).testSynced c)) ∧
        (∀ q qs, x.phase = .revisit → x.revisit = q :: qs → ∃ l,
          exec .walkFetchIssue s = .next ((u.setCtx c { y with revisit := l }).testSynced c) ∧
          l.Perm (if q.first < q.last then { q with first := q.first + 1 } :: qs else qs) ∧
          (ordered x.revisit → ordered l))) ∧
    (∀ i r e, s.arbiter = some c → s.NextZero c i r e → 1 ≤ r.width → r.width ≤ 16 →
      (∀ m g, x.cur = some m → x.segs[m]? = some g → e < g.first + g.count) →
      let v := x.srcView.other
      let spared : Nat → Prop := fun a => ∃ y o t, .remap i a v y o t ∈ s.spareMap x.dst
      exec .walkFetchIssue s = .next s ∧
      ∃ n, 1 ≤ n ∧
        (spared e ∨ (r.geom v).pitch ≠ r.width → n = 1) ∧
        (¬ spared e → (r.geom v).pitch = r.width → n * r.width ≤ 4096 ∧
          (∀ a, e ≤ a → a < e + n → ¬ spared a) ∧
          ∀ m g, x.cur = some m → x.segs[m]? = some g → e + n ≤ g.first + g.count ∧
            (e + n = g.first + g.count ∨ 4096 < (n + 1) * r.width ∨ spared (e + n))) ∧
        exec .zeroFillIssue s = .next
          (({ s.setSlot x.dst (s.queued x.dst
              [⟨{ kind := .fill, count := n * r.width, addr := BitVec.ofNat 32 (s.slotAddr x.dst v i r e 0), data := [0] },
                .bridgeGenerated⟩]) with lastServed := served }.setCtx c (stepped (e + n) { x with
            paceRunning := x.paceRunning || x.pace.isSome
            counters := { x.counters with entriesWritten := satAdd x.counters.entriesWritten n } })).testSynced c))

/-- R106, R107, R134, R135, R138, R139, R152: the write claim of a record, its read-back claim, and the cutover claim, taken when
they fit and waiting when they do not. That the gap record goes ahead of the test for SYNCED is the model's choice
(assumption 15). -/
def Obligations.EngineClaimsAreTaken : Prop :=
  ∀ (s : State) (c : CtxId), s.startup ≠ .held →
    let x := s.ctx c
    let v := x.srcView.other
    let q := (s.slot x.dst).queue
    (∀ (f : Flight) (r : Region), x.flights.find? (fun g => g.num == f.num) = some f → s.region f.region = some r →
      f.claim = true → s.isReady x.dst = true →
      let addr := BitVec.ofNat 32 (s.slotAddr x.dst v f.region r f.entry 0)
      (f.phase = .staged → 48 ≤ q.length → exec (.writeClaimTaken c f.num) s = .next s) ∧
      (f.phase = .staged → q.length < 48 →
        let sel : Bool × Nat := if f.poison then (false, x.verifyCounter) else if f.rewrite then (true, x.verifyCounter) else
          match r.verify with
          | none => (false, x.verifyCounter)
          | some n => if n ≤ x.verifyCounter + 1 then (true, 0) else (false, x.verifyCounter + 1)
        let y : Ctx := { x with
          verifyCounter := sel.2, counters := { x.counters with entriesWritten := satAdd x.counters.entriesWritten 1 } }
        let u : State := { s.setSlot x.dst (s.queued x.dst
            [⟨{ kind := .store, count := r.width, addr := addr, data := (s.staging[f.staging]).getD [] }, .bridgeGenerated⟩]) with
          gaps := if f.poison then s.gaps else s.gaps.filter (fun g : Gap => g ≠ (⟨c, f.region, f.entry⟩ : Gap)) }
        (sel.1 = true → exec (.writeClaimTaken c f.num) s = .next
          (u.setCtx c { y with flights := flightsWith x { f with phase := .verify } })) ∧
        (sel.1 = false → exec (.writeClaimTaken c f.num) s = .next
          (({ u with staging := s.staging.set f.staging none }.setCtx c
            { y with flights := x.flights.filter (fun g => g.num ≠ f.num) }).testSynced c))) ∧
      (f.phase = .verify →
        (48 ≤ q.length ∨ (∀ i : PendIdx, (s.slot x.dst).pend[i] ≠ none) → exec (.verifyClaimTaken c f.num) s = .next s) ∧
        ∀ i, q.length < 48 → Lowest (fun i => (s.slot x.dst).pend[i] = none) i →
          exec (.verifyClaimTaken c f.num) s = .next ((s.setSlot x.dst { s.queued x.dst
              [⟨{ kind := .fetch, tag := BitVec.ofNat 8 i, count := r.width, addr := addr }, .bridgeGenerated⟩] with
            pend := (s.slot x.dst).pend.set i (some ⟨.queued, .fetch, r.width, .verify c f.num⟩) }).setCtx c
              { x with flights := flightsWith x { f with claim := false } }))) ∧
    (x.state = .cutting → x.cutClaim = true → s.isReady x.dst = true →
      let stores := s.writeOutStores c
      (48 < q.length + stores.length + 1 ∨ (∀ i : PendIdx, (s.slot x.dst).pend[i] ≠ none) →
        exec (.cutoverClaimTaken c) s = .next s) ∧
      ∀ i, q.length + stores.length + 1 ≤ 48 → Lowest (fun i => (s.slot x.dst).pend[i] = none) i →
        exec (.cutoverClaimTaken c) s = .next ((s.setSlot x.dst { s.queued x.dst
            (stores.map (fun t => ⟨t, .bridgeGenerated⟩) ++
              [⟨{ kind := .fence, tag := BitVec.ofNat 8 i }, .bridgeGenerated⟩]) with
          pend := (s.slot x.dst).pend.set i (some ⟨.queued, .fence, 0, .cutover c⟩) }).setCtx c { x with cutClaim := false }))

/-- A board of a READY slot answers a SENT entry; its reply matches (R18). -/
def Answers (s : State) (k : SlotId) (f : Frame) (t : Txn) (i : PendIdx) (o : Origin) (kind : TxnKind) : Prop :=
  SlotBrings s k f t kind ∧ s.isReady k = true ∧ i.val = t.tag.toNat ∧
    ((kind = .ret ∧ (s.slot k).pend[i] = some ⟨.sent, .fetch, t.count, o⟩) ∨
     (kind = .fenceDone ∧ (s.slot k).pend[i] = some ⟨.sent, .fence, 0, o⟩))

/-- The state once the pending entry that was answered is FREE (R19). -/
def afterReply (s : State) (k : SlotId) (i : PendIdx) : State :=
  s.setSlot k { s.slot k with
    pend := (s.slot k).pend.set i none, sentOrder := (s.slot k).sentOrder.filter (fun j => j ≠ i) }

/-- R19, R105, R133: a walk RETURN by its status: staged, counted when CORRECTED, a gap and the poison word when UNCORRECTABLE,
GAPS_FULL with the gap list full, ADDRESS_REFUSED when REFUSED. -/
def Obligations.WalkReturnByStatus : Prop :=
  ∀ (s : State) (k : SlotId) (w : Frame) (t : Txn) (i : PendIdx) (c : CtxId) (f : Flight) (r : Region),
    Answers s k w t i (.walk c f.num) .ret → (s.ctx c).flights.find? (fun g => g.num == f.num) = some f → f.phase = .fetch →
    s.region f.region = some r →
    let x := s.ctx c
    let u := afterReply s k i
    let put : State → Ctx → Flight → State := fun a y g =>
      a.setCtx c { y with flights := flightsWith x { g with phase := .staged, claim := u.isReady x.dst } }
    let filled : State → List Word → State := fun a d => { a with staging := s.staging.set f.staging (some d) }
    let poison := List.replicate r.width r.poison
    (t.status = 0 → exec (.returnReceived k w) s = .next (put (filled u t.data) x f)) ∧
    (t.status = 1 → exec (.returnReceived k w) s = .next (put (filled u t.data)
      { x with counters := { x.counters with correctedReads := satAdd x.counters.correctedReads 1 } } f)) ∧
    (t.status = 2 → (⟨c, f.region, f.entry⟩ : Gap) ∈ s.gaps →
      exec (.returnReceived k w) s = .next (put (filled u poison) x { f with poison := true })) ∧
    (t.status = 2 → (⟨c, f.region, f.entry⟩ : Gap) ∉ s.gaps → s.gaps.length < 64 →
      let y : Ctx := { x with counters := { x.counters with gapsAdded := satAdd x.counters.gapsAdded 1 } }
      exec (.returnReceived k w) s = .next (put (filled
        (({ u with gaps := s.gaps ++ [(⟨c, f.region, f.entry⟩ : Gap)] }.setCtx c y).raise .gapAdded (BitVec.ofNat 8 c)) poison) y
          { f with poison := true })) ∧
    (t.status = 2 → (⟨c, f.region, f.entry⟩ : Gap) ∉ s.gaps → 64 ≤ s.gaps.length →
      exec (.returnReceived k w) s = .next (u.failCtx c .gapsFull)) ∧
    (t.status = 3 → exec (.returnReceived k w) s = .next (u.failCtx c .addressRefused))

/-- R140, R142: a read-back RETURN: a match ends the record; a mismatch takes the lowest free spare, retiring the entry's earlier
one, or fails the context; REFUSED fails it. -/
def Obligations.ReadBackMatchesOrTakesASpare : Prop :=
  ∀ (s : State) (k : SlotId) (w : Frame) (t : Txn) (i : PendIdx) (c : CtxId) (f : Flight) (r : Region),
    Answers s k w t i (.verify c f.num) .ret → (s.ctx c).flights.find? (fun g => g.num == f.num) = some f →
    f.phase = .verify → s.region f.region = some r →
    let x := s.ctx c
    let y : Ctx := { x with counters := { x.counters with verifies := satAdd x.counters.verifies 1 } }
    let u := (afterReply s k i).setCtx c y
    let m := s.spareMap x.dst
    let v := x.srcView.other
    let old := m.find? (SpareRec.isRemap f.region f.entry)
    let spent := ∃ a n, old = some (.remap f.region f.entry a n (some c) 2)
    let used : Nat → Prop := fun n => ∃ z ∈ m,
      (∃ e o q, z = .remap f.region e v n o q) ∨ z = .retired f.region v n
    let mismatch := t.status = 2 ∨ ((t.status = 0 ∨ t.status = 1) ∧ s.staging[f.staging] ≠ some t.data)
    (t.status = 0 ∨ t.status = 1 → s.staging[f.staging] = some t.data →
      exec (.returnReceived k w) s = .next (({ u with staging := s.staging.set f.staging none }.setCtx c
        { y with flights := x.flights.filter (fun g => g.num ≠ f.num) }).testSynced c)) ∧
    (t.status = 3 → exec (.returnReceived k w) s = .next (u.failCtx c .addressRefused)) ∧
    (mismatch → spent → exec (.returnReceived k w) s = .next (u.failCtx c .verifyFailed)) ∧
    (mismatch → ¬ spent → ((∀ n, n < (r.geom v).spareCount → used n) ∨ 32 ≤ m.length) →
      exec (.returnReceived k w) s = .next (u.failCtx c .sparesExhausted)) ∧
    ∀ n, mismatch → ¬ spent → n < (r.geom v).spareCount → ¬ used n → (∀ j, j < n → used j) → m.length < 32 →
      let took : List SpareRec → State := fun l =>
        let z : Ctx := { y with counters := { y.counters with sparesUsed := satAdd y.counters.sparesUsed 1 } }
        (((u.setSpareMap x.dst l).setCtx c z).raise .spareUsed (BitVec.ofNat 8 c)).setCtx c { z with
          flights := flightsWith x { f with rewrite := true, phase := .staged, claim := (afterReply s k i).isReady x.dst } }
      (old = none → exec (.returnReceived k w) s = .next (took (m ++ [.remap f.region f.entry v n (some c) 1]))) ∧
      ∀ a z o q, old = some (.remap f.region f.entry a z o q) →
        exec (.returnReceived k w) s = .next (took (m.map (SpareRec.retire f.region f.entry) ++
          [.remap f.region f.entry v n (some c) (if o = some c then q + 1 else 1)]))

/-- R47, R143, R154, R155, R161: the FENCE-DONE of a cutover completes it: the twin is TWINNED, the context IDLE with DONE, its
segments and spares given up, the deferred reply sent, CTX_DONE raised, and then the primary checked. That the reply stands
ahead of the notice is the model's reading (assumption 20). -/
def Obligations.CutoverCompletes : Prop :=
  ∀ (s : State) (k : SlotId) (w : Frame) (t : Txn) (i : PendIdx) (c : CtxId) (p q : SlotId),
    Answers s k w t i (.cutover c) .fenceDone → (s.ctx c).state = .cutting →
    let x := s.ctx c
    let b := x.board
    let e := s.entry b
    e.twinState = .building → e.bound = some c → e.primary = some p → e.twin = some q →
    let twinned : SteerEntry := { e with twinState := .twinned, bound := none }
    let u := afterReply s k i
    let done := (({ u.setEntry b twinned with spares := s.spares.map (fun m : List SpareRec => m.map (SpareRec.disown c)) }.setCtx c { x with
      state := .idle, outcome := some .done, failReason := none, pauseReason := none, segs := [], cur := none }).deferredSent c
        .done []).raise .ctxDone (BitVec.ofNat 8 c)
    (s.isReady p = true ∨ (s.isReady q = true ∧ e.autoSwap = false) →
      exec (.fenceDoneReceived k w) s = .next done) ∧
    (s.isReady p = false → s.isReady q = true → e.autoSwap = true →
      exec (.fenceDoneReceived k w) s = .next ((done.setEntry b { twinned with
        primary := some q, twin := some p, view := e.view.other, twinState := .stale }).raise .autoSwap (BitVec.ofNat 8 p))) ∧
    (s.isReady p = false → s.isReady q = false →
      exec (.fenceDoneReceived k w) s = .next ((done.setEntry b { twinned with twinState := .stale }).raise .twinStale
        (BitVec.ofNat 8 q)))

/-! ### Invariants that every step keeps -/

/-- R6: the agent's credits and the intake queue's length make 64 in RUNNING; outside it both are empty. -/
def Obligations.StepConservesAgentCredits : Prop :=
  ∀ s t : State, s.CreditsConserved → step s = .next t → t.CreditsConserved

/-- R13, R14, R16, R23, R33, R132, R141: the bounds of credits, queues, gap list and spare maps, what no two of their records
share, and the agreement of each slot's queue with its pending reply table; each of the three is kept by itself. R141: the spare
map of a slot in DOWN stays empty, where only a walking context has flight records and it walks only with its destination READY. -/
def Obligations.StepKeepsSlotsAndTables : Prop :=
  ∀ s t : State, step s = .next t →
    (s.SlotsBounded → t.SlotsBounded) ∧ (s.SlotsAgree → t.SlotsAgree) ∧ (s.TablesSound → t.TablesSound) ∧
    (s.FlightsSound → s.DestsReady → s.DownMapsEmpty → t.DownMapsEmpty)

/-- R42, R47: the steering table stays legal, and BUILDING exactly where one live context is bound. -/
def Obligations.StepKeepsSteeringWired : Prop := ∀ s t : State, s.Wired → step s = .next t → t.Wired

/-- R66, R73 to R75: regions stay within the address space and apart from each other, their spare areas and the windows. -/
def Obligations.StepKeepsLayoutSound : Prop := ∀ s t : State, s.LayoutSound → step s = .next t → t.LayoutSound

/-- R82, R98, R99, R123, R125: flight tables keep within their windows with one record for an entry, the occupied staging
entries are exactly those of flight records, no record of the two pools stands in two places, and no two ranges of a revisit list
overlap or adjoin. R85, R86, R113: a context walks only with its destination READY. Each of the three is kept by itself. R132:
each gap record names a context that is not IDLE, where only walking contexts have flight records. -/
def Obligations.StepKeepsFlightsAndPools : Prop :=
  ∀ s t : State, step s = .next t →
    (s.FlightsSound → t.FlightsSound) ∧ (s.PoolsSound → t.PoolsSound) ∧ (s.DestsReady → t.DestsReady) ∧
    (s.FlightsSound → s.GapsOwned → t.GapsOwned)
end

