-- ==== Sys2Proof/Laws/Acceptance.lean ====
section
/-! SUPPORT. Which words of a link are read as a transaction, and what is then read (R4, R5). -/

namespace Sys2Proof.Machine

theorem ofCode_eq_some {c : BitVec 8} {k : TxnKind} : TxnKind.ofCode c = some k ↔ k.code = c := by
  constructor
  · intro h
    unfold TxnKind.ofCode at h
    simpa using List.find?_some h
  · rintro rfl
    cases k <;> rfl

/-- The words are at least a header and a trailer, and the trailer's low bits are the check of the words before it (R5). -/
def Frame.Checked (f : Frame) : Prop :=
  4 ≤ f.length ∧ (f.getD (f.length - 1) 0).extractLsb' 0 16 = checkOf (f.take (f.length - 1))

/-- A transaction is the one that the words spell, by Table 1-1. -/
def Frame.Spells (f : Frame) (t : Txn) : Prop :=
  t.kind.code = (f.getD 0 0).extractLsb' 24 8 ∧ t.board = (f.getD 0 0).extractLsb' 20 4 ∧
    t.status = (f.getD 0 0).extractLsb' 16 4 ∧ t.tag = (f.getD 0 0).extractLsb' 8 8 ∧ t.more = (f.getD 0 0).getLsbD 0 ∧
    t.count = ((f.getD 1 0).extractLsb' 0 16).toNat ∧ t.addr = f.getD 2 0 ∧ t.data = (f.drop 3).take (f.length - 4)

/-- What is read from the words of a link. -/
theorem parse_eq_some {f : Frame} {t : Txn} : Txn.parse f = some t ↔ Frame.Checked f ∧ Frame.Spells f t := by
  rcases f with _ | ⟨a, _ | ⟨b, _ | ⟨c, l⟩⟩⟩
  · simp [Txn.parse, Frame.Checked]
  · simp [Txn.parse, Frame.Checked]
  · simp [Txn.parse, Frame.Checked]
  · rcases l.eq_nil_or_concat with rfl | ⟨d, x, rfl⟩
    · simp [Txn.parse, Frame.Checked]
    · rw [List.concat_eq_append]
      have h1 : (a :: b :: c :: (d ++ [x])).dropLast = a :: b :: c :: d := by simp [List.dropLast]
      have h2 : (a :: b :: c :: (d ++ [x])).length = d.length + 4 := by simp
      have h3 : (a :: b :: c :: (d ++ [x])).take (d.length + 3) = a :: b :: c :: d := by simp
      have h4 : (a :: b :: c :: (d ++ [x])).getD (d.length + 3) 0 = x := by simp [List.getD]
      have h5 : ((a :: b :: c :: (d ++ [x])).drop 3).take d.length = d := by simp
      unfold Txn.parse Frame.Checked Frame.Spells
      simp only [List.getLast?_concat, h1, h2, Nat.add_sub_cancel, h5, show d.length + 4 - 1 = d.length + 3 from rfl, h3, h4,
        List.dropLast_concat]
      cases hk : TxnKind.ofCode (a.extractLsb' 24 8) with
      | none =>
        refine ⟨fun h => by simp at h, fun h => ?_⟩
        rw [show TxnKind.ofCode (a.extractLsb' 24 8) = some t.kind from ofCode_eq_some.2 h.2.1] at hk
        cases hk
      | some k =>
        have hk := ofCode_eq_some.1 hk
        dsimp only
        by_cases hc : checkOf (a :: b :: c :: d) = x.extractLsb' 0 16
        · rw [if_pos hc]
          refine ⟨fun h => ?_, fun h => ?_⟩
          · cases h
            exact ⟨⟨by omega, hc.symm⟩, hk, rfl, rfl, rfl, rfl, rfl, rfl, rfl⟩
          · obtain ⟨-, e1, e2, e3, e4, e5, e6, e7, e8⟩ := h
            have : t.kind = k := by
              have := ofCode_eq_some.2 (e1.trans hk.symm)
              rw [ofCode_eq_some.2 rfl] at this
              exact (Option.some.inj this).symm
            cases t
            simp only at *
            subst this e2 e3 e4 e5 e6 e7 e8
            rfl
        · rw [if_neg hc]
          exact ⟨fun h => absurd h (by simp), fun h => absurd h.1.2.symm hc⟩

theorem acceptAgent_eq_some {f : Frame} {t : Txn} : acceptAgent f = some t ↔
    ∃ u, Txn.parse f = some u ∧ u.agentOk = true ∧ t = { u with status := 0, more := false } := by
  unfold acceptAgent
  refine ⟨fun h => ?_, fun ⟨u, h1, h2, h3⟩ => by rw [h1, h3]; exact if_pos h2⟩
  cases hp : Txn.parse f with
  | none => rw [hp] at h; cases h
  | some u =>
    rw [hp] at h
    dsimp only at h
    split at h
    · exact ⟨u, rfl, by assumption, (Option.some.inj h).symm⟩
    · cases h

theorem acceptBoard_eq_some {f : Frame} {t : Txn} : acceptBoard f = some t ↔
    ∃ u, Txn.parse f = some u ∧ u.boardOk = true ∧ t = { u with board := 0, more := false } := by
  unfold acceptBoard
  refine ⟨fun h => ?_, fun ⟨u, h1, h2, h3⟩ => by rw [h1, h3]; exact if_pos h2⟩
  cases hp : Txn.parse f with
  | none => rw [hp] at h; cases h
  | some u =>
    rw [hp] at h
    dsimp only at h
    split at h
    · exact ⟨u, rfl, by assumption, (Option.some.inj h).symm⟩
    · cases h

end Sys2Proof.Machine
end

