-- ==== Sys2Proof/Laws/State.lean ====
section
/-! SUPPORT. What each named update does to each field and to each read, so that no proof unfolds a record update. -/

namespace Sys2Proof.Machine

variable (s : State)

/-! ### Updates through a function -/

@[simp] theorem modSlot_eq (k : SlotId) (f : SlotPort → SlotPort) : s.modSlot k f = s.setSlot k (f (s.slot k)) := rfl
@[simp] theorem modCtx_eq (c : CtxId) (f : Ctx → Ctx) : s.modCtx c f = s.setCtx c (f (s.ctx c)) := rfl

/-! ### setSlot -/

@[simp] theorem startup_setSlot (k : SlotId) (p : SlotPort) : (s.setSlot k p).startup = s.startup := rfl
@[simp] theorem startRecord_setSlot (k : SlotId) (p : SlotPort) : (s.setSlot k p).startRecord = s.startRecord := rfl
@[simp] theorem agentLinkUp_setSlot (k : SlotId) (p : SlotPort) : (s.setSlot k p).agentLinkUp = s.agentLinkUp := rfl
@[simp] theorem agentCredits_setSlot (k : SlotId) (p : SlotPort) : (s.setSlot k p).agentCredits = s.agentCredits := rfl
@[simp] theorem intake_setSlot (k : SlotId) (p : SlotPort) : (s.setSlot k p).intake = s.intake := rfl
@[simp] theorem upstream_setSlot (k : SlotId) (p : SlotPort) : (s.setSlot k p).upstream = s.upstream := rfl
@[simp] theorem agentTx_setSlot (k : SlotId) (p : SlotPort) : (s.setSlot k p).agentTx = s.agentTx := rfl
@[simp] theorem fill_setSlot (k : SlotId) (p : SlotPort) : (s.setSlot k p).fill = s.fill := rfl
@[simp] theorem globals_setSlot (k : SlotId) (p : SlotPort) : (s.setSlot k p).globals = s.globals := rfl
@[simp] theorem slots_setSlot (k : SlotId) (p : SlotPort) : (s.setSlot k p).slots = s.slots.set k p := rfl
@[simp] theorem steer_setSlot (k : SlotId) (p : SlotPort) : (s.setSlot k p).steer = s.steer := rfl
@[simp] theorem assemblies_setSlot (k : SlotId) (p : SlotPort) : (s.setSlot k p).assemblies = s.assemblies := rfl
@[simp] theorem fences_setSlot (k : SlotId) (p : SlotPort) : (s.setSlot k p).fences = s.fences := rfl
@[simp] theorem layouts_setSlot (k : SlotId) (p : SlotPort) : (s.setSlot k p).layouts = s.layouts := rfl
@[simp] theorem regions_setSlot (k : SlotId) (p : SlotPort) : (s.setSlot k p).regions = s.regions := rfl
@[simp] theorem ctxs_setSlot (k : SlotId) (p : SlotPort) : (s.setSlot k p).ctxs = s.ctxs := rfl
@[simp] theorem staging_setSlot (k : SlotId) (p : SlotPort) : (s.setSlot k p).staging = s.staging := rfl
@[simp] theorem lastServed_setSlot (k : SlotId) (p : SlotPort) : (s.setSlot k p).lastServed = s.lastServed := rfl
@[simp] theorem gaps_setSlot (k : SlotId) (p : SlotPort) : (s.setSlot k p).gaps = s.gaps := rfl
@[simp] theorem spares_setSlot (k : SlotId) (p : SlotPort) : (s.setSlot k p).spares = s.spares := rfl
@[simp] theorem levels_setSlot (k : SlotId) (p : SlotPort) : (s.setSlot k p).levels = s.levels := rfl
@[simp] theorem floor_setSlot (k : SlotId) (p : SlotPort) : (s.setSlot k p).floor = s.floor := rfl
@[simp] theorem notices_setSlot (k : SlotId) (p : SlotPort) : (s.setSlot k p).notices = s.notices := rfl
@[simp] theorem pending_setSlot (k : SlotId) (p : SlotPort) : (s.setSlot k p).pending = s.pending := rfl
@[simp] theorem entry_setSlot (k : SlotId) (p : SlotPort) (a : BoardId) : (s.setSlot k p).entry a = s.entry a := rfl
@[simp] theorem ctx_setSlot (k : SlotId) (p : SlotPort) (cc : CtxId) : (s.setSlot k p).ctx cc = s.ctx cc := rfl
@[simp] theorem layout_setSlot (k : SlotId) (p : SlotPort) (l : SetId) : (s.setSlot k p).layout l = s.layout l := rfl
@[simp] theorem region_setSlot (k : SlotId) (p : SlotPort) (i : RegionId) : (s.setSlot k p).region i = s.region i := rfl
@[simp] theorem spareMap_setSlot (k : SlotId) (p : SlotPort) (j : SlotId) : (s.setSlot k p).spareMap j = s.spareMap j := rfl
@[simp] theorem notice_setSlot (k : SlotId) (p : SlotPort) (kind : NoticeKind) : (s.setSlot k p).notice kind = s.notice kind := rfl
@[simp] theorem levelOf_setSlot (k : SlotId) (p : SlotPort) (kind : NoticeKind) : (s.setSlot k p).levelOf kind = s.levelOf kind := rfl

/-! ### setEntry -/

@[simp] theorem startup_setEntry (b : BoardId) (e : SteerEntry) : (s.setEntry b e).startup = s.startup := rfl
@[simp] theorem startRecord_setEntry (b : BoardId) (e : SteerEntry) : (s.setEntry b e).startRecord = s.startRecord := rfl
@[simp] theorem agentLinkUp_setEntry (b : BoardId) (e : SteerEntry) : (s.setEntry b e).agentLinkUp = s.agentLinkUp := rfl
@[simp] theorem agentCredits_setEntry (b : BoardId) (e : SteerEntry) : (s.setEntry b e).agentCredits = s.agentCredits := rfl
@[simp] theorem intake_setEntry (b : BoardId) (e : SteerEntry) : (s.setEntry b e).intake = s.intake := rfl
@[simp] theorem upstream_setEntry (b : BoardId) (e : SteerEntry) : (s.setEntry b e).upstream = s.upstream := rfl
@[simp] theorem agentTx_setEntry (b : BoardId) (e : SteerEntry) : (s.setEntry b e).agentTx = s.agentTx := rfl
@[simp] theorem fill_setEntry (b : BoardId) (e : SteerEntry) : (s.setEntry b e).fill = s.fill := rfl
@[simp] theorem globals_setEntry (b : BoardId) (e : SteerEntry) : (s.setEntry b e).globals = s.globals := rfl
@[simp] theorem slots_setEntry (b : BoardId) (e : SteerEntry) : (s.setEntry b e).slots = s.slots := rfl
@[simp] theorem steer_setEntry (b : BoardId) (e : SteerEntry) : (s.setEntry b e).steer = s.steer.set b e := rfl
@[simp] theorem assemblies_setEntry (b : BoardId) (e : SteerEntry) : (s.setEntry b e).assemblies = s.assemblies := rfl
@[simp] theorem fences_setEntry (b : BoardId) (e : SteerEntry) : (s.setEntry b e).fences = s.fences := rfl
@[simp] theorem layouts_setEntry (b : BoardId) (e : SteerEntry) : (s.setEntry b e).layouts = s.layouts := rfl
@[simp] theorem regions_setEntry (b : BoardId) (e : SteerEntry) : (s.setEntry b e).regions = s.regions := rfl
@[simp] theorem ctxs_setEntry (b : BoardId) (e : SteerEntry) : (s.setEntry b e).ctxs = s.ctxs := rfl
@[simp] theorem staging_setEntry (b : BoardId) (e : SteerEntry) : (s.setEntry b e).staging = s.staging := rfl
@[simp] theorem lastServed_setEntry (b : BoardId) (e : SteerEntry) : (s.setEntry b e).lastServed = s.lastServed := rfl
@[simp] theorem gaps_setEntry (b : BoardId) (e : SteerEntry) : (s.setEntry b e).gaps = s.gaps := rfl
@[simp] theorem spares_setEntry (b : BoardId) (e : SteerEntry) : (s.setEntry b e).spares = s.spares := rfl
@[simp] theorem levels_setEntry (b : BoardId) (e : SteerEntry) : (s.setEntry b e).levels = s.levels := rfl
@[simp] theorem floor_setEntry (b : BoardId) (e : SteerEntry) : (s.setEntry b e).floor = s.floor := rfl
@[simp] theorem notices_setEntry (b : BoardId) (e : SteerEntry) : (s.setEntry b e).notices = s.notices := rfl
@[simp] theorem pending_setEntry (b : BoardId) (e : SteerEntry) : (s.setEntry b e).pending = s.pending := rfl
@[simp] theorem slot_setEntry (b : BoardId) (e : SteerEntry) (j : SlotId) : (s.setEntry b e).slot j = s.slot j := rfl
@[simp] theorem ctx_setEntry (b : BoardId) (e : SteerEntry) (cc : CtxId) : (s.setEntry b e).ctx cc = s.ctx cc := rfl
@[simp] theorem layout_setEntry (b : BoardId) (e : SteerEntry) (l : SetId) : (s.setEntry b e).layout l = s.layout l := rfl
@[simp] theorem region_setEntry (b : BoardId) (e : SteerEntry) (i : RegionId) : (s.setEntry b e).region i = s.region i := rfl
@[simp] theorem spareMap_setEntry (b : BoardId) (e : SteerEntry) (j : SlotId) : (s.setEntry b e).spareMap j = s.spareMap j := rfl
@[simp] theorem notice_setEntry (b : BoardId) (e : SteerEntry) (kind : NoticeKind) : (s.setEntry b e).notice kind = s.notice kind := rfl
@[simp] theorem isReady_setEntry (b : BoardId) (e : SteerEntry) (j : SlotId) : (s.setEntry b e).isReady j = s.isReady j := rfl
@[simp] theorem levelOf_setEntry (b : BoardId) (e : SteerEntry) (kind : NoticeKind) : (s.setEntry b e).levelOf kind = s.levelOf kind := rfl

/-! ### setCtx -/

@[simp] theorem startup_setCtx (c : CtxId) (x : Ctx) : (s.setCtx c x).startup = s.startup := rfl
@[simp] theorem startRecord_setCtx (c : CtxId) (x : Ctx) : (s.setCtx c x).startRecord = s.startRecord := rfl
@[simp] theorem agentLinkUp_setCtx (c : CtxId) (x : Ctx) : (s.setCtx c x).agentLinkUp = s.agentLinkUp := rfl
@[simp] theorem agentCredits_setCtx (c : CtxId) (x : Ctx) : (s.setCtx c x).agentCredits = s.agentCredits := rfl
@[simp] theorem intake_setCtx (c : CtxId) (x : Ctx) : (s.setCtx c x).intake = s.intake := rfl
@[simp] theorem upstream_setCtx (c : CtxId) (x : Ctx) : (s.setCtx c x).upstream = s.upstream := rfl
@[simp] theorem agentTx_setCtx (c : CtxId) (x : Ctx) : (s.setCtx c x).agentTx = s.agentTx := rfl
@[simp] theorem fill_setCtx (c : CtxId) (x : Ctx) : (s.setCtx c x).fill = s.fill := rfl
@[simp] theorem globals_setCtx (c : CtxId) (x : Ctx) : (s.setCtx c x).globals = s.globals := rfl
@[simp] theorem slots_setCtx (c : CtxId) (x : Ctx) : (s.setCtx c x).slots = s.slots := rfl
@[simp] theorem steer_setCtx (c : CtxId) (x : Ctx) : (s.setCtx c x).steer = s.steer := rfl
@[simp] theorem assemblies_setCtx (c : CtxId) (x : Ctx) : (s.setCtx c x).assemblies = s.assemblies := rfl
@[simp] theorem fences_setCtx (c : CtxId) (x : Ctx) : (s.setCtx c x).fences = s.fences := rfl
@[simp] theorem layouts_setCtx (c : CtxId) (x : Ctx) : (s.setCtx c x).layouts = s.layouts := rfl
@[simp] theorem regions_setCtx (c : CtxId) (x : Ctx) : (s.setCtx c x).regions = s.regions := rfl
@[simp] theorem ctxs_setCtx (c : CtxId) (x : Ctx) : (s.setCtx c x).ctxs = s.ctxs.set c x := rfl
@[simp] theorem staging_setCtx (c : CtxId) (x : Ctx) : (s.setCtx c x).staging = s.staging := rfl
@[simp] theorem lastServed_setCtx (c : CtxId) (x : Ctx) : (s.setCtx c x).lastServed = s.lastServed := rfl
@[simp] theorem gaps_setCtx (c : CtxId) (x : Ctx) : (s.setCtx c x).gaps = s.gaps := rfl
@[simp] theorem spares_setCtx (c : CtxId) (x : Ctx) : (s.setCtx c x).spares = s.spares := rfl
@[simp] theorem levels_setCtx (c : CtxId) (x : Ctx) : (s.setCtx c x).levels = s.levels := rfl
@[simp] theorem floor_setCtx (c : CtxId) (x : Ctx) : (s.setCtx c x).floor = s.floor := rfl
@[simp] theorem notices_setCtx (c : CtxId) (x : Ctx) : (s.setCtx c x).notices = s.notices := rfl
@[simp] theorem pending_setCtx (c : CtxId) (x : Ctx) : (s.setCtx c x).pending = s.pending := rfl
@[simp] theorem slot_setCtx (c : CtxId) (x : Ctx) (j : SlotId) : (s.setCtx c x).slot j = s.slot j := rfl
@[simp] theorem entry_setCtx (c : CtxId) (x : Ctx) (a : BoardId) : (s.setCtx c x).entry a = s.entry a := rfl
@[simp] theorem layout_setCtx (c : CtxId) (x : Ctx) (l : SetId) : (s.setCtx c x).layout l = s.layout l := rfl
@[simp] theorem region_setCtx (c : CtxId) (x : Ctx) (i : RegionId) : (s.setCtx c x).region i = s.region i := rfl
@[simp] theorem spareMap_setCtx (c : CtxId) (x : Ctx) (j : SlotId) : (s.setCtx c x).spareMap j = s.spareMap j := rfl
@[simp] theorem notice_setCtx (c : CtxId) (x : Ctx) (kind : NoticeKind) : (s.setCtx c x).notice kind = s.notice kind := rfl
@[simp] theorem isReady_setCtx (c : CtxId) (x : Ctx) (j : SlotId) : (s.setCtx c x).isReady j = s.isReady j := rfl
@[simp] theorem levelOf_setCtx (c : CtxId) (x : Ctx) (kind : NoticeKind) : (s.setCtx c x).levelOf kind = s.levelOf kind := rfl

/-! ### setRegion -/

@[simp] theorem startup_setRegion (r : RegionId) (x : Option Region) : (s.setRegion r x).startup = s.startup := rfl
@[simp] theorem startRecord_setRegion (r : RegionId) (x : Option Region) : (s.setRegion r x).startRecord = s.startRecord := rfl
@[simp] theorem agentLinkUp_setRegion (r : RegionId) (x : Option Region) : (s.setRegion r x).agentLinkUp = s.agentLinkUp := rfl
@[simp] theorem agentCredits_setRegion (r : RegionId) (x : Option Region) : (s.setRegion r x).agentCredits = s.agentCredits := rfl
@[simp] theorem intake_setRegion (r : RegionId) (x : Option Region) : (s.setRegion r x).intake = s.intake := rfl
@[simp] theorem upstream_setRegion (r : RegionId) (x : Option Region) : (s.setRegion r x).upstream = s.upstream := rfl
@[simp] theorem agentTx_setRegion (r : RegionId) (x : Option Region) : (s.setRegion r x).agentTx = s.agentTx := rfl
@[simp] theorem fill_setRegion (r : RegionId) (x : Option Region) : (s.setRegion r x).fill = s.fill := rfl
@[simp] theorem globals_setRegion (r : RegionId) (x : Option Region) : (s.setRegion r x).globals = s.globals := rfl
@[simp] theorem slots_setRegion (r : RegionId) (x : Option Region) : (s.setRegion r x).slots = s.slots := rfl
@[simp] theorem steer_setRegion (r : RegionId) (x : Option Region) : (s.setRegion r x).steer = s.steer := rfl
@[simp] theorem assemblies_setRegion (r : RegionId) (x : Option Region) : (s.setRegion r x).assemblies = s.assemblies := rfl
@[simp] theorem fences_setRegion (r : RegionId) (x : Option Region) : (s.setRegion r x).fences = s.fences := rfl
@[simp] theorem layouts_setRegion (r : RegionId) (x : Option Region) : (s.setRegion r x).layouts = s.layouts := rfl
@[simp] theorem regions_setRegion (r : RegionId) (x : Option Region) : (s.setRegion r x).regions = s.regions.set r x := rfl
@[simp] theorem ctxs_setRegion (r : RegionId) (x : Option Region) : (s.setRegion r x).ctxs = s.ctxs := rfl
@[simp] theorem staging_setRegion (r : RegionId) (x : Option Region) : (s.setRegion r x).staging = s.staging := rfl
@[simp] theorem lastServed_setRegion (r : RegionId) (x : Option Region) : (s.setRegion r x).lastServed = s.lastServed := rfl
@[simp] theorem gaps_setRegion (r : RegionId) (x : Option Region) : (s.setRegion r x).gaps = s.gaps := rfl
@[simp] theorem spares_setRegion (r : RegionId) (x : Option Region) : (s.setRegion r x).spares = s.spares := rfl
@[simp] theorem levels_setRegion (r : RegionId) (x : Option Region) : (s.setRegion r x).levels = s.levels := rfl
@[simp] theorem floor_setRegion (r : RegionId) (x : Option Region) : (s.setRegion r x).floor = s.floor := rfl
@[simp] theorem notices_setRegion (r : RegionId) (x : Option Region) : (s.setRegion r x).notices = s.notices := rfl
@[simp] theorem pending_setRegion (r : RegionId) (x : Option Region) : (s.setRegion r x).pending = s.pending := rfl
@[simp] theorem slot_setRegion (r : RegionId) (x : Option Region) (j : SlotId) : (s.setRegion r x).slot j = s.slot j := rfl
@[simp] theorem entry_setRegion (r : RegionId) (x : Option Region) (a : BoardId) : (s.setRegion r x).entry a = s.entry a := rfl
@[simp] theorem ctx_setRegion (r : RegionId) (x : Option Region) (cc : CtxId) : (s.setRegion r x).ctx cc = s.ctx cc := rfl
@[simp] theorem layout_setRegion (r : RegionId) (x : Option Region) (l : SetId) : (s.setRegion r x).layout l = s.layout l := rfl
@[simp] theorem spareMap_setRegion (r : RegionId) (x : Option Region) (j : SlotId) : (s.setRegion r x).spareMap j = s.spareMap j := rfl
@[simp] theorem notice_setRegion (r : RegionId) (x : Option Region) (kind : NoticeKind) : (s.setRegion r x).notice kind = s.notice kind := rfl
@[simp] theorem isReady_setRegion (r : RegionId) (x : Option Region) (j : SlotId) : (s.setRegion r x).isReady j = s.isReady j := rfl
@[simp] theorem levelOf_setRegion (r : RegionId) (x : Option Region) (kind : NoticeKind) : (s.setRegion r x).levelOf kind = s.levelOf kind := rfl

/-! ### setSpareMap -/

@[simp] theorem startup_setSpareMap (k : SlotId) (m : List SpareRec) : (s.setSpareMap k m).startup = s.startup := rfl
@[simp] theorem startRecord_setSpareMap (k : SlotId) (m : List SpareRec) : (s.setSpareMap k m).startRecord = s.startRecord := rfl
@[simp] theorem agentLinkUp_setSpareMap (k : SlotId) (m : List SpareRec) : (s.setSpareMap k m).agentLinkUp = s.agentLinkUp := rfl
@[simp] theorem agentCredits_setSpareMap (k : SlotId) (m : List SpareRec) : (s.setSpareMap k m).agentCredits = s.agentCredits := rfl
@[simp] theorem intake_setSpareMap (k : SlotId) (m : List SpareRec) : (s.setSpareMap k m).intake = s.intake := rfl
@[simp] theorem upstream_setSpareMap (k : SlotId) (m : List SpareRec) : (s.setSpareMap k m).upstream = s.upstream := rfl
@[simp] theorem agentTx_setSpareMap (k : SlotId) (m : List SpareRec) : (s.setSpareMap k m).agentTx = s.agentTx := rfl
@[simp] theorem fill_setSpareMap (k : SlotId) (m : List SpareRec) : (s.setSpareMap k m).fill = s.fill := rfl
@[simp] theorem globals_setSpareMap (k : SlotId) (m : List SpareRec) : (s.setSpareMap k m).globals = s.globals := rfl
@[simp] theorem slots_setSpareMap (k : SlotId) (m : List SpareRec) : (s.setSpareMap k m).slots = s.slots := rfl
@[simp] theorem steer_setSpareMap (k : SlotId) (m : List SpareRec) : (s.setSpareMap k m).steer = s.steer := rfl
@[simp] theorem assemblies_setSpareMap (k : SlotId) (m : List SpareRec) : (s.setSpareMap k m).assemblies = s.assemblies := rfl
@[simp] theorem fences_setSpareMap (k : SlotId) (m : List SpareRec) : (s.setSpareMap k m).fences = s.fences := rfl
@[simp] theorem layouts_setSpareMap (k : SlotId) (m : List SpareRec) : (s.setSpareMap k m).layouts = s.layouts := rfl
@[simp] theorem regions_setSpareMap (k : SlotId) (m : List SpareRec) : (s.setSpareMap k m).regions = s.regions := rfl
@[simp] theorem ctxs_setSpareMap (k : SlotId) (m : List SpareRec) : (s.setSpareMap k m).ctxs = s.ctxs := rfl
@[simp] theorem staging_setSpareMap (k : SlotId) (m : List SpareRec) : (s.setSpareMap k m).staging = s.staging := rfl
@[simp] theorem lastServed_setSpareMap (k : SlotId) (m : List SpareRec) : (s.setSpareMap k m).lastServed = s.lastServed := rfl
@[simp] theorem gaps_setSpareMap (k : SlotId) (m : List SpareRec) : (s.setSpareMap k m).gaps = s.gaps := rfl
@[simp] theorem spares_setSpareMap (k : SlotId) (m : List SpareRec) : (s.setSpareMap k m).spares = s.spares.set k m := rfl
@[simp] theorem levels_setSpareMap (k : SlotId) (m : List SpareRec) : (s.setSpareMap k m).levels = s.levels := rfl
@[simp] theorem floor_setSpareMap (k : SlotId) (m : List SpareRec) : (s.setSpareMap k m).floor = s.floor := rfl
@[simp] theorem notices_setSpareMap (k : SlotId) (m : List SpareRec) : (s.setSpareMap k m).notices = s.notices := rfl
@[simp] theorem pending_setSpareMap (k : SlotId) (m : List SpareRec) : (s.setSpareMap k m).pending = s.pending := rfl
@[simp] theorem slot_setSpareMap (k : SlotId) (m : List SpareRec) (j : SlotId) : (s.setSpareMap k m).slot j = s.slot j := rfl
@[simp] theorem entry_setSpareMap (k : SlotId) (m : List SpareRec) (a : BoardId) : (s.setSpareMap k m).entry a = s.entry a := rfl
@[simp] theorem ctx_setSpareMap (k : SlotId) (m : List SpareRec) (cc : CtxId) : (s.setSpareMap k m).ctx cc = s.ctx cc := rfl
@[simp] theorem layout_setSpareMap (k : SlotId) (m : List SpareRec) (l : SetId) : (s.setSpareMap k m).layout l = s.layout l := rfl
@[simp] theorem region_setSpareMap (k : SlotId) (m : List SpareRec) (i : RegionId) : (s.setSpareMap k m).region i = s.region i := rfl
@[simp] theorem notice_setSpareMap (k : SlotId) (m : List SpareRec) (kind : NoticeKind) : (s.setSpareMap k m).notice kind = s.notice kind := rfl
@[simp] theorem isReady_setSpareMap (k : SlotId) (m : List SpareRec) (j : SlotId) : (s.setSpareMap k m).isReady j = s.isReady j := rfl
@[simp] theorem levelOf_setSpareMap (k : SlotId) (m : List SpareRec) (kind : NoticeKind) : (s.setSpareMap k m).levelOf kind = s.levelOf kind := rfl

/-! ### setStaging -/

@[simp] theorem startup_setStaging (g : StagingId) (d : Option (List Word)) : (s.setStaging g d).startup = s.startup := rfl
@[simp] theorem startRecord_setStaging (g : StagingId) (d : Option (List Word)) : (s.setStaging g d).startRecord = s.startRecord := rfl
@[simp] theorem agentLinkUp_setStaging (g : StagingId) (d : Option (List Word)) : (s.setStaging g d).agentLinkUp = s.agentLinkUp := rfl
@[simp] theorem agentCredits_setStaging (g : StagingId) (d : Option (List Word)) : (s.setStaging g d).agentCredits = s.agentCredits := rfl
@[simp] theorem intake_setStaging (g : StagingId) (d : Option (List Word)) : (s.setStaging g d).intake = s.intake := rfl
@[simp] theorem upstream_setStaging (g : StagingId) (d : Option (List Word)) : (s.setStaging g d).upstream = s.upstream := rfl
@[simp] theorem agentTx_setStaging (g : StagingId) (d : Option (List Word)) : (s.setStaging g d).agentTx = s.agentTx := rfl
@[simp] theorem fill_setStaging (g : StagingId) (d : Option (List Word)) : (s.setStaging g d).fill = s.fill := rfl
@[simp] theorem globals_setStaging (g : StagingId) (d : Option (List Word)) : (s.setStaging g d).globals = s.globals := rfl
@[simp] theorem slots_setStaging (g : StagingId) (d : Option (List Word)) : (s.setStaging g d).slots = s.slots := rfl
@[simp] theorem steer_setStaging (g : StagingId) (d : Option (List Word)) : (s.setStaging g d).steer = s.steer := rfl
@[simp] theorem assemblies_setStaging (g : StagingId) (d : Option (List Word)) : (s.setStaging g d).assemblies = s.assemblies := rfl
@[simp] theorem fences_setStaging (g : StagingId) (d : Option (List Word)) : (s.setStaging g d).fences = s.fences := rfl
@[simp] theorem layouts_setStaging (g : StagingId) (d : Option (List Word)) : (s.setStaging g d).layouts = s.layouts := rfl
@[simp] theorem regions_setStaging (g : StagingId) (d : Option (List Word)) : (s.setStaging g d).regions = s.regions := rfl
@[simp] theorem ctxs_setStaging (g : StagingId) (d : Option (List Word)) : (s.setStaging g d).ctxs = s.ctxs := rfl
@[simp] theorem staging_setStaging (g : StagingId) (d : Option (List Word)) : (s.setStaging g d).staging = s.staging.set g d := rfl
@[simp] theorem lastServed_setStaging (g : StagingId) (d : Option (List Word)) : (s.setStaging g d).lastServed = s.lastServed := rfl
@[simp] theorem gaps_setStaging (g : StagingId) (d : Option (List Word)) : (s.setStaging g d).gaps = s.gaps := rfl
@[simp] theorem spares_setStaging (g : StagingId) (d : Option (List Word)) : (s.setStaging g d).spares = s.spares := rfl
@[simp] theorem levels_setStaging (g : StagingId) (d : Option (List Word)) : (s.setStaging g d).levels = s.levels := rfl
@[simp] theorem floor_setStaging (g : StagingId) (d : Option (List Word)) : (s.setStaging g d).floor = s.floor := rfl
@[simp] theorem notices_setStaging (g : StagingId) (d : Option (List Word)) : (s.setStaging g d).notices = s.notices := rfl
@[simp] theorem pending_setStaging (g : StagingId) (d : Option (List Word)) : (s.setStaging g d).pending = s.pending := rfl
@[simp] theorem slot_setStaging (g : StagingId) (d : Option (List Word)) (j : SlotId) : (s.setStaging g d).slot j = s.slot j := rfl
@[simp] theorem entry_setStaging (g : StagingId) (d : Option (List Word)) (a : BoardId) : (s.setStaging g d).entry a = s.entry a := rfl
@[simp] theorem ctx_setStaging (g : StagingId) (d : Option (List Word)) (cc : CtxId) : (s.setStaging g d).ctx cc = s.ctx cc := rfl
@[simp] theorem layout_setStaging (g : StagingId) (d : Option (List Word)) (l : SetId) : (s.setStaging g d).layout l = s.layout l := rfl
@[simp] theorem region_setStaging (g : StagingId) (d : Option (List Word)) (i : RegionId) : (s.setStaging g d).region i = s.region i := rfl
@[simp] theorem spareMap_setStaging (g : StagingId) (d : Option (List Word)) (j : SlotId) : (s.setStaging g d).spareMap j = s.spareMap j := rfl
@[simp] theorem notice_setStaging (g : StagingId) (d : Option (List Word)) (kind : NoticeKind) : (s.setStaging g d).notice kind = s.notice kind := rfl
@[simp] theorem isReady_setStaging (g : StagingId) (d : Option (List Word)) (j : SlotId) : (s.setStaging g d).isReady j = s.isReady j := rfl
@[simp] theorem levelOf_setStaging (g : StagingId) (d : Option (List Word)) (kind : NoticeKind) : (s.setStaging g d).levelOf kind = s.levelOf kind := rfl

/-! ### setNotice -/

@[simp] theorem startup_setNotice (n : NoticeKind) (r : NoticeRec) : (s.setNotice n r).startup = s.startup := rfl
@[simp] theorem startRecord_setNotice (n : NoticeKind) (r : NoticeRec) : (s.setNotice n r).startRecord = s.startRecord := rfl
@[simp] theorem agentLinkUp_setNotice (n : NoticeKind) (r : NoticeRec) : (s.setNotice n r).agentLinkUp = s.agentLinkUp := rfl
@[simp] theorem agentCredits_setNotice (n : NoticeKind) (r : NoticeRec) : (s.setNotice n r).agentCredits = s.agentCredits := rfl
@[simp] theorem intake_setNotice (n : NoticeKind) (r : NoticeRec) : (s.setNotice n r).intake = s.intake := rfl
@[simp] theorem upstream_setNotice (n : NoticeKind) (r : NoticeRec) : (s.setNotice n r).upstream = s.upstream := rfl
@[simp] theorem agentTx_setNotice (n : NoticeKind) (r : NoticeRec) : (s.setNotice n r).agentTx = s.agentTx := rfl
@[simp] theorem fill_setNotice (n : NoticeKind) (r : NoticeRec) : (s.setNotice n r).fill = s.fill := rfl
@[simp] theorem globals_setNotice (n : NoticeKind) (r : NoticeRec) : (s.setNotice n r).globals = s.globals := rfl
@[simp] theorem slots_setNotice (n : NoticeKind) (r : NoticeRec) : (s.setNotice n r).slots = s.slots := rfl
@[simp] theorem steer_setNotice (n : NoticeKind) (r : NoticeRec) : (s.setNotice n r).steer = s.steer := rfl
@[simp] theorem assemblies_setNotice (n : NoticeKind) (r : NoticeRec) : (s.setNotice n r).assemblies = s.assemblies := rfl
@[simp] theorem fences_setNotice (n : NoticeKind) (r : NoticeRec) : (s.setNotice n r).fences = s.fences := rfl
@[simp] theorem layouts_setNotice (n : NoticeKind) (r : NoticeRec) : (s.setNotice n r).layouts = s.layouts := rfl
@[simp] theorem regions_setNotice (n : NoticeKind) (r : NoticeRec) : (s.setNotice n r).regions = s.regions := rfl
@[simp] theorem ctxs_setNotice (n : NoticeKind) (r : NoticeRec) : (s.setNotice n r).ctxs = s.ctxs := rfl
@[simp] theorem staging_setNotice (n : NoticeKind) (r : NoticeRec) : (s.setNotice n r).staging = s.staging := rfl
@[simp] theorem lastServed_setNotice (n : NoticeKind) (r : NoticeRec) : (s.setNotice n r).lastServed = s.lastServed := rfl
@[simp] theorem gaps_setNotice (n : NoticeKind) (r : NoticeRec) : (s.setNotice n r).gaps = s.gaps := rfl
@[simp] theorem spares_setNotice (n : NoticeKind) (r : NoticeRec) : (s.setNotice n r).spares = s.spares := rfl
@[simp] theorem levels_setNotice (n : NoticeKind) (r : NoticeRec) : (s.setNotice n r).levels = s.levels := rfl
@[simp] theorem floor_setNotice (n : NoticeKind) (r : NoticeRec) : (s.setNotice n r).floor = s.floor := rfl
@[simp] theorem notices_setNotice (n : NoticeKind) (r : NoticeRec) : (s.setNotice n r).notices = s.notices.set n.index r := rfl
@[simp] theorem pending_setNotice (n : NoticeKind) (r : NoticeRec) : (s.setNotice n r).pending = s.pending := rfl
@[simp] theorem slot_setNotice (n : NoticeKind) (r : NoticeRec) (j : SlotId) : (s.setNotice n r).slot j = s.slot j := rfl
@[simp] theorem entry_setNotice (n : NoticeKind) (r : NoticeRec) (a : BoardId) : (s.setNotice n r).entry a = s.entry a := rfl
@[simp] theorem ctx_setNotice (n : NoticeKind) (r : NoticeRec) (cc : CtxId) : (s.setNotice n r).ctx cc = s.ctx cc := rfl
@[simp] theorem layout_setNotice (n : NoticeKind) (r : NoticeRec) (l : SetId) : (s.setNotice n r).layout l = s.layout l := rfl
@[simp] theorem region_setNotice (n : NoticeKind) (r : NoticeRec) (i : RegionId) : (s.setNotice n r).region i = s.region i := rfl
@[simp] theorem spareMap_setNotice (n : NoticeKind) (r : NoticeRec) (j : SlotId) : (s.setNotice n r).spareMap j = s.spareMap j := rfl
@[simp] theorem isReady_setNotice (n : NoticeKind) (r : NoticeRec) (j : SlotId) : (s.setNotice n r).isReady j = s.isReady j := rfl
@[simp] theorem levelOf_setNotice (n : NoticeKind) (r : NoticeRec) (kind : NoticeKind) : (s.setNotice n r).levelOf kind = s.levelOf kind := rfl

/-! ### pushUp -/

@[simp] theorem startup_pushUp (t : Txn) : (s.pushUp t).startup = s.startup := rfl
@[simp] theorem startRecord_pushUp (t : Txn) : (s.pushUp t).startRecord = s.startRecord := rfl
@[simp] theorem agentLinkUp_pushUp (t : Txn) : (s.pushUp t).agentLinkUp = s.agentLinkUp := rfl
@[simp] theorem agentCredits_pushUp (t : Txn) : (s.pushUp t).agentCredits = s.agentCredits := rfl
@[simp] theorem intake_pushUp (t : Txn) : (s.pushUp t).intake = s.intake := rfl
@[simp] theorem upstream_pushUp (t : Txn) : (s.pushUp t).upstream = s.upstream ++ [t] := rfl
@[simp] theorem agentTx_pushUp (t : Txn) : (s.pushUp t).agentTx = s.agentTx := rfl
@[simp] theorem fill_pushUp (t : Txn) : (s.pushUp t).fill = s.fill := rfl
@[simp] theorem globals_pushUp (t : Txn) : (s.pushUp t).globals = s.globals := rfl
@[simp] theorem slots_pushUp (t : Txn) : (s.pushUp t).slots = s.slots := rfl
@[simp] theorem steer_pushUp (t : Txn) : (s.pushUp t).steer = s.steer := rfl
@[simp] theorem assemblies_pushUp (t : Txn) : (s.pushUp t).assemblies = s.assemblies := rfl
@[simp] theorem fences_pushUp (t : Txn) : (s.pushUp t).fences = s.fences := rfl
@[simp] theorem layouts_pushUp (t : Txn) : (s.pushUp t).layouts = s.layouts := rfl
@[simp] theorem regions_pushUp (t : Txn) : (s.pushUp t).regions = s.regions := rfl
@[simp] theorem ctxs_pushUp (t : Txn) : (s.pushUp t).ctxs = s.ctxs := rfl
@[simp] theorem staging_pushUp (t : Txn) : (s.pushUp t).staging = s.staging := rfl
@[simp] theorem lastServed_pushUp (t : Txn) : (s.pushUp t).lastServed = s.lastServed := rfl
@[simp] theorem gaps_pushUp (t : Txn) : (s.pushUp t).gaps = s.gaps := rfl
@[simp] theorem spares_pushUp (t : Txn) : (s.pushUp t).spares = s.spares := rfl
@[simp] theorem levels_pushUp (t : Txn) : (s.pushUp t).levels = s.levels := rfl
@[simp] theorem floor_pushUp (t : Txn) : (s.pushUp t).floor = s.floor := rfl
@[simp] theorem notices_pushUp (t : Txn) : (s.pushUp t).notices = s.notices := rfl
@[simp] theorem pending_pushUp (t : Txn) : (s.pushUp t).pending = s.pending := rfl
@[simp] theorem slot_pushUp (t : Txn) (j : SlotId) : (s.pushUp t).slot j = s.slot j := rfl
@[simp] theorem entry_pushUp (t : Txn) (a : BoardId) : (s.pushUp t).entry a = s.entry a := rfl
@[simp] theorem ctx_pushUp (t : Txn) (cc : CtxId) : (s.pushUp t).ctx cc = s.ctx cc := rfl
@[simp] theorem layout_pushUp (t : Txn) (l : SetId) : (s.pushUp t).layout l = s.layout l := rfl
@[simp] theorem region_pushUp (t : Txn) (i : RegionId) : (s.pushUp t).region i = s.region i := rfl
@[simp] theorem spareMap_pushUp (t : Txn) (j : SlotId) : (s.pushUp t).spareMap j = s.spareMap j := rfl
@[simp] theorem notice_pushUp (t : Txn) (kind : NoticeKind) : (s.pushUp t).notice kind = s.notice kind := rfl
@[simp] theorem isReady_pushUp (t : Txn) (j : SlotId) : (s.pushUp t).isReady j = s.isReady j := rfl
@[simp] theorem levelOf_pushUp (t : Txn) (kind : NoticeKind) : (s.pushUp t).levelOf kind = s.levelOf kind := rfl

/-! ### pushGrant -/

@[simp] theorem startup_pushGrant (n : Nat) : (s.pushGrant n).startup = s.startup := rfl
@[simp] theorem startRecord_pushGrant (n : Nat) : (s.pushGrant n).startRecord = s.startRecord := rfl
@[simp] theorem agentLinkUp_pushGrant (n : Nat) : (s.pushGrant n).agentLinkUp = s.agentLinkUp := rfl
@[simp] theorem agentCredits_pushGrant (n : Nat) : (s.pushGrant n).agentCredits = s.agentCredits + n := rfl
@[simp] theorem intake_pushGrant (n : Nat) : (s.pushGrant n).intake = s.intake := rfl
@[simp] theorem upstream_pushGrant (n : Nat) : (s.pushGrant n).upstream = s.upstream ++ [{ kind := .grant, board := 15, count := n }] := rfl
@[simp] theorem agentTx_pushGrant (n : Nat) : (s.pushGrant n).agentTx = s.agentTx := rfl
@[simp] theorem fill_pushGrant (n : Nat) : (s.pushGrant n).fill = s.fill := rfl
@[simp] theorem globals_pushGrant (n : Nat) : (s.pushGrant n).globals = s.globals := rfl
@[simp] theorem slots_pushGrant (n : Nat) : (s.pushGrant n).slots = s.slots := rfl
@[simp] theorem steer_pushGrant (n : Nat) : (s.pushGrant n).steer = s.steer := rfl
@[simp] theorem assemblies_pushGrant (n : Nat) : (s.pushGrant n).assemblies = s.assemblies := rfl
@[simp] theorem fences_pushGrant (n : Nat) : (s.pushGrant n).fences = s.fences := rfl
@[simp] theorem layouts_pushGrant (n : Nat) : (s.pushGrant n).layouts = s.layouts := rfl
@[simp] theorem regions_pushGrant (n : Nat) : (s.pushGrant n).regions = s.regions := rfl
@[simp] theorem ctxs_pushGrant (n : Nat) : (s.pushGrant n).ctxs = s.ctxs := rfl
@[simp] theorem staging_pushGrant (n : Nat) : (s.pushGrant n).staging = s.staging := rfl
@[simp] theorem lastServed_pushGrant (n : Nat) : (s.pushGrant n).lastServed = s.lastServed := rfl
@[simp] theorem gaps_pushGrant (n : Nat) : (s.pushGrant n).gaps = s.gaps := rfl
@[simp] theorem spares_pushGrant (n : Nat) : (s.pushGrant n).spares = s.spares := rfl
@[simp] theorem levels_pushGrant (n : Nat) : (s.pushGrant n).levels = s.levels := rfl
@[simp] theorem floor_pushGrant (n : Nat) : (s.pushGrant n).floor = s.floor := rfl
@[simp] theorem notices_pushGrant (n : Nat) : (s.pushGrant n).notices = s.notices := rfl
@[simp] theorem pending_pushGrant (n : Nat) : (s.pushGrant n).pending = s.pending := rfl
@[simp] theorem slot_pushGrant (n : Nat) (j : SlotId) : (s.pushGrant n).slot j = s.slot j := rfl
@[simp] theorem entry_pushGrant (n : Nat) (a : BoardId) : (s.pushGrant n).entry a = s.entry a := rfl
@[simp] theorem ctx_pushGrant (n : Nat) (cc : CtxId) : (s.pushGrant n).ctx cc = s.ctx cc := rfl
@[simp] theorem layout_pushGrant (n : Nat) (l : SetId) : (s.pushGrant n).layout l = s.layout l := rfl
@[simp] theorem region_pushGrant (n : Nat) (i : RegionId) : (s.pushGrant n).region i = s.region i := rfl
@[simp] theorem spareMap_pushGrant (n : Nat) (j : SlotId) : (s.pushGrant n).spareMap j = s.spareMap j := rfl
@[simp] theorem notice_pushGrant (n : Nat) (kind : NoticeKind) : (s.pushGrant n).notice kind = s.notice kind := rfl
@[simp] theorem isReady_pushGrant (n : Nat) (j : SlotId) : (s.pushGrant n).isReady j = s.isReady j := rfl
@[simp] theorem levelOf_pushGrant (n : Nat) (kind : NoticeKind) : (s.pushGrant n).levelOf kind = s.levelOf kind := rfl

/-! ### takeHead -/

@[simp] theorem startup_takeHead : (s.takeHead).startup = s.startup := rfl
@[simp] theorem startRecord_takeHead : (s.takeHead).startRecord = s.startRecord := rfl
@[simp] theorem agentLinkUp_takeHead : (s.takeHead).agentLinkUp = s.agentLinkUp := rfl
@[simp] theorem agentCredits_takeHead : (s.takeHead).agentCredits = s.agentCredits + 1 := rfl
@[simp] theorem intake_takeHead : (s.takeHead).intake = s.intake.tail := rfl
@[simp] theorem upstream_takeHead : (s.takeHead).upstream = s.upstream ++ [{ kind := .grant, board := 15, count := 1 }] := rfl
@[simp] theorem agentTx_takeHead : (s.takeHead).agentTx = s.agentTx := rfl
@[simp] theorem fill_takeHead : (s.takeHead).fill = s.fill := rfl
@[simp] theorem globals_takeHead : (s.takeHead).globals = s.globals := rfl
@[simp] theorem slots_takeHead : (s.takeHead).slots = s.slots := rfl
@[simp] theorem steer_takeHead : (s.takeHead).steer = s.steer := rfl
@[simp] theorem assemblies_takeHead : (s.takeHead).assemblies = s.assemblies := rfl
@[simp] theorem fences_takeHead : (s.takeHead).fences = s.fences := rfl
@[simp] theorem layouts_takeHead : (s.takeHead).layouts = s.layouts := rfl
@[simp] theorem regions_takeHead : (s.takeHead).regions = s.regions := rfl
@[simp] theorem ctxs_takeHead : (s.takeHead).ctxs = s.ctxs := rfl
@[simp] theorem staging_takeHead : (s.takeHead).staging = s.staging := rfl
@[simp] theorem lastServed_takeHead : (s.takeHead).lastServed = s.lastServed := rfl
@[simp] theorem gaps_takeHead : (s.takeHead).gaps = s.gaps := rfl
@[simp] theorem spares_takeHead : (s.takeHead).spares = s.spares := rfl
@[simp] theorem levels_takeHead : (s.takeHead).levels = s.levels := rfl
@[simp] theorem floor_takeHead : (s.takeHead).floor = s.floor := rfl
@[simp] theorem notices_takeHead : (s.takeHead).notices = s.notices := rfl
@[simp] theorem pending_takeHead : (s.takeHead).pending = s.pending := rfl
@[simp] theorem slot_takeHead (j : SlotId) : (s.takeHead).slot j = s.slot j := rfl
@[simp] theorem entry_takeHead (a : BoardId) : (s.takeHead).entry a = s.entry a := rfl
@[simp] theorem ctx_takeHead (cc : CtxId) : (s.takeHead).ctx cc = s.ctx cc := rfl
@[simp] theorem layout_takeHead (l : SetId) : (s.takeHead).layout l = s.layout l := rfl
@[simp] theorem region_takeHead (i : RegionId) : (s.takeHead).region i = s.region i := rfl
@[simp] theorem spareMap_takeHead (j : SlotId) : (s.takeHead).spareMap j = s.spareMap j := rfl
@[simp] theorem notice_takeHead (kind : NoticeKind) : (s.takeHead).notice kind = s.notice kind := rfl
@[simp] theorem isReady_takeHead (j : SlotId) : (s.takeHead).isReady j = s.isReady j := rfl
@[simp] theorem levelOf_takeHead (kind : NoticeKind) : (s.takeHead).levelOf kind = s.levelOf kind := rfl

/-! ### Reading back what was written -/

theorem slot_setSlot (k j : SlotId) (p : SlotPort) : (s.setSlot k p).slot j = if k = j then p else s.slot j := by
  simp only [State.slot, State.setSlot, Fin.getElem_fin, Vector.getElem_set, Fin.val_inj]
@[simp] theorem slot_setSlot_same (k : SlotId) (p : SlotPort) : (s.setSlot k p).slot k = p := by simp [slot_setSlot]
theorem entry_setEntry (b a : BoardId) (e : SteerEntry) : (s.setEntry b e).entry a = if b = a then e else s.entry a := by
  simp only [State.entry, State.setEntry, Fin.getElem_fin, Vector.getElem_set, Fin.val_inj]
@[simp] theorem entry_setEntry_same (b : BoardId) (e : SteerEntry) : (s.setEntry b e).entry b = e := by simp [entry_setEntry]
theorem ctx_setCtx (c d : CtxId) (x : Ctx) : (s.setCtx c x).ctx d = if c = d then x else s.ctx d := by
  simp only [State.ctx, State.setCtx, Fin.getElem_fin, Vector.getElem_set, Fin.val_inj]
@[simp] theorem ctx_setCtx_same (c : CtxId) (x : Ctx) : (s.setCtx c x).ctx c = x := by simp [ctx_setCtx]
theorem region_setRegion (r i : RegionId) (x : Option Region) :
    (s.setRegion r x).region i = if r = i then x else s.region i := by
  simp only [State.region, State.setRegion, Fin.getElem_fin, Vector.getElem_set, Fin.val_inj]
@[simp] theorem region_setRegion_same (r : RegionId) (x : Option Region) : (s.setRegion r x).region r = x := by
  simp [region_setRegion]
theorem spareMap_setSpareMap (k j : SlotId) (m : List SpareRec) :
    (s.setSpareMap k m).spareMap j = if k = j then m else s.spareMap j := by
  simp only [State.spareMap, State.setSpareMap, Fin.getElem_fin, Vector.getElem_set, Fin.val_inj]
@[simp] theorem spareMap_setSpareMap_same (k : SlotId) (m : List SpareRec) : (s.setSpareMap k m).spareMap k = m := by
  simp [spareMap_setSpareMap]

/-- A kind's place names the kind. -/
theorem NoticeKind.index_inj {m n : NoticeKind} (h : m.index = n.index) : m = n := by
  revert h; cases m <;> cases n <;> decide

theorem notice_setNotice (n m : NoticeKind) (r : NoticeRec) :
    (s.setNotice n r).notice m = if n = m then r else s.notice m := by
  simp only [State.notice, State.setNotice, Fin.getElem_fin, Vector.getElem_set, Fin.val_inj]
  by_cases h : n = m
  · simp [h]
  · simp [h, mt NoticeKind.index_inj h]
@[simp] theorem notice_setNotice_same (n : NoticeKind) (r : NoticeRec) : (s.setNotice n r).notice n = r := by
  simp [notice_setNotice]

/-- Whether a slot is READY after a write of a slot port. -/
theorem isReady_setSlot (k j : SlotId) (p : SlotPort) :
    (s.setSlot k p).isReady j = if k = j then p.state == .ready else s.isReady j := by
  simp only [State.isReady, slot_setSlot]; split <;> rfl

end Sys2Proof.Machine
end

