-- ==== Sys2Proof/Laws/Quiet.lean ====
section
/-! SUPPORT. The relation that every internal report, delivery and notice keeps: what such an operation leaves alone. One lemma per shared operation. -/

namespace Sys2Proof.Machine

/-- A slot port is the same but for owners of pending entries that became ORPHAN. -/
structure SlotPort.Same (p q : SlotPort) : Prop where
  frame : q = { p with pend := q.pend }
  pend : ∀ i : PendIdx, q.pend[i] = p.pend[i] ∨
    ∃ e c, p.pend[i] = some e ∧ e.origin.isOf c = true ∧ q.pend[i] = some { e with origin := .orphan }

/-- The agent's side stands still: start-up, link, credits, intake, the FILL in expansion, the commands that wait.
The upstream queue only grows. -/
structure State.Inner (s t : State) : Prop where
  startup : t.startup = s.startup
  agentLinkUp : t.agentLinkUp = s.agentLinkUp
  agentCredits : t.agentCredits = s.agentCredits
  intake : t.intake = s.intake
  agentTx : t.agentTx = s.agentTx
  fill : t.fill = s.fill
  pending : t.pending = s.pending
  upstream : ∃ l, t.upstream = s.upstream ++ l

/-- Beside the agent's side, the start record, the global counters, the layout, the levels and the arbiter stand still;
masks stay, and pending kinds stay pending. -/
structure State.Steady (s t : State) : Prop extends s.Inner t where
  startRecord : t.startRecord = s.startRecord
  globals : t.globals = s.globals
  layouts : t.layouts = s.layouts
  regions : t.regions = s.regions
  levels : t.levels = s.levels
  floor : t.floor = s.floor
  lastServed : t.lastServed = s.lastServed
  notice : ∀ k, (t.notice k).mask = (s.notice k).mask ∧ ((s.notice k).pending = true → (t.notice k).pending = true)

/-- What every report, delivery and notice leaves alone: slot ports stay too, but for orphaned owners. -/
structure State.Quiet (s t : State) : Prop extends s.Steady t where
  slot : ∀ k, (s.slot k).Same (t.slot k)

theorem State.Inner.refl (s : State) : s.Inner s := ⟨rfl, rfl, rfl, rfl, rfl, rfl, rfl, [], by simp⟩

theorem State.Inner.trans {s t u : State} (h : s.Inner t) (g : t.Inner u) : s.Inner u where
  startup := g.startup.trans h.startup
  agentLinkUp := g.agentLinkUp.trans h.agentLinkUp
  agentCredits := g.agentCredits.trans h.agentCredits
  intake := g.intake.trans h.intake
  agentTx := g.agentTx.trans h.agentTx
  fill := g.fill.trans h.fill
  pending := g.pending.trans h.pending
  upstream := by
    obtain ⟨a, ha⟩ := h.upstream
    obtain ⟨b, hb⟩ := g.upstream
    exact ⟨a ++ b, by rw [hb, ha, List.append_assoc]⟩

theorem State.Inner.foldl {α : Type} (f : State → α → State) (hf : ∀ (s : State) a, s.Inner (f s a)) (l : List α) (s : State) :
    s.Inner (l.foldl f s) := by
  induction l generalizing s with
  | nil => exact .refl s
  | cons a l ih => exact (hf s a).trans (ih (f s a))

/-- An update of blocks behind the agent's side. -/
theorem State.Inner.of_rest {s t : State} (h : t = { s with
    startRecord := t.startRecord, globals := t.globals, slots := t.slots, steer := t.steer, assemblies := t.assemblies,
    fences := t.fences, layouts := t.layouts, regions := t.regions, ctxs := t.ctxs, staging := t.staging,
    lastServed := t.lastServed, gaps := t.gaps, spares := t.spares, levels := t.levels, floor := t.floor,
    notices := t.notices }) : s.Inner t := by
  rw [h]; exact ⟨rfl, rfl, rfl, rfl, rfl, rfl, rfl, [], by simp⟩

theorem SlotPort.Same.refl (p : SlotPort) : p.Same p := ⟨rfl, fun _ => Or.inl rfl⟩

theorem SlotPort.Same.trans {p q r : SlotPort} (h : p.Same q) (g : q.Same r) : p.Same r := by
  refine ⟨?_, fun i => ?_⟩
  · rw [g.frame, h.frame]
  · rcases g.pend i with hg | ⟨e, x, he, ho, hg⟩ <;> rcases h.pend i with hh | ⟨d, y, hd, hp, hh⟩
    · exact Or.inl (hg.trans hh)
    · exact Or.inr ⟨d, y, hd, hp, hg.trans hh⟩
    · exact Or.inr ⟨e, x, hh ▸ he, ho, hg⟩
    · rw [hh] at he; cases he; cases ho

theorem State.Steady.refl (s : State) : s.Steady s := ⟨.refl s, rfl, rfl, rfl, rfl, rfl, rfl, rfl, fun _ => ⟨rfl, id⟩⟩

theorem State.Steady.trans {s t u : State} (h : s.Steady t) (g : t.Steady u) : s.Steady u where
  toInner := h.toInner.trans g.toInner
  startRecord := g.startRecord.trans h.startRecord
  globals := g.globals.trans h.globals
  layouts := g.layouts.trans h.layouts
  regions := g.regions.trans h.regions
  levels := g.levels.trans h.levels
  floor := g.floor.trans h.floor
  lastServed := g.lastServed.trans h.lastServed
  notice := fun k => ⟨(g.notice k).1.trans (h.notice k).1, fun p => (g.notice k).2 ((h.notice k).2 p)⟩

/-- An update of slots and of tables that the relation leaves open. -/
theorem State.Steady.of_rest {s t : State} (h : t = { s with
    slots := t.slots, steer := t.steer, assemblies := t.assemblies, fences := t.fences, ctxs := t.ctxs, staging := t.staging,
    gaps := t.gaps, spares := t.spares }) : s.Steady t := by
  rw [h]; exact ⟨.of_rest rfl, rfl, rfl, rfl, rfl, rfl, rfl, rfl, fun _ => ⟨rfl, id⟩⟩

theorem State.Quiet.refl (s : State) : s.Quiet s := ⟨.refl s, fun _ => .refl _⟩

theorem State.Quiet.trans {s t u : State} (h : s.Quiet t) (g : t.Quiet u) : s.Quiet u :=
  ⟨h.toSteady.trans g.toSteady, fun k => (h.slot k).trans (g.slot k)⟩

theorem State.Quiet.foldl {α : Type} (f : State → α → State) (hf : ∀ (s : State) a, s.Quiet (f s a)) (l : List α) (s : State) :
    s.Quiet (l.foldl f s) := by
  induction l generalizing s with
  | nil => exact .refl s
  | cons a l ih => exact (hf s a).trans (ih (f s a))

theorem State.Quiet.isReady {s t : State} (h : s.Quiet t) (k : SlotId) : t.isReady k = s.isReady k := by
  simp only [State.isReady]; rw [(h.slot k).frame]

theorem State.Quiet.region {s t : State} (h : s.Quiet t) (i : RegionId) : t.region i = s.region i := by
  simp only [State.region, h.regions]

theorem State.Quiet.layout {s t : State} (h : s.Quiet t) (i : SetId) : t.layout i = s.layout i := by
  simp only [State.layout, h.layouts]

/-- An entry whose owner is no context stays as it is. -/
theorem SlotPort.Same.keeps {p q : SlotPort} (h : p.Same q) {i : PendIdx} {e : PendEntry} (he : p.pend[i] = some e)
    (ho : ∀ c, e.origin.isOf c = false) : q.pend[i] = some e := by
  rcases h.pend i with hp | ⟨d, c, hd, hc, -⟩
  · rw [hp, he]
  · rw [he] at hd; cases hd; rw [ho c] at hc; cases hc

/-- Which entries are in use, and in which phase, stays. -/
theorem SlotPort.Same.phase {p q : SlotPort} (h : p.Same q) (i : PendIdx) :
    q.pend[i].map (·.phase) = p.pend[i].map (·.phase) := by
  rcases h.pend i with hp | ⟨d, c, hd, -, hq⟩
  · rw [hp]
  · rw [hd, hq]; rfl

theorem SlotPort.Same.queue {p q : SlotPort} (h : p.Same q) : q.queue = p.queue := by rw [h.frame]
theorem SlotPort.Same.credits {p q : SlotPort} (h : p.Same q) : q.credits = p.credits := by rw [h.frame]
theorem SlotPort.Same.state {p q : SlotPort} (h : p.Same q) : q.state = p.state := by rw [h.frame]
theorem SlotPort.Same.presence {p q : SlotPort} (h : p.Same q) : q.presence = p.presence := by rw [h.frame]
theorem SlotPort.Same.counters {p q : SlotPort} (h : p.Same q) : q.counters = p.counters := by rw [h.frame]
theorem SlotPort.Same.free {p q : SlotPort} (h : p.Same q) {i : PendIdx} (hi : p.pend[i] = none) : q.pend[i] = none := by
  rcases h.pend i with hp | ⟨e, c, he, -, -⟩
  · rw [hp, hi]
  · rw [hi] at he; cases he

/-- An operation on tables that the relation leaves open. -/
theorem State.Quiet.of_open (s : State) (steer : Vector SteerEntry 15) (assemblies : List Assembly) (fences : List FenceGroup)
    (ctxs : Vector Ctx 16) (staging : Vector (Option (List Word)) 32) (gaps : List Gap) (spares : Vector (List SpareRec) 8) :
    s.Quiet { s with steer := steer, assemblies := assemblies, fences := fences, ctxs := ctxs, staging := staging,
                     gaps := gaps, spares := spares } :=
  ⟨.of_rest rfl, fun _ => .refl _⟩

variable (s : State)

/-! ### The named updates -/

theorem quiet_pushUp (t : Txn) : s.Quiet (s.pushUp t) :=
  ⟨⟨⟨rfl, rfl, rfl, rfl, rfl, rfl, rfl, [t], rfl⟩, rfl, rfl, rfl, rfl, rfl, rfl, rfl, fun _ => ⟨rfl, id⟩⟩, fun _ => .refl _⟩

theorem quiet_setCtx (c : CtxId) (x : Ctx) : s.Quiet (s.setCtx c x) := .of_open s _ _ _ _ _ _ _
theorem quiet_modCtx (c : CtxId) (f : Ctx → Ctx) : s.Quiet (s.modCtx c f) := .of_open s _ _ _ _ _ _ _
theorem quiet_setEntry (b : BoardId) (e : SteerEntry) : s.Quiet (s.setEntry b e) := .of_open s _ _ _ _ _ _ _
theorem quiet_setStaging (g : StagingId) (d : Option (List Word)) : s.Quiet (s.setStaging g d) := .of_open s _ _ _ _ _ _ _
theorem quiet_setSpareMap (k : SlotId) (m : List SpareRec) : s.Quiet (s.setSpareMap k m) := .of_open s _ _ _ _ _ _ _
theorem quiet_dropGap (c : CtxId) (r : RegionId) (e : Nat) : s.Quiet (s.dropGap c r e) := .of_open s _ _ _ _ _ _ _
theorem quiet_dropGapsOf (c : CtxId) : s.Quiet (s.dropGapsOf c) := .of_open s _ _ _ _ _ _ _
theorem quiet_disown (c : CtxId) : s.Quiet (s.disown c) := .of_open s _ _ _ _ _ _ _

theorem quiet_setNotice (n : NoticeKind) (r : NoticeRec) (hm : r.mask = (s.notice n).mask)
    (hp : (s.notice n).pending = true → r.pending = true) : s.Quiet (s.setNotice n r) := by
  refine ⟨⟨.of_rest rfl, rfl, rfl, rfl, rfl, rfl, rfl, rfl, fun m => ?_⟩, fun _ => .refl _⟩
  rw [notice_setNotice]; split
  · rename_i h; subst h; exact ⟨hm, hp⟩
  · exact ⟨rfl, id⟩

theorem quiet_pushReturn (tag : BitVec 8) (b : BoardId) (st : BitVec 4) (n : Nat) (d : List Word) :
    s.Quiet (s.pushReturn tag b st n d) := quiet_pushUp s _
theorem quiet_pushFenceDone (tag : BitVec 8) (b : BoardId) (st : BitVec 4) : s.Quiet (s.pushFenceDone tag b st) :=
  quiet_pushUp s _
theorem quiet_pushReply (tag : BitVec 8) (kind : BitVec 16) (st : ReplyStatus) (ws : List Word) (m : Bool) :
    s.Quiet (s.pushReply tag kind st ws m) := quiet_pushUp s _

/-! ### Notices (R176, R177) -/

theorem quiet_sendNotice (k : NoticeKind) : s.Quiet (s.sendNotice k) :=
  (quiet_pushUp s _).trans (quiet_setNotice _ _ _ rfl id)

theorem quiet_trySend (k : NoticeKind) : s.Quiet (s.trySend k) := by
  unfold State.trySend; split
  · exact quiet_sendNotice s k
  · exact .refl s

theorem quiet_raise (k : NoticeKind) (d : BitVec 8) : s.Quiet (s.raise k d) :=
  (quiet_setNotice s k ((s.notice k).occur d) rfl (fun _ => rfl)).trans (quiet_trySend _ k)

theorem quiet_sendOpened : s.Quiet s.sendOpened := State.Quiet.foldl _ (fun s k => quiet_trySend s k) _ s

/-! ### The Steering Unit (R47, R55 to R59) -/

theorem quiet_releaseStale (c : CtxId) : s.Quiet (s.releaseStale c) := by
  unfold State.releaseStale; dsimp only; split
  · exact quiet_setEntry s _ _
  · exact .refl s

theorem quiet_releaseTwinned (c : CtxId) : s.Quiet (s.releaseTwinned c) := by
  unfold State.releaseTwinned; dsimp only; split
  · exact quiet_setEntry s _ _
  · exact .refl s

theorem quiet_primaryLoss (b : BoardId) : s.Quiet (s.primaryLoss b) := by
  unfold State.primaryLoss; dsimp only
  split
  · split
    · split
      · exact (quiet_setEntry s _ _).trans (quiet_raise _ _ _)
      · exact .refl s
    · exact (quiet_setEntry s _ _).trans (quiet_raise _ _ _)
  · exact .refl s

theorem quiet_twinLoss (b : BoardId) (k : SlotId) : s.Quiet (s.twinLoss b k) := by
  unfold State.twinLoss; split
  · exact (quiet_setEntry s _ _).trans (quiet_raise _ _ _)
  · exact .refl s

theorem quiet_steeringLeft (k : SlotId) : s.Quiet (s.steeringLeft k) := by
  unfold State.steeringLeft; split
  · exact .refl s
  · split
    · exact quiet_primaryLoss s _
    · exact quiet_twinLoss s _ _

theorem quiet_resolvePart (n p : Nat) (r : PartResult) : s.Quiet (s.resolvePart n p r) := by
  unfold State.resolvePart; split
  · exact .refl s
  · dsimp only; split
    · exact State.Quiet.trans (.of_open s _ _ _ _ _ _ _) (quiet_pushReturn _ _ _ _ _ _)
    · exact .of_open s _ _ _ _ _ _ _

theorem quiet_resolveFence (n : Nat) (w : Bool) (o : PartOutcome) : s.Quiet (s.resolveFence n w o) := by
  unfold State.resolveFence; split
  · exact .refl s
  · rename_i g _
    generalize (if w then { g with twin := o } else { g with primary := o } : FenceGroup) = g'
    dsimp only; split
    · exact .of_open s _ _ _ _ _ _ _
    · exact State.Quiet.trans (.of_open s _ _ _ _ _ _ _) (quiet_pushFenceDone _ _ _ _)

/-! ### The Migration Engine: ends and failures (R92, R95, R161) -/

theorem SlotPort.orphan_same (c : CtxId) (p : SlotPort) : p.Same (p.orphan c) := by
  refine ⟨rfl, fun i => ?_⟩
  simp only [SlotPort.orphan, Fin.getElem_fin, Vector.getElem_map]
  cases h : p.pend[i.val] with
  | none => left; rfl
  | some e =>
    simp only [Option.map_some, PendEntry.orphan]
    split
    · rename_i ho; right; exact ⟨e, c, rfl, ho, rfl⟩
    · left; rfl

theorem quiet_orphan (c : CtxId) : s.Quiet (s.orphan c) := by
  refine ⟨.of_rest rfl, fun k => ?_⟩
  have h : (s.orphan c).slot k = (s.slot k).orphan c := by simp [State.slot, State.orphan]
  rw [h]; exact SlotPort.orphan_same c _

theorem quiet_freeStagingOf (fs : List Flight) : s.Quiet (s.freeStagingOf fs) :=
  State.Quiet.foldl _ (fun s _ => quiet_setStaging s _ _) fs s

theorem quiet_release (c : CtxId) : s.Quiet (s.release c) :=
  ((((quiet_freeStagingOf s _).trans (quiet_orphan _ c)).trans (quiet_modCtx _ _ _)).trans (quiet_releaseStale _ c)).trans
    (quiet_disown _ c)

theorem quiet_sendDeferred (c : CtxId) (st : ReplyStatus) (ws : List Word) : s.Quiet (s.sendDeferred c st ws) := by
  unfold State.sendDeferred; split
  · exact .refl s
  · exact (quiet_modCtx s _ _).trans (quiet_pushReply _ _ _ _ _ _)

theorem quiet_failCtx (c : CtxId) (r : FailReason) : s.Quiet (s.failCtx c r) := by
  unfold State.failCtx; split
  · exact (((quiet_release s c).trans (quiet_modCtx _ _ _)).trans (quiet_sendDeferred _ _ _ _)).trans (quiet_raise _ _ _)
  · exact .refl s

/-! ### SYNCED, CUTTING and the cutover (R111, R112, R150, R154) -/

theorem quiet_enterCutting (c : CtxId) : s.Quiet (s.enterCutting c) := by
  unfold State.enterCutting; dsimp only; split
  · exact quiet_modCtx s _ _
  · exact (quiet_modCtx s _ _).trans (quiet_failCtx _ _ _)

theorem quiet_autoCutover (c : CtxId) : s.Quiet (s.autoCutover c) := by
  unfold State.autoCutover; split
  · split
    · split
      · exact quiet_enterCutting s c
      · exact .refl s
    · exact quiet_raise s _ _
  · exact .refl s

theorem quiet_testSynced (c : CtxId) : s.Quiet (s.testSynced c) := by
  unfold State.testSynced; split
  · exact ((quiet_modCtx s _ _).trans (quiet_raise _ _ _)).trans (quiet_autoCutover _ c)
  · exact .refl s

theorem quiet_primaryCheck (b : BoardId) : s.Quiet (s.primaryCheck b) := by
  unfold State.primaryCheck; split
  · split
    · exact .refl s
    · exact quiet_primaryLoss s b
  · exact .refl s

theorem quiet_cutoverDone (c : CtxId) : s.Quiet (s.cutoverDone c) := by
  unfold State.cutoverDone; split
  · exact (((((quiet_releaseTwinned s c).trans (quiet_disown _ c)).trans (quiet_modCtx _ _ _)).trans
      (quiet_sendDeferred _ _ _ _)).trans (quiet_raise _ _ _)).trans (quiet_primaryCheck _ _)
  · exact .refl s

/-! ### Reports of the slot ports (R86, R113, R114, R156 to R158) -/

theorem quiet_sourceGone (c : CtxId) : s.Quiet (s.sourceGone c) := by
  unfold State.sourceGone; split
  · exact quiet_enterCutting s c
  · exact quiet_failCtx s c _

theorem quiet_ctxLeft (k : SlotId) (c : CtxId) : s.Quiet (State.ctxLeft k s c) := by
  unfold State.ctxLeft; dsimp only
  split
  · exact .refl s
  · exact .refl s
  all_goals (repeat' split)
  all_goals first | exact .refl s | exact quiet_failCtx s c _ | exact quiet_sourceGone s c

theorem quiet_engineLeft (k : SlotId) : s.Quiet (s.engineLeft k) := State.Quiet.foldl _ (fun s c => quiet_ctxLeft s k c) _ s

theorem quiet_engineEntered (k : SlotId) : s.Quiet (s.engineEntered k) := .of_open s _ _ _ _ _ _ _

theorem quiet_entryLost (c : CtxId) (r : FailReason) : s.Quiet (s.entryLost c r) := by
  unfold State.entryLost; split <;> first | exact quiet_failCtx s c r | exact .refl s

theorem quiet_cutoverLost (c : CtxId) : s.Quiet (s.cutoverLost c) := by
  unfold State.cutoverLost; split
  · exact quiet_failCtx s c _
  · exact .refl s

theorem quiet_refuseClaims (k : SlotId) (c : CtxId) : s.Quiet (State.refuseClaims k s c) := by
  unfold State.refuseClaims; split
  · dsimp only; split
    · exact ((quiet_modCtx s _ _).trans (quiet_modCtx _ _ _)).trans (quiet_failCtx _ _ _)
    · exact quiet_modCtx s _ _
  · exact .refl s

/-! ### The revisit list (R124 to R127) -/

theorem quiet_exhausted (c : CtxId) : s.Quiet (s.exhausted c) := by
  unfold State.exhausted; split
  · exact (quiet_modCtx s _ _).trans (quiet_raise _ _ _)
  · exact quiet_failCtx s c _

theorem quiet_addRevisit (c : CtxId) (r : RegionId) (e : Nat) : s.Quiet (s.addRevisit c r e).1 := by
  unfold State.addRevisit; dsimp only; split
  · exact .refl s
  · split
    · exact quiet_setCtx s _ _
    · split
      · exact quiet_setCtx s _ _
      · exact quiet_exhausted s c

/-! ### Returns to a flight record (R105, R133, R140, R142) -/

theorem quiet_stage (c : CtxId) (f : Flight) : s.Quiet (s.stage c f) := quiet_modCtx s _ _

theorem quiet_leaveFlight (c : CtxId) (f : Flight) : s.Quiet (s.leaveFlight c f) :=
  ((quiet_setStaging s _ _).trans (quiet_modCtx _ _ _)).trans (quiet_testSynced _ c)

theorem quiet_addGap (c : CtxId) (r : RegionId) (e : Nat) : s.Quiet (s.addGap c r e) := by
  unfold State.addGap; split
  · exact .refl s
  · exact State.Quiet.trans (.of_open s _ _ _ _ _ _ _) ((quiet_modCtx _ _ _).trans (quiet_raise _ _ _))

theorem quiet_unreadable (c : CtxId) (f : Flight) : s.Quiet (s.unreadable c f) := by
  unfold State.unreadable; split
  · exact quiet_failCtx s c _
  · split
    · exact .refl s
    · exact ((quiet_addGap s _ _ _).trans (quiet_setStaging _ _ _)).trans (quiet_stage _ _ _)

theorem quiet_walkReturn (c : CtxId) (n : FlightNum) (st : BitVec 4) (d : List Word) : s.Quiet (s.walkReturn c n st d) := by
  unfold State.walkReturn; split
  · exact .refl s
  · split
    · exact .refl s
    · split
      · exact (quiet_setStaging s _ _).trans (quiet_stage _ _ _)
      · split
        · exact ((quiet_setStaging s _ _).trans (quiet_modCtx _ _ _)).trans (quiet_stage _ _ _)
        · split
          · exact quiet_unreadable s _ _
          · exact quiet_failCtx s c _

theorem quiet_takeSpare (c : CtxId) (f : Flight) (i : Nat) : s.Quiet (s.takeSpare c f i) :=
  (((quiet_setSpareMap s _ _).trans (quiet_modCtx _ _ _)).trans (quiet_raise _ _ _)).trans (quiet_stage _ _ _)

theorem quiet_mismatch (c : CtxId) (f : Flight) : s.Quiet (s.mismatch c f) := by
  unfold State.mismatch; dsimp only
  repeat' split
  all_goals first | exact .refl s | exact quiet_failCtx s c _ | exact quiet_takeSpare s c _ _

theorem quiet_verifyReturn (c : CtxId) (n : FlightNum) (st : BitVec 4) (d : List Word) :
    s.Quiet (s.verifyReturn c n st d) := by
  unfold State.verifyReturn
  split
  · exact .refl s
  · split
    · exact .refl s
    · refine (quiet_modCtx s c (fun x => { x with counters := x.counters.addVerify })).trans ?_
      dsimp only
      repeat' split
      all_goals first | exact quiet_leaveFlight _ _ _ | exact quiet_mismatch _ _ _ | exact quiet_failCtx _ _ _

/-! ### Delivery (R19, R20) -/

theorem quiet_deliverReturn (o : Origin) (t : Txn) : s.Quiet (s.deliverReturn o t) := by
  unfold State.deliverReturn; split
  · exact quiet_pushReturn s _ _ _ _ _
  · exact quiet_resolvePart s _ _ _
  · exact quiet_walkReturn s _ _ _ _
  · exact quiet_verifyReturn s _ _ _ _
  all_goals exact .refl s

theorem quiet_deliverFence (o : Origin) : s.Quiet (s.deliverFence o) := by
  unfold State.deliverFence; split
  · exact quiet_resolveFence s _ _ _
  · exact quiet_cutoverDone s _
  all_goals exact .refl s

theorem quiet_deliverLoss (o : Origin) (n : Nat) : s.Quiet (s.deliverLoss o n) := by
  unfold State.deliverLoss; split
  · exact quiet_pushReturn s _ _ _ _ _
  · exact quiet_resolvePart s _ _ _
  · exact quiet_resolveFence s _ _ _
  · exact quiet_entryLost s _ _
  · exact quiet_entryLost s _ _
  · exact quiet_cutoverLost s _
  · exact .refl s

end Sys2Proof.Machine
end

