-- ==== Sys2Proof/Laws/Wiring.lean ====
section
/-! SUPPORT. How the shared operations keep the steering table and the contexts in agreement (R42, R47). -/

namespace Sys2Proof.Machine

variable (s : State)

/-- Two states with the same steering table, the same live contexts and the same boards of contexts. -/
structure State.SameWiring (s t : State) : Prop where
  steer : t.steer = s.steer
  ctx : ∀ c, (t.ctx c).state.isLive = (s.ctx c).state.isLive ∧ (t.ctx c).board = (s.ctx c).board

variable {s} in
theorem State.SameWiring.wired {t : State} (h : s.SameWiring t) (w : s.Wired) : t.Wired := by
  have he : ∀ b, t.entry b = s.entry b := fun b => by simp only [State.entry, h.steer]
  refine ⟨⟨fun b => ?_, fun a b k => ?_⟩, fun b c => ?_⟩
  · rw [he]; exact w.1.1 b
  · rw [he, he]; exact w.1.2 a b k
  · rw [he, (h.ctx c).1, (h.ctx c).2]; exact w.2 b c

variable {s} in
theorem State.SameWiring.of_tables {t : State} (hs : t.steer = s.steer) (hc : t.ctxs = s.ctxs) : s.SameWiring t :=
  ⟨hs, fun c => by simp only [State.ctx, hc, and_self]⟩

variable {s} in
theorem wired_of_tables {t : State} (w : s.Wired) (hs : t.steer = s.steer) (hc : t.ctxs = s.ctxs) : t.Wired :=
  (State.SameWiring.of_tables hs hc).wired w

variable {s} in
/-- A write of a context that keeps whether it is live and its board. -/
theorem wired_setCtx (w : s.Wired) (c : CtxId) (x : Ctx) (hl : x.state.isLive = (s.ctx c).state.isLive)
    (hb : x.board = (s.ctx c).board) : (s.setCtx c x).Wired := by
  have h : s.SameWiring (s.setCtx c x) := ⟨rfl, fun d => ?_⟩
  · exact h.wired w
  rw [ctx_setCtx]; split
  · rename_i h; subst h; exact ⟨hl, hb⟩
  · exact ⟨rfl, rfl⟩

variable {s} in
theorem wired_foldl {α : Type} (f : State → α → State) (hf : ∀ (s : State) a, s.Wired → (f s a).Wired) (l : List α) (w : s.Wired) :
    (l.foldl f s).Wired := by
  induction l generalizing s with
  | nil => exact w
  | cons a l ih => exact ih (hf s a w)

variable {s} in
/-- A live context's board is bound to it and BUILDING. -/
theorem State.Wired.bound_of_live (w : s.Wired) {c : CtxId} (h : (s.ctx c).state.isLive = true) :
    (s.entry (s.ctx c).board).bound = some c ∧ (s.entry (s.ctx c).board).twinState = .building := by
  have hb := (w.2 (s.ctx c).board c).2 ⟨h, rfl⟩
  exact ⟨hb, (w.1.1 _).2.2.1.1 (by rw [hb]; rfl)⟩

variable {s} in
/-- An entry that changes, but not the slots it names as a set of names, keeps the table legal. -/
theorem legal_setEntry (w : s.SteeringLegal) (b : BoardId) (e : SteerEntry) (he : e.Legal)
    (hn : ∀ k, e.Names k → (s.entry b).Names k) : (s.setEntry b e).SteeringLegal := by
  refine ⟨fun a => ?_, fun a d k ha hd => ?_⟩
  · rw [entry_setEntry]; split
    · exact he
    · exact w.1 a
  · refine w.2 a d k ?_ ?_
    · rw [entry_setEntry] at ha; split at ha
      · rename_i h; subst h; exact hn k ha
      · exact ha
    · rw [entry_setEntry] at hd; split at hd
      · rename_i h; subst h; exact hn k hd
      · exact hd

variable {s} in
/-- An entry that changes with its bound context, or lack of one, kept. -/
theorem wired_setEntry (w : s.Wired) (b : BoardId) (e : SteerEntry) (he : e.Legal)
    (hn : ∀ k, e.Names k → (s.entry b).Names k) (hb : e.bound = (s.entry b).bound) : (s.setEntry b e).Wired := by
  refine ⟨legal_setEntry w.1 b e he hn, fun a c => ?_⟩
  rw [entry_setEntry, ctx_setEntry]; split
  · rename_i h; subst h; rw [hb]; exact w.2 b c
  · exact w.2 a c

/-! ### Notices -/

variable {s} in
theorem wired_trySend (w : s.Wired) (k : NoticeKind) : (s.trySend k).Wired := by
  unfold State.trySend; split
  · exact wired_of_tables w rfl rfl
  · exact w

variable {s} in
theorem wired_raise (w : s.Wired) (k : NoticeKind) (d : BitVec 8) : (s.raise k d).Wired :=
  wired_trySend (wired_of_tables (t := s.setNotice k ((s.notice k).occur d)) w rfl rfl) k

variable {s} in
theorem wired_sendOpened (w : s.Wired) : s.sendOpened.Wired := wired_foldl _ (fun _ k w => wired_trySend w k) _ w

/-! ### The end of a live context (R47, R92, R95, R154) -/

variable {s} in
/-- A live context that ends: its entry turns to a state without a bound context, and nothing else of the wiring changes. -/
theorem wired_ended (w : s.Wired) {t : State} (c : CtxId) (hl : (s.ctx c).state.isLive = true) (ts : TwinState)
    (hts : ts = .stale ∨ ts = .twinned)
    (he : ∀ b, t.entry b =
      if (s.ctx c).board = b then { s.entry (s.ctx c).board with twinState := ts, bound := none } else s.entry b)
    (hc : ∀ d, c ≠ d → (t.ctx d).state.isLive = (s.ctx d).state.isLive ∧ (t.ctx d).board = (s.ctx d).board)
    (hx : (t.ctx c).state.isLive = false) : t.Wired := by
  have hbnd := w.bound_of_live hl
  obtain ⟨h1, h2, h3, h4⟩ := w.1.1 (s.ctx c).board
  have hn : ∀ b k, (t.entry b).Names k → (s.entry b).Names k := by
    intro b k h
    rw [he] at h; split at h
    · rename_i hb; subst hb; exact h
    · exact h
  refine ⟨⟨fun b => ?_, fun a b k ha hb => w.1.2 a b k (hn a k ha) (hn b k hb)⟩, fun b d => ?_⟩
  · rw [he]; split
    · rcases hts with rfl | rfl <;> simp_all [SteerEntry.Legal]
    · exact w.1.1 b
  · rw [he]
    by_cases hd : c = d
    · subst hd
      rw [hx]
      split
      · simp
      · rename_i hb
        simp only [Bool.false_eq_true, false_and, iff_false]
        intro h; exact hb ((w.2 b c).1 h).2
    · rw [(hc d hd).1, (hc d hd).2]
      split
      · rename_i hb
        subst hb
        simp only [reduceCtorEq, false_iff]
        intro h
        have := (w.2 _ d).2 h
        rw [hbnd.1] at this
        exact hd (Option.some.inj this)
      · exact w.2 b d

theorem steer_freeStagingOf (fs : List Flight) : (s.freeStagingOf fs).steer = s.steer ∧ (s.freeStagingOf fs).ctxs = s.ctxs := by
  unfold State.freeStagingOf
  induction fs generalizing s with
  | nil => exact ⟨rfl, rfl⟩
  | cons f fs ih => exact ih _

/-- The contexts after a release: the one released, in its state and on its board as before. -/
theorem ctx_release (c d : CtxId) : (s.release c).ctx d = if c = d then (s.ctx c).released else s.ctx d := by
  have hf := (steer_freeStagingOf s (s.ctx c).flights).2
  have h1 : (s.release c).ctxs = s.ctxs.set c (s.ctx c).released := by
    have h2 : ∀ u : State, (u.releaseStale c).ctxs = u.ctxs := fun u => by
      unfold State.releaseStale; dsimp only; split <;> rfl
    simp only [State.release, State.disown, h2, State.modCtx, State.setCtx, State.orphan, State.ctx]
    simp only [State.ctx] at hf
    simp only [hf]
  simp only [State.ctx, h1, Fin.getElem_fin, Vector.getElem_set, Fin.val_inj]

/-- The steering table after a release. -/
theorem entry_release (c : CtxId) (b : BoardId) : (s.release c).entry b = (s.releaseStale c).entry b := by
  have hf := steer_freeStagingOf s (s.ctx c).flights
  have hc : ∀ u : State, u.steer = s.steer → (u.ctx c).board = (s.ctx c).board → (u.releaseStale c).entry b = (s.releaseStale c).entry b := by
    intro u hs hb
    have he : ∀ a, u.entry a = s.entry a := fun a => by simp only [State.entry, hs]
    unfold State.releaseStale; simp only [hb, he]
    split
    · simp only [entry_setEntry, he]
    · exact he b
  refine hc (((s.freeStagingOf (s.ctx c).flights).orphan c).modCtx c Ctx.released) hf.1 ?_
  rw [modCtx_eq, ctx_setCtx_same]
  have h2 := hf.2
  simp only [State.ctx] at h2
  simp only [Ctx.released, State.orphan, State.ctx, h2]

variable {s} in
/-- The entry of a live context after the release to STALE. -/
theorem entry_releaseStale (w : s.Wired) (c : CtxId) (hl : (s.ctx c).state.isLive = true) (b : BoardId) :
    (s.releaseStale c).entry b = if (s.ctx c).board = b then
      { s.entry (s.ctx c).board with twinState := .stale, bound := none } else s.entry b := by
  have h := w.bound_of_live hl
  unfold State.releaseStale
  rw [if_pos ⟨h.2, h.1⟩, entry_setEntry]

variable {s} in
theorem entry_releaseTwinned (w : s.Wired) (c : CtxId) (hl : (s.ctx c).state.isLive = true) (b : BoardId) :
    (s.releaseTwinned c).entry b = if (s.ctx c).board = b then
      { s.entry (s.ctx c).board with twinState := .twinned, bound := none } else s.entry b := by
  have h := w.bound_of_live hl
  unfold State.releaseTwinned
  rw [if_pos ⟨h.2, h.1⟩, entry_setEntry]

variable {s} in
/-- A release does nothing to the wiring of a context that is not live. -/
theorem entry_releaseStale_dead (w : s.Wired) (c : CtxId) (hl : (s.ctx c).state.isLive = false) :
    s.releaseStale c = s := by
  unfold State.releaseStale; dsimp only
  rw [if_neg]
  intro h
  have := ((w.2 _ c).1 h.2).1
  rw [hl] at this; cases this

variable {s} in
/-- Release and end of a context, live or not: the wiring holds in any state with its tables. -/
theorem wired_release_end (w : s.Wired) (c : CtxId) (x : Ctx) (hx : x.state.isLive = false) {t : State}
    (hs : t.steer = (s.release c).steer) (hc : ∀ d, t.ctx d = if c = d then x else s.ctx d) : t.Wired := by
  have he : ∀ b, t.entry b = (s.releaseStale c).entry b := fun b => by
    rw [← entry_release]; simp only [State.entry, hs]
  by_cases hl : (s.ctx c).state.isLive = true
  · refine wired_ended w c hl .stale (.inl rfl) (fun b => by rw [he, entry_releaseStale w c hl]) (fun d hd => ?_) ?_
    · rw [hc, if_neg hd]; exact ⟨rfl, rfl⟩
    · rw [hc, if_pos rfl]; exact hx
  · have hl' : (s.ctx c).state.isLive = false := by simpa using hl
    have hn : ∀ b d, (t.entry b).bound = some d ↔ (s.entry b).bound = some d := fun b d => by
      rw [he, entry_releaseStale_dead w c hl']
    refine ⟨⟨fun b => ?_, fun a b k => ?_⟩, fun b d => ?_⟩
    · rw [he, entry_releaseStale_dead w c hl']; exact w.1.1 b
    · rw [he, he, entry_releaseStale_dead w c hl']; exact w.1.2 a b k
    · rw [hn, w.2 b d, hc]; split
      · rename_i hd; subst hd; simp [hl', hx]
      · rfl

variable {s} in
theorem wired_sendDeferred (w : s.Wired) (c : CtxId) (st : ReplyStatus) (ws : List Word) : (s.sendDeferred c st ws).Wired := by
  unfold State.sendDeferred; split
  · exact w
  · exact wired_of_tables (wired_setCtx w c { s.ctx c with deferred := none } rfl rfl) rfl rfl

variable {s} in
theorem wired_failCtx (w : s.Wired) (c : CtxId) (r : FailReason) : (s.failCtx c r).Wired := by
  unfold State.failCtx; split
  · refine wired_raise (wired_sendDeferred ?_ c _ _) _ _
    refine wired_release_end w c (Ctx.fail r (s.ctx c).released) rfl rfl (fun d => ?_)
    rw [modCtx_eq, ctx_setCtx]; split
    · rename_i h; subst h; rw [ctx_release, if_pos rfl]
    · rename_i h; rw [ctx_release, if_neg h]
  · exact w

/-! ### The states of a live context (R86, R111, R112, R150, R158) -/

variable {s} in
theorem wired_enterCutting (w : s.Wired) (c : CtxId) (hl : (s.ctx c).state.isLive = true) : (s.enterCutting c).Wired := by
  have h : (s.modCtx c Ctx.cut).Wired := wired_setCtx w c (s.ctx c).cut (by rw [hl]; rfl) rfl
  unfold State.enterCutting; dsimp only; split
  · exact h
  · exact wired_failCtx h c _

theorem ctx_trySend (k : NoticeKind) (d : CtxId) : (s.trySend k).ctx d = s.ctx d := by
  unfold State.trySend; split <;> rfl
theorem ctx_raise (k : NoticeKind) (v : BitVec 8) (d : CtxId) : (s.raise k v).ctx d = s.ctx d := by
  unfold State.raise; rw [ctx_trySend]; rfl

variable {s} in
theorem wired_autoCutover (w : s.Wired) (c : CtxId) (hl : (s.ctx c).state.isLive = true) : (s.autoCutover c).Wired := by
  unfold State.autoCutover
  repeat' split
  all_goals first | exact w | exact wired_enterCutting w c hl | exact wired_raise w _ _

variable {s} in
theorem wired_testSynced (w : s.Wired) (c : CtxId) : (s.testSynced c).Wired := by
  unfold State.testSynced; split
  · rename_i h
    have hw : (s.ctx c).state = .walking := by
      simp only [Ctx.syncDue, Bool.and_eq_true, beq_iff_eq] at h; exact h.1.1.1
    refine wired_autoCutover (wired_raise (wired_setCtx w c { s.ctx c with state := .synced } (by rw [hw]; rfl) rfl) _ _) c ?_
    rw [ctx_raise]; simp [CtxState.isLive]
  · exact w

variable {s} in
theorem wired_primaryLoss (w : s.Wired) (b : BoardId) : (s.primaryLoss b).Wired := by
  have hleg := w.1.1 b
  unfold State.primaryLoss; dsimp only
  split
  · rename_i p t hts hp ht
    have hbn : (s.entry b).bound = none := by
      cases h : (s.entry b).bound with
      | none => rfl
      | some c => have := hleg.2.2.1.1 (by rw [h]; rfl); rw [hts] at this; cases this
    split
    · split
      · refine wired_raise ?_ _ _
        refine wired_setEntry w b _ ?_ ?_ ?_
        · simp_all [SteerEntry.Legal, SteerEntry.swapped]; exact fun h => hleg h.symm
        · intro k hk; simpa [SteerEntry.Names, SteerEntry.swapped, or_comm] using hk
        · rfl
      · exact w
    · refine wired_raise ?_ _ _
      refine wired_setEntry w b _ ?_ (fun k hk => hk) ?_
      · simp_all [SteerEntry.Legal]
      · rfl
  · exact w

variable {s} in
theorem wired_twinLoss (w : s.Wired) (b : BoardId) (k : SlotId) : (s.twinLoss b k).Wired := by
  have hleg := w.1.1 b
  unfold State.twinLoss; split
  · rename_i h
    refine wired_raise ?_ _ _
    refine wired_setEntry w b _ ?_ (fun k hk => hk) ?_
    · simp_all [SteerEntry.Legal]
    · rfl
  · exact w

variable {s} in
theorem wired_steeringLeft (w : s.Wired) (k : SlotId) : (s.steeringLeft k).Wired := by
  unfold State.steeringLeft; split
  · exact w
  · split
    · exact wired_primaryLoss w _
    · exact wired_twinLoss w _ _

variable {s} in
theorem wired_primaryCheck (w : s.Wired) (b : BoardId) : (s.primaryCheck b).Wired := by
  unfold State.primaryCheck; split
  · split
    · exact w
    · exact wired_primaryLoss w b
  · exact w

variable {s} in
theorem wired_cutoverDone (w : s.Wired) (c : CtxId) : (s.cutoverDone c).Wired := by
  unfold State.cutoverDone; split
  · rename_i h
    have hl : (s.ctx c).state.isLive = true := by rw [h]; rfl
    refine wired_primaryCheck (wired_raise (wired_sendDeferred ?_ c _ _) _ _) _
    have hc : ∀ d, (((s.releaseTwinned c).disown c).modCtx c Ctx.complete).ctx d =
        if c = d then (s.ctx c).complete else s.ctx d := by
      intro d
      have h2 : ∀ d, ((s.releaseTwinned c).disown c).ctx d = s.ctx d := fun d => by
        unfold State.releaseTwinned; dsimp only; split <;> rfl
      rw [modCtx_eq, ctx_setCtx, h2, h2]
    refine wired_ended w c hl .twinned (.inr rfl) (fun b => ?_) (fun d hd => ?_) ?_
    · exact entry_releaseTwinned w c hl b
    · rw [hc, if_neg hd]; exact ⟨rfl, rfl⟩
    · rw [hc, if_pos rfl]; rfl
  · exact w

variable {s} in
theorem wired_sourceGone (w : s.Wired) (c : CtxId) (hl : (s.ctx c).state.isLive = true) : (s.sourceGone c).Wired := by
  unfold State.sourceGone; split
  · exact wired_enterCutting w c hl
  · exact wired_failCtx w c _

variable {s} in
theorem wired_ctxLeft (w : s.Wired) (k : SlotId) (c : CtxId) : (State.ctxLeft k s c).Wired := by
  unfold State.ctxLeft; dsimp only
  split
  · exact w
  · exact w
  all_goals (repeat' split)
  all_goals first | exact w | exact wired_failCtx w c _ | (rename_i h _; exact wired_sourceGone w c (by rw [h]; rfl))

variable {s} in
theorem wired_engineLeft (w : s.Wired) (k : SlotId) : (s.engineLeft k).Wired :=
  wired_foldl _ (fun _ c w => wired_ctxLeft w k c) _ w

variable {s} in
theorem wired_engineEntered (w : s.Wired) (k : SlotId) : (s.engineEntered k).Wired := by
  have h : s.SameWiring (s.engineEntered k) := ⟨rfl, fun c => ?_⟩
  · exact h.wired w
  have hc : (s.engineEntered k).ctx c = (s.ctx c).dstReady k := by simp [State.ctx, State.engineEntered]
  rw [hc, Ctx.dstReady]; split
  · rename_i h; rw [h.1]; exact ⟨rfl, rfl⟩
  · exact ⟨rfl, rfl⟩

variable {s} in
theorem wired_entryLost (w : s.Wired) (c : CtxId) (r : FailReason) : (s.entryLost c r).Wired := by
  unfold State.entryLost; split <;> first | exact wired_failCtx w c r | exact w

variable {s} in
theorem wired_cutoverLost (w : s.Wired) (c : CtxId) : (s.cutoverLost c).Wired := by
  unfold State.cutoverLost; split
  · exact wired_failCtx w c _
  · exact w

variable {s} in
theorem wired_refuseClaims (w : s.Wired) (k : SlotId) (c : CtxId) : (State.refuseClaims k s c).Wired := by
  have h : (s.modCtx c (fun x => { x with flights := x.flights.map (fun f => { f with claim := false }) })).Wired :=
    wired_setCtx w c _ rfl rfl
  unfold State.refuseClaims; split
  · dsimp only; split
    · refine wired_failCtx ?_ c _
      exact wired_setCtx h c _ (by rfl) (by rfl)
    · exact h
  · exact w

end Sys2Proof.Machine
end

