-- ==== Sys2Proof/Laws/Slots.lean ====
section
/-! SUPPORT. What the slot ports' shared operations do: closing entries, leaving READY, entering DOWN and HALTED. -/

namespace Sys2Proof.Machine

/-- Quiet for every slot port but one. -/
structure State.QuietBut (k : SlotId) (s t : State) : Prop extends s.Steady t where
  slot : ∀ j, k ≠ j → (s.slot j).Same (t.slot j)

/-- A slot port on the way out of READY: only its pending table moved, and no entry came into use. -/
structure SlotPort.Closing (p q : SlotPort) : Prop where
  frame : q = { p with pend := q.pend, sentOrder := q.sentOrder }
  free : ∀ i : PendIdx, p.pend[i] = none → q.pend[i] = none

theorem SlotPort.Closing.refl (p : SlotPort) : p.Closing p := ⟨rfl, fun _ h => h⟩

theorem SlotPort.Closing.trans {p q r : SlotPort} (h : p.Closing q) (g : q.Closing r) : p.Closing r :=
  ⟨by rw [g.frame, h.frame], fun i hi => g.free i (h.free i hi)⟩

theorem SlotPort.Same.closing {p q : SlotPort} (h : p.Same q) : p.Closing q :=
  ⟨by rw [h.frame], fun _ hi => h.free hi⟩

theorem State.Quiet.but {s t : State} (h : s.Quiet t) (k : SlotId) : State.QuietBut k s t := ⟨h.toSteady, fun j _ => h.slot j⟩

theorem State.QuietBut.refl (k : SlotId) (s : State) : State.QuietBut k s s := (State.Quiet.refl s).but k

theorem State.QuietBut.trans {k : SlotId} {s t u : State} (h : State.QuietBut k s t) (g : State.QuietBut k t u) :
    State.QuietBut k s u := ⟨h.toSteady.trans g.toSteady, fun j hj => (h.slot j hj).trans (g.slot j hj)⟩

variable (s : State)

theorem quietBut_setSlot (k : SlotId) (p : SlotPort) : State.QuietBut k s (s.setSlot k p) :=
  ⟨.of_rest rfl, fun j hj => by rw [slot_setSlot, if_neg hj]; exact .refl _⟩

theorem quietBut_modSlot (k : SlotId) (f : SlotPort → SlotPort) : State.QuietBut k s (s.modSlot k f) := quietBut_setSlot s k _

theorem quietBut_setSpareMap (k j : SlotId) (m : List SpareRec) : State.QuietBut k s (s.setSpareMap j m) :=
  (quiet_setSpareMap s j m).but k

/-! ### Closing pending entries (R20, R37) -/

theorem SlotPort.freeEntry_closing (p : SlotPort) (i : PendIdx) : p.Closing (p.freeEntry i) ∧ (p.freeEntry i).pend[i] = none := by
  refine ⟨⟨rfl, fun j hj => ?_⟩, ?_⟩
  · simp only [SlotPort.freeEntry, Fin.getElem_fin, Vector.getElem_set]
    split
    · rfl
    · exact hj
  · simp [SlotPort.freeEntry]

theorem quietBut_freePend (k : SlotId) (i : PendIdx) : State.QuietBut k s (s.freePend k i) := quietBut_modSlot s k _

/-- Closing one entry: other slots quiet, the entry FREE. -/
theorem closeEntry_spec (k : SlotId) (i : PendIdx) :
    State.QuietBut k s (State.closeEntry k s i) ∧ (s.slot k).Closing ((State.closeEntry k s i).slot k) ∧
      ((State.closeEntry k s i).slot k).pend[i] = none := by
  unfold State.closeEntry
  split
  · rename_i h; exact ⟨.refl k s, .refl _, h⟩
  · rename_i e _
    have hq := quiet_deliverLoss (s.freePend k i) e.origin e.count
    have hf := SlotPort.freeEntry_closing (s.slot k) i
    have hs : (s.freePend k i).slot k = (s.slot k).freeEntry i := by simp [State.freePend]
    refine ⟨(quietBut_freePend s k i).trans (hq.but k), ?_, ?_⟩
    · exact (hs ▸ hf.1).trans (hq.slot k).closing
    · exact (hq.slot k).free (hs ▸ hf.2)

theorem closeEntries_spec (k : SlotId) (l : List PendIdx) :
    State.QuietBut k s (l.foldl (State.closeEntry k) s) ∧ (s.slot k).Closing ((l.foldl (State.closeEntry k) s).slot k) ∧
      ∀ i ∈ l, ((l.foldl (State.closeEntry k) s).slot k).pend[i] = none := by
  induction l generalizing s with
  | nil => exact ⟨.refl k s, .refl _, by simp⟩
  | cons a l ih =>
    obtain ⟨h1, h2, h3⟩ := closeEntry_spec s k a
    obtain ⟨g1, g2, g3⟩ := ih (State.closeEntry k s a)
    refine ⟨h1.trans g1, h2.trans g2, fun i hi => ?_⟩
    rcases List.mem_cons.1 hi with rfl | hi
    · exact g2.free _ h3
    · exact g3 i hi

/-! ### Leaving READY (R37, R38) -/

/-- After leaving READY: the slot in its new state with an empty queue and no credit, the entries of the closing order
FREE and none in use that was not; every other slot quiet. -/
theorem leaveReady_spec (k : SlotId) (st : SlotState) :
    State.QuietBut k s (s.leaveReady k st) ∧
      ((s.leaveReady k st).slot k) = { s.slot k with
        state := st, queue := [], credits := 0, pend := ((s.leaveReady k st).slot k).pend
        sentOrder := ((s.leaveReady k st).slot k).sentOrder } ∧
      ∀ i : PendIdx, ((s.slot k).pend[i] = none ∨ i ∈ (s.slot k).closeOrder) →
        ((s.leaveReady k st).slot k).pend[i] = none := by
  unfold State.leaveReady
  dsimp only
  generalize hord : (s.slot k).closeOrder = order
  generalize ha : s.modSlot k (fun p => { p with state := st, queue := [] }) = a
  generalize hb : order.foldl (State.closeEntry k) a = b
  generalize hc : b.modSlot k (fun p => { p with credits := 0 }) = c
  have h2 := hb ▸ closeEntries_spec a k order
  have h4 : c.Quiet (((allCtxs.foldl (State.refuseClaims k) c).steeringLeft k).engineLeft k) :=
    ((State.Quiet.foldl _ (fun s c => quiet_refuseClaims s k c) allCtxs c).trans (quiet_steeringLeft _ k)).trans
      (quiet_engineLeft _ k)
  generalize ((allCtxs.foldl (State.refuseClaims k) c).steeringLeft k).engineLeft k = d at h4 ⊢
  have h1 : State.QuietBut k s a := ha ▸ quietBut_modSlot s k _
  have h3 : State.QuietBut k b c := hc ▸ quietBut_modSlot b k _
  have ea : a.slot k = { s.slot k with state := st, queue := [] } := by simp [← ha]
  have ec : c.slot k = { b.slot k with credits := 0 } := by simp [← hc]
  refine ⟨((h1.trans h2.1).trans h3).trans (h4.but k), ?_, fun i hi => ?_⟩
  · have := h2.2.1.frame
    rw [(h4.slot k).frame, ec, this, ea]
  · refine (h4.slot k).free ?_
    rw [ec]
    show (b.slot k).pend[i] = none
    rcases hi with hi | hi
    · refine h2.2.1.free i ?_
      rw [ea]; exact hi
    · exact h2.2.2 i hi

/-- Leaving a state for a new one, READY or not. -/
theorem depart_spec (k : SlotId) (st : SlotState) :
    State.QuietBut k s (s.depart k st) ∧ ((s.depart k st).slot k).state = st ∧
      (s.slot k).helloTimer = ((s.depart k st).slot k).helloTimer ∧
      ((s.depart k st).slot k).presence = (s.slot k).presence ∧
      ((s.depart k st).slot k).counters = (s.slot k).counters ∧
      ((s.slot k).Bounded → ((s.depart k st).slot k).Bounded) ∧
      (s.isReady k = false → (s.depart k st) = s.setSlot k { s.slot k with state := st }) := by
  unfold State.depart
  by_cases h : s.isReady k = true
  · obtain ⟨h1, h2, h3⟩ := leaveReady_spec s k st
    rw [if_pos h, h2]
    exact ⟨h1, rfl, rfl, rfl, rfl, fun _ => ⟨Nat.zero_le _, Nat.zero_le _⟩, fun hn => absurd h (by simp [hn])⟩
  · rw [if_neg h]
    simp only [modSlot_eq, slot_setSlot_same]
    exact ⟨quietBut_setSlot s k _, trivial, trivial, trivial, trivial, id, fun _ => trivial⟩

/-- After going to DOWN from another state: DOWN with the values of R27, an empty spare map, the other slots quiet. -/
theorem goDown_spec (k : SlotId) (h : (s.slot k).state ≠ .down) :
    State.QuietBut k s (s.goDown k) ∧
      ((s.goDown k).slot k) = { s.slot k with
        state := .down, credits := 0, helloTimer := none, settleTimer := none, arrival := none, helloFailures := 0
        halt := none, queue := ((s.goDown k).slot k).queue, pend := ((s.goDown k).slot k).pend
        sentOrder := ((s.goDown k).slot k).sentOrder } ∧
      (s.isReady k = true → ((s.goDown k).slot k).queue = [] ∧
        ∀ i : PendIdx, ((s.slot k).pend[i] = none ∨ i ∈ (s.slot k).closeOrder) → ((s.goDown k).slot k).pend[i] = none) := by
  have hd : s.goDown k = (((s.depart k .down).enterDown k).raise .slotDown (detailOf k)) := by
    unfold State.goDown; rw [if_neg h]
  have hr := quiet_raise ((s.depart k .down).enterDown k) .slotDown (detailOf k)
  rw [← hd] at hr
  have he : ((s.depart k .down).enterDown k).slot k = ((s.depart k .down).slot k).toDown := by simp [State.enterDown]
  have hq : State.QuietBut k (s.depart k .down) ((s.depart k .down).enterDown k) :=
    (quietBut_modSlot _ k _).trans (quietBut_setSpareMap _ k k _)
  have hb := (depart_spec s k .down).1.trans hq
  generalize s.goDown k = t at hr ⊢
  have ht := hr.slot k
  rw [he] at ht
  generalize t.slot k = q at ht ⊢
  by_cases hrd : s.isReady k = true
  · have hdep : s.depart k .down = s.leaveReady k .down := by unfold State.depart; rw [if_pos hrd]
    obtain ⟨-, h2, h3⟩ := leaveReady_spec s k .down
    rw [hdep] at ht
    generalize (s.leaveReady k .down).slot k = p at ht h2 h3
    have hf := ht.frame
    refine ⟨hb.trans (hr.but k), ?_, fun _ => ⟨?_, fun i hi => ht.free (h3 i hi)⟩⟩
    · rw [h2] at hf; rw [hf]; rfl
    · rw [hf, h2]; rfl
  · have hdep := (depart_spec s k .down).2.2.2.2.2.2 (by simpa using hrd)
    rw [hdep, slot_setSlot_same] at ht
    refine ⟨hb.trans (hr.but k), ?_, fun h => absurd h hrd⟩
    rw [ht.frame]; rfl

/-- After going to HALTED: HALTED with the halt record, the settle timer stopped, the other slots quiet. -/
theorem goHalted_spec (k : SlotId) (source : HaltSource) (reason : BitVec 8) :
    State.QuietBut k s (s.goHalted k source reason) ∧
      ((s.goHalted k source reason).slot k).state = .halted ∧
      ((s.goHalted k source reason).slot k).halt = some ⟨source, reason⟩ ∧
      ((s.goHalted k source reason).slot k).settleTimer = none ∧
      ((s.goHalted k source reason).slot k).counters = (s.slot k).counters ∧
      ((s.slot k).Bounded → ((s.goHalted k source reason).slot k).Bounded) := by
  unfold State.goHalted
  generalize ha : (s.depart k .halted).modSlot k (fun p => { p with settleTimer := none, halt := some ⟨source, reason⟩ }) = a
  have hr := quiet_raise a .slotHalted (detailOf k)
  generalize a.raise .slotHalted (detailOf k) = t at hr ⊢
  have ht := (hr.slot k).frame
  obtain ⟨h1, h2, -, -, h4, h5, -⟩ := depart_spec s k .halted
  have ea : a.slot k = { (s.depart k .halted).slot k with settleTimer := none, halt := some ⟨source, reason⟩ } := by
    simp [← ha]
  have hq : State.QuietBut k (s.depart k .halted) a := ha ▸ quietBut_modSlot _ k _
  rw [ea] at ht
  refine ⟨(h1.trans hq).trans (hr.but k), ?_, ?_, ?_, ?_, fun hb => ?_⟩ <;> rw [ht]
  · exact h2
  · exact h4
  · exact h5 hb

/-! ### Invariants (R6, R13, R14) -/

variable {s} in
/-- Credits are conserved by every operation behind the agent's side (R6). -/
theorem State.Inner.credits {t : State} (h : s.Inner t) (hs : s.CreditsConserved) : t.CreditsConserved := by
  unfold State.CreditsConserved at *
  rw [h.startup, h.agentCredits, h.intake]; exact hs

variable {s} in
theorem State.Quiet.bounded {t : State} (h : s.Quiet t) (hs : s.SlotsBounded) : t.SlotsBounded := fun k => by
  have := hs k
  unfold SlotPort.Bounded at *
  rw [(h.slot k).credits, (h.slot k).queue]; exact this

variable {s} in
theorem State.QuietBut.bounded {t : State} {k : SlotId} (h : State.QuietBut k s t) (hs : s.SlotsBounded)
    (hk : (t.slot k).Bounded) : t.SlotsBounded := fun j => by
  by_cases hj : k = j
  · subst hj; exact hk
  · have := hs j
    unfold SlotPort.Bounded at *
    rw [(h.slot j hj).credits, (h.slot j hj).queue]; exact this

variable {s} in
theorem bounded_setSlot (hs : s.SlotsBounded) (k : SlotId) (p : SlotPort) (hp : p.Bounded) : (s.setSlot k p).SlotsBounded :=
  (quietBut_setSlot s k p).bounded hs (by rw [slot_setSlot_same]; exact hp)

variable {s} in
theorem bounded_goDown (hs : s.SlotsBounded) (k : SlotId) : (s.goDown k).SlotsBounded := by
  by_cases h : (s.slot k).state = .down
  · unfold State.goDown; rw [if_pos h]; exact hs
  · obtain ⟨h1, h2, h3⟩ := goDown_spec s k h
    refine h1.bounded hs ?_
    unfold SlotPort.Bounded
    refine ⟨by rw [h2]; exact Nat.zero_le _, ?_⟩
    by_cases hr : s.isReady k = true
    · rw [(h3 hr).1]; exact Nat.zero_le _
    · have hd : s.goDown k = (((s.depart k .down).enterDown k).raise .slotDown (detailOf k)) := by
        unfold State.goDown; rw [if_neg h]
      have hq := quiet_raise ((s.depart k .down).enterDown k) .slotDown (detailOf k)
      rw [hd, (hq.slot k).queue]
      have hn := (depart_spec s k .down).2.2.2.2.2.2 (by simpa using hr)
      simp only [State.enterDown, hn, modSlot_eq, slot_setSpareMap, slot_setSlot_same]
      exact (hs k).2

variable {s} in
theorem bounded_goHalted (hs : s.SlotsBounded) (k : SlotId) (source : HaltSource) (reason : BitVec 8) :
    (s.goHalted k source reason).SlotsBounded :=
  (goHalted_spec s k source reason).1.bounded hs ((goHalted_spec s k source reason).2.2.2.2.2 (hs k))

/-! ### The wiring (R42, R47) -/

variable {s} in
theorem wired_walkReturn (w : s.Wired) (c : CtxId) (n : FlightNum) (st : BitVec 4) (d : List Word) :
    (s.walkReturn c n st d).Wired := by
  have hstage : ∀ {u : State} (f : Flight), u.Wired → (u.stage c f).Wired := fun f h => wired_setCtx h c _ rfl rfl
  have hset : ∀ {u : State} (g : StagingId) (x : Option (List Word)), u.Wired → (u.setStaging g x).Wired :=
    fun g x h => wired_of_tables h rfl rfl
  unfold State.walkReturn
  split
  · exact w
  split
  · exact w
  split
  · exact hstage _ (hset _ _ w)
  split
  · exact hstage _ (wired_setCtx (hset _ _ w) c _ (by rfl) (by rfl))
  split
  · unfold State.unreadable
    split
    · exact wired_failCtx w c _
    · split
      · exact w
      · refine hstage _ (hset _ _ ?_)
        unfold State.addGap
        split
        · exact w
        · refine wired_raise ?_ _ _
          refine wired_setCtx ?_ c _ (by rfl) (by rfl)
          exact wired_of_tables w rfl rfl
  · exact wired_failCtx w c _

variable {s} in
theorem wired_leaveFlight (w : s.Wired) (c : CtxId) (f : Flight) : (s.leaveFlight c f).Wired := by
  refine wired_testSynced ?_ c
  refine wired_setCtx ?_ c _ (by rfl) (by rfl)
  exact wired_of_tables w rfl rfl

variable {s} in
theorem wired_mismatch (w : s.Wired) (c : CtxId) (f : Flight) : (s.mismatch c f).Wired := by
  unfold State.mismatch; dsimp only
  repeat' split
  all_goals first
    | exact w
    | exact wired_failCtx w c _
    | (refine wired_setCtx (wired_raise ?_ _ _) c _ (by rfl) (by rfl)
       refine wired_setCtx ?_ c _ (by rfl) (by rfl)
       exact wired_of_tables w rfl rfl)

variable {s} in
theorem wired_verifyReturn (w : s.Wired) (c : CtxId) (n : FlightNum) (st : BitVec 4) (d : List Word) :
    (s.verifyReturn c n st d).Wired := by
  unfold State.verifyReturn
  split
  · exact w
  split
  · exact w
  dsimp only
  have h : (s.modCtx c (fun x => { x with counters := x.counters.addVerify })).Wired :=
    wired_setCtx w c _ (by rfl) (by rfl)
  generalize s.modCtx c (fun x => { x with counters := x.counters.addVerify }) = t at h ⊢
  split
  · split
    · exact wired_leaveFlight h c _
    · exact wired_mismatch h c _
  · split
    · exact wired_mismatch h c _
    · exact wired_failCtx h c _

variable {s} in
theorem wired_resolvePart (w : s.Wired) (n p : Nat) (r : PartResult) : (s.resolvePart n p r).Wired := by
  unfold State.resolvePart
  split
  · exact w
  · dsimp only; split <;> exact wired_of_tables w rfl rfl

variable {s} in
theorem wired_resolveFence (w : s.Wired) (n : Nat) (t : Bool) (o : PartOutcome) : (s.resolveFence n t o).Wired := by
  unfold State.resolveFence
  split
  · exact w
  · rename_i g _
    generalize (if t then { g with twin := o } else { g with primary := o } : FenceGroup) = g'
    dsimp only; split <;> exact wired_of_tables w rfl rfl

variable {s} in
theorem wired_deliverReturn (w : s.Wired) (o : Origin) (t : Txn) : (s.deliverReturn o t).Wired := by
  unfold State.deliverReturn; split
  · exact wired_of_tables w rfl rfl
  · exact wired_resolvePart w _ _ _
  · exact wired_walkReturn w _ _ _ _
  · exact wired_verifyReturn w _ _ _ _
  all_goals exact w

variable {s} in
theorem wired_deliverFence (w : s.Wired) (o : Origin) : (s.deliverFence o).Wired := by
  unfold State.deliverFence; split
  · exact wired_resolveFence w _ _ _
  · exact wired_cutoverDone w _
  all_goals exact w

variable {s} in
theorem wired_deliverLoss (w : s.Wired) (o : Origin) (n : Nat) : (s.deliverLoss o n).Wired := by
  unfold State.deliverLoss; split
  · exact wired_of_tables w rfl rfl
  · exact wired_resolvePart w _ _ _
  · exact wired_resolveFence w _ _ _
  · exact wired_entryLost w _ _
  · exact wired_entryLost w _ _
  · exact wired_cutoverLost w _
  · exact w

variable {s} in
theorem wired_setSlot (w : s.Wired) (k : SlotId) (p : SlotPort) : (s.setSlot k p).Wired := wired_of_tables w rfl rfl

variable {s} in
theorem wired_closeEntry (w : s.Wired) (k : SlotId) (i : PendIdx) : (State.closeEntry k s i).Wired := by
  unfold State.closeEntry; split
  · exact w
  · exact wired_deliverLoss (wired_setSlot w _ _) _ _

variable {s} in
theorem wired_leaveReady (w : s.Wired) (k : SlotId) (st : SlotState) : (s.leaveReady k st).Wired := by
  unfold State.leaveReady; dsimp only
  refine wired_engineLeft (wired_steeringLeft (wired_foldl _ (fun _ c w => wired_refuseClaims w k c) _ ?_) k) k
  exact wired_setSlot (wired_foldl _ (fun _ i w => wired_closeEntry w k i) _ (wired_setSlot w _ _)) _ _

variable {s} in
theorem wired_depart (w : s.Wired) (k : SlotId) (st : SlotState) : (s.depart k st).Wired := by
  unfold State.depart; split
  · exact wired_leaveReady w k st
  · exact wired_setSlot w _ _

variable {s} in
theorem wired_goDown (w : s.Wired) (k : SlotId) : (s.goDown k).Wired := by
  unfold State.goDown; split
  · exact w
  · refine wired_raise ?_ _ _
    exact wired_of_tables (wired_depart w k .down) rfl rfl

variable {s} in
theorem wired_goHalted (w : s.Wired) (k : SlotId) (source : HaltSource) (reason : BitVec 8) :
    (s.goHalted k source reason).Wired := wired_raise (wired_setSlot (wired_depart w k .halted) _ _) _ _

end Sys2Proof.Machine
end

