-- ==== Sys2Proof/Laws/Claims.lean ====
section
/-! SUPPORT. What a claim on a slot outbound queue does, and how the queue and the pending table agree (R14, R16). -/

namespace Sys2Proof.Machine

/-- A claim transaction in order: a FETCH or FENCE brings a QUEUED entry, a STORE or FILL none. -/
def ClaimTxn.Ok (c : ClaimTxn) : Prop :=
  ((c.txn.kind = .store ∨ c.txn.kind = .fill) ∧ c.pend = none) ∨
    ((c.txn.kind = .fetch ∨ c.txn.kind = .fence) ∧ ∃ e, c.pend = some e ∧ e.phase = .queued)

/-- The place of one transaction of a claim: at the tail, and nothing else but its pending entry moves. -/
theorem enqueue_spec {p q : SlotPort} {c : ClaimTxn} (h : p.enqueue c = some q) :
    p.queue.length < Config.slotQueueDepth ∧ q = { p with queue := q.queue, pend := q.pend } ∧
      ∃ x, q.queue = p.queue ++ [x] ∧ x.mark = c.mark ∧ x.txn = { c.txn with tag := x.txn.tag } := by
  unfold SlotPort.enqueue at h
  split at h
  · rename_i hl
    refine ⟨hl, ?_⟩
    split at h
    · cases h; exact ⟨rfl, ⟨c.txn, c.mark⟩, rfl, rfl, rfl⟩
    · split at h
      · cases h
      · cases h; exact ⟨rfl, _, rfl, rfl, rfl⟩
  · cases h

/-- A claim taken whole: as many transactions at the tail as it holds, and never beyond the queue's depth. -/
theorem enqueueAll_spec {p q : SlotPort} {cs : List ClaimTxn} (h : p.enqueueAll cs = some q) :
    q = { p with queue := q.queue, pend := q.pend } ∧
      (∃ l, q.queue = p.queue ++ l ∧ l.length = cs.length ∧ l.map (·.mark) = cs.map (·.mark)) ∧
      (p.Bounded → q.Bounded) := by
  induction cs generalizing p with
  | nil => cases h; exact ⟨rfl, ⟨[], by simp⟩, id⟩
  | cons c cs ih =>
    unfold SlotPort.enqueueAll at h
    split at h
    · cases h
    · rename_i r hr
      obtain ⟨h1, h2, x, h3, h4, -⟩ := enqueue_spec hr
      obtain ⟨g1, ⟨l, g2, g3, g4⟩, g5⟩ := ih h
      refine ⟨?_, ⟨x :: l, ?_, ?_, ?_⟩, fun hb => g5 ⟨?_, ?_⟩⟩
      · rw [g1, h2]
      · rw [g2, h3]; simp
      · simp [g3]
      · simp [g4, h4]
      · rw [h2]; exact hb.1
      · rw [h3]; simp only [List.length_append, List.length_cons, List.length_nil]; omega

/-- A claim of STOREs and FILLs fits exactly when there is room for all of them. -/
theorem enqueueAll_plain (p : SlotPort) (cs : List ClaimTxn) (hc : ∀ c ∈ cs, c.pend = none)
    (hl : p.queue.length + cs.length ≤ Config.slotQueueDepth) :
    p.enqueueAll cs = some { p with queue := p.queue ++ cs.map (fun c => ⟨c.txn, c.mark⟩) } := by
  induction cs generalizing p with
  | nil => simp [SlotPort.enqueueAll]
  | cons c cs ih =>
    have h0 : p.enqueue c = some { p with queue := p.queue ++ [⟨c.txn, c.mark⟩] } := by
      unfold SlotPort.enqueue
      rw [if_pos (by simp only [List.length_cons] at hl; omega), hc c (by simp)]
    unfold SlotPort.enqueueAll
    rw [h0]
    simp only
    rw [ih _ (fun d hd => hc d (by simp [hd])) (by simp only [List.length_append, List.length_cons, List.length_nil] at *; omega)]
    simp

/-- A claim of one FETCH or FENCE fits when there is room and an entry is FREE. -/
theorem enqueueAll_one (p : SlotPort) (c : ClaimTxn) (e : PendEntry) (i : PendIdx) (hc : c.pend = some e)
    (hi : p.freeEntry? = some i) (hl : p.queue.length < Config.slotQueueDepth) :
    p.enqueueAll [c] = some { p with
      queue := p.queue ++ [⟨{ c.txn with tag := BitVec.ofNat 8 i }, c.mark⟩]
      pend := p.pend.set i (some e) } := by
  simp only [SlotPort.enqueueAll, SlotPort.enqueue, if_pos hl, hc, hi]

variable (s : State)

variable {s} in
/-- What a claim that is taken does: the slot is READY, and its port alone changes. -/
theorem claim_spec {t : State} {k : SlotId} {cs : List ClaimTxn} (h : s.claim k cs = some t) :
    s.isReady k = true ∧ ∃ q, (s.slot k).enqueueAll cs = some q ∧ t = s.setSlot k q := by
  unfold State.claim at h
  split at h
  · rename_i hr
    split at h
    · cases h
    · rename_i p hp; cases h; exact ⟨hr, p, hp, rfl⟩
  · cases h

theorem claim_of_fits (k : SlotId) (cs : List ClaimTxn) (q : SlotPort) (hr : s.isReady k = true)
    (hq : (s.slot k).enqueueAll cs = some q) : s.claim k cs = some (s.setSlot k q) := by
  unfold State.claim; rw [if_pos hr, hq]

variable {s} in
theorem wired_claim {t : State} {k : SlotId} {cs : List ClaimTxn} (h : s.claim k cs = some t) (w : s.Wired) : t.Wired := by
  obtain ⟨-, q, -, rfl⟩ := claim_spec h; exact wired_setSlot w k q

variable {s} in
theorem bounded_claim {t : State} {k : SlotId} {cs : List ClaimTxn} (h : s.claim k cs = some t) (hs : s.SlotsBounded) :
    t.SlotsBounded := by
  obtain ⟨-, q, hq, rfl⟩ := claim_spec h
  exact bounded_setSlot hs k q ((enqueueAll_spec hq).2.2 (hs k))

variable {s} in
/-- What claims taken together change: slot ports, and of a port its queue and its pending table. -/
theorem claimAll_spec {t : State} {l : List (SlotId × List ClaimTxn)} (h : s.claimAll l = some t) :
    t = { s with slots := t.slots } ∧
      (∀ k, t.slot k = { s.slot k with queue := (t.slot k).queue, pend := (t.slot k).pend }) ∧
      (s.SlotsBounded → t.SlotsBounded) := by
  induction l generalizing s with
  | nil => cases h; exact ⟨rfl, fun _ => rfl, id⟩
  | cons x l ih =>
    obtain ⟨k, cs⟩ := x
    cases cs with
    | nil => exact ih h
    | cons c cs =>
      unfold State.claimAll at h
      split at h
      · cases h
      · rename_i u hu
        obtain ⟨h1, h2, h3⟩ := ih h
        have hb : s.SlotsBounded → u.SlotsBounded := bounded_claim hu
        obtain ⟨-, q, hq, rfl⟩ := claim_spec hu
        refine ⟨?_, fun j => ?_, fun hs => h3 (hb hs)⟩
        · rw [h1]; rfl
        · rw [h2 j, slot_setSlot]
          split
          · rename_i hj; subst hj; rw [(enqueueAll_spec hq).1]
          · rfl

/-! ### The queue and the pending table agree -/

theorem queuedEntries_append (a b : List QTxn) : queuedEntries (a ++ b) = queuedEntries a ++ queuedEntries b := by
  simp [queuedEntries]

theorem freeEntry?_spec {p : SlotPort} {i : PendIdx} (h : p.freeEntry? = some i) : p.pend[i] = none := by
  have := List.find?_some h
  simpa using this

theorem toIndex_tag (i : PendIdx) : toIndex 64 (BitVec.ofNat 8 i.val).toNat = some i := by
  have h : (BitVec.ofNat 8 i.val).toNat = i.val := by
    rw [BitVec.toNat_ofNat]; exact Nat.mod_eq_of_lt (by omega)
  rw [h]; unfold toIndex; rw [dif_pos i.isLt]

theorem agrees_enqueue {p q : SlotPort} {c : ClaimTxn} (ho : c.Ok) (h : p.enqueue c = some q) (hr : p.state = .ready)
    (ha : p.Agrees) : q.Agrees := by
  obtain ⟨a1, a2, a3, a4, a5, a6⟩ := ha
  unfold SlotPort.enqueue at h
  split at h
  · split at h
    · rename_i hp
      cases h
      have hk : c.txn.kind = .store ∨ c.txn.kind = .fill := by
        rcases ho with ⟨hk, -⟩ | ⟨-, e, he, -⟩
        · exact hk
        · rw [hp] at he; cases he
      have hn : queuedEntries (p.queue ++ [⟨c.txn, c.mark⟩]) = queuedEntries p.queue := by
        rw [queuedEntries_append]
        rcases hk with hk | hk <;> simp [queuedEntries, hk]
      refine ⟨fun x hx => ?_, a2, fun i => ?_, ?_, fun hn => absurd hr hn, a6⟩
      · rcases List.mem_append.1 hx with hx | hx
        · exact a1 x hx
        · rw [List.mem_singleton.1 hx]
          rcases hk with hk | hk
          · exact .inl hk
          · exact .inr (.inl hk)
      · simp only [hn]; exact a3 i
      · simp only [hn]; exact a4
    · rename_i e hp
      split at h
      · cases h
      · rename_i i hi
        cases h
        have hfree := freeEntry?_spec hi
        have hk : (c.txn.kind = .fetch ∨ c.txn.kind = .fence) ∧ e.phase = .queued := by
          rcases ho with ⟨-, hn⟩ | ⟨hk, e', he, hq⟩
          · rw [hn] at hp; cases hp
          · rw [hp] at he; cases he; exact ⟨hk, hq⟩
        have hn : queuedEntries (p.queue ++ [⟨{ c.txn with tag := BitVec.ofNat 8 i }, c.mark⟩]) = queuedEntries p.queue ++ [i] := by
          rw [queuedEntries_append]
          congr 1
          rcases hk.1 with hk | hk <;> simp only [queuedEntries, List.filterMap, hk, toIndex_tag]
        have hget : ∀ j : PendIdx, (p.pend.set i (some e))[j] = if i = j then some e else p.pend[j] := fun j => by
          simp only [Fin.getElem_fin, Vector.getElem_set, Fin.val_inj]
        have hni : i ∉ queuedEntries p.queue := fun hm => by
          have := (a3 i).1 hm; rw [hfree] at this; cases this
        refine ⟨fun x hx => ?_, fun j => ?_, fun j => ?_, ?_, fun hn => absurd hr hn, a6⟩
        · rcases List.mem_append.1 hx with hx | hx
          · exact a1 x hx
          · rw [List.mem_singleton.1 hx]
            refine .inr (.inr ⟨hk.1, ?_⟩)
            show (BitVec.ofNat 8 i.val).toNat < 64
            rw [BitVec.toNat_ofNat]; have := i.isLt; omega
        · show j ∈ p.sentOrder ↔ _
          rw [hget, a2 j]; split
          · rename_i hj; subst hj; simp [hfree, hk.2]
          · rfl
        · simp only [hn]
          rw [hget, List.mem_append, List.mem_singleton, a3 j]; split
          · rename_i hj; subst hj; simp [hk.2]
          · rename_i hj; simp [Ne.symm hj]
        · simp only [hn]
          exact List.nodup_append.2 ⟨a4, by simp, by
            intro a ha b hb hab
            rw [List.mem_singleton.1 hb] at hab; exact hni (hab ▸ ha)⟩
  · cases h

theorem agrees_enqueueAll {p q : SlotPort} {cs : List ClaimTxn} (ho : ∀ c ∈ cs, c.Ok) (h : p.enqueueAll cs = some q)
    (hr : p.state = .ready) (ha : p.Agrees) : q.Agrees := by
  induction cs generalizing p with
  | nil => cases h; exact ha
  | cons c cs ih =>
    unfold SlotPort.enqueueAll at h
    split at h
    · cases h
    · rename_i r hr'
      refine ih (fun d hd => ho d (by simp [hd])) h ?_ (agrees_enqueue (ho c (by simp)) hr' hr ha)
      rw [(enqueue_spec hr').2.1]; exact hr

variable {s} in
theorem agrees_setSlot (hs : s.SlotsAgree) (k : SlotId) (p : SlotPort) (hp : p.Agrees) : (s.setSlot k p).SlotsAgree :=
  fun j => by
    rw [slot_setSlot]; split
    · exact hp
    · exact hs j

variable {s} in
theorem agrees_claim {t : State} {k : SlotId} {cs : List ClaimTxn} (ho : ∀ c ∈ cs, c.Ok) (h : s.claim k cs = some t)
    (hs : s.SlotsAgree) : t.SlotsAgree := by
  obtain ⟨hr, q, hq, rfl⟩ := claim_spec h
  exact agrees_setSlot hs k q (agrees_enqueueAll ho hq (by simpa [State.isReady] using hr) (hs k))

variable {s} in
theorem agrees_claimAll {t : State} {l : List (SlotId × List ClaimTxn)} (ho : ∀ x ∈ l, ∀ c ∈ x.2, c.Ok)
    (h : s.claimAll l = some t) (hs : s.SlotsAgree) : t.SlotsAgree := by
  induction l generalizing s with
  | nil => cases h; exact hs
  | cons x l ih =>
    obtain ⟨k, cs⟩ := x
    have hl : ∀ y ∈ l, ∀ c ∈ y.2, c.Ok := fun y hy => ho y (by simp [hy])
    cases cs with
    | nil => exact ih hl h hs
    | cons c cs =>
      unfold State.claimAll at h
      split at h
      · cases h
      · rename_i u hu
        exact ih hl h (agrees_claim (ho (k, c :: cs) (by simp)) hu hs)

theorem SlotPort.Same.agrees {p q : SlotPort} (h : p.Same q) (ha : p.Agrees) : q.Agrees := by
  obtain ⟨a1, a2, a3, a4, a5, a6⟩ := ha
  have hf := h.frame
  refine ⟨?_, fun i => ?_, fun i => ?_, ?_, fun hn => ?_, ?_⟩
  · rw [h.queue]; exact a1
  · rw [h.phase i]; rw [hf]; exact a2 i
  · rw [h.phase i, h.queue]; exact a3 i
  · rw [h.queue]; exact a4
  · rw [h.queue]
    rw [h.state] at hn
    exact ⟨(a5 hn).1, fun i => h.free ((a5 hn).2 i)⟩
  · rw [h.state, h.credits]; exact a6

variable {s} in
theorem State.Quiet.agrees {t : State} (h : s.Quiet t) (hs : s.SlotsAgree) : t.SlotsAgree := fun k => (h.slot k).agrees (hs k)

variable {s} in
theorem State.QuietBut.agrees {t : State} {k : SlotId} (h : State.QuietBut k s t) (hs : s.SlotsAgree)
    (hk : (t.slot k).Agrees) : t.SlotsAgree := fun j => by
  by_cases hj : k = j
  · subst hj; exact hk
  · exact (h.slot j hj).agrees (hs j)

/-- Every entry in use is in the closing order. -/
theorem SlotPort.Agrees.closeOrder {p : SlotPort} (h : p.Agrees) (i : PendIdx) : p.pend[i] = none ∨ i ∈ p.closeOrder := by
  cases he : p.pend[i] with
  | none => exact .inl rfl
  | some e =>
    refine .inr (List.mem_append.2 ?_)
    cases hp : e.phase with
    | sent => exact .inl ((h.2.1 i).2 (by rw [he]; simp [hp]))
    | queued => exact .inr ((h.2.2.1 i).2 (by rw [he]; simp [hp]))

/-- A port with an empty queue, a free table and an empty send order agrees, with a credit only where it receives. -/
theorem agrees_empty (p : SlotPort) (hq : p.queue = []) (hp : ∀ i : PendIdx, p.pend[i] = none) (hs : p.sentOrder = [])
    (hc : p.state.receives = false → p.credits = 0) : p.Agrees := by
  refine ⟨by simp [hq], fun i => ?_, fun i => ?_, ?_, fun _ => ⟨hq, hp⟩, hc⟩
  · rw [hs, hp]; simp
  · rw [hq, hp]; simp [queuedEntries]
  · rw [hq]; simp [queuedEntries]

/-! ### Agreement through the slot ports' operations -/

/-- Only entries in use are in the send order. -/
def SlotPort.OrderUsed (p : SlotPort) : Prop := ∀ i ∈ p.sentOrder, p.pend[i] ≠ none

theorem SlotPort.Same.orderUsed {p q : SlotPort} (h : p.Same q) (ho : p.OrderUsed) : q.OrderUsed := by
  intro i hi
  rw [h.frame] at hi
  have hp := h.phase i
  intro hn
  rw [hn] at hp
  have := ho i hi
  cases hx : p.pend[i] with
  | none => exact this hx
  | some e => rw [hx] at hp; cases hp

theorem orderUsed_freeEntry {p : SlotPort} (ho : p.OrderUsed) (i : PendIdx) : (p.freeEntry i).OrderUsed := by
  intro j hj
  simp only [SlotPort.freeEntry, List.mem_filter, decide_eq_true_eq] at hj
  simp only [SlotPort.freeEntry, Fin.getElem_fin, Vector.getElem_set, Fin.val_inj, if_neg (Ne.symm hj.2)]
  exact ho j hj.1

theorem orderUsed_closeEntries (k : SlotId) (l : List PendIdx) (ho : (s.slot k).OrderUsed) :
    ((l.foldl (State.closeEntry k) s).slot k).OrderUsed := by
  induction l generalizing s with
  | nil => exact ho
  | cons i l ih =>
    refine ih (State.closeEntry k s i) ?_
    unfold State.closeEntry
    split
    · exact ho
    · rename_i e _
      refine ((quiet_deliverLoss (s.freePend k i) e.origin e.count).slot k).orderUsed ?_
      rw [show (s.freePend k i).slot k = (s.slot k).freeEntry i by simp [State.freePend]]
      exact orderUsed_freeEntry ho i

theorem SlotPort.Agrees.orderUsed {p : SlotPort} (h : p.Agrees) : p.OrderUsed := fun i hi hn => by
  have := (h.2.1 i).1 hi
  rw [hn] at this; cases this

/-- After leaving READY, a port that agreed has an empty queue, a free table, an empty send order and no credit. -/
theorem leaveReady_empties (k : SlotId) (st : SlotState) (ha : (s.slot k).Agrees) :
    ((s.leaveReady k st).slot k).queue = [] ∧ (∀ i : PendIdx, ((s.leaveReady k st).slot k).pend[i] = none) ∧
      ((s.leaveReady k st).slot k).sentOrder = [] ∧ ((s.leaveReady k st).slot k).credits = 0 ∧
      ((s.leaveReady k st).slot k).state = st := by
  obtain ⟨-, h2, h3⟩ := leaveReady_spec s k st
  have hfree : ∀ i : PendIdx, ((s.leaveReady k st).slot k).pend[i] = none := fun i => h3 i (ha.closeOrder i)
  have hord : ((s.leaveReady k st).slot k).OrderUsed := by
    unfold State.leaveReady
    dsimp only
    generalize hl : (s.slot k).closeOrder = l
    generalize hb : l.foldl (State.closeEntry k) (s.modSlot k (fun p => { p with state := st, queue := [] })) = b
    generalize hc : b.modSlot k (fun p => { p with credits := 0 }) = c
    have h4 : c.Quiet (((allCtxs.foldl (State.refuseClaims k) c).steeringLeft k).engineLeft k) :=
      ((State.Quiet.foldl _ (fun s c => quiet_refuseClaims s k c) allCtxs c).trans (quiet_steeringLeft _ k)).trans
        (quiet_engineLeft _ k)
    refine (h4.slot k).orderUsed ?_
    have : (b.slot k).OrderUsed := by
      rw [← hb]
      refine orderUsed_closeEntries _ k l ?_
      rw [modSlot_eq, slot_setSlot_same]; exact ha.orderUsed
    rw [← hc, modSlot_eq, slot_setSlot_same]; exact this
  refine ⟨by rw [h2], hfree, ?_, by rw [h2], by rw [h2]⟩
  exact List.eq_nil_iff_forall_not_mem.2 (fun i hi => hord i hi (hfree i))

/-- A port outside READY that agrees has an empty send order too. -/
theorem SlotPort.Agrees.noneSent {p : SlotPort} (h : p.Agrees) (hs : p.state ≠ .ready) : p.sentOrder = [] :=
  List.eq_nil_iff_forall_not_mem.2 (fun i hi => h.orderUsed i hi ((h.2.2.2.2.1 hs).2 i))

/-- Leaving a state for one that is not READY, from a port that agrees: nothing queued, nothing outstanding. -/
theorem depart_empties (k : SlotId) (st : SlotState) (ha : (s.slot k).Agrees) :
    ((s.depart k st).slot k).queue = [] ∧ (∀ i : PendIdx, ((s.depart k st).slot k).pend[i] = none) ∧
      ((s.depart k st).slot k).sentOrder = [] ∧ ((s.depart k st).slot k).state = st := by
  by_cases h : s.isReady k = true
  · have hd : s.depart k st = s.leaveReady k st := by unfold State.depart; rw [if_pos h]
    obtain ⟨h1, h2, h3, -, h5⟩ := leaveReady_empties s k st ha
    rw [hd]; exact ⟨h1, h2, h3, h5⟩
  · have hd := (depart_spec s k st).2.2.2.2.2.2 (by simpa using h)
    have hn : (s.slot k).state ≠ .ready := fun hr => h (by simp [State.isReady, hr])
    rw [hd, slot_setSlot_same]
    exact ⟨(ha.2.2.2.2.1 hn).1, (ha.2.2.2.2.1 hn).2, ha.noneSent hn, rfl⟩

variable {s} in
theorem agrees_goDown (hs : s.SlotsAgree) (k : SlotId) : (s.goDown k).SlotsAgree := by
  by_cases hd : (s.slot k).state = .down
  · unfold State.goDown; rw [if_pos hd]; exact hs
  · have hg : s.goDown k = (((s.depart k .down).enterDown k).raise .slotDown (detailOf k)) := by
      unfold State.goDown; rw [if_neg hd]
    rw [hg]
    refine (quiet_raise _ _ _).agrees ?_
    obtain ⟨h1, h2, h3, h4⟩ := depart_empties s k .down (hs k)
    have hq : State.QuietBut k s ((s.depart k .down).enterDown k) :=
      (depart_spec s k .down).1.trans ((quietBut_modSlot _ k _).trans (quietBut_setSpareMap _ k k _))
    refine hq.agrees hs ?_
    have he : ((s.depart k .down).enterDown k).slot k = ((s.depart k .down).slot k).toDown := by simp [State.enterDown]
    rw [he]
    exact agrees_empty _ h1 h2 h3 (fun _ => rfl)

variable {s} in
theorem agrees_goHalted (hs : s.SlotsAgree) (k : SlotId) (source : HaltSource) (reason : BitVec 8) :
    (s.goHalted k source reason).SlotsAgree := by
  unfold State.goHalted
  refine (quiet_raise _ _ _).agrees ?_
  obtain ⟨h1, h2, h3, h4⟩ := depart_empties s k .halted (hs k)
  refine ((depart_spec s k .halted).1.trans (quietBut_modSlot _ k _)).agrees hs ?_
  rw [modSlot_eq, slot_setSlot_same]
  exact agrees_empty _ h1 h2 h3 (fun h => by simp only [h4, SlotState.receives] at h; cases h)

/-- Freeing an entry that is SENT. -/
theorem agrees_freeEntry {p : SlotPort} (ha : p.Agrees) (i : PendIdx) (hi : p.pend[i].map (·.phase) = some .sent) :
    (p.freeEntry i).Agrees := by
  obtain ⟨a1, a2, a3, a4, a5, a6⟩ := ha
  have hget : ∀ j : PendIdx, (p.freeEntry i).pend[j] = if i = j then none else p.pend[j] := fun j => by
    simp only [SlotPort.freeEntry, Fin.getElem_fin, Vector.getElem_set, Fin.val_inj]
  refine ⟨a1, fun j => ?_, fun j => ?_, a4, fun hn => ⟨(a5 hn).1, fun j => ?_⟩, a6⟩
  · rw [hget]
    simp only [SlotPort.freeEntry, List.mem_filter, decide_eq_true_eq, a2 j]
    split
    · rename_i h; subst h; simp
    · rename_i h; simp [Ne.symm h]
  · rw [hget]
    show j ∈ queuedEntries p.queue ↔ _
    rw [a3 j]
    split
    · rename_i h; subst h; rw [hi]; simp
    · rfl
  · rw [hget]; split
    · rfl
    · exact (a5 hn).2 j

/-- Sending the head of the queue. -/
theorem agrees_sendHead {p : SlotPort} (ha : p.Agrees) (x : QTxn) (rest : List QTxn) (hq : p.queue = x :: rest)
    (hr : p.state = .ready) : (p.sendHead x rest).Agrees := by
  obtain ⟨a1, a2, a3, a4, a5, a6⟩ := ha
  rw [hq] at a1 a3 a4
  have hsplit : queuedEntries (x :: rest) = queuedEntries [x] ++ queuedEntries rest := queuedEntries_append [x] rest
  rw [hsplit] at a4
  simp only [hsplit, List.mem_append] at a3
  have hrest : ∀ y ∈ rest, _ := fun y hy => a1 y (List.mem_cons_of_mem _ hy)
  unfold SlotPort.sendHead
  dsimp only
  cases hqx : queuedEntries [x] with
  | nil =>
    rw [hqx] at a3 a4
    simp only [List.not_mem_nil, false_or] at a3
    exact ⟨hrest, a2, a3, a4, fun hn => absurd hr hn, fun hn => by simp [hr, SlotState.receives] at hn⟩
  | cons i l =>
    have hl : l = [] := by
      have : (queuedEntries [x]).length ≤ 1 := by
        simp only [queuedEntries, List.filterMap]; split <;> simp
      rw [hqx] at this
      simp only [List.length_cons] at this
      exact List.eq_nil_of_length_eq_zero (by omega)
    subst hl
    rw [hqx] at a3 a4
    have hi := (a3 i).1 (.inl (by simp))
    simp only [List.head?_cons]
    cases hp : p.pend[i] with
    | none => rw [hp] at hi; cases hi
    | some e =>
      rw [hp] at hi
      simp only [Option.map_some, Option.some.injEq] at hi
      dsimp only
      have hget : ∀ j : PendIdx, (p.pend.set i (some { e with phase := .sent }))[j] =
          if i = j then some { e with phase := .sent } else p.pend[j] := fun j => by
        simp only [Fin.getElem_fin, Vector.getElem_set, Fin.val_inj]
      have hni : i ∉ queuedEntries rest := by
        have := (List.nodup_append.1 a4).2.2 i (by simp)
        exact fun hm => this i hm rfl
      refine ⟨hrest, fun j => ?_, fun j => ?_, (List.nodup_append.1 a4).2.1, fun hn => absurd hr hn,
        fun hn => by simp [hr, SlotState.receives] at hn⟩
      · rw [hget, List.mem_append, List.mem_singleton, a2 j]
        split
        · rename_i h; subst h; simp [hp, hi]
        · rename_i h; simp [Ne.symm h]
      · rw [hget]
        have := a3 j
        simp only [List.mem_singleton] at this
        split
        · rename_i h; subst h; simp [hni]
        · rename_i h
          show j ∈ queuedEntries rest ↔ _
          rw [← this]; simp [Ne.symm h]

theorem freeEntries_spec (l : List PendIdx) (p : SlotPort) :
    (l.foldl SlotPort.freeEntry p) = { p with
      pend := (l.foldl SlotPort.freeEntry p).pend, sentOrder := (l.foldl SlotPort.freeEntry p).sentOrder } ∧
    (∀ j : PendIdx, (l.foldl SlotPort.freeEntry p).pend[j] = if j ∈ l then none else p.pend[j]) ∧
    ∀ j : PendIdx, j ∈ (l.foldl SlotPort.freeEntry p).sentOrder ↔ j ∈ p.sentOrder ∧ j ∉ l := by
  induction l generalizing p with
  | nil => exact ⟨rfl, fun j => by simp, fun j => by simp⟩
  | cons i l ih =>
    obtain ⟨h1, h2, h3⟩ := ih (p.freeEntry i)
    have hget : ∀ j : PendIdx, (p.freeEntry i).pend[j] = if i = j then none else p.pend[j] := fun j => by
      simp only [SlotPort.freeEntry, Fin.getElem_fin, Vector.getElem_set, Fin.val_inj]
    refine ⟨?_, fun j => ?_, fun j => ?_⟩
    · rw [List.foldl_cons, h1]; rfl
    · rw [List.foldl_cons, h2, hget]
      by_cases hj : j ∈ l
      · simp [hj]
      · by_cases hi : i = j
        · subst hi; simp
        · simp [hj, hi, Ne.symm hi]
    · rw [List.foldl_cons, h3]
      simp only [SlotPort.freeEntry, List.mem_filter, decide_eq_true_eq, List.mem_cons, not_or]
      exact ⟨fun h => ⟨h.1.1, h.1.2, h.2⟩, fun h => ⟨⟨h.1, h.2.1⟩, h.2.2⟩⟩

theorem queuedEntries_perm (q : List QTxn) (f : QTxn → Bool) :
    (queuedEntries q).Perm (queuedEntries (q.filter f) ++ queuedEntries (q.filter (fun x => !f x))) := by
  rw [← queuedEntries_append]
  exact (List.filter_append_perm f q).symm.filterMap _

/-- A soft reset takes the BRIDGE-GENERATED transactions out and frees their entries; the rest stands (R21, R41). -/
theorem softReset_spec (p : SlotPort) :
    p.softReset = { p with
      queue := p.queue.filter (fun x => x.mark != .bridgeGenerated), pend := p.softReset.pend
      sentOrder := p.softReset.sentOrder } := by
  unfold SlotPort.softReset
  dsimp only
  rw [(freeEntries_spec _ p).1]

theorem agrees_softReset {p : SlotPort} (ha : p.Agrees) : p.softReset.Agrees := by
  have hs := softReset_spec p
  obtain ⟨a1, a2, a3, a4, a5, a6⟩ := ha
  have hperm := queuedEntries_perm p.queue (fun x => x.mark == .bridgeGenerated)
  have hne : (fun x : QTxn => !(x.mark == .bridgeGenerated)) = (fun x => x.mark != .bridgeGenerated) := rfl
  rw [hne] at hperm
  have hnd := hperm.nodup_iff.1 a4
  rw [List.nodup_append] at hnd
  have hmem : ∀ j, j ∈ queuedEntries p.queue ↔ j ∈ queuedEntries (p.queue.filter (fun x => x.mark == .bridgeGenerated)) ∨
      j ∈ queuedEntries (p.queue.filter (fun x => x.mark != .bridgeGenerated)) := fun j => by
    rw [hperm.mem_iff, List.mem_append]
  obtain ⟨-, f2, f3⟩ := freeEntries_spec (queuedEntries (p.queue.filter (fun x => x.mark == .bridgeGenerated))) p
  have hp : ∀ j : PendIdx, p.softReset.pend[j] =
      if j ∈ queuedEntries (p.queue.filter (fun x => x.mark == .bridgeGenerated)) then none else p.pend[j] := f2
  have ho : ∀ j : PendIdx, j ∈ p.softReset.sentOrder ↔ j ∈ p.sentOrder ∧
      j ∉ queuedEntries (p.queue.filter (fun x => x.mark == .bridgeGenerated)) := f3
  have hq : p.softReset.queue = p.queue.filter (fun x => x.mark != .bridgeGenerated) := rfl
  refine ⟨fun x hx => ?_, fun j => ?_, fun j => ?_, ?_, fun hn => ?_, fun hn => ?_⟩
  · rw [hq] at hx; exact a1 x (List.mem_filter.1 hx).1
  · rw [ho, hp, a2 j]
    split
    · rename_i h; simp [h]
    · rename_i h; simp [h]
  · rw [hq, hp]
    split
    · rename_i h
      have : j ∉ queuedEntries (p.queue.filter (fun x => x.mark != .bridgeGenerated)) := fun hm => hnd.2.2 j h j hm rfl
      simp [this]
    · rename_i h; rw [← a3 j, hmem]; simp [h]
  · rw [hq]; exact hnd.2.1
  · have hst : p.softReset.state = p.state := by rw [hs]
    rw [hst] at hn
    refine ⟨?_, fun j => ?_⟩
    · rw [hq, (a5 hn).1]; rfl
    · rw [hp]; split
      · rfl
      · exact (a5 hn).2 j
  · rw [hs] at hn ⊢; exact a6 hn

end Sys2Proof.Machine
end

