-- ==== Sys2Proof/Laws/Departure.lean ====
section
/-! SUPPORT. What leaving READY does, in the words of the statements: which answers the agent gets, in which order, and what is left of its assembly records and fence groups (R20, R37). -/

namespace Sys2Proof.Machine

/-! ### What tells the agent nothing about its FETCHes and FENCEs -/

/-- No assembly record or fence group moves, and only NOTICEs and MGMT-REPLYs go upstream. -/
structure State.Silent (s t : State) : Prop where
  assemblies : t.assemblies = s.assemblies
  fences : t.fences = s.fences
  upstream : ∃ l, t.upstream = s.upstream ++ l ∧ ∀ x ∈ l, x.kind = .notice ∨ x.kind = .mgmtReply

theorem State.Silent.of_tables {s t : State} (h : t.assemblies = s.assemblies) (g : t.fences = s.fences)
    (u : t.upstream = s.upstream) : s.Silent t := ⟨h, g, [], by rw [u, List.append_nil], by simp⟩

theorem State.Silent.refl (s : State) : s.Silent s := .of_tables rfl rfl rfl

theorem State.Silent.trans {s t u : State} (h : s.Silent t) (g : t.Silent u) : s.Silent u := by
  obtain ⟨l, hl, hn⟩ := h.upstream
  obtain ⟨m, hm, gn⟩ := g.upstream
  refine ⟨g.assemblies.trans h.assemblies, g.fences.trans h.fences, l ++ m, by rw [hm, hl, List.append_assoc], fun x hx => ?_⟩
  rcases List.mem_append.1 hx with hx | hx
  · exact hn x hx
  · exact gn x hx

theorem State.Silent.foldl {α : Type} (f : State → α → State) (hf : ∀ (s : State) a, s.Silent (f s a)) (l : List α) (s : State) :
    s.Silent (l.foldl f s) := by
  induction l generalizing s with
  | nil => exact .refl s
  | cons a l ih => exact (hf s a).trans (ih (f s a))

variable (s : State)

theorem silent_raise (k : NoticeKind) (d : BitVec 8) : s.Silent (s.raise k d) := by
  unfold State.raise State.trySend
  split
  · exact ⟨rfl, rfl, _, rfl, by simp⟩
  · exact .of_tables rfl rfl rfl

theorem silent_setCtx (c : CtxId) (x : Ctx) : s.Silent (s.setCtx c x) := .of_tables rfl rfl rfl

theorem silent_setEntry (b : BoardId) (e : SteerEntry) : s.Silent (s.setEntry b e) := .of_tables rfl rfl rfl

theorem silent_release (c : CtxId) : s.Silent (s.release c) := by
  have h0 : s.Silent (s.freeStagingOf (s.ctx c).flights) :=
    State.Silent.foldl (fun s (f : Flight) => s.setStaging f.staging none) (fun s f => .of_tables rfl rfl rfl) _ s
  have h1 : ∀ u : State, u.Silent (u.releaseStale c) := fun u => by
    unfold State.releaseStale; dsimp only; split
    · exact .of_tables rfl rfl rfl
    · exact .refl u
  have h2 : ∀ u : State, u.Silent (u.orphan c) := fun _ => .of_tables rfl rfl rfl
  have h3 : ∀ u : State, u.Silent (u.disown c) := fun _ => .of_tables rfl rfl rfl
  exact (((h0.trans (h2 _)).trans (silent_setCtx _ _ _)).trans (h1 _)).trans (h3 _)

theorem silent_sendDeferred (c : CtxId) (st : ReplyStatus) (ws : List Word) : s.Silent (s.sendDeferred c st ws) := by
  unfold State.sendDeferred; split
  · exact .refl s
  · exact ⟨rfl, rfl, _, rfl, by simp⟩

theorem silent_failCtx (c : CtxId) (r : FailReason) : s.Silent (s.failCtx c r) := by
  unfold State.failCtx; split
  · exact (((silent_release s c).trans (silent_setCtx _ _ _)).trans (silent_sendDeferred _ _ _ _)).trans (silent_raise _ _ _)
  · exact .refl s

theorem silent_enterCutting (c : CtxId) : s.Silent (s.enterCutting c) := by
  unfold State.enterCutting; dsimp only; split
  · exact silent_setCtx s _ _
  · exact (silent_setCtx s _ _).trans (silent_failCtx _ _ _)

theorem silent_sourceGone (c : CtxId) : s.Silent (s.sourceGone c) := by
  unfold State.sourceGone; split
  · exact silent_enterCutting s c
  · exact silent_failCtx s c _

theorem silent_ctxLeft (k : SlotId) (c : CtxId) : s.Silent (State.ctxLeft k s c) := by
  unfold State.ctxLeft; dsimp only
  split
  · exact .refl s
  · exact .refl s
  all_goals (repeat' split)
  all_goals first | exact .refl s | exact silent_failCtx s c _ | exact silent_sourceGone s c

theorem silent_engineLeft (k : SlotId) : s.Silent (s.engineLeft k) := State.Silent.foldl _ (fun s c => silent_ctxLeft s k c) _ s

theorem silent_primaryLoss (b : BoardId) : s.Silent (s.primaryLoss b) := by
  unfold State.primaryLoss; dsimp only
  repeat' split
  all_goals first
    | exact .refl s
    | exact (silent_setEntry s _ _).trans (silent_raise _ _ _)

theorem silent_twinLoss (b : BoardId) (k : SlotId) : s.Silent (s.twinLoss b k) := by
  unfold State.twinLoss; split
  · exact (silent_setEntry s _ _).trans (silent_raise _ _ _)
  · exact .refl s

theorem silent_steeringLeft (k : SlotId) : s.Silent (s.steeringLeft k) := by
  unfold State.steeringLeft; split
  · exact .refl s
  · split
    · exact silent_primaryLoss s _
    · exact silent_twinLoss s _ _

theorem silent_entryLost (c : CtxId) (r : FailReason) : s.Silent (s.entryLost c r) := by
  unfold State.entryLost; split <;> first | exact silent_failCtx s c r | exact .refl s

theorem silent_cutoverLost (c : CtxId) : s.Silent (s.cutoverLost c) := by
  unfold State.cutoverLost; split
  · exact silent_failCtx s c _
  · exact .refl s

theorem silent_refuseClaims (k : SlotId) (c : CtxId) : s.Silent (State.refuseClaims k s c) := by
  unfold State.refuseClaims; split
  · dsimp only; split
    · exact ((silent_setCtx s _ _).trans (silent_setCtx _ _ _)).trans (silent_failCtx _ _ _)
    · exact silent_setCtx s _ _
  · exact .refl s

/-! ### Closing entries in order (R20, R37) -/

/-- The owners that are the agent's traffic. -/
def Origin.ofAgent : Origin → Bool
  | .agent _ _ _ _ _ | .fenceGroup _ _ => true
  | .walk _ _ | .verify _ _ | .cutover _ | .orphan => false

/-- The agent's entry at an index of a pending table. -/
def agentEntry (p : SlotPort) (i : PendIdx) : Option PendEntry := p.pend[i].filter (fun e => e.origin.ofAgent)

/-- A state `t` reached from `s` has told the agent what the fold of `lossAnswered` in `a` says. -/
structure Told (k : SlotId) (s t a : State) : Prop where
  assemblies : t.assemblies = a.assemblies
  fences : t.fences = a.fences
  entries : ∀ i, agentEntry (t.slot k) i = agentEntry (a.slot k) i
  upstream : ∃ l, t.upstream = s.upstream ++ l ∧ l.filter Txn.isAnswer = a.upstream ∧
    ∀ x ∈ l, x.isAnswer = true ∨ x.kind = .notice ∨ x.kind = .mgmtReply

variable {s}

theorem SlotPort.Same.agentEntry {p q : SlotPort} (h : p.Same q) (i : PendIdx) : agentEntry q i = agentEntry p i := by
  unfold Machine.agentEntry
  rcases h.pend i with h | ⟨e, c, he, ho, hq⟩
  · rw [h]
  · have : e.origin.ofAgent = false := by
      cases hc : e.origin <;> rw [hc] at ho <;> first | rfl | cases ho
    rw [he, hq, Option.filter_some, Option.filter_some, this]; rfl

/-- What is silent and leaves the entries of the agent alone adds nothing to what the agent is told. -/
theorem Told.silent {k : SlotId} {t u a : State} (h : Told k s t a) (g : t.Silent u)
    (e : ∀ i, agentEntry (u.slot k) i = agentEntry (t.slot k) i) : Told k s u a := by
  obtain ⟨l, h1, h2, h3⟩ := h.upstream
  obtain ⟨m, g1, g2⟩ := g.upstream
  refine ⟨g.assemblies.trans h.assemblies, g.fences.trans h.fences, fun i => (e i).trans (h.entries i), l ++ m,
    by rw [g1, h1, List.append_assoc], ?_, fun x hx => ?_⟩
  · have : m.filter Txn.isAnswer = [] := by
      rw [List.filter_eq_nil_iff]
      intro x hx
      unfold Txn.isAnswer
      rcases g2 x hx with h | h <;> rw [h] <;> decide
    rw [List.filter_append, h2, this, List.append_nil]
  · rcases List.mem_append.1 hx with hx | hx
    · exact h3 x hx
    · exact .inr (g2 x hx)

theorem agentEntry_freed (p : SlotPort) (i j : PendIdx) (o : List PendIdx) :
    agentEntry { p with pend := p.pend.set i none, sentOrder := o } j = if i = j then none else agentEntry p j := by
  unfold agentEntry
  simp only [Fin.getElem_fin, Vector.getElem_set, Fin.val_inj]
  split <;> rfl

/-- An answer that goes upstream on both sides. -/
theorem Told.push {k : SlotId} {t a : State} (h : Told k s t a) (x : Txn) (hx : x.isAnswer = true) :
    Told k s (t.pushUp x) (a.pushUp x) := by
  obtain ⟨h1, h2, h3, l, h4, h5, h6⟩ := h
  refine ⟨h1, h2, h3, l ++ [x], ?_, ?_, fun y hy => ?_⟩
  · show t.upstream ++ _ = _
    rw [h4, List.append_assoc]
  · rw [List.filter_append, h5, List.filter_cons_of_pos hx]; rfl
  · rcases List.mem_append.1 hy with hy | hy
    · exact h6 y hy
    · rw [List.mem_singleton.1 hy]; exact .inl hx

theorem told_resolvePart {k : SlotId} {t a : State} (h : Told k s t a) (n part : Nat) (r : PartResult) :
    Told k s (t.resolvePart n part r) (a.resolvePart n part r) := by
  have g := h
  obtain ⟨h1, h2, h3, h4⟩ := h
  unfold State.resolvePart
  rw [h1]
  cases a.assemblies.find? (fun x => x.num == n) with
  | none => exact g
  | some g =>
    dsimp only
    cases allResolved (g.parts.set (part - 1) (some r)) with
    | none => exact ⟨rfl, h2, h3, h4⟩
    | some ps =>
      refine Told.push (k := k) ?_ _ ?_
      · exact ⟨rfl, h2, h3, h4⟩
      · rfl

theorem told_resolveFence {k : SlotId} {t a : State} (h : Told k s t a) (n : Nat) (w : Bool) (o : PartOutcome) :
    Told k s (t.resolveFence n w o) (a.resolveFence n w o) := by
  have g := h
  obtain ⟨h1, h2, h3, h4⟩ := h
  unfold State.resolveFence
  rw [h2]
  cases a.fences.find? (fun x => x.num == n) with
  | none => exact g
  | some g =>
    dsimp only
    generalize (if w then { g with twin := o } else { g with primary := o } : FenceGroup) = g'
    split
    · exact ⟨h1, rfl, h3, h4⟩
    · refine Told.push (k := k) ?_ _ ?_
      · exact ⟨h1, rfl, h3, h4⟩
      · rfl

/-- Freeing one entry on both sides. -/
theorem told_freed {k : SlotId} {t a : State} (h : Told k s t a) (i : PendIdx) :
    Told k s (t.freePend k i) (a.setSlot k { a.slot k with pend := (a.slot k).pend.set i none }) := by
  refine ⟨h.assemblies, h.fences, fun j => ?_, h.upstream⟩
  have e1 : (t.freePend k i).slot k = (t.slot k).freeEntry i := by simp [State.freePend]
  rw [e1, slot_setSlot_same]
  have := agentEntry_freed (t.slot k) i j ((t.slot k).sentOrder.filter (· ≠ i))
  have g := agentEntry_freed (a.slot k) i j (a.slot k).sentOrder
  unfold SlotPort.freeEntry
  rw [this]
  refine Eq.trans ?_ g.symm
  rw [h.entries]

/-- One entry that closes. -/
theorem told_closeEntry {k : SlotId} {t a : State} (h : Told k s t a) (i : PendIdx) :
    Told k s (State.closeEntry k t i) (State.lossAnswered k a i) := by
  have hf := told_freed h i
  have hi := h.entries i
  unfold agentEntry at hi
  have quiet : ∀ (o : Origin) (n : Nat), o.ofAgent = false → Told k s ((t.freePend k i).deliverLoss o n)
      (a.setSlot k { a.slot k with pend := (a.slot k).pend.set i none }) := fun o n ho =>
    hf.silent (by
      unfold State.deliverLoss
      split
      all_goals first
        | exact silent_entryLost _ _ _
        | exact silent_cutoverLost _ _
        | exact State.Silent.refl _
        | cases ho)
      (fun j => ((quiet_deliverLoss (t.freePend k i) o n).slot k).agentEntry j)
  -- the entry of `t` is none or a context's: `a` has none or a context's there
  have other : (a.slot k).pend[i].filter (fun e => e.origin.ofAgent) = none →
      State.lossAnswered k a i = a ∨
        State.lossAnswered k a i = a.setSlot k { a.slot k with pend := (a.slot k).pend.set i none } := by
    intro hn
    unfold State.lossAnswered
    cases he : (a.slot k).pend[i] with
    | none => exact .inl rfl
    | some e =>
      rw [he, Option.filter_some] at hn
      right
      obtain ⟨_, _, _, o⟩ := e
      cases o <;> first | rfl | cases hn
  have back : Told k s (State.closeEntry k t i) (a.setSlot k { a.slot k with pend := (a.slot k).pend.set i none }) →
      (a.slot k).pend[i].filter (fun e => e.origin.ofAgent) = none →
      Told k s (State.closeEntry k t i) (State.lossAnswered k a i) := by
    intro g hn
    rcases other hn with e | e
    · rw [e]
      refine ⟨g.assemblies, g.fences, fun j => ?_, g.upstream⟩
      rw [g.entries j, slot_setSlot_same]
      have := agentEntry_freed (a.slot k) i j (a.slot k).sentOrder
      refine this.trans ?_
      split
      · rename_i hj; subst hj; exact hn.symm
      · rfl
    · rw [e]; exact g
  cases he : (t.slot k).pend[i] with
  | none =>
    rw [he] at hi
    refine back ?_ hi.symm
    have hc : State.closeEntry k t i = t := by unfold State.closeEntry; rw [he]
    rw [hc]
    refine ⟨h.assemblies, h.fences, fun j => ?_, h.upstream⟩
    rw [slot_setSlot_same]
    refine Eq.trans ?_ (agentEntry_freed (a.slot k) i j (a.slot k).sentOrder).symm
    split
    · rename_i hj; subst hj; unfold agentEntry; rw [he]; rfl
    · exact h.entries j
  | some e =>
    have hc : State.closeEntry k t i = (t.freePend k i).deliverLoss e.origin e.count := by
      unfold State.closeEntry; rw [he]
    by_cases ho : e.origin.ofAgent = true
    · rw [he, Option.filter_some, if_pos ho] at hi
      have ha : (a.slot k).pend[i] = some e := by
        cases h' : (a.slot k).pend[i] with
        | none => rw [h'] at hi; cases hi
        | some d =>
          rw [h', Option.filter_some] at hi
          split at hi
          · exact hi.symm
          · cases hi
      rw [hc]
      unfold State.lossAnswered
      rw [ha]
      dsimp only
      unfold State.deliverLoss
      obtain ⟨ph, kd, n, o⟩ := e
      dsimp only at ho ⊢
      cases o with
      | agent tag b part parts asm =>
        cases asm with
        | none => exact hf.push _ rfl
        | some n => exact told_resolvePart hf n part _
      | fenceGroup n w => exact told_resolveFence hf n w _
      | walk _ _ => cases ho
      | verify _ _ => cases ho
      | cutover _ => cases ho
      | orphan => cases ho
    · rw [he, Option.filter_some, if_neg ho] at hi
      refine back ?_ hi.symm
      rw [hc]
      exact quiet _ _ (by simpa using ho)

theorem told_closeEntries {k : SlotId} (l : List PendIdx) : ∀ {t a : State}, Told k s t a →
    Told k s (l.foldl (State.closeEntry k) t) (l.foldl (State.lossAnswered k) a) := by
  induction l with
  | nil => exact fun h => h
  | cons i l ih => exact fun h => ih (told_closeEntry h i)

/-- The answers depend on the agent's tables and the slot's entries alone. -/
theorem told_congr {k : SlotId} {t a b : State} (h : Told k s t a) (h1 : a.assemblies = b.assemblies) (h2 : a.fences = b.fences)
    (h3 : a.upstream = b.upstream) : t.assemblies = b.assemblies ∧ t.fences = b.fences ∧
      ∃ l, t.upstream = s.upstream ++ l ∧ l.filter Txn.isAnswer = b.upstream ∧
        ∀ x ∈ l, x.isAnswer = true ∨ x.kind = .notice ∨ x.kind = .mgmtReply := by
  rw [← h1, ← h2, ← h3]; exact ⟨h.assemblies, h.fences, h.upstream⟩

/-- Two states from which the agent is told the same when the entries of a slot close. -/
structure TellAlike (k : SlotId) (a b : State) : Prop where
  assemblies : a.assemblies = b.assemblies
  fences : a.fences = b.fences
  upstream : a.upstream = b.upstream
  pend : (a.slot k).pend = (b.slot k).pend

theorem TellAlike.push {k : SlotId} {a b : State} (h : TellAlike k a b) (x : Txn) :
    TellAlike k { a with upstream := a.upstream ++ [x] } { b with upstream := b.upstream ++ [x] } :=
  ⟨h.assemblies, h.fences, by show a.upstream ++ _ = b.upstream ++ _; rw [h.upstream], h.pend⟩

theorem TellAlike.resolvePart {k : SlotId} {a b : State} (h : TellAlike k a b) (n part : Nat) (r : PartResult) :
    TellAlike k (a.resolvePart n part r) (b.resolvePart n part r) := by
  have h1 := h.assemblies
  unfold State.resolvePart
  rw [h1]
  cases b.assemblies.find? (fun x => x.num == n) with
  | none => exact h
  | some g =>
    dsimp only
    cases allResolved (g.parts.set (part - 1) (some r)) with
    | none => exact ⟨rfl, h.fences, h.upstream, h.pend⟩
    | some ps =>
      refine TellAlike.push (k := k) ?_ _
      exact ⟨rfl, h.fences, h.upstream, h.pend⟩

theorem TellAlike.resolveFence {k : SlotId} {a b : State} (h : TellAlike k a b) (n : Nat) (w : Bool) (o : PartOutcome) :
    TellAlike k (a.resolveFence n w o) (b.resolveFence n w o) := by
  have h1 := h.fences
  unfold State.resolveFence
  rw [h1]
  cases b.fences.find? (fun x => x.num == n) with
  | none => exact h
  | some g =>
    dsimp only
    generalize (if w then { g with twin := o } else { g with primary := o } : FenceGroup) = g'
    split
    · exact ⟨h.assemblies, rfl, h.upstream, h.pend⟩
    · refine TellAlike.push (k := k) ?_ _
      exact ⟨h.assemblies, rfl, h.upstream, h.pend⟩

theorem TellAlike.close {k : SlotId} {a b : State} (h : TellAlike k a b) (i : PendIdx) :
    TellAlike k (State.lossAnswered k a i) (State.lossAnswered k b i) := by
  unfold State.lossAnswered
  rw [h.pend]
  cases (b.slot k).pend[i] with
  | none => exact h
  | some e =>
    have hf : TellAlike k (a.setSlot k { a.slot k with pend := (b.slot k).pend.set i none })
        (b.setSlot k { b.slot k with pend := (b.slot k).pend.set i none }) :=
      ⟨h.assemblies, h.fences, h.upstream, by rw [slot_setSlot_same, slot_setSlot_same]⟩
    dsimp only
    cases e.origin with
    | agent tag c part parts asm =>
      cases asm with
      | none => exact hf.push _
      | some n => exact hf.resolvePart _ _ _
    | fenceGroup n t => exact hf.resolveFence _ _ _
    | walk _ _ => exact hf
    | verify _ _ => exact hf
    | cutover _ => exact hf
    | orphan => exact hf

theorem TellAlike.closeAll {k : SlotId} (l : List PendIdx) : ∀ {a b : State}, TellAlike k a b →
    TellAlike k (l.foldl (State.lossAnswered k) a) (l.foldl (State.lossAnswered k) b) := by
  induction l with
  | nil => exact fun h => h
  | cons i l ih => exact fun h => ih (h.close i)

/-! ### Leaving READY -/

theorem leaveReady_left (s : State) (k : SlotId) (st : SlotState) : State.LeftReady k s (s.leaveReady k st) := by
  obtain ⟨h1, h2, h3⟩ := leaveReady_spec s k st
  refine ⟨by rw [h2], h3, ?_, fun j hj => (h1.slot j (Ne.symm hj)).frame,
    h1.startup, h1.startRecord, h1.agentCredits, h1.intake, h1.fill, h1.globals, h1.layouts, h1.regions, h1.levels, h1.floor,
    h1.lastServed, h1.pending⟩
  unfold State.leaveReady
  dsimp only
  generalize hord : (s.slot k).closeOrder = order
  generalize ha : s.modSlot k (fun p => { p with state := st, queue := [] }) = a
  have h0 : Told k s a { s with upstream := [] } := by
    rw [← ha]
    exact ⟨rfl, rfl, fun i => by simp [agentEntry]; rfl, [], by simp, rfl, by simp⟩
  have h5 := told_closeEntries order h0
  generalize order.foldl (State.closeEntry k) a = b at h5
  have h6 : Told k s (b.modSlot k (fun p => { p with credits := 0 })) (order.foldl (State.lossAnswered k) { s with upstream := [] }) :=
    h5.silent (.of_tables rfl rfl rfl) (fun i => by simp [agentEntry])
  generalize b.modSlot k (fun p => { p with credits := 0 }) = c at h6
  have h7 : c.Silent (((allCtxs.foldl (State.refuseClaims k) c).steeringLeft k).engineLeft k) :=
    ((State.Silent.foldl _ (fun s c => silent_refuseClaims s k c) allCtxs c).trans (silent_steeringLeft _ k)).trans
      (silent_engineLeft _ k)
  have h8 : c.Quiet (((allCtxs.foldl (State.refuseClaims k) c).steeringLeft k).engineLeft k) :=
    ((State.Quiet.foldl _ (fun s c => quiet_refuseClaims s k c) allCtxs c).trans (quiet_steeringLeft _ k)).trans
      (quiet_engineLeft _ k)
  exact told_congr (h6.silent h7 (fun i => (h8.slot k).agentEntry i)) rfl rfl rfl

/-- What follows a departure and leaves the other slots and the agent's answers quiet keeps its effects. -/
theorem State.LeftReady.after {k : SlotId} {u v : State} (h : State.LeftReady k s u) (q : State.QuietBut k u v) (n : u.Silent v)
    (hq : (v.slot k).queue = []) (hp : ∀ i : PendIdx, (u.slot k).pend[i] = none → (v.slot k).pend[i] = none) :
    State.LeftReady k s v := by
  obtain ⟨-, h2, ⟨a1, a2, l, a3, a4, a5⟩, h5, g1, g2, g3, g4, g5, g6, g7, g8, g9, g10, g11, g12⟩ := h
  obtain ⟨m, hm, hn⟩ := n.upstream
  refine ⟨hq, fun i hi => hp i (h2 i hi), ⟨n.assemblies.trans a1, n.fences.trans a2, l ++ m, by rw [hm, a3, List.append_assoc],
    ?_, fun x hx => ?_⟩, fun j hj => ?_,
    q.startup.trans g1, q.startRecord.trans g2, q.agentCredits.trans g3, q.intake.trans g4, q.fill.trans g5,
    q.globals.trans g6, q.layouts.trans g7, q.regions.trans g8, q.levels.trans g9, q.floor.trans g10,
    q.lastServed.trans g11, q.pending.trans g12⟩
  · have : m.filter Txn.isAnswer = [] := by
      rw [List.filter_eq_nil_iff]
      intro x hx
      unfold Txn.isAnswer
      rcases hn x hx with h | h <;> rw [h] <;> decide
    rw [List.filter_append, a4, this, List.append_nil]
  · rcases List.mem_append.1 hx with hx | hx
    · exact a5 x hx
    · exact .inr (hn x hx)
  · rw [(q.slot j (Ne.symm hj)).frame, h5 j hj]

/-- What precedes a departure and touches the slot's counters or pins alone keeps its effects. -/
theorem State.LeftReady.before {k : SlotId} {u : State} (p : SlotPort) (hq : p.queue = (s.slot k).queue)
    (hp : p.pend = (s.slot k).pend) (ho : p.sentOrder = (s.slot k).sentOrder)
    (h : State.LeftReady k (s.setSlot k p) u) : State.LeftReady k s u := by
  obtain ⟨h1, h2, h3, h4, h6⟩ := h
  have hc : p.closeOrder = (s.slot k).closeOrder := by unfold SlotPort.closeOrder; rw [hq, ho]
  rw [slot_setSlot_same, hc, hp] at h2
  rw [slot_setSlot_same, hc] at h3
  have h0 : TellAlike k { s.setSlot k p with upstream := [] } { s with upstream := [] } :=
    ⟨rfl, rfl, rfl, by show ((s.setSlot k p).slot k).pend = _; rw [slot_setSlot_same, hp]; rfl⟩
  obtain ⟨e1, e2, e3, -⟩ := TellAlike.closeAll (s.slot k).closeOrder h0
  refine ⟨h1, h2, ?_, fun j hj => ?_, h6⟩
  · dsimp only at h3 ⊢
    rw [e1, e2, e3] at h3
    exact h3
  · have := h4 j hj
    rwa [slot_setSlot, if_neg (Ne.symm hj)] at this

end Sys2Proof.Machine
end

