-- ==== Sys2Proof/Laws/Release.lean ====
section
/-! SUPPORT. The release of a context's holdings and its deferred reply, each said once (R92, R143, R161). -/

namespace Sys2Proof.Machine

variable {s : State}

theorem freeStagingOf_spec (fs : List Flight) : ∀ s : State, s.freeStagingOf fs = { s with staging := (s.freeStagingOf fs).staging } ∧
   ∀ g : StagingId, (s.freeStagingOf fs).staging[g] = if fs.any (fun f => f.staging == g) then none else s.staging[g] := by
  induction fs with
  | nil => intro s; exact ⟨rfl, fun g => rfl⟩
  | cons f fs ih =>
    intro s
    obtain ⟨h1, h2⟩ := ih (s.setStaging f.staging none)
    refine ⟨?_, fun g => ?_⟩
    · show (s.setStaging f.staging none).freeStagingOf fs = _
      rw [h1]; rfl
    · show ((s.setStaging f.staging none).freeStagingOf fs).staging[g] = _
      rw [h2]
      simp only [State.setStaging, Fin.getElem_fin, Vector.getElem_set, List.any_cons, Bool.or_eq_true, beq_iff_eq, Fin.val_inj]
      by_cases h : f.staging = g <;> simp [h]

/-- Nothing differs but what a release may touch. -/
def State.OnlyHoldings (s t : State) : Prop :=
  t = { s with ctxs := t.ctxs, steer := t.steer, slots := t.slots, staging := t.staging, spares := t.spares }

theorem State.OnlyHoldings.ex {s t : State} (h : State.OnlyHoldings s t) : ∃ a b c d e, t = { s with ctxs := a, steer := b, slots := c, staging := d, spares := e } := ⟨_, _, _, _, _, h⟩
theorem State.OnlyHoldings.trans {s t u : State} (h : State.OnlyHoldings s t) (g : State.OnlyHoldings t u) : State.OnlyHoldings s u := by
  obtain ⟨_, _, _, _, _, rfl⟩ := h.ex
  obtain ⟨_, _, _, _, _, rfl⟩ := g.ex
  rfl

/-- The release, once and for all (R92, R143). -/
theorem released_release (c : CtxId) (s : State) : State.Released c s (s.release c) := by
  obtain ⟨h1, h2⟩ := freeStagingOf_spec (s.ctx c).flights s
  have hst : ∀ u : State, u.releaseStale c = { u with steer := (u.releaseStale c).steer } := fun u => by
    unfold State.releaseStale; dsimp only; split <;> rfl
  have hslots : (s.release c).slots = s.slots.map (SlotPort.orphan c) := by
    unfold State.release State.disown; rw [hst]; show ((s.freeStagingOf _).slots).map _ = _; rw [h1]
  have hslot : ∀ k, (s.release c).slot k = (s.slot k).orphan c := fun k => by
    unfold State.slot; rw [hslots]; simp
  refine ⟨?_, ?_, fun d hd => ?_, fun b => ?_, fun k => ?_, fun k i => ?_, fun g => ?_, fun k => ?_⟩
  · have g1 : State.OnlyHoldings s (s.freeStagingOf (s.ctx c).flights) := by
      unfold State.OnlyHoldings; conv_lhs => rw [h1]
      rw [h1]
    have g2 : ∀ u : State, State.OnlyHoldings u (u.orphan c) := fun _ => rfl
    have g3 : ∀ u : State, State.OnlyHoldings u (u.modCtx c Ctx.released) := fun _ => rfl
    have g4 : ∀ u : State, State.OnlyHoldings u (u.releaseStale c) := fun u => by unfold State.releaseStale; dsimp only; split <;> rfl
    have g5 : ∀ u : State, State.OnlyHoldings u (u.disown c) := fun _ => rfl
    exact (((g1.trans (g2 _)).trans (g3 _)).trans (g4 _)).trans (g5 _)
  · rw [ctx_release, if_pos rfl]; rfl
  · rw [ctx_release, if_neg (Ne.symm hd)]
  · rw [entry_release]
    unfold State.releaseStale
    dsimp only
    by_cases hb : b = (s.ctx c).board
    · subst hb
      by_cases hc : (s.entry (s.ctx c).board).twinState = .building ∧ (s.entry (s.ctx c).board).bound = some c
      · rw [if_pos hc, if_pos ⟨rfl, hc⟩, entry_setEntry, if_pos rfl]
      · rw [if_neg hc, if_neg (fun h => hc h.2)]
    · conv_rhs => rw [if_neg (fun h => hb h.1)]
      split
      · rw [entry_setEntry, if_neg (Ne.symm hb)]
      · rfl
  · rw [hslot]; rfl
  · rw [hslot]; simp only [SlotPort.orphan, Fin.getElem_fin, Vector.getElem_map]
    cases (s.slot k).pend[i.val] <;> rfl
  · have : (s.release c).staging = (s.freeStagingOf (s.ctx c).flights).staging := by
      unfold State.release State.disown; rw [hst]; rfl
    rw [this, h2]
  · have : (s.release c).spares = s.spares.map (·.map (SpareRec.disown c)) := by
      unfold State.release State.disown; rw [hst]; show ((s.freeStagingOf _).spares).map _ = _; rw [h1]
    unfold State.spareMap; rw [this]; simp

theorem sendDeferred_eq (s : State) (c st ws) : s.sendDeferred c st ws = s.deferredSent c st ws := by
  unfold State.sendDeferred State.deferredSent
  cases (s.ctx c).deferred <;> rfl

theorem setCtx_twice (u : State) (c x y) : (u.setCtx c x).setCtx c y = u.setCtx c y := by
  unfold State.setCtx; simp

end Sys2Proof.Machine
end

