-- ==== Sys2Proof/Laws/Flights.lean ====
section
/-! SUPPORT. What the Migration Engine's operations keep of the flight tables, the staging buffer and the two record pools (R82, R98, R99, R125). -/

namespace Sys2Proof.Machine

/-! ### The vocabulary -/

/-- One flight table is sound (R98): the first clause of `State.FlightsSound`. -/
def Ctx.FlightsFit (x : Ctx) : Prop :=
  x.window ≤ 4 ∧ x.flights.length ≤ x.window ∧ (∀ f ∈ x.flights, f.num.val < x.window) ∧ (x.flights.map (·.num)).Nodup ∧
    (x.flights.map (fun f => (f.region, f.entry))).Nodup ∧ (x.flights ≠ [] → x.state = .walking ∨ x.state = .paused)

/-- Numbers that are among another list's, and stand once where that list's do. -/
def Within {α : Type} (l m : List α) : Prop := (m.Nodup → l.Nodup) ∧ ∀ n ∈ l, n ∈ m

theorem Within.of_eq {α : Type} {l m : List α} (h : l = m) : Within l m := ⟨fun g => h ▸ g, fun _ hn => h ▸ hn⟩

theorem Within.of_sublist {α : Type} {l m : List α} (h : l.Sublist m) : Within l m := ⟨fun g => g.sublist h, fun _ hn => h.subset hn⟩

theorem Within.of_perm {α : Type} {l m : List α} (h : l.Perm m) : Within l m := ⟨fun g => h.nodup_iff.2 g, fun _ hn => h.mem_iff.1 hn⟩

theorem Within.trans {α : Type} {l m n : List α} (h : Within l m) (g : Within m n) : Within l n :=
  ⟨fun k => h.1 (g.1 k), fun x hx => g.2 x (h.2 x hx)⟩

/-- A revisit list after an update: where the numbers are borne once and the ranges stand apart, they still do. -/
def KeepsApart (l m : List Range) : Prop := (l.map (·.num)).Nodup → RangesApart l → RangesApart m

theorem rangesApart_nil : RangesApart [] := ⟨by simp, .nil⟩

theorem KeepsApart.refl (l : List Range) : KeepsApart l l := fun _ h => h

theorem KeepsApart.of_nil {l m : List Range} (h : m = []) : KeepsApart l m := fun _ _ => h ▸ rangesApart_nil

theorem Range.Clear.symm {g h : Range} (c : g.Clear h) : h.Clear g := fun e => (c e.symm).symm

/-- The order of the list does not matter to its ranges' standing apart. -/
theorem RangesApart.perm {l m : List Range} (h : RangesApart l) (p : m.Perm l) : RangesApart m :=
  ⟨fun g hg => h.1 g (p.mem_iff.1 hg), (p.pairwise_iff Range.Clear.symm).2 h.2⟩

theorem RangesApart.sublist {l m : List Range} (h : RangesApart l) (p : m.Sublist l) : RangesApart m :=
  ⟨fun g hg => h.1 g (p.subset hg), h.2.sublist p⟩

theorem rangesApart_cons {g : Range} {l : List Range} (h : RangesApart l) (hg : g.first ≤ g.last) (hc : ∀ y ∈ l, g.Clear y) :
    RangesApart (g :: l) :=
  ⟨fun y hy => by rcases List.mem_cons.1 hy with rfl | hy; exacts [hg, h.1 y hy], List.pairwise_cons.2 ⟨hc, h.2⟩⟩

theorem RangesApart.clear {l : List Range} (h : RangesApart l) {g y : Range} (hg : g ∈ l) (hy : y ∈ l) (hne : g ≠ y) : g.Clear y :=
  haveI : Std.Symm Range.Clear := ⟨fun _ _ c => c.symm⟩
  h.2.forall hg hy hne

/-- A range put in the place of the one of a number. -/
theorem RangesApart.put {l : List Range} (h : RangesApart l) (hn : (l.map (·.num)).Nodup) {g y : Range} (hy : y.first ≤ y.last)
    (hc : ∀ z ∈ l, z.num ≠ g.num → y.Clear z) : RangesApart (l.map (fun z => if z.num = g.num then y else z)) := by
  refine ⟨fun z hz => ?_, List.pairwise_map.2 ((h.2.and (List.pairwise_map.1 hn)).imp_of_mem (fun {a b} ha hb hab => ?_))⟩
  · obtain ⟨w, hw, rfl⟩ := List.mem_map.1 hz
    split
    · exact hy
    · exact h.1 w hw
  · split <;> split
    · rename_i e f; exact absurd (e.trans f.symm) hab.2
    · rename_i _ f; exact hc b hb f
    · rename_i e _; exact (hc a ha e).symm
    · exact hab.1

/-- A context's record after an update that adds no flight record, staging entry or pool record. -/
structure Ctx.Keeps (x y : Ctx) : Prop where
  fit : x.FlightsFit → y.FlightsFit
  staging : x.FlightsFit → y.flights.map (·.staging) = x.flights.map (·.staging)
  segs : Within (y.segs.map (·.num)) (x.segs.map (·.num))
  ranges : Within (y.revisit.map (·.num)) (x.revisit.map (·.num))
  apart : KeepsApart x.revisit y.revisit

theorem Ctx.Keeps.refl (x : Ctx) : x.Keeps x := ⟨id, fun _ => rfl, .of_eq rfl, .of_eq rfl, .refl _⟩

theorem Ctx.Keeps.trans {x y z : Ctx} (h : x.Keeps y) (g : y.Keeps z) : x.Keeps z :=
  ⟨fun a => g.fit (h.fit a), fun a => (g.staging (h.fit a)).trans (h.staging a), g.segs.trans h.segs, g.ranges.trans h.ranges,
    fun a b => g.apart (h.ranges.1 a) (h.apart a b)⟩

/-- An update that leaves the flight table alone. -/
theorem Ctx.Keeps.of_flights {x y : Ctx} (hf : y.flights = x.flights) (hw : y.window = x.window)
    (hs : x.flights ≠ [] → x.state = .walking ∨ x.state = .paused → y.state = .walking ∨ y.state = .paused)
    (h1 : Within (y.segs.map (·.num)) (x.segs.map (·.num))) (h2 : Within (y.revisit.map (·.num)) (x.revisit.map (·.num)))
    (h3 : KeepsApart x.revisit y.revisit := by exact .refl _) : x.Keeps y := by
  refine ⟨fun h => ?_, fun _ => by rw [hf], h1, h2, h3⟩
  obtain ⟨a, b, c, d, e, f⟩ := h
  unfold Ctx.FlightsFit
  rw [hf, hw]
  exact ⟨a, b, c, d, e, fun g => hs g (f g)⟩

/-- An update of a record with no flight record in its table. -/
theorem Ctx.Keeps.of_none {x y : Ctx} (hx : x.flights = []) (hf : y.flights = []) (hw : x.window ≤ 4 → y.window ≤ 4)
    (h1 : Within (y.segs.map (·.num)) (x.segs.map (·.num))) (h2 : Within (y.revisit.map (·.num)) (x.revisit.map (·.num)))
    (h3 : KeepsApart x.revisit y.revisit := by exact .refl _) : x.Keeps y := by
  refine ⟨fun h => ?_, fun _ => by rw [hf, hx], h1, h2, h3⟩
  unfold Ctx.FlightsFit
  rw [hf]
  exact ⟨hw h.1, by simp, by simp, by simp, by simp, fun g => absurd rfl g⟩

/-- Those of the two invariants that are asked for hold. A theorem `Sound.f` says that f keeps each of them by itself. -/
structure Sound (P Q : Prop) (s : State) : Prop where
  fl : P → s.FlightsSound
  po : Q → s.PoolsSound

variable {P Q : Prop} {s t : State}

theorem Sound.fit (h : Sound P Q s) (hp : P) (c : CtxId) : (s.ctx c).FlightsFit := (h.fl hp).1 c

/-! ### Updates -/

theorem UsedOnce.change {α : Type} {l m : CtxId → List α} (c : CtxId) (h : UsedOnce l) (ho : ∀ d, d ≠ c → m d = l d)
    (hn : (m c).Nodup) (hs : ∀ n ∈ m c, n ∈ l c ∨ ∀ d, d ≠ c → n ∉ l d) : UsedOnce m := by
  have apart : ∀ d, d ≠ c → ∀ n ∈ m c, n ∉ l d := fun d hd n hm => by
    rcases hs n hm with g | g
    · exact h.2 c d (Ne.symm hd) n g
    · exact g d hd
  refine ⟨fun d => ?_, fun d e hde n hd => ?_⟩
  · by_cases hd : d = c
    · rw [hd]; exact hn
    · rw [ho d hd]; exact h.1 d
  · by_cases hdc : d = c
    · rw [hdc] at hd hde
      rw [ho e (Ne.symm hde)]
      exact apart e (Ne.symm hde) n hd
    · rw [ho d hdc] at hd
      by_cases hec : e = c
      · rw [hec]; exact fun hm => apart d hdc n hm hd
      · rw [ho e hec]; exact h.2 d e hde n hd

theorem UsedOnce.within {α : Type} {l m : CtxId → List α} (h : UsedOnce l) (hw : ∀ c, Within (m c) (l c)) : UsedOnce m :=
  ⟨fun c => (hw c).1 (h.1 c), fun c d hcd n hn hd => h.2 c d hcd n ((hw c).2 n hn) ((hw d).2 n hd)⟩

/-- An operation that adds no record. -/
theorem Sound.keeps (h : Sound P Q s) (hst : t.staging = s.staging) (hk : ∀ c, (s.ctx c).Keeps (t.ctx c)) : Sound P Q t := by
  refine ⟨fun hp => ?_, fun hq => ?_⟩
  swap
  · obtain ⟨a, b, d⟩ := h.po hq
    exact ⟨a.within (fun c => (hk c).segs), b.within (fun c => (hk c).ranges), fun c => (hk c).apart (b.1 c) (d c)⟩
  obtain ⟨h1, h2, h3⟩ := h.fl hp
  have hs : ∀ c, (t.ctx c).flights.map (·.staging) = (s.ctx c).flights.map (·.staging) := fun c => (hk c).staging (h1 c)
  refine ⟨fun c => (hk c).fit (h1 c), h2.within (fun c => .of_eq (hs c)), fun g => ?_⟩
  rw [hst, h3 g]
  refine exists_congr fun c => ?_
  rw [← List.mem_map, ← List.mem_map, hs c]

/-- An operation on other blocks. -/
theorem Sound.same (h : Sound P Q s) (h1 : t.ctxs = s.ctxs) (h2 : t.staging = s.staging) : Sound P Q t :=
  h.keeps h2 (fun c => by rw [show t.ctx c = s.ctx c by unfold State.ctx; rw [h1]]; exact .refl _)

theorem Sound.setCtx (h : Sound P Q s) (c : CtxId) (x : Ctx) (hk : (s.ctx c).Keeps x) : Sound P Q (s.setCtx c x) :=
  h.keeps rfl (fun d => by
    rw [ctx_setCtx]
    split
    · rename_i hd; rw [← hd]; exact hk
    · exact .refl _)

/-- An update that may add records with numbers that no other context's list bears. -/
theorem Sound.put (h : Sound P Q s) (c : CtxId) (x : Ctx) (hf : (s.ctx c).FlightsFit → x.FlightsFit)
    (hst : x.flights.map (·.staging) = (s.ctx c).flights.map (·.staging))
    (hs : ((s.ctx c).segs.map (·.num)).Nodup → (x.segs.map (·.num)).Nodup)
    (hs' : ∀ n ∈ x.segs.map (·.num), n ∈ (s.ctx c).segs.map (·.num) ∨ ∀ d, n ∉ (s.ctx d).segs.map (·.num))
    (hr : ((s.ctx c).revisit.map (·.num)).Nodup → (x.revisit.map (·.num)).Nodup)
    (hr' : ∀ n ∈ x.revisit.map (·.num), n ∈ (s.ctx c).revisit.map (·.num) ∨ ∀ d, n ∉ (s.ctx d).revisit.map (·.num))
    (ha : KeepsApart (s.ctx c).revisit x.revisit := by exact .refl _) : Sound P Q (s.setCtx c x) := by
  have ho : ∀ d, d ≠ c → (s.setCtx c x).ctx d = s.ctx d := fun d hd => by rw [ctx_setCtx, if_neg (Ne.symm hd)]
  have hc : (s.setCtx c x).ctx c = x := ctx_setCtx_same s c x
  have hfl : ∀ d, ((s.setCtx c x).ctx d).flights.map (·.staging) = (s.ctx d).flights.map (·.staging) := fun d => by
    by_cases hd : d = c
    · rw [hd, hc, hst]
    · rw [ho d hd]
  refine ⟨fun hp => ?_, fun hq => ⟨(h.po hq).1.change c (fun d hd => ?_) ?_ ?_, (h.po hq).2.1.change c (fun d hd => ?_) ?_ ?_,
    fun d => ?_⟩⟩
  · obtain ⟨h1, h2, h3⟩ := h.fl hp
    refine ⟨fun d => ?_, h2.within (fun d => .of_eq (hfl d)), fun g => ?_⟩
    · by_cases hd : d = c
      · rw [hd, hc]; exact hf (h1 c)
      · rw [ho d hd]; exact h1 d
    · refine (h3 g).trans (exists_congr fun d => ?_)
      rw [← List.mem_map, ← List.mem_map, hfl d]
  · show _ = _; rw [ho d hd]
  · rw [hc]; exact hs ((h.po hq).1.1 c)
  · rw [hc]; exact fun n hn => (hs' n hn).imp_right (fun g d _ => g d)
  · show _ = _; rw [ho d hd]
  · rw [hc]; exact hr ((h.po hq).2.1.1 c)
  · rw [hc]; exact fun n hn => (hr' n hn).imp_right (fun g d _ => g d)
  · by_cases hd : d = c
    · rw [hd, hc]; exact ha ((h.po hq).2.1.1 c) ((h.po hq).2.2 c)
    · rw [ho d hd]; exact (h.po hq).2.2 d

theorem Sound.modCtx (h : Sound P Q s) (c : CtxId) (f : Ctx → Ctx) (hk : (s.ctx c).Keeps (f (s.ctx c))) :
    Sound P Q (s.modCtx c f) := h.setCtx c _ hk

/-- Filling a staging entry that is occupied. -/
theorem Sound.fill (h : Sound P Q s) (g : StagingId) (d : List Word) (hg : P → s.staging[g] ≠ none) :
    Sound P Q (s.setStaging g (some d)) := by
  refine ⟨fun hp => ?_, h.po⟩
  obtain ⟨h1, h2, h3⟩ := h.fl hp
  refine ⟨h1, h2, fun i => ?_⟩
  rw [← show _ ↔ ∃ c, ∃ f ∈ ((s.setStaging g (some d)).ctx c).flights, f.staging = i from h3 i]
  by_cases hi : g = i
  · subst hi; simp [State.setStaging]; exact hg hp
  · have : (g : Nat) ≠ i := fun e => hi (Fin.ext e)
    simp [State.setStaging, this]

theorem Sound.foldl {α : Type} (f : State → α → State) (hf : ∀ (s : State) a, Sound P Q s → Sound P Q (f s a)) (l : List α)
    (h : Sound P Q s) : Sound P Q (l.foldl f s) := by
  induction l generalizing s with
  | nil => exact h
  | cons a l ih => exact ih (hf s a h)

theorem Sound.raise (h : Sound P Q s) (k : NoticeKind) (d : BitVec 8) : Sound P Q (s.raise k d) := by
  unfold State.raise State.trySend
  split <;> exact h.same rfl rfl

theorem Sound.sendDeferred (h : Sound P Q s) (c : CtxId) (st : ReplyStatus) (ws : List Word) : Sound P Q (s.sendDeferred c st ws) := by
  unfold State.sendDeferred
  split
  · exact h
  · have h1 : Sound P Q (s.modCtx c (fun x => { x with deferred := none })) :=
      h.modCtx c _ (.of_flights rfl rfl (fun _ g => g) (.of_eq rfl) (.of_eq rfl))
    exact h1.same rfl rfl

theorem Sound.claim (h : Sound P Q s) {k : SlotId} {cs : List ClaimTxn} (hc : s.claim k cs = some t) : Sound P Q t := by
  obtain ⟨-, q, -, rfl⟩ := claim_spec hc
  exact h.same rfl rfl

/-! ### Release and failure (R92, R95) -/

theorem flights_release (s : State) (c : CtxId) : ((s.release c).ctx c).flights = [] := by rw [(released_release c s).2.1]

theorem Sound.release (h : Sound P Q s) (c : CtxId) : Sound P Q (s.release c) := by
  obtain ⟨-, hc, ho, -, -, -, hg, -⟩ := released_release c s
  refine ⟨fun hp => ?_, fun hq => ⟨(h.po hq).1.change c (fun d hd => ?_) ?_ ?_, (h.po hq).2.1.change c (fun d hd => ?_) ?_ ?_,
    fun d => ?_⟩⟩
  · obtain ⟨h1, h2, h3⟩ := h.fl hp
    refine ⟨fun d => ?_, h2.change c (fun d hd => ?_) ?_ ?_, fun g => ?_⟩
    · by_cases hd : d = c
      · subst hd
        rw [hc]
        exact ⟨(h1 d).1, by simp, by simp, by simp, by simp, by simp⟩
      · rw [ho d hd]; exact h1 d
    · show _ = _; rw [ho d hd]
    · rw [hc]; exact List.nodup_nil
    · rw [hc]; simp
    · rw [hg g]
      constructor
      · intro hn
        split at hn
        · exact absurd rfl hn
        · rename_i hany
          obtain ⟨d, f, hf, hfg⟩ := (h3 g).1 hn
          have hd : d ≠ c := by
            rintro rfl
            exact hany (List.any_eq_true.2 ⟨f, hf, by simp [hfg]⟩)
          exact ⟨d, f, by rw [ho d hd]; exact hf, hfg⟩
      · rintro ⟨d, f, hf, hfg⟩
        have hd : d ≠ c := by
          rintro rfl
          rw [hc] at hf; cases hf
        rw [ho d hd] at hf
        rw [if_neg]
        · exact (h3 g).2 ⟨d, f, hf, hfg⟩
        · intro hany
          obtain ⟨f', hf', he⟩ := List.any_eq_true.1 hany
          refine h2.2 d c hd g (List.mem_map.2 ⟨f, hf, hfg⟩) (List.mem_map.2 ⟨f', hf', by simpa using he⟩)
  · show _ = _; rw [ho d hd]
  · rw [hc]; exact List.nodup_nil
  · rw [hc]; simp
  · show _ = _; rw [ho d hd]
  · rw [hc]; exact List.nodup_nil
  · rw [hc]; simp
  · by_cases hd : d = c
    · rw [hd, hc]; exact rangesApart_nil
    · rw [ho d hd]; exact (h.po hq).2.2 d

theorem Sound.failCtx (h : Sound P Q s) (c : CtxId) (r : FailReason) : Sound P Q (s.failCtx c r) := by
  unfold State.failCtx
  split
  · refine ((Sound.modCtx (h.release c) c _ ?_).sendDeferred c _ _).raise _ _
    exact .of_none (flights_release s c) (flights_release s c) (fun g => g) (.of_eq rfl) (.of_eq rfl)
  · exact h

/-! ### SYNCED and cutover (R111, R112, R150, R154) -/

theorem Sound.enterCutting (h : Sound P Q s) (c : CtxId) (hs : (s.ctx c).state = .synced) : Sound P Q (s.enterCutting c) := by
  have h1 : Sound P Q (s.modCtx c Ctx.cut) :=
    h.modCtx c _ (.of_flights rfl rfl (fun _ g => by rw [hs] at g; rcases g with g | g <;> cases g) (.of_eq rfl) (.of_eq rfl))
  unfold State.enterCutting
  dsimp only
  split
  · exact h1
  · exact h1.failCtx c _

theorem Sound.testSynced (h : Sound P Q s) (c : CtxId) : Sound P Q (s.testSynced c) := by
  unfold State.testSynced
  split
  · rename_i hd
    have hf : (s.ctx c).flights = [] := by
      unfold Ctx.syncDue at hd
      simp only [Bool.and_eq_true, List.isEmpty_iff] at hd
      exact hd.2
    have h1 : Sound P Q ((s.modCtx c (fun x => { x with state := .synced })).raise .ctxSynced (detailOf c)) :=
      (h.modCtx c _ (.of_none hf hf (fun g => g) (.of_eq rfl) (.of_eq rfl))).raise _ _
    have hs : (((s.modCtx c (fun x => { x with state := .synced })).raise .ctxSynced (detailOf c)).ctx c).state = .synced := by
      rw [ctx_raise, modCtx_eq, ctx_setCtx_same]
    unfold State.autoCutover
    repeat' split
    · exact h1.enterCutting c hs
    · exact h1
    · exact h1.raise _ _
    · exact h1
  · exact h

/-! ### Flight records (R98, R99) -/

theorem flight?_spec {x : Ctx} {n : FlightNum} {f : Flight} (h : x.flight? n = some f) : f ∈ x.flights ∧ f.num = n :=
  ⟨List.mem_of_find?_eq_some h, by simpa using List.find?_some h⟩

theorem Ctx.FlightsFit.same_num {x : Ctx} (h : x.FlightsFit) {f g : Flight} (hf : f ∈ x.flights) (hg : g ∈ x.flights)
    (hn : f.num = g.num) : f = g := List.inj_on_of_nodup_map h.2.2.2.1 hf hg hn

/-- A record put in place of the one of its number, for the same entry and with the same staging entry. -/
theorem Ctx.Keeps.putFlight {x : Ctx} {f g : Flight} (hf : f ∈ x.flights) (hn : g.num = f.num) (hr : g.region = f.region)
    (he : g.entry = f.entry) (hs : g.staging = f.staging) : x.Keeps (x.putFlight g) := by
  have key : x.FlightsFit → ∀ {β : Type} (k : Flight → β), k g = k f → (x.putFlight g).flights.map k = x.flights.map k :=
    fun hx _ k hk => by
      unfold Ctx.putFlight
      rw [List.map_map]
      refine List.map_congr_left (fun y hy => ?_)
      show k (if y.num = g.num then g else y) = k y
      split
      · rename_i h
        rw [hk, hx.same_num hy hf (h.trans hn)]
      · rfl
  refine ⟨fun hx => ?_, fun hx => key hx _ hs, .of_eq rfl, .of_eq rfl, .refl _⟩
  obtain ⟨a, b, c, d, e, i⟩ := hx
  have hx : x.FlightsFit := ⟨a, b, c, d, e, i⟩
  refine ⟨a, ?_, fun y hy => ?_, ?_, ?_, fun hy => i (fun h0 => hy ?_)⟩
  · unfold Ctx.putFlight; rw [List.length_map]; exact b
  · have : y.num ∈ x.flights.map (·.num) := by rw [← key hx (·.num) hn]; exact List.mem_map_of_mem hy
    obtain ⟨z, hz, hzn⟩ := List.mem_map.1 this
    rw [← hzn]; exact c z hz
  · rw [key hx (·.num) hn]; exact d
  · rw [key hx (fun f => (f.region, f.entry)) (by rw [hr, he])]; exact e
  · unfold Ctx.putFlight; rw [h0]; rfl

/-- A record leaves its table, and its staging entry becomes free. -/
theorem Sound.dropFlight (h : Sound P Q s) (c : CtxId) (f : Flight) (hf : f ∈ (s.ctx c).flights) :
    Sound P Q ((s.setStaging f.staging none).modCtx c (Ctx.dropFlight f.num)) := by
  have hc : ((s.setStaging f.staging none).modCtx c (Ctx.dropFlight f.num)).ctx c = (s.ctx c).dropFlight f.num := by
    rw [modCtx_eq, ctx_setCtx_same]; rfl
  have ho : ∀ d, d ≠ c → ((s.setStaging f.staging none).modCtx c (Ctx.dropFlight f.num)).ctx d = s.ctx d := fun d hd => by
    rw [modCtx_eq, ctx_setCtx, if_neg (Ne.symm hd)]; rfl
  refine ⟨fun hp => ?_, fun hq => ⟨(h.po hq).1.within (fun d => .of_eq ?_), (h.po hq).2.1.within (fun d => .of_eq ?_),
    fun d => ?_⟩⟩
  · obtain ⟨h1, h2, h3⟩ := h.fl hp
    have hsub : ((s.ctx c).dropFlight f.num).flights.Sublist (s.ctx c).flights := List.filter_sublist
    refine ⟨fun d => ?_, h2.change c (fun d hd => ?_) ?_ ?_, fun g => ?_⟩
    · by_cases hd : d = c
      · subst hd
        rw [hc]
        obtain ⟨a, b, e, i, j, k⟩ := h1 d
        refine ⟨a, hsub.length_le.trans b, fun y hy => e y (hsub.subset hy), i.sublist (hsub.map _), j.sublist (hsub.map _),
          fun hy => k (fun h0 => hy ?_)⟩
        unfold Ctx.dropFlight; rw [h0]; rfl
      · rw [ho d hd]; exact h1 d
    · show _ = _; rw [ho d hd]
    · rw [hc]; exact (h2.1 c).sublist (hsub.map _)
    · rw [hc]; exact fun n hn => .inl ((hsub.map _).subset hn)
    · have hg : ((s.setStaging f.staging none).modCtx c (Ctx.dropFlight f.num)).staging[g] =
          if f.staging = g then none else s.staging[g] := by
        show (s.staging.set f.staging none)[g] = _
        by_cases hfg : f.staging = g
        · rw [if_pos hfg]; subst hfg; simp
        · rw [if_neg hfg]
          have : (f.staging : Nat) ≠ g := fun e => hfg (Fin.ext e)
          simp [this]
      rw [hg]
      constructor
      · intro hn
        split at hn
        · exact absurd rfl hn
        · rename_i hfg
          obtain ⟨d, y, hy, hyg⟩ := (h3 g).1 hn
          by_cases hd : d = c
          · subst hd
            refine ⟨d, y, ?_, hyg⟩
            rw [hc]
            have hne : y.num ≠ f.num := fun e => hfg (by rw [← Ctx.FlightsFit.same_num (h1 d) hy hf e]; exact hyg)
            exact List.mem_filter.2 ⟨hy, by simpa using hne⟩
          · exact ⟨d, y, by rw [ho d hd]; exact hy, hyg⟩
      · rintro ⟨d, y, hy, hyg⟩
        by_cases hd : d = c
        · subst hd
          rw [hc] at hy
          obtain ⟨hy, hyn⟩ := List.mem_filter.1 hy
          rw [if_neg]
          · exact (h3 g).2 ⟨d, y, hy, hyg⟩
          · intro hfg
            have : y = f := List.inj_on_of_nodup_map (h2.1 d) hy hf (hyg.trans hfg.symm)
            simp [this] at hyn
        · rw [ho d hd] at hy
          rw [if_neg]
          · exact (h3 g).2 ⟨d, y, hy, hyg⟩
          · intro hfg
            exact h2.2 d c hd g (List.mem_map.2 ⟨y, hy, hyg⟩) (List.mem_map.2 ⟨f, hf, hfg⟩)
  · by_cases hd : d = c
    · subst hd; rw [hc]; rfl
    · rw [ho d hd]
  · by_cases hd : d = c
    · subst hd; rw [hc]; rfl
    · rw [ho d hd]
  · by_cases hd : d = c
    · subst hd; rw [hc]; exact (h.po hq).2.2 d
    · rw [ho d hd]; exact (h.po hq).2.2 d

theorem Sound.leaveFlight (h : Sound P Q s) (c : CtxId) (f : Flight) (hf : f ∈ (s.ctx c).flights) : Sound P Q (s.leaveFlight c f) :=
  (h.dropFlight c f hf).testSynced c

theorem Sound.stage (h : Sound P Q s) (c : CtxId) (f g : Flight) (hf : f ∈ (s.ctx c).flights) (hn : g.num = f.num)
    (hr : g.region = f.region) (he : g.entry = f.entry) (hs : g.staging = f.staging) : Sound P Q (s.stage c g) :=
  h.modCtx c _ (.putFlight hf hn hr he hs)

theorem Sound.occupied (h : Sound P Q s) (c : CtxId) (f : Flight) (hf : f ∈ (s.ctx c).flights) : P → s.staging[f.staging] ≠ none :=
  fun hp => ((h.fl hp).2.2 f.staging).2 ⟨c, f, hf, rfl⟩

/-- An update of a context's counters and of nothing that holds records. -/
theorem Sound.count (h : Sound P Q s) (c : CtxId) (g : CtxCounters → CtxCounters) :
    Sound P Q (s.modCtx c (fun x => { x with counters := g x.counters })) :=
  h.modCtx c _ (.of_flights rfl rfl (fun _ k => k) (.of_eq rfl) (.of_eq rfl))

theorem Sound.addGap (h : Sound P Q s) (c : CtxId) (r : RegionId) (e : Nat) :
    Sound P Q (s.addGap c r e) ∧ (s.addGap c r e).staging = s.staging ∧ ((s.addGap c r e).ctx c).flights = (s.ctx c).flights := by
  unfold State.addGap
  split
  · exact ⟨h, rfl, rfl⟩
  · have h0 : Sound P Q ({ s with gaps := s.gaps ++ [(⟨c, r, e⟩ : Gap)] } : State) := h.same rfl rfl
    refine ⟨(h0.count c CtxCounters.addGap).raise _ _, ?_, ?_⟩
    · unfold State.raise State.trySend; split <;> rfl
    · rw [ctx_raise, modCtx_eq, ctx_setCtx_same]; rfl

theorem Sound.unreadable (h : Sound P Q s) (c : CtxId) (f : Flight) (hf : f ∈ (s.ctx c).flights) : Sound P Q (s.unreadable c f) := by
  unfold State.unreadable
  split
  · exact h.failCtx c _
  · split
    · exact h
    · rename_i r _
      obtain ⟨h1, h2, h3⟩ := h.addGap c f.region f.entry
      refine Sound.stage (h1.fill f.staging _ (by rw [h2]; exact h.occupied c f hf)) c f _ ?_ rfl rfl rfl rfl
      show f ∈ ((s.addGap c f.region f.entry).ctx c).flights
      rw [h3]; exact hf

theorem Sound.walkReturn (h : Sound P Q s) (c : CtxId) (n : FlightNum) (st : BitVec 4) (d : List Word) :
    Sound P Q (s.walkReturn c n st d) := by
  unfold State.walkReturn
  split
  · exact h
  · rename_i f hf
    have hm := (flight?_spec hf).1
    have h1 : Sound P Q (s.setStaging f.staging (some d)) := h.fill f.staging d (h.occupied c f hm)
    repeat' split
    · exact h
    · exact h1.stage c f f hm rfl rfl rfl rfl
    · refine (h1.count c CtxCounters.addCorrected).stage c f f ?_ rfl rfl rfl rfl
      rw [modCtx_eq, ctx_setCtx_same]; exact hm
    · exact h.unreadable c f hm
    · exact h.failCtx c _

theorem Sound.mismatch (h : Sound P Q s) (c : CtxId) (f : Flight) (hf : f ∈ (s.ctx c).flights) : Sound P Q (s.mismatch c f) := by
  unfold State.mismatch
  dsimp only
  repeat' split
  · exact h.failCtx c _
  · exact h
  · exact h.failCtx c _
  · exact h.failCtx c _
  · unfold State.takeSpare
    dsimp only
    refine Sound.stage (Sound.raise (Sound.count (Sound.same (t := s.setSpareMap _ _) h rfl rfl) c CtxCounters.addSpare) _ _) c f
      { f with rewrite := true } ?_ rfl rfl rfl rfl
    rw [ctx_raise, modCtx_eq, ctx_setCtx_same]
    exact hf

theorem Sound.verifyReturn (h : Sound P Q s) (c : CtxId) (n : FlightNum) (st : BitVec 4) (d : List Word) :
    Sound P Q (s.verifyReturn c n st d) := by
  unfold State.verifyReturn
  split
  · exact h
  · rename_i f hf
    dsimp only
    have h1 := h.count c CtxCounters.addVerify
    have hm : f ∈ ((s.modCtx c (fun x => { x with counters := x.counters.addVerify })).ctx c).flights := by
      rw [modCtx_eq, ctx_setCtx_same]; exact (flight?_spec hf).1
    repeat' split
    · exact h
    · exact h1.leaveFlight c f hm
    · exact h1.mismatch c f hm
    · exact h1.mismatch c f hm
    · exact h1.failCtx c _

theorem Sound.written (h : Sound P Q s) (c : CtxId) (f : Flight) (r : Region) (hf : f ∈ (s.ctx c).flights) :
    Sound P Q (s.written c f r) := by
  unfold State.written
  dsimp only
  generalize selectVerify r f (s.ctx c).verifyCounter = sel
  have h1 : Sound P Q (s.modCtx c (fun x => { x with counters := x.counters.addWritten 1, verifyCounter := sel.2 })) :=
    h.modCtx c _ (.of_flights rfl rfl (fun _ k => k) (.of_eq rfl) (.of_eq rfl))
  have hm : f ∈ ((s.modCtx c (fun x => { x with counters := x.counters.addWritten 1, verifyCounter := sel.2 })).ctx c).flights := by
    rw [modCtx_eq, ctx_setCtx_same]; exact hf
  generalize s.modCtx c (fun x => { x with counters := x.counters.addWritten 1, verifyCounter := sel.2 }) = t at h1 hm
  have h2 : ∀ u : State, (u = if f.poison = true then t else t.dropGap c f.region f.entry) → Sound P Q u ∧ f ∈ (u.ctx c).flights := by
    rintro u rfl
    split
    · exact ⟨h1, hm⟩
    · exact ⟨h1.same rfl rfl, hm⟩
  obtain ⟨h3, hm3⟩ := h2 _ rfl
  split
  · exact h3.modCtx c _ (.putFlight hm3 rfl rfl rfl rfl)
  · exact h3.leaveFlight c f hm3

theorem Sound.takeWrite (h : Sound P Q s) (c : CtxId) (n : FlightNum) : Sound P Q (s.takeWrite c n) := by
  unfold State.takeWrite
  split
  · exact h
  · rename_i f hf
    repeat' split
    any_goals exact h
    rename_i u hu
    refine (h.claim hu).written c f _ ?_
    obtain ⟨-, q, -, rfl⟩ := claim_spec hu
    exact (flight?_spec hf).1

theorem Sound.takeVerify (h : Sound P Q s) (c : CtxId) (n : FlightNum) : Sound P Q (s.takeVerify c n) := by
  unfold State.takeVerify
  split
  · exact h
  · rename_i f hf
    repeat' split
    any_goals exact h
    rename_i u hu
    refine (h.claim hu).modCtx c _ (.putFlight (f := f) ?_ rfl rfl rfl rfl)
    obtain ⟨-, q, -, rfl⟩ := claim_spec hu
    exact (flight?_spec hf).1

theorem Sound.takeCutover (h : Sound P Q s) (c : CtxId) : Sound P Q (s.takeCutover c) := by
  unfold State.takeCutover
  repeat' split
  any_goals exact h
  rename_i u hu
  exact (h.claim hu).modCtx c _ (.of_flights rfl rfl (fun _ k => k) (.of_eq rfl) (.of_eq rfl))

theorem Sound.setEntry (h : Sound P Q s) (b : BoardId) (e : SteerEntry) : Sound P Q (s.setEntry b e) := h.same rfl rfl

theorem Sound.primaryLoss (h : Sound P Q s) (b : BoardId) : Sound P Q (s.primaryLoss b) := by
  unfold State.primaryLoss
  dsimp only
  repeat' split
  all_goals first | exact h | exact (h.setEntry _ _).raise _ _

theorem Sound.primaryCheck (h : Sound P Q s) (b : BoardId) : Sound P Q (s.primaryCheck b) := by
  unfold State.primaryCheck
  repeat' split
  all_goals first | exact h | exact h.primaryLoss b

theorem Sound.cutoverDone (h : Sound P Q s) (c : CtxId) : Sound P Q (s.cutoverDone c) := by
  unfold State.cutoverDone
  split
  · rename_i hs
    have h0 : Sound P Q ((s.releaseTwinned c).disown c) ∧ ((s.releaseTwinned c).disown c).ctx c = s.ctx c := by
      unfold State.releaseTwinned
      dsimp only
      split
      · exact ⟨h.same rfl rfl, rfl⟩
      · exact ⟨h.same rfl rfl, rfl⟩
    refine Sound.primaryCheck (Sound.raise (Sound.sendDeferred (h0.1.modCtx c Ctx.complete ?_) c _ _) _ _) _
    rw [h0.2]
    exact .of_flights rfl rfl (fun _ g => by rw [hs] at g; rcases g with g | g <;> cases g) (.of_sublist (List.nil_sublist _)) (.of_eq rfl)
  · exact h

/-! ### A slot leaves or enters READY (R33, R86, R106, R113, R114, R156 to R158) -/

theorem Sound.entryLost (h : Sound P Q s) (c : CtxId) (r : FailReason) : Sound P Q (s.entryLost c r) := by
  unfold State.entryLost
  split <;> first | exact h.failCtx c r | exact h

theorem Sound.cutoverLost (h : Sound P Q s) (c : CtxId) : Sound P Q (s.cutoverLost c) := by
  unfold State.cutoverLost
  split
  · exact h.failCtx c _
  · exact h

theorem Sound.ctxLeft (h : Sound P Q s) (k : SlotId) (c : CtxId) : Sound P Q (State.ctxLeft k s c) := by
  unfold State.ctxLeft
  dsimp only
  split
  · exact h
  · exact h
  all_goals (repeat' split)
  all_goals first | exact h | exact h.failCtx c _ | skip
  rename_i hs _
  unfold State.sourceGone
  split
  · exact h.enterCutting c hs
  · exact h.failCtx c _

theorem Sound.engineLeft (h : Sound P Q s) (k : SlotId) : Sound P Q (s.engineLeft k) :=
  Sound.foldl _ (fun _ c hs => hs.ctxLeft k c) _ h

theorem Sound.engineEntered (h : Sound P Q s) (k : SlotId) : Sound P Q (s.engineEntered k) :=
  h.keeps rfl (fun c => by
    have : (s.engineEntered k).ctx c = Ctx.dstReady k (s.ctx c) := by simp [State.engineEntered, State.ctx]
    rw [this]
    unfold Ctx.dstReady
    split
    · rename_i hw
      exact .of_flights rfl rfl (fun _ _ => .inl rfl) (.of_eq rfl) (.of_eq rfl)
    · exact .refl _)

theorem Sound.refuseClaims (h : Sound P Q s) (k : SlotId) (c : CtxId) : Sound P Q (State.refuseClaims k s c) := by
  unfold State.refuseClaims
  split
  · dsimp only
    have h1 : Sound P Q (s.modCtx c (fun x => { x with flights := x.flights.map (fun f => { f with claim := false }) })) := by
      refine h.modCtx c _ ⟨fun hx => ?_, fun _ => by simp, .of_eq rfl, .of_eq rfl, .refl _⟩
      obtain ⟨a, b, d, e, i, j⟩ := hx
      refine ⟨a, by simpa using b, fun f hf => ?_, by simpa [Function.comp_def] using e, by simpa [Function.comp_def] using i,
        fun hn => j (fun h0 => hn (by simp [h0]))⟩
      obtain ⟨g, hg, rfl⟩ := List.mem_map.1 hf
      exact d g hg
    split
    · exact Sound.failCtx (h1.modCtx c _ (.of_flights rfl rfl (fun _ g => g) (.of_eq rfl) (.of_eq rfl))) c _
    · exact h1
  · exact h

theorem Sound.steeringLeft (h : Sound P Q s) (k : SlotId) : Sound P Q (s.steeringLeft k) := by
  unfold State.steeringLeft State.twinLoss
  repeat' split
  all_goals first | exact h | exact h.primaryLoss _ | exact (h.setEntry _ _).raise _ _

theorem Sound.resolvePart (h : Sound P Q s) (n p : Nat) (r : PartResult) : Sound P Q (s.resolvePart n p r) := by
  unfold State.resolvePart
  split
  · exact h
  · dsimp only
    split <;> exact h.same rfl rfl

theorem Sound.resolveFence (h : Sound P Q s) (n : Nat) (w : Bool) (o : PartOutcome) : Sound P Q (s.resolveFence n w o) := by
  unfold State.resolveFence
  split
  · exact h
  · dsimp only
    repeat' split
    all_goals exact h.same rfl rfl

theorem Sound.deliverReturn (h : Sound P Q s) (o : Origin) (x : Txn) : Sound P Q (s.deliverReturn o x) := by
  unfold State.deliverReturn
  split
  · exact h.same rfl rfl
  · exact h.resolvePart _ _ _
  · exact h.walkReturn _ _ _ _
  · exact h.verifyReturn _ _ _ _
  all_goals exact h

theorem Sound.deliverFence (h : Sound P Q s) (o : Origin) : Sound P Q (s.deliverFence o) := by
  unfold State.deliverFence
  split
  · exact h.resolveFence _ _ _
  · exact h.cutoverDone _
  all_goals exact h

theorem Sound.closeEntry (h : Sound P Q s) (k : SlotId) (i : PendIdx) : Sound P Q (State.closeEntry k s i) := by
  unfold State.closeEntry
  split
  · exact h
  · have h1 : Sound P Q (s.freePend k i) := h.same rfl rfl
    unfold State.deliverLoss
    split
    · exact h1.same rfl rfl
    · exact h1.resolvePart _ _ _
    · exact h1.resolveFence _ _ _
    · exact h1.entryLost _ _
    · exact h1.entryLost _ _
    · exact h1.cutoverLost _
    · exact h1

theorem Sound.leaveReady (h : Sound P Q s) (k : SlotId) (st : SlotState) : Sound P Q (s.leaveReady k st) := by
  unfold State.leaveReady
  dsimp only
  refine (Sound.steeringLeft (Sound.foldl _ (fun _ c hs => hs.refuseClaims k c) _ ?_) k).engineLeft k
  have h1 : Sound P Q (s.modSlot k (fun p => { p with state := st, queue := [] })) := h.same rfl rfl
  have h2 := Sound.foldl (State.closeEntry k) (fun _ i hs => hs.closeEntry k i) (s.slot k).closeOrder h1
  exact h2.same rfl rfl

theorem Sound.depart (h : Sound P Q s) (k : SlotId) (st : SlotState) : Sound P Q (s.depart k st) := by
  unfold State.depart
  split
  · exact h.leaveReady k st
  · exact h.same rfl rfl

theorem Sound.goDown (h : Sound P Q s) (k : SlotId) : Sound P Q (s.goDown k) := by
  unfold State.goDown
  split
  · exact h
  · exact Sound.raise (Sound.same (t := (s.depart k .down).enterDown k) (h.depart k .down) rfl rfl) _ _

theorem Sound.goHalted (h : Sound P Q s) (k : SlotId) (a : HaltSource) (b : BitVec 8) : Sound P Q (s.goHalted k a b) :=
  Sound.raise (Sound.same (t := (s.depart k .halted).modSlot k _) (h.depart k .halted) rfl rfl) _ _

/-! ### The walk's grants (R103, R104, R109, R110) -/

theorem freeFlight_spec {x : Ctx} (h : x.FlightsFit) (hl : x.flights.length < x.window) :
    x.freeFlight.val < x.window ∧ ∀ f ∈ x.flights, f.num ≠ x.freeFlight := by
  obtain ⟨a, -, c, d, -, -⟩ := h
  have hex : ∃ n : FlightNum, n.val < x.window ∧ ∀ f ∈ x.flights, f.num ≠ n := by
    by_contra hc
    have hsub : ((List.finRange 4).filter (fun n : FlightNum => n.val < x.window)).Subperm (x.flights.map (·.num)) := by
      refine ((List.nodup_finRange 4).filter _).subperm (fun n hn => ?_)
      have hn2 := (List.mem_filter.1 hn).2
      by_contra hm
      exact hc ⟨n, by simpa using hn2, fun f hf he => hm (List.mem_map.2 ⟨f, hf, he⟩)⟩
    have h1 := hsub.length_le
    rw [List.length_map] at h1
    have h2 : ∀ w : Nat, w ≤ 4 → ((List.finRange 4).filter (fun n : FlightNum => n.val < w)).length = w := by
      intro w hw
      interval_cases w <;> decide
    rw [h2 _ a] at h1
    omega
  obtain ⟨n, hn, hno⟩ := hex
  have key : ∀ p : FlightNum → Bool, p n = true →
      p ((([0, 1, 2, 3] : List FlightNum).find? p).getD 0) = true ∧ (([0, 1, 2, 3] : List FlightNum).find? p).getD 0 ≤ n := by
    intro p hp
    fin_cases n <;> simp only [List.find?] <;> cases h0 : p 0 <;> cases h1 : p 1 <;> cases h2 : p 2 <;> cases h3 : p 3 <;> simp_all
  obtain ⟨k1, k2⟩ := key (fun n => !(x.flights.any (fun f => f.num == n))) (by simpa using hno)
  refine ⟨Nat.lt_of_le_of_lt k2 hn, fun f hf he => ?_⟩
  unfold Ctx.freeFlight at he
  rw [← he] at k1
  simp only [Bool.not_eq_true', List.any_eq_false] at k1
  exact k1 f hf (by simp)

theorem placeRange_perm (x : Ctx) (g : Range) (l : List Range) : (x.placeRange g l).Perm (g :: l) := by
  induction l with
  | nil => exact .refl _
  | cons h l ih =>
    unfold Ctx.placeRange
    split
    · exact .refl _
    · exact (ih.cons h).trans (.swap _ _ _)

/-- A range is placed in list order (R123). -/
theorem placeRange_ordered (x : Ctx) (g : Range) (l : List Range) (h : l.Pairwise (fun p q => x.rangeBefore q p = false)) :
    (x.placeRange g l).Pairwise (fun p q => x.rangeBefore q p = false) := by
  induction l with
  | nil => exact List.pairwise_singleton _ _
  | cons a l ih =>
    obtain ⟨h1, h2⟩ := List.pairwise_cons.1 h
    unfold Ctx.placeRange
    split
    · rename_i hb
      refine List.pairwise_cons.2 ⟨fun y hy => ?_, h⟩
      rcases List.mem_cons.1 hy with rfl | hy
      · simp [Ctx.rangeBefore] at hb ⊢; omega
      · have hy := h1 y hy
        simp [Ctx.rangeBefore] at hb hy ⊢; omega
    · rename_i hb
      refine List.pairwise_cons.2 ⟨fun y hy => ?_, ih h2⟩
      rcases List.mem_cons.1 ((placeRange_perm x g l).mem_iff.1 hy) with rfl | hy
      · simpa using hb
      · exact h1 y hy

theorem popRevisit_ordered (x : Ctx) (h : x.revisit.Pairwise (fun p q => x.rangeBefore q p = false)) :
    x.popRevisit.Pairwise (fun p q => x.rangeBefore q p = false) := by
  unfold Ctx.popRevisit
  split
  · exact .nil
  · rename_i g gs hx
    rw [hx] at h
    split
    · exact placeRange_ordered x _ gs (List.pairwise_cons.1 h).2
    · exact (List.pairwise_cons.1 h).2

theorem popRevisit_within (x : Ctx) : Within (x.popRevisit.map (·.num)) (x.revisit.map (·.num)) := by
  unfold Ctx.popRevisit
  split
  · rename_i h; rw [h]; exact .of_eq rfl
  · rename_i g gs h
    rw [h]
    split
    · exact .of_perm ((placeRange_perm x _ gs).map _)
    · exact .of_sublist (by simp)

theorem popRevisit_apart (x : Ctx) : KeepsApart x.revisit x.popRevisit := fun _ h => by
  unfold Ctx.popRevisit
  split
  · exact rangesApart_nil
  · rename_i g gs hx
    rw [hx] at h
    split
    · rename_i hl
      refine RangesApart.perm (rangesApart_cons (g := { g with first := g.first + 1 }) (h.sublist (List.sublist_cons_self _ _)) hl
        (fun y hy e => ?_)) (placeRange_perm x _ gs)
      have h1 := h.1 g (by simp)
      rcases (List.pairwise_cons.1 h.2).1 y hy e with c | c
      · exact .inl c
      · exact .inr (by show y.last + 1 < g.first + 1; omega)
    · exact h.sublist (List.sublist_cons_self _ _)

theorem advance_same (f : Nat) (x : Ctx) :
    (x.advance f).flights = x.flights ∧ (x.advance f).window = x.window ∧ (x.advance f).state = x.state ∧
      (x.advance f).segs = x.segs ∧ (x.advance f).revisit = x.revisit := by
  unfold Ctx.advance
  repeat' split
  all_goals exact ⟨rfl, rfl, rfl, rfl, rfl⟩

theorem issued_same (w : Work) (g : StagingId) (x : Ctx) :
    (Ctx.issued w g x).flights =
        x.flights ++ [{ num := x.freeFlight, region := w.id, entry := w.entry, phase := .fetch, staging := g }] ∧
      (Ctx.issued w g x).window = x.window ∧ (Ctx.issued w g x).state = x.state ∧ (Ctx.issued w g x).segs = x.segs ∧
      Within ((Ctx.issued w g x).revisit.map (·.num)) (x.revisit.map (·.num)) ∧ KeepsApart x.revisit (Ctx.issued w g x).revisit := by
  unfold Ctx.issued
  dsimp only
  split
  · unfold Ctx.startPace
    obtain ⟨a, b, c, d, e⟩ := advance_same (w.entry + 1) { x with
      held := if x.held = some (w.id, w.entry) then none else x.held
      flights := x.flights ++ [{ num := x.freeFlight, region := w.id, entry := w.entry, phase := .fetch, staging := g }] }
    exact ⟨a, b, c, d, .of_eq (by rw [e]), fun _ h => by rw [e]; exact h⟩
  · exact ⟨rfl, rfl, rfl, rfl, popRevisit_within { x with
      held := if x.held = some (w.id, w.entry) then none else x.held
      flights := x.flights ++ [{ num := x.freeFlight, region := w.id, entry := w.entry, phase := .fetch, staging := g }] },
      popRevisit_apart { x with
        held := if x.held = some (w.id, w.entry) then none else x.held
        flights := x.flights ++ [{ num := x.freeFlight, region := w.id, entry := w.entry, phase := .fetch, staging := g }] }⟩

/-- A flight record is added, with a staging entry that was free. -/
theorem Sound.issue (h : Sound P Q s) (c : CtxId) (w : Work) (g : StagingId) (hg : s.staging[g] = none)
    (hl : (s.ctx c).flights.length < (s.ctx c).window) (hs : (s.ctx c).state = .walking)
    (hi : (s.ctx c).inFlight w.id w.entry = false) : Sound P Q ((s.setStaging g (some [])).modCtx c (Ctx.issued w g)) := by
  obtain ⟨i1, i2, i3, i4, i5, i6⟩ := issued_same w g (s.ctx c)
  have hc : ((s.setStaging g (some [])).modCtx c (Ctx.issued w g)).ctx c = Ctx.issued w g (s.ctx c) := by
    rw [modCtx_eq, ctx_setCtx_same]; rfl
  have ho : ∀ d, d ≠ c → ((s.setStaging g (some [])).modCtx c (Ctx.issued w g)).ctx d = s.ctx d := fun d hd => by
    rw [modCtx_eq, ctx_setCtx, if_neg (Ne.symm hd)]; rfl
  refine ⟨fun hp => ?_, fun hq => ⟨(h.po hq).1.within (fun d => ?_), (h.po hq).2.1.within (fun d => ?_), fun d => ?_⟩⟩
  · obtain ⟨h1, h2, h3⟩ := h.fl hp
    obtain ⟨n1, n2⟩ := freeFlight_spec (h1 c) hl
    have hfree : ∀ d, ∀ f ∈ (s.ctx d).flights, f.staging ≠ g := fun d f hf he =>
      (h3 g).2 ⟨d, f, hf, he⟩ hg
    refine ⟨fun d => ?_, h2.change c (fun d hd => ?_) ?_ ?_, fun j => ?_⟩
    · by_cases hd : d = c
      · subst hd
        rw [hc]
        obtain ⟨a, b, e, i, k, m⟩ := h1 d
        show Ctx.FlightsFit _
        unfold Ctx.FlightsFit
        rw [i1, i2, i3]
        refine ⟨a, by simpa using hl, fun f hf => ?_, ?_, ?_, fun _ => .inl hs⟩
        · rcases List.mem_append.1 hf with hf | hf
          · exact e f hf
          · rw [List.mem_singleton.1 hf]; exact n1
        · rw [List.map_append, List.nodup_append]
          refine ⟨i, by simp, fun y hy z hz => ?_⟩
          obtain ⟨f, hf, rfl⟩ := List.mem_map.1 hy
          rw [List.mem_singleton.1 hz]
          exact n2 f hf
        · rw [List.map_append, List.nodup_append]
          refine ⟨k, by simp, fun y hy z hz => ?_⟩
          obtain ⟨f, hf, rfl⟩ := List.mem_map.1 hy
          rw [List.mem_singleton.1 hz]
          intro he
          unfold Ctx.inFlight at hi
          rw [List.any_eq_false] at hi
          refine hi f hf ?_
          simp only [Prod.mk.injEq] at he
          simp [he.1, he.2]
      · rw [ho d hd]; exact h1 d
    · show _ = _; rw [ho d hd]
    · rw [hc, i1, List.map_append, List.nodup_append]
      refine ⟨h2.1 c, by simp, fun y hy z hz => ?_⟩
      obtain ⟨f, hf, rfl⟩ := List.mem_map.1 hy
      rw [List.mem_singleton.1 hz]
      exact hfree c f hf
    · intro n hn
      rw [hc, i1, List.map_append] at hn
      rcases List.mem_append.1 hn with hn | hn
      · exact .inl hn
      · rw [List.mem_singleton.1 hn]
        refine .inr (fun d _ hm => ?_)
        obtain ⟨f, hf, he⟩ := List.mem_map.1 hm
        exact hfree d f hf he
    · have hj : ((s.setStaging g (some [])).modCtx c (Ctx.issued w g)).staging[j] = if g = j then some [] else s.staging[j] := by
        show (s.staging.set g (some []))[j] = _
        by_cases hgj : g = j
        · rw [if_pos hgj]; subst hgj; simp
        · rw [if_neg hgj]
          have : (g : Nat) ≠ j := fun e => hgj (Fin.ext e)
          simp [this]
      rw [hj]
      by_cases hgj : g = j
      · rw [if_pos hgj]
        refine ⟨fun _ => ⟨c, ⟨(s.ctx c).freeFlight, w.id, w.entry, .fetch, g, false, false, false⟩, ?_, hgj⟩, fun _ => by simp⟩
        rw [hc, i1]; simp
      · rw [if_neg hgj, h3 j]
        constructor
        · rintro ⟨d, f, hf, he⟩
          by_cases hd : d = c
          · subst hd; exact ⟨d, f, by rw [hc, i1]; exact List.mem_append_left _ hf, he⟩
          · exact ⟨d, f, by rw [ho d hd]; exact hf, he⟩
        · rintro ⟨d, f, hf, he⟩
          by_cases hd : d = c
          · subst hd
            rw [hc, i1] at hf
            rcases List.mem_append.1 hf with hf | hf
            · exact ⟨d, f, hf, he⟩
            · rw [List.mem_singleton.1 hf] at he; exact absurd he hgj
          · rw [ho d hd] at hf; exact ⟨d, f, hf, he⟩
  · by_cases hd : d = c
    · subst hd; rw [hc, i4]; exact .of_eq rfl
    · rw [ho d hd]; exact .of_eq rfl
  · by_cases hd : d = c
    · subst hd; rw [hc]; exact i5
    · rw [ho d hd]; exact .of_eq rfl
  · by_cases hd : d = c
    · subst hd; rw [hc]; exact i6 ((h.po hq).2.1.1 d) ((h.po hq).2.2 d)
    · rw [ho d hd]; exact (h.po hq).2.2 d

theorem freeStaging?_spec {g : StagingId} (h : s.freeStaging? = some g) : s.staging[g] = none := by
  have := List.find?_some h
  simpa using this

/-- A grant of a fetch to a context that the arbiter chose (R101, R103). -/
theorem Sound.grantFetch (h : Sound P Q s) (c : CtxId) (w : Work) (hz : w.zero = false) (hs : (s.ctx c).state = .walking)
    (he : s.workEligible c w = true) : Sound P Q (s.grantFetch c w) := by
  unfold State.workEligible at he
  rw [hz] at he
  simp only [Bool.false_eq_true, if_false, Bool.and_eq_true, Bool.not_eq_true', decide_eq_true_eq] at he
  have h0 : Sound P Q (s.served c) := h.same rfl rfl
  unfold State.grantFetch
  dsimp only
  split
  · exact (h0.modCtx c _ (.of_flights rfl rfl (fun _ _ => .inr rfl) (.of_eq rfl) (.of_eq rfl))).raise _ _
  · unfold State.issueFetch
    split
    · rename_i g t hg ht
      have ht2 := h0.claim ht
      obtain ⟨-, q, -, rfl⟩ := claim_spec ht
      exact Sound.testSynced (ht2.issue c w g (freeStaging?_spec hg) he.2.1.1.1 hs he.1) c
    · exact h0

theorem Sound.grantZero (h : Sound P Q s) (c : CtxId) (w : Work) : Sound P Q (s.grantZero c w) := by
  have h0 : Sound P Q (s.served c) := h.same rfl rfl
  unfold State.grantZero
  dsimp only
  split
  · rename_i t ht
    refine Sound.testSynced ((h0.claim ht).modCtx c _ ?_) c
    unfold Ctx.zeroed Ctx.startPace
    obtain ⟨a, b, d, e, f⟩ := advance_same (w.entry + (s.served c).zeroRun c w)
      { t.ctx c with counters := (t.ctx c).counters.addWritten ((s.served c).zeroRun c w) }
    exact .of_flights a b (fun _ g => by dsimp only; rw [d]; exact g) (.of_eq (by dsimp only; rw [e])) (.of_eq (by dsimp only; rw [f]))
      (fun _ h => by dsimp only; rw [f]; exact h)
  · exact h0

/-! ### The revisit list (R124 to R127) -/

theorem freeRange?_spec {n : RangeId} (h : s.freeRange? = some n) : ∀ c, n ∉ (s.ctx c).revisit.map (·.num) := by
  intro c hc
  have := List.find?_some h
  simp only [Bool.not_eq_true', ← Bool.not_eq_true, List.contains_iff_mem] at this
  exact this (List.mem_flatMap.2 ⟨c, (by decide : ∀ c : CtxId, c ∈ allCtxs) c, hc⟩)

theorem freeSegment?_spec {n : SegmentId} (h : s.freeSegment? = some n) : ∀ c, n ∉ (s.ctx c).segs.map (·.num) := by
  intro c hc
  have := List.find?_some h
  simp only [Bool.not_eq_true', ← Bool.not_eq_true, List.contains_iff_mem] at this
  exact this (List.mem_flatMap.2 ⟨c, (by decide : ∀ c : CtxId, c ∈ allCtxs) c, hc⟩)

theorem extendRevisit_within {x : Ctx} {r : RegionId} {e : Nat} {l : List Range} (h : x.extendRevisit r e = some l) :
    Within (l.map (·.num)) (x.revisit.map (·.num)) := by
  have hmap : ∀ (m : List Range) (b : Range) (y : Nat),
      (m.map (fun g => if g.num = b.num then { g with last := y } else g)).map (·.num) = m.map (·.num) := by
    intro m b y
    rw [List.map_map]
    refine List.map_congr_left (fun g _ => ?_)
    show (if g.num = b.num then { g with last := y } else g).num = g.num
    split <;> rfl
  unfold Ctx.extendRevisit at h
  split at h
  · cases h; rw [hmap]; exact .of_sublist (List.filter_sublist.map _)
  · cases h; rw [hmap]; exact .of_eq rfl
  · rename_i a _ ha
    cases h
    have hm : a ∈ x.revisit := List.mem_of_find?_eq_some ha
    have hp := (placeRange_perm x { a with first := e } (x.revisit.filter (fun g => g.num ≠ a.num))).map (·.num)
    refine Within.trans (.of_perm hp) ⟨fun hn => ?_, fun n hn => ?_⟩
    · rw [List.map_cons, List.nodup_cons]
      refine ⟨fun hc => ?_, hn.sublist (List.filter_sublist.map _)⟩
      obtain ⟨g, hg, he⟩ := List.mem_map.1 hc
      have := (List.mem_filter.1 hg).2
      simp [he] at this
    · rcases List.mem_cons.1 hn with rfl | hn
      · exact List.mem_map.2 ⟨a, hm, rfl⟩
      · exact (List.filter_sublist.map _).subset hn
  · cases h

theorem find?_region {l : List Range} {r : RegionId} {t : Range → Bool} {g : Range}
    (h : l.find? (fun g => g.region == r && t g) = some g) : g ∈ l ∧ g.region = r ∧ t g = true :=
  ⟨List.mem_of_find?_eq_some h, by simpa using List.find?_some h⟩

theorem extendRevisit_apart {x : Ctx} {r : RegionId} {e : Nat} {l : List Range} (h : x.extendRevisit r e = some l) :
    KeepsApart x.revisit l := fun hn ha => by
  have other : ∀ {g y : Range}, g ∈ x.revisit → y ∈ x.revisit → y.num ≠ g.num → g.Clear y := fun hg hy hne =>
    ha.clear hg hy (fun e => hne (by rw [e]))
  have hlast : ∀ (b : Range) (m : List Range), b ∈ x.revisit → (∀ z ∈ m, z ∈ x.revisit) → ∀ y,
      m.map (fun g => if g.num = b.num then { g with last := y } else g) =
        m.map (fun g => if g.num = b.num then { b with last := y } else g) := fun b m hb hm y =>
    List.map_congr_left (fun g hg => by
      split
      · rename_i e; rw [List.inj_on_of_nodup_map hn (hm g hg) hb e]
      · rfl)
  unfold Ctx.extendRevisit at h
  split at h
  · rename_i b a hb hc
    cases h
    obtain ⟨hbm, hbr, hbl⟩ := find?_region hb
    obtain ⟨ham, har, haf⟩ := find?_region hc
    have hbl : b.last + 1 = e := by simpa using hbl
    have haf : a.first = e + 1 := by simpa using haf
    have h1 := ha.1 b hbm
    have h2 := ha.1 a ham
    have hsub : (x.revisit.filter (fun g => g.num ≠ a.num)).Sublist x.revisit := List.filter_sublist
    rw [hlast b _ hbm (fun z hz => hsub.subset hz)]
    refine (ha.sublist hsub).put (hn.sublist (hsub.map _)) (by show b.first ≤ a.last; omega) (fun z hz hzb e => ?_)
    obtain ⟨hzm, hza⟩ := List.mem_filter.1 hz
    have hz1 := ha.1 z hzm
    have e : b.region = z.region := e
    have c1 := other hbm hzm hzb e
    have c2 := other ham hzm (by simpa using hza) (by rw [har, ← hbr, e])
    show a.last + 1 < z.first ∨ z.last + 1 < b.first
    omega
  · rename_i b hb hc
    cases h
    obtain ⟨hbm, hbr, hbl⟩ := find?_region hb
    have hbl : b.last + 1 = e := by simpa using hbl
    have h1 := ha.1 b hbm
    rw [hlast b _ hbm (fun z hz => hz)]
    refine ha.put hn (by show b.first ≤ e; omega) (fun z hzm hzb er => ?_)
    have er : b.region = z.region := er
    have c1 := other hbm hzm hzb er
    have hz := List.find?_eq_none.1 hc z hzm
    have : z.first ≠ e + 1 := by simpa [← er, hbr] using hz
    show e + 1 < z.first ∨ z.last + 1 < b.first
    omega
  · rename_i a hb hc
    cases h
    obtain ⟨ham, har, haf⟩ := find?_region hc
    have haf : a.first = e + 1 := by simpa using haf
    have h1 := ha.1 a ham
    have hsub : (x.revisit.filter (fun g => g.num ≠ a.num)).Sublist x.revisit := List.filter_sublist
    refine RangesApart.perm (rangesApart_cons (ha.sublist hsub) (by show e ≤ a.last; omega) (fun z hz er => ?_)) (placeRange_perm x _ _)
    obtain ⟨hzm, hza⟩ := List.mem_filter.1 hz
    have er : a.region = z.region := er
    have c1 := other ham hzm (by simpa using hza) er
    have hz := List.find?_eq_none.1 hb z hzm
    have : z.last + 1 ≠ e := by simpa [← er, har] using hz
    show a.last + 1 < z.first ∨ z.last + 1 < e
    omega
  · cases h

/-- A record of its own for an entry that no range holds, and that none adjoins (R124). -/
theorem newRange_apart {x : Ctx} {r : RegionId} {e : Nat} (n : RangeId) (hw : (x.revisit.any (fun g => g.has r e)) = false)
    (h : x.extendRevisit r e = none) : KeepsApart x.revisit (x.placeRange ⟨n, r, e, e⟩ x.revisit) := fun _ ha => by
  have hno : x.revisit.find? (fun g => g.region == r && g.last + 1 == e) = none ∧
      x.revisit.find? (fun g => g.region == r && g.first == e + 1) = none := by
    unfold Ctx.extendRevisit at h
    split at h
    iterate 3 cases h
    exact ⟨‹_›, ‹_›⟩
  refine RangesApart.perm (rangesApart_cons ha (Nat.le_refl e) (fun z hz er => ?_)) (placeRange_perm x _ _)
  have er : r = z.region := er
  have h1 := List.find?_eq_none.1 hno.1 z hz
  have h2 := List.find?_eq_none.1 hno.2 z hz
  have h3 := List.any_eq_false.1 hw z hz
  simp only [Range.has, ← er, beq_self_eq_true, Bool.true_and, Bool.and_eq_true, decide_eq_true_eq, beq_iff_eq] at h1 h2 h3
  show e + 1 < z.first ∨ z.last + 1 < e
  omega

theorem Sound.addRevisit (h : Sound P Q s) (c : CtxId) (r : RegionId) (e : Nat) : Sound P Q (s.addRevisit c r e).1 := by
  unfold State.addRevisit
  dsimp only
  repeat' split
  · exact h
  · rename_i l hl
    dsimp only
    refine h.modCtx c _ ?_
    exact .of_flights rfl rfl (fun _ g => g) (.of_eq rfl) (extendRevisit_within hl) (extendRevisit_apart hl)
  · rename_i hw _ hx _ n hn
    have hp : (((s.ctx c).placeRange ⟨n, r, e, e⟩ (s.ctx c).revisit).map (·.num)).Perm (n :: (s.ctx c).revisit.map (·.num)) :=
      (placeRange_perm _ _ _).map (·.num)
    refine h.put c _ (fun g => g) rfl id (fun _ g => .inl g) (fun g => ?_) (fun m hm => ?_)
      (newRange_apart n (by simpa using hw) hx)
    · exact hp.nodup_iff.2 (List.nodup_cons.2 ⟨freeRange?_spec hn c, g⟩)
    · rcases List.mem_cons.1 (hp.mem_iff.1 hm) with rfl | hm
      · exact .inr (freeRange?_spec hn)
      · exact .inl hm
  · unfold State.exhausted
    split
    · refine (h.modCtx c _ ?_).raise _ _
      have : ∀ x : Ctx, x.toHead.flights = x.flights ∧ x.toHead.window = x.window ∧ x.toHead.state = x.state ∧
          x.toHead.segs = x.segs ∧ x.toHead.revisit = x.revisit := fun x => by
        unfold Ctx.toHead; split <;> exact ⟨rfl, rfl, rfl, rfl, rfl⟩
      obtain ⟨a, b, d, i, j⟩ := this { s.ctx c with
        revisit := [], rewalkCount := (s.ctx c).rewalkCount + 1, counters := (s.ctx c).counters.addRewalk, held := none }
      exact .of_flights a b (fun _ g => by unfold Ctx.rewalk; rw [d]; exact g) (.of_eq (by unfold Ctx.rewalk; rw [i]))
        (.of_sublist (by unfold Ctx.rewalk; rw [j]; simp)) (.of_nil (by unfold Ctx.rewalk; rw [j]))
    · exact h.failCtx c _

/-! ### The agent's traffic (R51, R52, R120 to R122) -/

theorem Sound.claimAll {l : List (SlotId × List ClaimTxn)} (h : Sound P Q s) (hc : s.claimAll l = some t) : Sound P Q t := by
  obtain ⟨h1, -⟩ := claimAll_spec hc
  exact h.same (by rw [h1]) (by rw [h1])

theorem Sound.settlePiece (e : SteerEntry) (v : Verdict) (x : State × Bool) (h : Sound P Q x.1) :
    Sound P Q (State.settlePiece e x v).1 := by
  have h1 : Sound P Q (x.1.countDiscard e v) := by
    unfold State.countDiscard
    split
    · exact h
    · exact Sound.raise (Sound.same (t := { x.1 with globals := x.1.globals.addDiscard }) h rfl rfl) _ _
  have h2 : Sound P Q ((x.1.countDiscard e v).countWithheld e v) := by
    unfold State.countWithheld
    split <;> first | exact h1 | exact h1.same rfl rfl
  have h3 : Sound P Q (((x.1.countDiscard e v).countWithheld e v).countUncovered v) := by
    unfold State.countUncovered
    split
    · exact h2.same rfl rfl
    · exact h2
  unfold State.settlePiece
  dsimp only
  generalize ((x.1.countDiscard e v).countWithheld e v).countUncovered v = u at h3
  have h4 : Sound P Q (u.reportGap e v) := by
    unfold State.reportGap
    repeat' split
    all_goals first | exact h3 | exact h3.same rfl rfl
  unfold State.reportRevisit
  repeat' split
  all_goals first | exact h4 | exact h4.addRevisit _ _ _

theorem Sound.settlePieces (h : Sound P Q s) (e : SteerEntry) (vs : List Verdict) : Sound P Q (s.settlePieces e vs) := by
  unfold State.settlePieces
  suffices ∀ x : State × Bool, Sound P Q x.1 → Sound P Q (vs.foldl (State.settlePiece e) x).1 from this (s, false) h
  induction vs with
  | nil => exact fun x hx => hx
  | cons v vs ih => exact fun x hx => ih _ (Sound.settlePiece e v x hx)

theorem Sound.cutHead (h : Sound P Q s) : Sound P Q s.cutHead := by
  unfold State.cutHead
  repeat' split
  all_goals first | exact h | exact h.same rfl rfl

/-! ### The requests on contexts (R81 to R94, R160, R162, R166) -/

theorem Sound.openCtx (h : Sound P Q s) (q : OpenParams) (hw : q.window ≤ 4) : Sound P Q (s.openCtx q).1 := by
  unfold State.openCtx
  split
  · exact h
  · rename_i hs
    split
    · exact h
    · split
      · refine Sound.setEntry (h.modCtx q.ctx (Ctx.opened q _ _ _)
          ⟨fun hx => ?_, fun _ => rfl, .of_sublist (List.nil_sublist _), .of_eq rfl, .refl _⟩) _ _
        have hn : (s.ctx q.ctx).flights = [] := by
          by_contra hn
          have := hx.2.2.2.2.2 hn
          rw [not_not.1 hs] at this
          rcases this with g | g <;> cases g
        unfold Ctx.FlightsFit Ctx.opened
        dsimp only
        rw [hn]
        exact ⟨hw, by simp, by simp, by simp, by simp, fun g => absurd rfl g⟩
      · exact h
    · exact h

theorem Sound.appendSeg (h : Sound P Q s) (q : SegParams) : Sound P Q (s.appendSeg q).1 := by
  unfold State.appendSeg
  repeat' split
  any_goals exact h
  rename_i n hn
  dsimp only
  have hp : (((s.ctx q.ctx).segs ++ [(⟨n, q.region, q.first, q.count⟩ : Segment)]).map (·.num)).Perm
      (n :: (s.ctx q.ctx).segs.map (·.num)) := by
    rw [List.map_append]; exact List.perm_append_comm
  refine h.put q.ctx _ (fun g => g) rfl (fun g => ?_) (fun m hm => ?_) id (fun _ g => .inl g)
  · exact hp.nodup_iff.2 (List.nodup_cons.2 ⟨freeSegment?_spec hn q.ctx, g⟩)
  · rcases List.mem_cons.1 (hp.mem_iff.1 hm) with rfl | hm
    · exact .inr (freeSegment?_spec hn)
    · exact .inl hm

theorem toHead_records (x : Ctx) : x.toHead.flights = x.flights ∧ x.toHead.window = x.window ∧ x.toHead.segs = x.segs ∧
    x.toHead.revisit = x.revisit := by
  unfold Ctx.toHead
  split <;> exact ⟨rfl, rfl, rfl, rfl⟩

theorem Sound.startCtx (h : Sound P Q s) (c : CtxId) : Sound P Q (s.startCtx c).1 := by
  unfold State.startCtx
  repeat' split
  any_goals exact h
  rename_i hs _ _
  dsimp only
  obtain ⟨a, b, d, e⟩ := toHead_records (s.ctx c)
  exact h.modCtx c _ (.of_flights a b (fun _ g => by rw [not_not.1 hs] at g; rcases g with g | g <;> cases g)
    (.of_eq (by dsimp only; rw [d])) (.of_eq (by dsimp only; rw [e])) (fun _ h => by dsimp only; rw [e]; exact h))

theorem Sound.pauseCtx (h : Sound P Q s) (c : CtxId) : Sound P Q (s.pauseCtx c).1 := by
  unfold State.pauseCtx
  split
  all_goals dsimp only
  all_goals first
    | exact h
    | exact h.modCtx c _ (.of_flights rfl rfl (fun _ _ => .inr rfl) (.of_eq rfl) (.of_eq rfl))

theorem Sound.resumeCtx (h : Sound P Q s) (c : CtxId) : Sound P Q (s.resumeCtx c).1 := by
  unfold State.resumeCtx
  split
  · exact Sound.testSynced (h.modCtx c _ (.of_flights rfl rfl (fun _ _ => .inl rfl) (.of_eq rfl) (.of_eq rfl))) c
  · exact h

theorem Sound.setStop (h : Sound P Q s) (c : CtxId) (p : Option StopPoint) : Sound P Q (s.setStop c p).1 := by
  unfold State.setStop
  split
  all_goals dsimp only
  all_goals first
    | exact h
    | exact h.modCtx c _ (.of_flights rfl rfl (fun _ g => g) (.of_eq rfl) (.of_eq rfl))

theorem Sound.endCtx (h : Sound P Q s) (c : CtxId) (o : LastOutcome) : Sound P Q (s.endCtx c o) := by
  have h1 : Sound P Q ((s.release c).dropGapsOf c) := (h.release c).same rfl rfl
  exact h1.modCtx c _ (.of_none (flights_release s c) (flights_release s c) (fun g => g) (.of_eq rfl) (.of_eq rfl))

theorem Sound.abortCtx (h : Sound P Q s) (c : CtxId) : Sound P Q (s.abortCtx c).1 := by
  unfold State.abortCtx
  split
  · exact h
  · exact (h.sendDeferred c _ _).endCtx c _

theorem Sound.closeCtx (h : Sound P Q s) (c : CtxId) : Sound P Q (s.closeCtx c).1 := by
  unfold State.closeCtx
  split
  all_goals first | exact h | exact h.endCtx c _

theorem Sound.cutover (h : Sound P Q s) (c : CtxId) (tag : BitVec 8) : Sound P Q (s.cutover c tag).1 := by
  unfold State.cutover
  repeat' split
  any_goals exact h
  rename_i hs _ _
  refine Sound.enterCutting (h.modCtx c _ (.of_flights rfl rfl (fun _ g => g) (.of_eq rfl) (.of_eq rfl))) c ?_
  rw [modCtx_eq, ctx_setCtx_same]
  exact not_not.1 hs

theorem Sound.softReset (h : Sound P Q s) : Sound P Q s.softReset := by
  have h1 : ∀ (u : State) (c : CtxId), Sound P Q u → Sound P Q (State.softResetCtx u c) := fun u c hu => by
    unfold State.softResetCtx
    split
    · exact hu
    · exact Sound.sendDeferred ((hu.release c).modCtx c _
        (.of_none (flights_release u c) (flights_release u c) (fun g => g) (.of_eq rfl) (.of_eq rfl))) c _ _
  have h2 := Sound.foldl State.softResetCtx h1 allCtxs h
  unfold State.softReset
  dsimp only
  generalize allCtxs.foldl State.softResetCtx s = u at h2
  exact h2.same rfl rfl

theorem Sound.clearScope (h : Sound P Q s) (x : Scope) : Sound P Q (s.clearScope x) := by
  have hk : ∀ y : Ctx, y.Keeps y.clearCounters := fun y => .of_flights rfl rfl (fun _ g => g) (.of_eq rfl) (.of_eq rfl)
  cases x with
  | all =>
    refine h.keeps rfl (fun c => ?_)
    have : (s.clearScope .all).ctx c = (s.ctx c).clearCounters := by simp [State.clearScope, State.clearAll, State.ctx]
    rw [this]; exact hk _
  | global => exact h.same rfl rfl
  | slot k => exact h.same rfl rfl
  | ctx c => exact h.modCtx c _ (hk _)

theorem Sound.sendOpened (h : Sound P Q s) : Sound P Q s.sendOpened :=
  Sound.foldl State.trySend (fun u k hu => by
    unfold State.trySend
    split
    · exact hu.same rfl rfl
    · exact hu) _ h

end Sys2Proof.Machine
end

