-- ==== Sys2Proof/Laws/Parsing.lean ====
section
/-! SUPPORT. What the parameter words of each request are read as: one equivalence per parser (R164 and the rule of each request). -/

namespace Sys2Proof.Machine

/-! ### Single words -/

theorem toIndex_some {n v : Nat} {i : Fin n} : toIndex n v = some i ↔ v = i.val := by
  unfold toIndex
  constructor
  · intro h
    split at h
    · cases h; rfl
    · cases h
  · rintro rfl; rw [dif_pos i.isLt]

theorem toFlag_some {v : Nat} {a : Bool} : toFlag v = some a ↔ v = a.toNat := by
  unfold toFlag
  by_cases h0 : v = 0
  · subst h0; cases a <;> simp
  · by_cases h1 : v = 1
    · subst h1; cases a <;> simp
    · rw [if_neg h0, if_neg h1]; cases a <;> simp [h0, h1]

theorem toView_some {v : Nat} {w : View} : toView v = some w ↔ v = w.code := by
  unfold toView
  by_cases h0 : v = 0
  · subst h0; cases w <;> simp [View.code]
  · by_cases h1 : v = 1
    · subst h1; cases w <;> simp [View.code]
    · rw [if_neg h0, if_neg h1]; cases w <;> simp [View.code, h0, h1]

theorem toRange_some {lo hi v w : Nat} : toRange lo hi v = some w ↔ v = w ∧ lo ≤ w ∧ w ≤ hi := by
  unfold toRange
  constructor
  · intro h
    split at h
    · rename_i hc; cases h; exact ⟨rfl, hc⟩
    · cases h
  · rintro ⟨rfl, h⟩; rw [if_pos h]

theorem toRegionOrAll_some {v : Nat} {i : Option RegionId} :
    toRegionOrAll v = some i ↔ v = (i.map (·.val)).getD 255 := by
  unfold toRegionOrAll
  by_cases h : v = 255
  · subst h
    rw [if_pos rfl]
    cases i with
    | none => simp
    | some i => simp; omega
  · rw [if_neg h]
    cases i with
    | none => simp [h]
    | some i => simp [toIndex_some]

theorem toPace_some {v : Nat} {p : Option Nat} : toPace v = some p ↔ v ≤ 65535 ∧ p = if v = 0 then none else some v := by
  unfold toPace
  by_cases h : v = 0
  · subst h; simp [eq_comm]
  · rw [if_neg h, if_neg h]
    simp only [Option.map_eq_some_iff, toRange_some]
    constructor
    · rintro ⟨w, ⟨rfl, _, h2⟩, rfl⟩; exact ⟨h2, rfl⟩
    · rintro ⟨h2, rfl⟩; exact ⟨v, ⟨rfl, by omega, h2⟩, rfl⟩

theorem toVerify_some {v : Nat} {p : Option Nat} :
    toVerify v = some p ↔ v = p.getD 0 ∧ ∀ n, p = some n → 1 ≤ n ∧ n ≤ 255 := by
  unfold toVerify
  by_cases h : v = 0
  · subst h
    rw [if_pos rfl]
    cases p with
    | none => simp
    | some n => simp; omega
  · rw [if_neg h]
    cases p with
    | none => simp [h]
    | some n => simp [toRange_some]

theorem toMode_some {v : Nat} {m : CopyMode} : toMode v = some m ↔ v = m.code := by
  unfold toMode
  split
  · cases m <;> simp [CopyMode.code]
  · cases m <;> simp [CopyMode.code]
  · cases m <;> simp [CopyMode.code]
  · cases m <;> simp [CopyMode.code]
  · cases m <;> simp_all [CopyMode.code]

/-! ### Whole requests -/

theorem parseIndex_some {n : Nat} {ps : List Nat} {i : Fin n} : parseIndex n ps = some i ↔ ps = [i.val] := by
  unfold parseIndex
  split
  · simp [toIndex_some]
  · rename_i h
    constructor
    · simp
    · rintro rfl; exact absurd rfl (h _)

theorem parseSteer_some {ps : List Nat} {p : SteerParams} :
    parseSteer ps = some p ↔ ps = [p.board.val, p.slot.val, p.set.val, p.view.code, p.autoSwap.toNat] := by
  unfold parseSteer
  split
  · simp only [Option.bind_eq_bind, Option.bind_eq_some_iff, Option.pure_def, Option.some.injEq, toIndex_some, toView_some,
      toFlag_some, List.cons.injEq]
    constructor
    · rintro ⟨_, h1, _, h2, _, h3, _, h4, _, h5, rfl⟩; exact ⟨h1, h2, h3, h4, h5, trivial⟩
    · rintro ⟨h1, h2, h3, h4, h5, -⟩; exact ⟨_, h1, _, h2, _, h3, _, h4, _, h5, rfl⟩
  · rename_i h
    constructor
    · simp
    · rintro rfl; exact absurd rfl (h _ _ _ _ _)

theorem parseTwin_some {ps : List Nat} {b : BoardId} {k : SlotId} : parseTwin ps = some (b, k) ↔ ps = [b.val, k.val] := by
  unfold parseTwin
  split
  · simp only [Option.bind_eq_bind, Option.bind_eq_some_iff, Option.pure_def, Option.some.injEq, toIndex_some, Prod.mk.injEq,
      List.cons.injEq]
    constructor
    · rintro ⟨_, h1, _, h2, rfl, rfl⟩; exact ⟨h1, h2, trivial⟩
    · rintro ⟨h1, h2, -⟩; exact ⟨_, h1, _, h2, rfl, rfl⟩
  · rename_i h
    constructor
    · simp
    · rintro rfl; exact absurd rfl (h _ _)

theorem parseLevel_some {ps : List Nat} {g : GroupId} {l : Level} : parseLevel ps = some (g, l) ↔ ps = [g.val, l.val] := by
  unfold parseLevel
  split
  · simp only [Option.bind_eq_bind, Option.bind_eq_some_iff, Option.pure_def, Option.some.injEq, toIndex_some, Prod.mk.injEq,
      List.cons.injEq]
    constructor
    · rintro ⟨_, h1, _, h2, rfl, rfl⟩; exact ⟨h1, h2, trivial⟩
    · rintro ⟨h1, h2, -⟩; exact ⟨_, h1, _, h2, rfl, rfl⟩
  · rename_i h
    constructor
    · simp
    · rintro rfl; exact absurd rfl (h _ _)

theorem parseSeg_some {ps : List Nat} {q : SegParams} :
    parseSeg ps = some q ↔ ps = [q.ctx.val, q.region.val, q.first, q.count] ∧ q.first ≤ 16777215 ∧ 1 ≤ q.count ∧
      q.count ≤ 16777216 := by
  unfold parseSeg
  split
  · simp only [Option.bind_eq_bind, Option.bind_eq_some_iff, Option.pure_def, Option.some.injEq, toIndex_some, toRange_some,
      List.cons.injEq]
    constructor
    · rintro ⟨_, h1, _, h2, _, ⟨h3, _, h4⟩, _, ⟨h5, h6⟩, rfl⟩; exact ⟨⟨h1, h2, h3, h5, trivial⟩, h4, h6⟩
    · rintro ⟨⟨h1, h2, h3, h5, -⟩, h4, h6⟩; exact ⟨_, h1, _, h2, _, ⟨h3, Nat.zero_le _, h4⟩, _, ⟨h5, h6⟩, rfl⟩
  · rename_i h
    constructor
    · simp
    · rintro ⟨rfl, -⟩; exact absurd rfl (h _ _ _ _)

theorem parseWaive_some {ps : List Nat} {q : WaiveParams} :
    parseWaive ps = some q ↔ ps = [q.ctx.val, (q.region.map (·.val)).getD 255, q.entry] ∧ q.entry ≤ 16777215 := by
  unfold parseWaive
  split
  · simp only [Option.bind_eq_bind, Option.bind_eq_some_iff, Option.pure_def, Option.some.injEq, toIndex_some, toRange_some,
      toRegionOrAll_some, List.cons.injEq]
    constructor
    · rintro ⟨_, h1, _, h2, _, ⟨h3, _, h4⟩, rfl⟩; exact ⟨⟨h1, h2, h3, trivial⟩, h4⟩
    · rintro ⟨⟨h1, h2, h3, -⟩, h4⟩; exact ⟨_, h1, _, h2, _, ⟨h3, Nat.zero_le _, h4⟩, rfl⟩
  · rename_i h
    constructor
    · simp
    · rintro ⟨rfl, -⟩; exact absurd rfl (h _ _ _)

theorem toStop_some {r : Option RegionId} {v m mode : Nat} {p : Option StopPoint} :
    toStop r v m mode = some p ↔ mode ≤ 2 ∧
      p = if mode = 0 then none else some ⟨r, BitVec.ofNat 24 v, BitVec.ofNat 24 m, mode = 2⟩ := by
  unfold toStop
  split
  · simp [eq_comm]
  · simp [eq_comm]
  · simp [eq_comm]
  · rename_i h0 h1 h2
    have : ¬ mode ≤ 2 := by
      intro h
      interval_cases mode
      · exact h0 rfl
      · exact h1 rfl
      · exact h2 rfl
    simp [this]

theorem parseStop_some {ps : List Nat} {c : CtxId} {p : Option StopPoint} :
    parseStop ps = some (c, p) ↔ ∃ (i : Option RegionId) (v m mode : Nat),
      ps = [c.val, (i.map (·.val)).getD 255, v, m, mode] ∧ v ≤ 16777215 ∧ m ≤ 16777215 ∧ mode ≤ 2 ∧
        p = if mode = 0 then none else some ⟨i, BitVec.ofNat 24 v, BitVec.ofNat 24 m, mode = 2⟩ := by
  unfold parseStop
  split
  · simp only [Option.bind_eq_bind, Option.bind_eq_some_iff, Option.pure_def, Option.some.injEq, toIndex_some, toRange_some,
      toRegionOrAll_some, toStop_some, Prod.mk.injEq, List.cons.injEq]
    constructor
    · rintro ⟨_, h1, i, h2, v, ⟨h3, _, h4⟩, m, ⟨h5, _, h6⟩, _, ⟨h7, h8⟩, rfl, rfl⟩
      exact ⟨i, v, m, _, ⟨h1, h2, h3, h5, rfl, trivial⟩, h4, h6, h7, h8⟩
    · rintro ⟨i, v, m, mode, ⟨h1, h2, h3, h5, rfl, -⟩, h4, h6, h7, h8⟩
      exact ⟨_, h1, i, h2, v, ⟨h3, Nat.zero_le _, h4⟩, m, ⟨h5, Nat.zero_le _, h6⟩, _, ⟨h7, h8⟩, rfl, rfl⟩
  · rename_i h
    constructor
    · simp
    · rintro ⟨i, v, m, mode, rfl, -⟩; exact absurd rfl (h _ _ _ _ _)

theorem parseOpenWords_some {c b p i w a l : Nat} {q : OpenParams} :
    parseOpenWords c b p i w a l = some q ↔ c = q.ctx.val ∧ b = q.board.val ∧ p = q.priority.val ∧ i ≤ 65535 ∧
      q.pace = (if i = 0 then none else some i) ∧ w = q.window ∧ 1 ≤ q.window ∧ q.window ≤ 4 ∧ a = q.autoCutover.toNat ∧
      l = q.rewalkLimit ∧ q.rewalkLimit ≤ 7 := by
  unfold parseOpenWords
  simp only [Option.bind_eq_bind, Option.bind_eq_some_iff, Option.pure_def, Option.some.injEq, toIndex_some, toRange_some,
    toPace_some, toFlag_some]
  constructor
  · rintro ⟨_, h1, _, h2, _, h3, _, ⟨h4, h5⟩, _, ⟨h6, h7, h8⟩, _, h9, _, ⟨h10, _, h11⟩, rfl⟩
    exact ⟨h1, h2, h3, h4, h5, h6, h7, h8, h9, h10, h11⟩
  · rintro ⟨h1, h2, h3, h4, h5, h6, h7, h8, h9, h10, h11⟩
    exact ⟨_, h1, _, h2, _, h3, _, ⟨h4, h5⟩, _, ⟨h6, h7, h8⟩, _, h9, _, ⟨h10, Nat.zero_le _, h11⟩, rfl⟩

theorem parseOpen_some {ps : List Nat} {q : OpenParams} :
    parseOpen ps = some q ↔ ∃ i, i ≤ 65535 ∧ q.pace = (if i = 0 then none else some i) ∧ 1 ≤ q.window ∧ q.window ≤ 4 ∧
      q.rewalkLimit ≤ 7 ∧
      (ps = [q.ctx.val, q.board.val, q.priority.val, i, q.window, q.autoCutover.toNat, q.rewalkLimit] ∨
        (q.rewalkLimit = 2 ∧ ps = [q.ctx.val, q.board.val, q.priority.val, i, q.window, q.autoCutover.toNat])) := by
  unfold parseOpen
  split
  · rw [parseOpenWords_some]
    constructor
    · rintro ⟨h1, h2, h3, h4, h5, h6, h7, h8, h9, h10, h11⟩
      exact ⟨_, h4, h5, h7, h8, h11, .inr ⟨h10.symm, by rw [h1, h2, h3, h6, h9]⟩⟩
    · rintro ⟨i, h4, h5, h7, h8, h11, h | ⟨h10, h⟩⟩
      · simp at h
      · simp only [List.cons.injEq] at h
        obtain ⟨h1, h2, h3, rfl, h6, h9, -⟩ := h
        exact ⟨h1, h2, h3, h4, h5, h6, h7, h8, h9, h10.symm, h11⟩
  · rw [parseOpenWords_some]
    constructor
    · rintro ⟨h1, h2, h3, h4, h5, h6, h7, h8, h9, h10, h11⟩
      exact ⟨_, h4, h5, h7, h8, h11, .inl (by rw [h1, h2, h3, h6, h9, h10])⟩
    · rintro ⟨i, h4, h5, h7, h8, h11, h | ⟨h10, h⟩⟩
      · simp only [List.cons.injEq] at h
        obtain ⟨h1, h2, h3, rfl, h6, h9, h10, -⟩ := h
        exact ⟨h1, h2, h3, h4, h5, h6, h7, h8, h9, h10, h11⟩
      · simp at h
  · rename_i h1 h2
    constructor
    · simp
    · rintro ⟨i, _, _, _, _, _, rfl | ⟨_, rfl⟩⟩
      · exact absurd rfl (h2 _ _ _ _ _ _ _)
      · exact absurd rfl (h1 _ _ _ _ _ _)

theorem parseLayout_some {ps : List Nat} {l : SetId} {x : LayoutSet} (hw : ∀ v ∈ ps, v < 4294967296) :
    parseLayout ps = some (l, x) ↔ ps = [l.val, x.baseA.toNat, x.capA, x.baseB.toNat, x.capB] ∧ x.capA ≤ 64 ∧ x.capB ≤ 64 ∧
      (0 < x.capA → x.baseA.toNat + 2 * x.capA ≤ 4294967296) ∧ (0 < x.capB → x.baseB.toNat + 2 * x.capB ≤ 4294967296) := by
  have hin : ∀ b c, windowInRange b c = true ↔ (0 < c → b + 2 * c ≤ 4294967296) := by
    intro b c
    unfold windowInRange Config.addressTop
    by_cases hc : c = 0
    · subst hc; simp
    · rw [Bool.or_eq_true, decide_eq_true_iff]
      simp only [beq_iff_eq, hc, false_or]
      exact ⟨fun h _ => h, fun h => h (by omega)⟩
  unfold parseLayout
  split
  · rename_i l' ba ca bb cb
    have hba : (BitVec.ofNat 32 ba).toNat = ba := by simpa using hw ba (by simp)
    have hbb : (BitVec.ofNat 32 bb).toNat = bb := by simpa using hw bb (by simp)
    simp only [Option.bind_eq_bind, Option.bind_eq_some_iff, Option.pure_def, toIndex_some, toRange_some,
      List.cons.injEq, Option.ite_none_right_eq_some, Bool.and_eq_true, hin, Option.some.injEq, Prod.mk.injEq]
    constructor
    · rintro ⟨_, h1, _, ⟨h2, _, h3⟩, _, ⟨h4, _, h5⟩, ⟨h6, h7⟩, rfl, rfl⟩
      subst h2 h4
      simp only [hba, hbb]
      exact ⟨⟨h1, trivial, trivial, trivial, trivial, trivial⟩, h3, h5, h6, h7⟩
    · obtain ⟨xba, xca, xbb, xcb⟩ := x
      dsimp only
      rintro ⟨⟨h1, h8, h2, h9, h4, -⟩, h3, h5, h6, h7⟩
      subst h8 h9 h2 h4
      exact ⟨_, h1, _, ⟨rfl, Nat.zero_le _, h3⟩, _, ⟨rfl, Nat.zero_le _, h5⟩, ⟨h6, h7⟩, rfl, by simp⟩
  · rename_i h
    constructor
    · simp
    · rintro ⟨rfl, -⟩; exact absurd rfl (h _ _ _ _ _)

theorem parseGeometry_some {w n b p sb sc : Nat} {g : Geometry} (hb : b < 4294967296) (hsb : sb < 4294967296) :
    parseGeometry w n b p sb sc = some g ↔ b = g.base.toNat ∧ p = g.pitch ∧ sb = g.spareBase.toNat ∧ sc = g.spareCount ∧
      w ≤ g.pitch ∧ g.pitch ≤ 256 ∧ g.spareCount ≤ 16 ∧ g.base.toNat + n * g.pitch ≤ 4294967296 ∧
      (0 < g.spareCount → g.spareBase.toNat + g.spareCount * g.pitch ≤ 4294967296) := by
  have h1 : (BitVec.ofNat 32 b).toNat = b := by simpa using hb
  have h2 : (BitVec.ofNat 32 sb).toNat = sb := by simpa using hsb
  unfold parseGeometry
  simp only [Option.bind_eq_bind, Option.bind_eq_some_iff, Option.pure_def, toRange_some]
  obtain ⟨gb, gp, gs, gc⟩ := g
  constructor
  · rintro ⟨_, ⟨h3, h4, h5⟩, _, ⟨h6, _, h7⟩, he⟩
    split at he
    · rename_i h8
      cases he
      subst h3 h6
      dsimp only
      rw [h1, h2]
      exact ⟨rfl, rfl, rfl, rfl, h4, h5, h7, h8.1, fun h => h8.2.resolve_left (by omega)⟩
    · cases he
  · dsimp only
    rintro ⟨rfl, rfl, rfl, rfl, h4, h5, h7, h8, h9⟩
    refine ⟨_, ⟨rfl, h4, h5⟩, _, ⟨rfl, Nat.zero_le _, h7⟩, ?_⟩
    have hs : sc = 0 ∨ gs.toNat + sc * p ≤ Config.addressTop := by
      by_cases hc : sc = 0
      · exact .inl hc
      · exact .inr (h9 (by omega))
    rw [if_pos ⟨h8, hs⟩, BitVec.ofNat_toNat, BitVec.ofNat_toNat, BitVec.setWidth_eq, BitVec.setWidth_eq]

/-- The fifteen words of a region record, in the order of REGION-LOAD (R74). -/
def Region.params (i : RegionId) (r : Region) : List Nat :=
  [i.val, r.set.val, r.width, r.entries, r.geomA.base.toNat, r.geomA.pitch, r.geomB.base.toNat, r.geomB.pitch, r.mode.code,
   r.verify.getD 0, r.poison.toNat, r.geomA.spareBase.toNat, r.geomA.spareCount, r.geomB.spareBase.toNat, r.geomB.spareCount]

/-- The range stage of REGION-LOAD, as a property of the record given (R74). -/
def Region.InRange (r : Region) : Prop :=
  1 ≤ r.width ∧ r.width ≤ 16 ∧ 1 ≤ r.entries ∧ r.entries ≤ 16777216 ∧ (∀ n, r.verify = some n → 1 ≤ n ∧ n ≤ 255) ∧
    ∀ v, r.width ≤ (r.geom v).pitch ∧ (r.geom v).pitch ≤ 256 ∧ (r.geom v).spareCount ≤ 16 ∧
      (r.geom v).base.toNat + r.entries * (r.geom v).pitch ≤ 4294967296 ∧
      (0 < (r.geom v).spareCount → (r.geom v).spareBase.toNat + (r.geom v).spareCount * (r.geom v).pitch ≤ 4294967296)

theorem parseRegion_some {ps : List Nat} {i : RegionId} {r : Region} (hw : ∀ v ∈ ps, v < 4294967296) :
    parseRegion ps = some (i, r) ↔ ps = r.params i ∧ r.InRange := by
  unfold parseRegion
  split
  · rename_i i' l w n ba pa bb pb m v poison sba sca sbb scb
    have hp : (BitVec.ofNat 32 poison).toNat = poison := by simpa using hw poison (by simp)
    have h1 := hw ba (by simp)
    have h2 := hw bb (by simp)
    have h3 := hw sba (by simp)
    have h4 := hw sbb (by simp)
    simp only [Option.bind_eq_bind, Option.bind_eq_some_iff, Option.pure_def, toIndex_some, toRange_some,
      parseGeometry_some h1 h3, parseGeometry_some h2 h4, toMode_some, toVerify_some, Option.some.injEq, Prod.mk.injEq,
      Region.params, List.cons.injEq]
    constructor
    · rintro ⟨_, rfl, _, rfl, _, ⟨rfl, a1, a2⟩, _, ⟨rfl, a3, a4⟩, ga, ⟨b1, b2, b3, b4, b5, b6, b7, b8, b9⟩, gb,
        ⟨c1, c2, c3, c4, c5, c6, c7, c8, c9⟩, _, rfl, _, ⟨d1, d2⟩, rfl, rfl⟩
      dsimp only
      rw [hp]
      refine ⟨⟨rfl, rfl, rfl, rfl, b1, b2, c1, c2, rfl, d1, rfl, b3, b4, c3, c4, trivial⟩, a1, a2, a3, a4, d2, fun x => ?_⟩
      cases x
      · exact ⟨b5, b6, b7, b8, b9⟩
      · exact ⟨c5, c6, c7, c8, c9⟩
    · rintro ⟨⟨e1, e2, e3, e4, e5, e6, e7, e8, e9, e10, e11, e12, e13, e14, e15, -⟩, a1, a2, a3, a4, d2, hg⟩
      refine ⟨_, e1, _, e2, _, ⟨e3, a1, a2⟩, _, ⟨e4, a3, a4⟩, r.geomA, ⟨e5, e6, e12, e13, ?_⟩, r.geomB, ⟨e7, e8, e14, e15, ?_⟩, _, e9,
        r.verify, ⟨e10, d2⟩, rfl, ?_⟩
      · exact hg .A
      · exact hg .B
      · subst e11; rw [BitVec.ofNat_toNat, BitVec.setWidth_eq]
  · rename_i h
    constructor
    · intro hn; cases hn
    · rintro ⟨rfl, -⟩; exact absurd rfl (h _ _ _ _ _ _ _ _ _ _ _ _ _ _ _)

theorem parseScope_some {ps : List Nat} {x : Scope} :
    parseScope ps = some x ↔ ps = match x with
      | .all => [0, 0]
      | .global => [1, 0]
      | .slot k => [2, k.val]
      | .ctx c => [3, c.val] := by
  unfold parseScope
  split
  · cases x <;> simp
  · cases x <;> simp
  · cases x <;> simp [toIndex_some]
  · cases x <;> simp [toIndex_some]
  · rename_i h1 h2 h3 h4
    cases x <;> simp_all

theorem ofNumber_some {n : Nat} {k : NoticeKind} : NoticeKind.ofNumber n = some k ↔ n = k.index.val + 1 := by
  unfold NoticeKind.ofNumber
  constructor
  · intro h
    have := List.find?_some h
    exact (eq_of_beq this).symm
  · rintro rfl
    cases k <;> decide

theorem kindsOf_some {ps : List Nat} {ks : List NoticeKind} :
    kindsOf ps = some ks ↔ ps = ks.map (fun k => k.index.val + 1) := by
  induction ps generalizing ks with
  | nil => cases ks <;> simp [kindsOf]
  | cons n ns ih =>
    simp only [kindsOf, Option.bind_eq_bind, Option.bind_eq_some_iff, Option.pure_def, Option.some.injEq, ofNumber_some, ih]
    cases ks with
    | nil => simp
    | cons k ks =>
      simp only [List.map_cons, List.cons.injEq]
      constructor
      · rintro ⟨_, h1, _, h2, rfl, rfl⟩; exact ⟨h1, h2⟩
      · rintro ⟨h1, h2⟩; exact ⟨_, h1, _, h2, rfl, rfl⟩

theorem parseKinds_some {ps : List Nat} {ks : List NoticeKind} :
    parseKinds ps = some ks ↔ ps = ks.map (fun k => k.index.val + 1) ∧ 1 ≤ ks.length ∧ ks.length ≤ 16 := by
  unfold parseKinds
  constructor
  · intro h
    split at h
    · rename_i hl
      have := kindsOf_some.1 h
      subst this
      simpa using hl
    · cases h
  · rintro ⟨rfl, h1, h2⟩
    rw [if_pos (by simpa using ⟨h1, h2⟩)]
    exact kindsOf_some.2 rfl

/-- Parameter words are words. -/
theorem params_lt (t : Txn) : ∀ v ∈ t.params, v < 4294967296 := by
  intro v hv
  simp only [Txn.params, List.mem_map] at hv
  obtain ⟨w, _, rfl⟩ := hv
  exact w.isLt

end Sys2Proof.Machine
end

