-- ==== Sys2Proof/Laws/Layout.lean ====
section
/-! SUPPORT. The tests of the Region Map's requests, said with quantifiers: in use, held, and words shared (R72, R73, R75). -/

namespace Sys2Proof.Machine

theorem mem_allBoards (b : BoardId) : b ∈ allBoards := by revert b; decide
theorem mem_allCtxs (c : CtxId) : c ∈ allCtxs := by revert c; decide
theorem mem_allSlots (k : SlotId) : k ∈ allSlots := by revert k; decide
theorem mem_allRegions (i : RegionId) : i ∈ allRegions := List.mem_finRange i

theorem setInUse_iff {s : State} {l : SetId} : s.setInUse l = true ↔ s.InUse l := by
  unfold State.setInUse State.InUse
  simp only [List.any_eq_true, Bool.and_eq_true, Bool.or_eq_true, beq_iff_eq]
  exact ⟨fun ⟨b, _, h⟩ => ⟨b, h⟩, fun ⟨b, h⟩ => ⟨b, mem_allBoards b, h⟩⟩

theorem regionHeld_iff {s : State} {i : RegionId} : s.regionHeld i = true ↔ s.Held i := by
  unfold State.regionHeld State.Held
  rw [Bool.or_eq_true, Bool.or_eq_true, or_assoc]
  refine or_congr ?_ (or_congr ?_ ?_)
  · cases h : s.region i with
    | none => simp
    | some r => simp [setInUse_iff]
  · simp only [List.any_eq_true, Bool.and_eq_true, Bool.or_eq_true, bne_iff_ne, beq_iff_eq]
    exact ⟨fun ⟨c, _, h⟩ => ⟨c, h⟩, fun ⟨c, h⟩ => ⟨c, mem_allCtxs c, h⟩⟩
  · simp only [List.any_eq_true, beq_iff_eq]
    exact ⟨fun ⟨k, _, h⟩ => ⟨k, h⟩, fun ⟨k, h⟩ => ⟨k, mem_allSlots k, h⟩⟩

theorem overlap_iff {a n b m : Nat} : overlap a n b m = true ↔ ∃ w, (a ≤ w ∧ w < a + n) ∧ (b ≤ w ∧ w < b + m) := by
  unfold overlap
  simp only [Bool.and_eq_true, decide_eq_true_eq]
  constructor
  · rintro ⟨⟨⟨h1, h2⟩, h3⟩, h4⟩
    exact ⟨max a b, by omega⟩
  · rintro ⟨w, h1, h2⟩; omega

theorem mem_regionsOf {s : State} {l : SetId} {x : RegionId × Region} :
    x ∈ s.regionsOf l ↔ s.region x.1 = some x.2 ∧ x.2.set = l := by
  unfold State.regionsOf
  simp only [List.mem_filterMap]
  constructor
  · rintro ⟨i, _, h⟩
    cases hr : s.region i with
    | none => simp [hr] at h
    | some r =>
      simp only [hr] at h
      split at h
      · cases h; exact ⟨hr, by assumption⟩
      · cases h
  · rintro ⟨h1, h2⟩
    refine ⟨x.1, mem_allRegions _, ?_⟩
    simp [h1, h2]

theorem windowHits_iff {l : LayoutSet} {v : View} {r : Region} :
    l.hits v r = true ↔ ∃ a, l.Window v a ∧ (r.Extent v a ∨ r.SpareArea v a) := by
  unfold LayoutSet.hits
  rw [Bool.or_eq_true, overlap_iff, overlap_iff]
  constructor
  · rintro (⟨w, h1, h2⟩ | ⟨w, h1, h2⟩)
    · exact ⟨w, h1, .inl h2⟩
    · exact ⟨w, h1, .inr h2⟩
  · rintro ⟨w, h1, h2 | h2⟩
    · exact .inl ⟨w, h1, h2⟩
    · exact .inr ⟨w, h1, h2⟩

theorem regionHits_iff {r o : Region} {v : View} :
    r.hits o v = true ↔ ∃ a, (r.Extent v a ∨ r.SpareArea v a) ∧ (o.Extent v a ∨ o.SpareArea v a) := by
  unfold Region.hits
  simp only [Bool.or_eq_true, overlap_iff]
  constructor
  · rintro (((⟨w, h1, h2⟩ | ⟨w, h1, h2⟩) | ⟨w, h1, h2⟩) | ⟨w, h1, h2⟩)
    · exact ⟨w, .inl h1, .inl h2⟩
    · exact ⟨w, .inr h1, .inl h2⟩
    · exact ⟨w, .inl h1, .inr h2⟩
    · exact ⟨w, .inr h1, .inr h2⟩
  · rintro ⟨w, h1 | h1, h2 | h2⟩
    · exact .inl (.inl (.inl ⟨w, h1, h2⟩))
    · exact .inl (.inr ⟨w, h1, h2⟩)
    · exact .inl (.inl (.inr ⟨w, h1, h2⟩))
    · exact .inr ⟨w, h1, h2⟩

theorem hitsSelf_iff {r : Region} {v : View} : r.hitsSelf v = true ↔ ∃ a, r.SpareArea v a ∧ r.Extent v a := by
  unfold Region.hitsSelf
  rw [overlap_iff]; rfl

theorem layoutLocked_iff {s : State} {l : SetId} :
    s.layoutLocked l = true ↔ s.InUse l ∨ ∃ i r, s.region i = some r ∧ r.set = l ∧ s.Held i := by
  unfold State.layoutLocked
  rw [Bool.or_eq_true, setInUse_iff, List.any_eq_true]
  refine or_congr Iff.rfl ⟨fun ⟨x, h1, h2⟩ => ?_, fun ⟨i, r, h1, h2, h3⟩ => ?_⟩
  · obtain ⟨h3, h4⟩ := mem_regionsOf.1 h1
    exact ⟨x.1, x.2, h3, h4, regionHeld_iff.1 h2⟩
  · exact ⟨(i, r), mem_regionsOf.2 ⟨h1, h2⟩, regionHeld_iff.2 h3⟩

theorem loadLocked_iff {s : State} {i : RegionId} {l : SetId} :
    s.loadLocked i l = true ↔ (s.region i ≠ none ∧ s.Held i) ∨ s.InUse l := by
  unfold State.loadLocked
  rw [Bool.or_eq_true, Bool.and_eq_true, setInUse_iff, regionHeld_iff, Option.isSome_iff_ne_none]

theorem windowClash_iff {s : State} {l : SetId} {x : LayoutSet} {v : View} :
    s.windowClash l x v = true ↔ ∃ i r, s.region i = some r ∧ r.set = l ∧ x.hits v r = true := by
  unfold State.windowClash
  rw [List.any_eq_true]
  refine ⟨fun ⟨y, h1, h2⟩ => ?_, fun ⟨i, r, h1, h2, h3⟩ => ⟨(i, r), mem_regionsOf.2 ⟨h1, h2⟩, h3⟩⟩
  obtain ⟨h3, h4⟩ := mem_regionsOf.1 h1
  exact ⟨y.1, y.2, h3, h4, h2⟩

theorem loadClash_iff {s : State} {i : RegionId} {r : Region} {v : View} :
    s.loadClash i r v = true ↔ r.hitsSelf v = true ∨
      (∃ j o, j ≠ i ∧ s.region j = some o ∧ o.set = r.set ∧ r.hits o v = true) ∨ (s.layout r.set).hits v r = true := by
  unfold State.loadClash
  rw [Bool.or_eq_true, Bool.or_eq_true, List.any_eq_true, or_assoc]
  refine or_congr Iff.rfl (or_congr ⟨fun ⟨y, h1, h2⟩ => ?_, fun ⟨j, o, h1, h2, h3, h4⟩ => ?_⟩ Iff.rfl)
  · obtain ⟨h3, h4⟩ := mem_regionsOf.1 h1
    rw [Bool.and_eq_true, bne_iff_ne] at h2
    exact ⟨y.1, y.2, h2.1, h3, h4, h2.2⟩
  · refine ⟨(j, o), mem_regionsOf.2 ⟨h2, h3⟩, ?_⟩
    rw [Bool.and_eq_true, bne_iff_ne]
    exact ⟨h1, h4⟩

end Sys2Proof.Machine
end

