-- ==== Sys2Proof/Laws/Notices.lean ====
section
/-! SUPPORT. COLLECT order, and what sending, masking and collecting a list of notice kinds do (R174 to R178). -/

namespace Sys2Proof.Machine

theorem NoticeKind.mem_all (k : NoticeKind) : k ∈ NoticeKind.all := by cases k <;> decide
theorem NoticeKind.all_sorted : NoticeKind.all.Pairwise (fun a b => a.index < b.index) := by decide
theorem mem_levelsDown (l : Level) : l ∈ levelsDown := by revert l; decide
theorem levelsDown_sorted : levelsDown.Pairwise (fun a b => b < a) := by decide

theorem inCollectOrder_collectOrder (s : State) (f : NoticeKind → Bool) :
    s.InCollectOrder f (s.collectOrder (NoticeKind.all.filter f)) := by
  have hp : (s.collectOrder (NoticeKind.all.filter f)).Pairwise
      (fun a b => s.levelOf b < s.levelOf a ∨ (s.levelOf a = s.levelOf b ∧ a.index < b.index)) := by
    unfold State.collectOrder
    rw [List.pairwise_flatMap]
    constructor
    · intro l _
      have := (NoticeKind.all_sorted.filter f).filter (fun k => s.levelOf k == l)
      refine List.Pairwise.imp_of_mem ?_ this
      intro a b ha hb hab
      simp only [List.mem_filter, beq_iff_eq] at ha hb
      exact .inr ⟨ha.2.trans hb.2.symm, hab⟩
    · refine levelsDown_sorted.imp ?_
      intro l m hml a ha b hb
      simp only [List.mem_filter, beq_iff_eq] at ha hb
      left; rw [ha.2, hb.2]; exact hml
  refine ⟨?_, fun k => ?_, hp⟩
  · refine hp.imp ?_
    rintro a b h rfl
    rcases h with h | h
    · exact absurd h (lt_irrefl _)
    · exact absurd h.2 (lt_irrefl _)
  · unfold State.collectOrder
    simp only [List.mem_flatMap, List.mem_filter, beq_iff_eq]
    constructor
    · rintro ⟨l, _, ⟨_, h⟩, _⟩; exact h
    · intro h; exact ⟨s.levelOf k, mem_levelsDown _, ⟨NoticeKind.mem_all k, h⟩, rfl⟩

theorem notice_setNotice_eq (s : State) (k j : NoticeKind) (r) : (s.setNotice k r).notice j = if k = j then r else s.notice j := by
  unfold State.setNotice State.notice
  have : k.index = j.index ↔ k = j := by cases k <;> cases j <;> decide
  simp only [Fin.getElem_fin, Vector.getElem_set, Fin.val_inj, this]

/-- Sending a duplicate free list of kinds that are due (R175). -/
theorem foldl_trySend_spec (ks : List NoticeKind) (hn : ks.Nodup) : ∀ (s : State), (∀ k ∈ ks, s.sendDue k = true) →
    ∃ u : State, ks.foldl State.trySend s = u ∧ u = { s with upstream := s.upstream ++ ks.map s.noticeTxn, notices := u.notices } ∧
      ∀ k, u.notice k = if k ∈ ks then { s.notice k with sent := true } else s.notice k := by
  induction ks with
  | nil => intro s _; exact ⟨s, rfl, by simp, by simp⟩
  | cons a ks ih =>
    intro s h
    have ha := h a (by simp)
    rw [List.foldl_cons]
    have hs : s.trySend a = s.sendNotice a := by unfold State.trySend; rw [if_pos ha]
    rw [hs]
    have hnot : ∀ k, (s.sendNotice a).notice k = if a = k then { s.notice a with sent := true } else s.notice k := fun k => by
      unfold State.sendNotice; rw [notice_setNotice_eq]; rfl
    have hlev : ∀ k, (s.sendNotice a).levelOf k = s.levelOf k := fun k => rfl
    have hne : ∀ k ∈ ks, a ≠ k := fun k hk he => (List.nodup_cons.1 hn).1 (he ▸ hk)
    obtain ⟨u, h1, h2, h3⟩ := ih (List.nodup_cons.1 hn).2 (s.sendNotice a) (fun k hk => by
      have := h k (by simp [hk])
      unfold State.sendDue State.isOpen at *
      rw [hnot, if_neg (hne k hk), hlev]; exact this)
    refine ⟨u, h1, ?_, fun k => ?_⟩
    · rw [h2]
      have hm : ks.map (s.sendNotice a).noticeTxn = ks.map s.noticeTxn := by
        apply List.map_congr_left
        intro k hk
        unfold State.noticeTxn State.noticeWords
        rw [hnot, if_neg (hne k hk), hlev]
      rw [hm]
      simp only [State.sendNotice, State.setNotice, State.pushUp, List.map_cons, State.noticeTxn, List.append_assoc, List.cons_append, List.nil_append]
    · rw [h3, hnot]
      by_cases h1 : a = k
      · subst h1
        have : a ∉ ks := (List.nodup_cons.1 hn).1
        simp [this]
      · have : k ≠ a := Ne.symm h1
        simp [h1, this]

theorem sendDue_eq (s : State) : s.sendDue = (fun k => (s.notice k).pending && !(s.notice k).sent && !(s.notice k).mask && decide (s.floor < s.levelOf k)) := by
  funext k; unfold State.sendDue State.isOpen; rw [Bool.and_assoc ((s.notice k).pending && _)]

theorem foldl_endEpisode_spec (ks : List NoticeKind) : ∀ (s : State),
    ∃ u : State, ks.foldl State.endEpisode s = u ∧ u = { s with notices := u.notices } ∧
      ∀ k, u.notice k = if k ∈ ks then ⟨(s.notice k).mask, false, 0, 0, false⟩ else s.notice k := by
  induction ks with
  | nil => intro s; exact ⟨s, rfl, rfl, by simp⟩
  | cons a ks ih =>
    intro s
    obtain ⟨u, h1, h2, h3⟩ := ih (s.endEpisode a)
    refine ⟨u, h1, ?_, fun k => ?_⟩
    · rw [h2]; rfl
    · rw [h3]; unfold State.endEpisode; rw [notice_setNotice_eq]
      by_cases h : a = k
      · subst h; simp [NoticeRec.endEpisode]
      · have : k ≠ a := Ne.symm h
        simp [h, this]

theorem foldl_setMask_spec (m : Bool) (ks : List NoticeKind) : ∀ (s : State),
    ∃ u : State, ks.foldl (State.setMask m) s = u ∧ u = { s with notices := u.notices } ∧
      ∀ k, u.notice k = if k ∈ ks then { s.notice k with mask := m } else s.notice k := by
  induction ks with
  | nil => intro s; exact ⟨s, rfl, rfl, by simp⟩
  | cons a ks ih =>
    intro s
    obtain ⟨u, h1, h2, h3⟩ := ih (State.setMask m s a)
    refine ⟨u, h1, ?_, fun k => ?_⟩
    · rw [h2]; rfl
    · rw [h3]; unfold State.setMask; rw [notice_setNotice_eq]
      by_cases h : a = k
      · subst h; simp
      · have : k ≠ a := Ne.symm h
        simp [h, this]

/-- An occurrence touches the upstream queue and the notice records alone (R176). -/
theorem raise_eq (u : State) (k d) : u.raise k d = { u with upstream := (u.raise k d).upstream, notices := (u.raise k d).notices } := by
  unfold State.raise State.trySend; split <;> rfl

end Sys2Proof.Machine
end

