-- ==== Sys2Proof/Laws/Losses.lean ====
section
/-! SUPPORT. What a slot's departure from READY does to the migration contexts: which of them fail and why, and what a failure leaves of everything else (R86, R92, R95, R106, R113, R114, R143, R156 to R158, R161). -/

namespace Sys2Proof.Machine

/-! ### One failure (R95) -/

/-- A context's record after it has failed for a reason, its deferred reply sent (R92, R95, R161). -/
def Ctx.lost (r : FailReason) (x : Ctx) : Ctx :=
  { x with
    state := .failed, failReason := some r, pauseReason := none, flights := [], cutClaim := false, revisit := [], segs := []
    cur := none, paceRunning := false, stop := none, held := none, deferred := none }

/-- The deferred reply of a failed context (R161). -/
def failReply (tag : BitVec 8) (r : FailReason) : Txn :=
  { kind := .mgmtReply, board := 15, status := 6, tag := tag, count := 1, addr := 72, data := [BitVec.ofNat 32 r.code] }

theorem notice_raise (s : State) (k j : NoticeKind) (d : BitVec 8) (h : k = j ∨ (s.notice j).pending = true) :
    ((s.raise k d).notice j).pending = true := by
  have h1 : ((s.setNotice k ((s.notice k).occur d)).notice j).pending = true := by
    rw [notice_setNotice]
    split
    · rfl
    · rename_i hn; exact h.resolve_left hn
  unfold State.raise State.trySend
  split
  · unfold State.sendNotice
    rw [notice_setNotice]
    split
    · rename_i hk; subst hk; exact h1
    · exact h1
  · exact h1

/-- What the failure of a live context does, field by field. -/
structure FailsAs (c : CtxId) (r : FailReason) (t u : State) : Prop where
  ctx : u.ctx c = (t.ctx c).lost r
  others : ∀ d, d ≠ c → u.ctx d = t.ctx d
  gaps : u.gaps = t.gaps
  layouts : u.layouts = t.layouts
  regions : u.regions = t.regions
  entry : ∀ b, u.entry b = if b = (t.ctx c).board ∧ (t.entry b).twinState = .building ∧ (t.entry b).bound = some c then
    { t.entry b with twinState := .stale, bound := none } else t.entry b
  slot : ∀ j, u.slot j = { t.slot j with pend := (u.slot j).pend }
  pend : ∀ j (i : PendIdx), (u.slot j).pend[i] = (t.slot j).pend[i].map (PendEntry.orphan c)
  staging : ∀ g : StagingId, u.staging[g] = if (t.ctx c).flights.any (fun f => f.staging == g) then none else t.staging[g]
  spares : ∀ j, u.spareMap j = (t.spareMap j).map (SpareRec.disown c)
  notice : (u.notice .ctxFailed).pending = true
  upstream : ∃ l, u.upstream = t.upstream ++ l ∧ ∀ tag, (t.ctx c).deferred = some tag → failReply tag r ∈ l

theorem failCtx_spec (t : State) (c : CtxId) (r : FailReason) (hl : (t.ctx c).state.isLive = true) :
    FailsAs c r t (t.failCtx c r) := by
  obtain ⟨h0, h1, h2, h3, h4, h5, h6, h7⟩ := released_release c t
  have hu : t.failCtx c r =
      (((t.release c).modCtx c (Ctx.fail r)).sendDeferred c .failed [BitVec.ofNat 32 r.code]).raise .ctxFailed (detailOf c) := by
    unfold State.failCtx; rw [if_pos hl]
  generalize t.release c = v at *
  have hd : (v.ctx c).deferred = (t.ctx c).deferred := by rw [h1]
  have hx : ∃ m, (v.modCtx c (Ctx.fail r)).sendDeferred c .failed [BitVec.ofNat 32 r.code] =
      { v.setCtx c ((t.ctx c).lost r) with upstream := v.upstream ++ m } ∧
        ∀ tag, (t.ctx c).deferred = some tag → failReply tag r ∈ m := by
    rw [sendDeferred_eq]
    unfold State.deferredSent
    rw [modCtx_eq, ctx_setCtx_same]
    have hdd : (Ctx.fail r (v.ctx c)).deferred = (t.ctx c).deferred := hd
    rw [hdd]
    cases hdef : (t.ctx c).deferred with
    | none =>
      refine ⟨[], ?_, fun tag h => by cases h⟩
      have : Ctx.fail r (v.ctx c) = (t.ctx c).lost r := by
        rw [h1]; unfold Ctx.fail Ctx.lost; rw [hdef]
      rw [this, List.append_nil]; rfl
    | some tag =>
      refine ⟨[failReply tag r], ?_, fun tag' h => by cases h; simp⟩
      dsimp only
      rw [setCtx_twice]
      have : ({ Ctx.fail r (v.ctx c) with deferred := none } : Ctx) = (t.ctx c).lost r := by
        rw [h1]; rfl
      rw [this]; rfl
  obtain ⟨m, hm, hmem⟩ := hx
  rw [hm] at hu
  have hup : v.upstream = t.upstream := by rw [h0]
  have hr := raise_eq ({ v.setCtx c ((t.ctx c).lost r) with upstream := v.upstream ++ m } : State) .ctxFailed (detailOf c)
  obtain ⟨n, hn⟩ := (quiet_raise ({ v.setCtx c ((t.ctx c).lost r) with upstream := v.upstream ++ m } : State) .ctxFailed (detailOf c)).upstream
  have hno := notice_raise ({ v.setCtx c ((t.ctx c).lost r) with upstream := v.upstream ++ m } : State) .ctxFailed .ctxFailed
    (detailOf c) (.inl rfl)
  rw [← hu] at hr hn hno
  generalize t.failCtx c r = u at *
  have hctx : ∀ d, u.ctx d = if c = d then (t.ctx c).lost r else v.ctx d := fun d => by
    rw [hr]; exact ctx_setCtx v c d _
  refine ⟨by rw [hctx, if_pos rfl], fun d hdc => by rw [hctx, if_neg (Ne.symm hdc), h2 d hdc], by rw [hr]; show v.gaps = _; rw [h0],
    by rw [hr]; show v.layouts = _; rw [h0], by rw [hr]; show v.regions = _; rw [h0], fun b => ?_, fun j => ?_, fun j i => ?_,
    fun g => ?_, fun j => ?_, hno, m ++ n, ?_, fun tag h => ?_⟩
  · rw [show u.entry b = v.entry b by rw [hr]; rfl]; exact h3 b
  · rw [show u.slot j = v.slot j by rw [hr]; rfl]; exact h4 j
  · rw [show u.slot j = v.slot j by rw [hr]; rfl, h5 j i]
    cases (t.slot j).pend[i] <;> rfl
  · rw [show u.staging = v.staging by rw [hr]; rfl]; exact h6 g
  · rw [show u.spareMap j = v.spareMap j by rw [hr]; rfl]; exact h7 j
  · rw [hn]
    show v.upstream ++ m ++ n = _
    rw [hup, List.append_assoc]
  · exact List.mem_append_left _ (hmem tag h)

/-! ### Some contexts fail, the rest are kept -/

/-- A pending entry once the contexts that have a reason have failed (R21). -/
def PendEntry.orphans (R : CtxId → Option FailReason) (e : PendEntry) : PendEntry :=
  if ∃ c, (R c).isSome = true ∧ e.origin.isOf c = true then { e with origin := .orphan } else e

/-- A spare map record once the contexts that have a reason have failed (R143). -/
def SpareRec.disowns (R : CtxId → Option FailReason) : SpareRec → SpareRec
  | .remap r e v i (some c) n => if (R c).isSome = true then .remap r e v i none 0 else .remap r e v i (some c) n
  | .remap r e v i none n => .remap r e v i none n
  | .retired r v i => .retired r v i

/-- Records that fail alike. -/
structure Ctx.Alike (x y : Ctx) : Prop where
  lost : ∀ r, x.lost r = y.lost r
  deferred : x.deferred = y.deferred
  staging : x.flights.map (·.staging) = y.flights.map (·.staging)

theorem Ctx.Alike.refl (x : Ctx) : x.Alike x := ⟨fun _ => rfl, rfl, rfl⟩

theorem Ctx.Alike.trans {x y z : Ctx} (h : x.Alike y) (g : y.Alike z) : x.Alike z :=
  ⟨fun r => (h.lost r).trans (g.lost r), h.deferred.trans g.deferred, h.staging.trans g.staging⟩

theorem Ctx.Alike.fields {x y : Ctx} (h : x.Alike y) : x.board = y.board ∧ x.src = y.src ∧ x.dst = y.dst ∧ x.srcView = y.srcView :=
  have g := h.lost .churn
  ⟨by have := congrArg Ctx.board g; exact this, by have := congrArg Ctx.src g; exact this,
    by have := congrArg Ctx.dst g; exact this, by have := congrArg Ctx.srcView g; exact this⟩

/-- The state in the course of a slot's departure: the contexts with a reason in R have failed, the rest have the records of
X; B gives the pending entries that have not closed. The slot that departs is not READY. -/
structure Losing (k : SlotId) (s t : State) (R : CtxId → Option FailReason) (X : CtxId → Ctx) (B : SlotId → PendIdx → Option PendEntry) :
    Prop where
  lost : ∀ c r, R c = some r → t.ctx c = (s.ctx c).lost r
  kept : ∀ c, R c = none → t.ctx c = X c ∧ (X c).Alike (s.ctx c)
  gaps : t.gaps = s.gaps
  layouts : t.layouts = s.layouts
  regions : t.regions = s.regions
  layoutSet : ∀ b, (t.entry b).layoutSet = (s.entry b).layoutSet
  bound : ∀ c b, (s.ctx c).board = b → (s.entry b).twinState = .building → (s.entry b).bound = some c →
    t.entry b = if (R c).isSome = true then { s.entry b with twinState := .stale, bound := none } else s.entry b
  pend : ∀ j (i : PendIdx), (t.slot j).pend[i] = (B j i).map (PendEntry.orphans R)
  staging : ∀ g : StagingId, t.staging[g] =
    if ∃ c, (R c).isSome = true ∧ ∃ f ∈ (s.ctx c).flights, f.staging = g then none else s.staging[g]
  spares : ∀ j, t.spareMap j = (s.spareMap j).map (SpareRec.disowns R)
  ready : ∀ j, t.isReady j = true ↔ j ≠ k ∧ s.isReady j = true
  notice : (∃ c, (R c).isSome = true) → (t.notice .ctxFailed).pending = true
  upstream : ∃ l, t.upstream = s.upstream ++ l ∧
    ∀ c r tag, R c = some r → (s.ctx c).deferred = some tag → failReply tag r ∈ l

variable {k : SlotId} {s t u : State} {R : CtxId → Option FailReason} {X : CtxId → Ctx} {B : SlotId → PendIdx → Option PendEntry}

theorem orphans_update {c : CtxId} (r : FailReason) (e : PendEntry) :
    PendEntry.orphan c (PendEntry.orphans R e) = PendEntry.orphans (Function.update R c (some r)) e := by
  unfold PendEntry.orphans
  by_cases h : ∃ d, (R d).isSome = true ∧ e.origin.isOf d = true
  · have h2 : ∃ d, (Function.update R c (some r) d).isSome = true ∧ e.origin.isOf d = true := by
      obtain ⟨d, h1, h2⟩ := h
      refine ⟨d, ?_, h2⟩
      by_cases hd : d = c
      · subst hd; simp
      · rw [Function.update_of_ne hd]; exact h1
    rw [if_pos h, if_pos h2]
    rfl
  · rw [if_neg h]
    unfold PendEntry.orphan
    by_cases hc : e.origin.isOf c = true
    · have h2 : ∃ d, (Function.update R c (some r) d).isSome = true ∧ e.origin.isOf d = true := ⟨c, by simp, hc⟩
      rw [if_pos hc, if_pos h2]
    · have h2 : ¬ ∃ d, (Function.update R c (some r) d).isSome = true ∧ e.origin.isOf d = true := by
        rintro ⟨d, h1, h2⟩
        by_cases hd : d = c
        · subst hd; exact hc h2
        · rw [Function.update_of_ne hd] at h1; exact h ⟨d, h1, h2⟩
      rw [if_neg hc, if_neg h2]

theorem disowns_update {c : CtxId} (r : FailReason) (x : SpareRec) :
    SpareRec.disown c (SpareRec.disowns R x) = SpareRec.disowns (Function.update R c (some r)) x := by
  cases x with
  | retired => rfl
  | remap i e v n o q =>
    cases o with
    | none => simp [SpareRec.disowns, SpareRec.disown]
    | some d =>
      have key : ∀ S : CtxId → Option FailReason, SpareRec.disowns S (.remap i e v n (some d) q) =
          if (S d).isSome = true then .remap i e v n none 0 else .remap i e v n (some d) q := fun _ => rfl
      rw [key, key]
      by_cases hd : d = c
      · subst hd
        rw [Function.update_self]
        cases (R d).isSome <;> simp [SpareRec.disown]
      · rw [Function.update_of_ne hd]
        cases (R d).isSome <;> simp [SpareRec.disown, hd]

/-- One more context fails. -/
theorem Losing.fail (h : Losing k s t R X B) (c : CtxId) (r : FailReason) (hc : R c = none) (hl : (X c).state.isLive = true) :
    Losing k s (t.failCtx c r) (Function.update R c (some r)) X B := by
  obtain ⟨k1, k2⟩ := h.kept c hc
  have f := failCtx_spec t c r (by rw [k1]; exact hl)
  generalize t.failCtx c r = u at f
  have hb : (t.ctx c).board = (s.ctx c).board := by rw [k1]; exact k2.fields.1
  refine ⟨fun d q hd => ?_, fun d hd => ?_, f.gaps.trans h.gaps, f.layouts.trans h.layouts, f.regions.trans h.regions,
    fun b => ?_, fun d b h1 h2 h3 => ?_, fun j i => ?_, fun g => ?_, fun j => ?_,
    fun j => by rw [show u.isReady j = t.isReady j by unfold State.isReady; rw [f.slot j]]; exact h.ready j, fun _ => f.notice, ?_⟩
  · by_cases hdc : d = c
    · subst hdc
      rw [Function.update_self] at hd
      cases hd
      rw [f.ctx, k1, k2.lost]
    · rw [Function.update_of_ne hdc] at hd
      rw [f.others d hdc]; exact h.lost d q hd
  · have hdc : d ≠ c := by
      rintro rfl
      rw [Function.update_self] at hd; cases hd
    rw [Function.update_of_ne hdc] at hd
    rw [f.others d hdc]; exact h.kept d hd
  · rw [f.entry b]
    split <;> exact h.layoutSet b
  · have ht := h.bound d b h1 h2 h3
    rw [f.entry b, hb]
    by_cases hdc : d = c
    · subst hdc
      rw [hc] at ht
      simp only [Option.isSome_none, Bool.false_eq_true, if_false] at ht
      rw [ht, if_pos ⟨h1.symm, h2, h3⟩, Function.update_self]
      rfl
    · rw [Function.update_of_ne hdc, if_neg]
      · exact ht
      · rintro ⟨-, -, h4⟩
        rw [ht] at h4
        split at h4
        · cases h4
        · rw [h3] at h4; cases h4; exact hdc rfl
  · rw [f.pend j i, h.pend j i, Option.map_map]
    exact congrArg (fun k => (B j i).map k) (funext fun e => orphans_update r e)
  · rw [f.staging g, h.staging g]
    have hany : (t.ctx c).flights.any (fun y => y.staging == g) = true ↔ ∃ y ∈ (s.ctx c).flights, y.staging = g := by
      have hm : ∀ l : List Flight, l.any (fun y => y.staging == g) = true ↔ g ∈ l.map (·.staging) := fun l => by
        simp [List.any_eq_true, List.mem_map]
      rw [hm, k1, k2.staging, List.mem_map]
    by_cases hg : ∃ y ∈ (s.ctx c).flights, y.staging = g
    · rw [if_pos (hany.2 hg), if_pos]
      exact ⟨c, by simp, hg⟩
    · rw [if_neg (fun e => hg (hany.1 e))]
      congr 1
      refine propext (exists_congr fun d => ?_)
      by_cases hdc : d = c
      · subst hdc
        exact ⟨fun e => absurd e.2 hg, fun e => absurd e.2 hg⟩
      · rw [Function.update_of_ne hdc]
  · rw [f.spares j, h.spares j, List.map_map]
    exact congrArg (fun k => (s.spareMap j).map k) (funext fun x => disowns_update r x)
  · obtain ⟨l, h1, h2⟩ := h.upstream
    obtain ⟨m, f1, f2⟩ := f.upstream
    refine ⟨l ++ m, by rw [f1, h1, List.append_assoc], fun d q tag hd hdef => ?_⟩
    by_cases hdc : d = c
    · subst hdc
      rw [Function.update_self] at hd
      cases hd
      exact List.mem_append_right _ (f2 tag (by rw [k1, k2.deferred]; exact hdef))
    · rw [Function.update_of_ne hdc] at hd
      exact List.mem_append_left _ (h2 d q tag hd hdef)

/-- A kept context's record changes in a way that no failure tells. -/
theorem Losing.change (h : Losing k s t R X B) (c : CtxId) (x : Ctx) (hc : R c = none) (hx : x.Alike (X c)) :
    Losing k s (t.setCtx c x) R (Function.update X c x) B := by
  have hd : ∀ d, (t.setCtx c x).ctx d = if c = d then x else t.ctx d := fun d => ctx_setCtx t c d x
  refine ⟨fun d q e => ?_, fun d e => ?_, h.gaps, h.layouts, h.regions, h.layoutSet, h.bound, h.pend, h.staging, h.spares, h.ready, h.notice,
    h.upstream⟩
  · rw [hd, if_neg (by rintro rfl; rw [hc] at e; cases e)]; exact h.lost d q e
  · rw [hd]
    by_cases hdc : c = d
    · subst hdc
      rw [if_pos rfl, Function.update_self]
      exact ⟨rfl, hx.trans (h.kept c hc).2⟩
    · rw [if_neg hdc, Function.update_of_ne (Ne.symm hdc)]; exact h.kept d e

/-- An operation beside the contexts. -/
structure Beside (t u : State) : Prop where
  ctxs : u.ctxs = t.ctxs
  gaps : u.gaps = t.gaps
  layouts : u.layouts = t.layouts
  regions : u.regions = t.regions
  staging : u.staging = t.staging
  spares : u.spares = t.spares
  entry : ∀ b, (u.entry b).layoutSet = (t.entry b).layoutSet ∧ ((t.entry b).twinState ≠ .twinned → u.entry b = t.entry b)
  notice : (t.notice .ctxFailed).pending = true → (u.notice .ctxFailed).pending = true
  upstream : ∃ l, u.upstream = t.upstream ++ l


theorem Beside.refl (t : State) : Beside t t := ⟨rfl, rfl, rfl, rfl, rfl, rfl, fun _ => ⟨rfl, fun _ => rfl⟩, id, [], (List.append_nil _).symm⟩

theorem Beside.raise (t : State) (n : NoticeKind) (d : BitVec 8) : Beside t (t.raise n d) := by
  have h := raise_eq t n d
  obtain ⟨l, hl⟩ := (quiet_raise t n d).upstream
  refine ⟨by rw [h], by rw [h], by rw [h], by rw [h], by rw [h], by rw [h], fun b => ?_,
    fun g => notice_raise t n .ctxFailed d (.inr g), l, hl⟩
  have : (t.raise n d).entry b = t.entry b := by rw [h]; rfl
  rw [this]; exact ⟨rfl, fun _ => rfl⟩

theorem Beside.setEntry (t : State) (b : BoardId) (e : SteerEntry) (h : (t.entry b).twinState = .twinned)
    (hl : e.layoutSet = (t.entry b).layoutSet) : Beside t (t.setEntry b e) := by
  refine ⟨rfl, rfl, rfl, rfl, rfl, rfl, fun a => ?_, id, [], (List.append_nil _).symm⟩
  rw [entry_setEntry]
  split
  · rename_i hab; subst hab
    exact ⟨hl, fun hn => absurd h hn⟩
  · exact ⟨rfl, fun _ => rfl⟩

theorem Beside.trans {t u v : State} (h : Beside t u) (g : Beside u v) : Beside t v := by
  obtain ⟨l, hl⟩ := h.upstream
  obtain ⟨m, hm⟩ := g.upstream
  refine ⟨g.ctxs.trans h.ctxs, g.gaps.trans h.gaps, g.layouts.trans h.layouts, g.regions.trans h.regions,
    g.staging.trans h.staging, g.spares.trans h.spares, fun b => ⟨(g.entry b).1.trans (h.entry b).1, fun hn => ?_⟩,
    fun x => g.notice (h.notice x), l ++ m, by rw [hm, hl, List.append_assoc]⟩
  have h1 := (h.entry b).2 hn
  rw [(g.entry b).2 (by rw [h1]; exact hn), h1]

theorem Beside.resolvePart (t : State) (n p : Nat) (r : PartResult) : Beside t (t.resolvePart n p r) := by
  unfold State.resolvePart
  split
  · exact .refl t
  · dsimp only
    split
    · exact ⟨rfl, rfl, rfl, rfl, rfl, rfl, fun _ => ⟨rfl, fun _ => rfl⟩, id, _, rfl⟩
    · exact ⟨rfl, rfl, rfl, rfl, rfl, rfl, fun _ => ⟨rfl, fun _ => rfl⟩, id, [], (List.append_nil _).symm⟩

theorem Beside.resolveFence (t : State) (n : Nat) (w : Bool) (o : PartOutcome) : Beside t (t.resolveFence n w o) := by
  unfold State.resolveFence
  split
  · exact .refl t
  · dsimp only
    repeat' split
    all_goals first
      | exact ⟨rfl, rfl, rfl, rfl, rfl, rfl, fun _ => ⟨rfl, fun _ => rfl⟩, id, [], (List.append_nil _).symm⟩
      | exact ⟨rfl, rfl, rfl, rfl, rfl, rfl, fun _ => ⟨rfl, fun _ => rfl⟩, id, _, rfl⟩

theorem Beside.steeringLeft (t : State) (k : SlotId) : Beside t (t.steeringLeft k) := by
  have h1 : ∀ b, Beside t (t.primaryLoss b) := fun b => by
    unfold State.primaryLoss
    dsimp only
    split
    · rename_i ht _ _
      repeat' split
      · exact (Beside.setEntry t b { (t.entry b).swapped with twinState := .stale } ht rfl).trans (.raise _ _ _)
      · exact .refl t
      · exact (Beside.setEntry t b { t.entry b with twinState := .stale } ht rfl).trans (.raise _ _ _)
    · exact .refl t
  unfold State.steeringLeft
  split
  · exact .refl t
  · split
    · exact h1 _
    · unfold State.twinLoss
      split
      · rename_i ht
        exact (Beside.setEntry t _ { t.entry _ with twinState := .stale } ht rfl).trans (.raise _ _ _)
      · exact .refl t

theorem Losing.beside {B' : SlotId → PendIdx → Option PendEntry} (h : Losing k s t R X B) (g : Beside t u)
    (hr : ∀ j, u.isReady j = t.isReady j)
    (hp : ∀ j (i : PendIdx), (u.slot j).pend[i] = (B' j i).map (PendEntry.orphans R)) : Losing k s u R X B' := by
  have hc : ∀ c, u.ctx c = t.ctx c := fun c => by unfold State.ctx; rw [g.ctxs]
  obtain ⟨l, h1, h2⟩ := h.upstream
  obtain ⟨m, hm⟩ := g.upstream
  refine ⟨fun c r e => by rw [hc]; exact h.lost c r e, fun c e => by rw [hc]; exact h.kept c e, g.gaps.trans h.gaps,
    g.layouts.trans h.layouts, g.regions.trans h.regions, fun b => (g.entry b).1.trans (h.layoutSet b), fun c b e1 e2 e3 => ?_,
    hp, fun i => by rw [g.staging]; exact h.staging i, fun j => ?_, fun j => by rw [hr]; exact h.ready j,
    fun e => g.notice (h.notice e), l ++ m, by rw [hm, h1, List.append_assoc],
    fun c r tag a b => List.mem_append_left _ (h2 c r tag a b)⟩
  · have e4 := h.bound c b e1 e2 e3
    rw [← e4]
    refine (g.entry b).2 ?_
    rw [e4]
    split
    · simp
    · rw [e2]; simp
  · rw [show u.spareMap j = t.spareMap j by unfold State.spareMap; rw [g.spares]]; exact h.spares j

/-! ### Closing the pending entries (R20, R37, R114, R156) -/

/-- Why a context fails by the closing of pending entries of a slot: the first of them that tells it. -/
def State.closeReason (s : State) (k : SlotId) (l : List PendIdx) (c : CtxId) : Option FailReason :=
  l.findSome? (fun i => (s.slot k).pend[i].bind (fun e => e.origin.loss c (s.ctx c).state))

/-- The pending entries once some of a slot's have closed. -/
def State.unclosed (s : State) (k : SlotId) (l : List PendIdx) (j : SlotId) (i : PendIdx) : Option PendEntry :=
  if j = k ∧ i ∈ l then none else (s.slot j).pend[i]

theorem Origin.loss_walk (c d : CtxId) (n : FlightNum) (st : CtxState) : (Origin.walk d n).loss c st =
    if d = c ∧ (st = .walking ∨ st = .paused ∨ st = .synced) then some .sourceLost else none := rfl

theorem Origin.loss_verify (c d : CtxId) (n : FlightNum) (st : CtxState) : (Origin.verify d n).loss c st =
    if d = c ∧ (st = .walking ∨ st = .paused ∨ st = .synced) then some .destLost else none := rfl

theorem Origin.loss_cutover (c d : CtxId) (st : CtxState) : (Origin.cutover d).loss c st =
    if d = c ∧ st = .cutting then some .destLost else none := rfl

theorem Origin.loss_owner {o : Origin} {c : CtxId} {st : CtxState} {r : FailReason} (h : o.loss c st = some r) :
    o.isOf c = true := by
  cases o <;> simp [Origin.loss] at h <;> simp [Origin.isOf, h.1]

theorem Origin.isOf_unique {o : Origin} {c d : CtxId} (h : o.isOf c = true) (g : o.isOf d = true) : c = d := by
  cases o <;> simp [Origin.isOf] at h g <;> rw [← h, ← g]

theorem closeReason_snoc (s : State) (k : SlotId) (l : List PendIdx) (i : PendIdx) (c : CtxId) :
    s.closeReason k (l ++ [i]) c =
      (s.closeReason k l c).or ((s.slot k).pend[i].bind (fun e => e.origin.loss c (s.ctx c).state)) := by
  unfold State.closeReason
  rw [List.findSome?_append]
  congr 1
  simp only [List.findSome?_cons, List.findSome?_nil]
  cases (s.slot k).pend[i].bind (fun e => e.origin.loss c (s.ctx c).state) <;> rfl

theorem losing_closeEntry (l : List PendIdx) (i : PendIdx) (h : Losing k s t (s.closeReason k l) s.ctx (s.unclosed k l)) :
    Losing k s (State.closeEntry k t i) (s.closeReason k (l ++ [i])) s.ctx (s.unclosed k (l ++ [i])) := by
  have hpi := h.pend k i
  have hB : ∀ j h, s.unclosed k (l ++ [i]) j h = if j = k ∧ h = i then none else s.unclosed k l j h := fun j h => by
    unfold State.unclosed
    by_cases h1 : j = k <;> by_cases h2 : h = i <;> by_cases h3 : h ∈ l <;> simp [h1, h2, h3]
  -- nothing is told, and the entries are those of B
  have same : (∀ c, (s.slot k).pend[i].bind (fun e => e.origin.loss c (s.ctx c).state) ≠ none → s.closeReason k l c ≠ none) →
      s.closeReason k (l ++ [i]) = s.closeReason k l := fun hn => by
    funext c
    rw [closeReason_snoc]
    cases hc : s.closeReason k l c with
    | some r => rfl
    | none =>
      rw [Option.none_or]
      by_contra hx
      exact hn c hx hc
  unfold State.closeEntry
  cases hb : s.unclosed k l k i with
  | none =>
    rw [hb] at hpi
    rw [hpi]
    dsimp only [Option.map_none]
    rw [same]
    · have : s.unclosed k (l ++ [i]) = s.unclosed k l := by
        funext j h
        rw [hB]
        split
        · rename_i e; rw [e.1, e.2, hb]
        · rfl
      rw [this]; exact h
    · intro c hc
      unfold State.unclosed at hb
      split at hb
      · rename_i hi
        obtain ⟨r, hr⟩ := Option.ne_none_iff_exists'.1 hc
        unfold State.closeReason
        rw [Ne, List.findSome?_eq_none_iff]
        intro hall
        rw [hall i hi.2] at hr; cases hr
      · rw [hb] at hc; exact absurd rfl hc
  | some e =>
    have hs : (s.slot k).pend[i] = some e := by
      unfold State.unclosed at hb
      split at hb
      · cases hb
      · exact hb
    rw [hb] at hpi
    rw [hpi]
    dsimp only [Option.map_some]
    -- the entry is freed
    have hfree : Losing k s (t.freePend k i) (s.closeReason k l) s.ctx (s.unclosed k (l ++ [i])) := by
      refine h.beside ⟨rfl, rfl, rfl, rfl, rfl, rfl, fun _ => ⟨rfl, fun _ => rfl⟩, id, [], (List.append_nil _).symm⟩ (fun j => ?_) (fun j n => ?_)
      · unfold State.freePend State.isReady
        rw [modSlot_eq, slot_setSlot]
        split
        · rename_i hj; subst hj; rfl
        · rfl
      · unfold State.freePend
        rw [modSlot_eq, slot_setSlot, hB]
        by_cases hj : k = j
        · subst hj
          rw [if_pos rfl]
          by_cases hn : n = i
          · subst hn
            rw [if_pos ⟨rfl, rfl⟩]
            simp [SlotPort.freeEntry]
          · rw [if_neg (fun e => hn e.2), ← h.pend k n]
            have : (i : Nat) ≠ n := fun e => hn (Fin.ext e.symm)
            simp [SlotPort.freeEntry, this]
        · rw [if_neg hj, if_neg (fun e => hj e.1.symm)]
          exact h.pend j n
    by_cases ho : ∃ c, (s.closeReason k l c).isSome = true ∧ e.origin.isOf c = true
    · -- its owner has failed: nobody is told
      have he : PendEntry.orphans (s.closeReason k l) e = { e with origin := .orphan } := if_pos ho
      rw [he, same]
      · exact hfree
      · intro c hc
        obtain ⟨d, hd1, hd2⟩ := ho
        rw [hs] at hc
        obtain ⟨r, hr⟩ := Option.ne_none_iff_exists'.1 hc
        have := Origin.isOf_unique (Origin.loss_owner hr) hd2
        subst this
        intro hn; rw [hn] at hd1; cases hd1
    · have he : PendEntry.orphans (s.closeReason k l) e = e := if_neg ho
      rw [he]
      have hnone : ∀ c, e.origin.isOf c = true → s.closeReason k l c = none := fun c hc => by
        cases hx : s.closeReason k l c with
        | none => rfl
        | some r => exact absurd ⟨c, by rw [hx]; rfl, hc⟩ ho
      -- one context is told that it fails
      have fails : ∀ c r, e.origin.loss c (s.ctx c).state = some r → (s.ctx c).state.isLive = true →
          Losing k s ((t.freePend k i).failCtx c r) (s.closeReason k (l ++ [i])) s.ctx (s.unclosed k (l ++ [i])) := by
        intro c r hr hl
        have hc := hnone c (Origin.loss_owner hr)
        have := hfree.fail c r hc hl
        have hR : Function.update (s.closeReason k l) c (some r) = s.closeReason k (l ++ [i]) := by
          funext d
          rw [closeReason_snoc, hs, Option.bind_some]
          by_cases hd : d = c
          · subst hd
            rw [Function.update_self, hc, Option.none_or, hr]
          · rw [Function.update_of_ne hd]
            have : e.origin.loss d (s.ctx d).state = none := by
              cases hx : e.origin.loss d (s.ctx d).state with
              | none => rfl
              | some q => exact absurd (Origin.isOf_unique (Origin.loss_owner hx) (Origin.loss_owner hr)) hd
            rw [this, Option.or_none]
        rw [hR] at this
        exact this
      -- nobody is told
      have quiet : (∀ c, e.origin.loss c (s.ctx c).state = none) →
          s.closeReason k (l ++ [i]) = s.closeReason k l := fun hn => same (fun c hc => by
            rw [hs, Option.bind_some, hn c] at hc; exact absurd rfl hc)
      have hst : ∀ c, s.closeReason k l c = none → ((t.freePend k i).ctx c).state = (s.ctx c).state := fun c hc => by
        rw [(hfree.kept c hc).1]
      unfold State.deliverLoss
      cases hor : e.origin with
      | agent tag b part parts a =>
        rw [quiet (fun c => by rw [hor]; rfl)]
        cases a with
        | none =>
          exact hfree.beside ⟨rfl, rfl, rfl, rfl, rfl, rfl, fun _ => ⟨rfl, fun _ => rfl⟩, id, _, rfl⟩ (fun _ => rfl) hfree.pend
        | some a =>
          dsimp only
          have hsl : ∀ j, ((t.freePend k i).resolvePart a part ⟨retNoBoard, []⟩).slot j = (t.freePend k i).slot j := fun j => by
            unfold State.resolvePart
            split
            · rfl
            · dsimp only; split <;> rfl
          exact hfree.beside (.resolvePart _ _ _ _) (fun j => by unfold State.isReady; rw [hsl])
            (fun j n => by rw [hsl]; exact hfree.pend j n)
      | fenceGroup n w =>
        rw [quiet (fun c => by rw [hor]; rfl)]
        dsimp only
        have hsl : ∀ j, ((t.freePend k i).resolveFence n w .failed).slot j = (t.freePend k i).slot j := fun j => by
          unfold State.resolveFence
          split
          · rfl
          · dsimp only; repeat' split
            all_goals rfl
        exact hfree.beside (.resolveFence _ _ _ _) (fun j => by unfold State.isReady; rw [hsl])
          (fun j m => by rw [hsl]; exact hfree.pend j m)
      | walk c n =>
        have hc := hnone c (by rw [hor]; simp [Origin.isOf])
        dsimp only
        unfold State.entryLost
        rw [hst c hc]
        have hno : ¬ ((s.ctx c).state = .walking ∨ (s.ctx c).state = .paused ∨ (s.ctx c).state = .synced) →
            ∀ d, e.origin.loss d (s.ctx d).state = none := fun hx d => by
          rw [hor, Origin.loss_walk, if_neg]; rintro ⟨rfl, h2⟩; exact hx h2
        cases hs2 : (s.ctx c).state
        all_goals dsimp only
        all_goals first
          | (rw [quiet (hno (by rw [hs2]; simp))]; exact hfree)
          | exact fails c .sourceLost (by rw [hor, Origin.loss_walk, if_pos ⟨rfl, by rw [hs2]; simp⟩]) (by rw [hs2]; rfl)
      | verify c n =>
        have hc := hnone c (by rw [hor]; simp [Origin.isOf])
        dsimp only
        unfold State.entryLost
        rw [hst c hc]
        have hno : ¬ ((s.ctx c).state = .walking ∨ (s.ctx c).state = .paused ∨ (s.ctx c).state = .synced) →
            ∀ d, e.origin.loss d (s.ctx d).state = none := fun hx d => by
          rw [hor, Origin.loss_verify, if_neg]; rintro ⟨rfl, h2⟩; exact hx h2
        cases hs2 : (s.ctx c).state
        all_goals dsimp only
        all_goals first
          | (rw [quiet (hno (by rw [hs2]; simp))]; exact hfree)
          | exact fails c .destLost (by rw [hor, Origin.loss_verify, if_pos ⟨rfl, by rw [hs2]; simp⟩]) (by rw [hs2]; rfl)
      | cutover c =>
        have hc := hnone c (by rw [hor]; simp [Origin.isOf])
        dsimp only
        unfold State.cutoverLost
        rw [hst c hc]
        split
        · rename_i hs2
          exact fails c .destLost (by rw [hor, Origin.loss_cutover, if_pos ⟨rfl, hs2⟩]) (by rw [hs2]; rfl)
        · rename_i hs2
          rw [quiet (fun d => by rw [hor, Origin.loss_cutover, if_neg]; rintro ⟨rfl, h2⟩; exact hs2 h2)]
          exact hfree
      | orphan =>
        rw [quiet (fun c => by rw [hor]; rfl)]
        exact hfree

theorem losing_closeEntries (l : List PendIdx) : ∀ (d : List PendIdx) (t : State),
    Losing k s t (s.closeReason k d) s.ctx (s.unclosed k d) →
    Losing k s (l.foldl (State.closeEntry k) t) (s.closeReason k (d ++ l)) s.ctx (s.unclosed k (d ++ l)) := by
  induction l with
  | nil => intro d t h; rw [List.append_nil]; exact h
  | cons i l ih =>
    intro d t h
    have := ih (d ++ [i]) _ (losing_closeEntry d i h)
    rw [List.append_assoc] at this
    exact this

/-! ### Refused claims (R37, R106, R139, R156) -/

/-- The records of contexts that have failed do not matter. -/
theorem Losing.congr {X' : CtxId → Ctx} (h : Losing k s t R X B) (hX : ∀ c, R c = none → X' c = X c) : Losing k s t R X' B :=
  { h with kept := fun c e => by rw [hX c e]; exact h.kept c e }

/-- A pass over the contexts, each of which takes its own reason and record once. -/
theorem Losing.fold {R' : CtxId → Option FailReason} {X' : CtxId → Ctx} {f : State → CtxId → State} (R0 : CtxId → Option FailReason)
    (X0 : CtxId → Ctx)
    (hf : ∀ t R X c, Losing k s t R X B → R c = R0 c → X c = X0 c →
      Losing k s (f t c) (Function.update R c (R' c)) (Function.update X c (X' c)) B) :
    ∀ (l : List CtxId) (t : State) (R : CtxId → Option FailReason) (X : CtxId → Ctx), l.Nodup → Losing k s t R X B →
      (∀ c ∈ l, R c = R0 c ∧ X c = X0 c) → (∀ c, c ∉ l → R c = R' c ∧ X c = X' c) → Losing k s (l.foldl f t) R' X' B := by
  intro l
  induction l with
  | nil =>
    intro t R X _ h _ hn
    have h1 : R = R' := funext fun c => (hn c (by simp)).1
    have h2 : X = X' := funext fun c => (hn c (by simp)).2
    rw [← h1, ← h2]; exact h
  | cons a l ih =>
    intro t R X hd h hin hn
    have ha := hin a (by simp)
    refine ih _ _ _ (List.nodup_cons.1 hd).2 (hf t R X a h ha.1 ha.2) (fun c hc => ?_) (fun c hc => ?_)
    · have : c ≠ a := by rintro rfl; exact (List.nodup_cons.1 hd).1 hc
      rw [Function.update_of_ne this, Function.update_of_ne this]
      exact hin c (by simp [hc])
    · by_cases hca : c = a
      · subst hca
        rw [Function.update_self, Function.update_self]; exact ⟨rfl, rfl⟩
      · rw [Function.update_of_ne hca, Function.update_of_ne hca]
        exact hn c (by simp [hca, hc])

theorem Losing.foldAll {R' : CtxId → Option FailReason} {X' : CtxId → Ctx} {f : State → CtxId → State}
    (hf : ∀ t S Y c, Losing k s t S Y B → S c = R c → Y c = X c →
      Losing k s (f t c) (Function.update S c (R' c)) (Function.update Y c (X' c)) B)
    (h : Losing k s t R X B) : Losing k s (allCtxs.foldl f t) R' X' B :=
  h.fold R X hf allCtxs t R X (by decide) (fun _ _ => ⟨rfl, rfl⟩) (fun c hc => absurd (by revert c; decide) hc)

/-- A context's record with its claims on a slot refused. -/
def Ctx.unclaimed (x : Ctx) : Ctx := { x with flights := x.flights.map (fun f => { f with claim := false }), cutClaim := false }

theorem Ctx.alike_unclaimed (x : Ctx) : x.unclaimed.Alike x :=
  ⟨fun _ => rfl, rfl, by simp [Ctx.unclaimed, Function.comp_def]⟩

/-- Why a context has failed once the waiting claims of a slot are refused. -/
def State.refuseReason (s : State) (k : SlotId) (R : CtxId → Option FailReason) (c : CtxId) : Option FailReason :=
  match R c with
  | some r => some r
  | none => if (s.ctx c).dst = k ∧ (s.ctx c).cutClaim = true ∧ (s.ctx c).state.isLive = true then some .destLost else none

def State.refused (s : State) (k : SlotId) (c : CtxId) : Ctx := if (s.ctx c).dst = k then (s.ctx c).unclaimed else s.ctx c

theorem setCtx_same (s : State) (c : CtxId) (x : Ctx) (h : x = s.ctx c) : s.setCtx c x = s := by
  subst h
  unfold State.setCtx State.ctx
  simp

theorem losing_refuse (h : Losing k s t R s.ctx B) :
    Losing k s (allCtxs.foldl (State.refuseClaims k) t) (s.refuseReason k R) (s.refused k) B := by
  refine Losing.foldAll (fun t S Y c h hS hY => ?_) h
  unfold State.refuseClaims
  cases hc : S c with
  | some r =>
    have hx := h.lost c r hc
    have hR : Function.update S c (s.refuseReason k R c) = S := by
      have : s.refuseReason k R c = S c := by unfold State.refuseReason; rw [← hS, hc]
      rw [this, Function.update_eq_self]
    rw [hR]
    refine Losing.congr (X := Y) ?_ (fun d hd => Function.update_of_ne (by rintro rfl; rw [hc] at hd; cases hd) _ _)
    have h1 : (t.modCtx c (fun x => { x with flights := x.flights.map (fun f => { f with claim := false }) })) = t := by
      rw [modCtx_eq]
      refine setCtx_same _ _ _ ?_
      rw [hx]; rfl
    rw [h1]
    have h2 : (t.ctx c).cutClaim = false := by rw [hx]; rfl
    rw [h2]
    simp only [Bool.false_eq_true, if_false, ite_self]
    exact h
  | none =>
    obtain ⟨hx, -⟩ := h.kept c hc
    rw [hY] at hx
    have hRf : s.refuseReason k R c =
        if (s.ctx c).dst = k ∧ (s.ctx c).cutClaim = true ∧ (s.ctx c).state.isLive = true then some .destLost else none := by
      unfold State.refuseReason; rw [← hS, hc]
    have same : s.refuseReason k R c = none → Function.update S c (s.refuseReason k R c) = S := fun e => by
      rw [e, ← hc, Function.update_eq_self]
    rw [hx]
    by_cases hd : (s.ctx c).dst = k
    · rw [if_pos hd]
      have hXf : s.refused k c = (s.ctx c).unclaimed := if_pos hd
      rw [modCtx_eq, hx]
      by_cases hcl : (s.ctx c).cutClaim = true
      · dsimp only
        rw [if_pos hcl, modCtx_eq, ctx_setCtx_same, setCtx_twice]
        have hch := h.change c (s.ctx c).unclaimed hc (by rw [hY]; exact (s.ctx c).alike_unclaimed)
        change Losing k s ((t.setCtx c (s.ctx c).unclaimed).failCtx c .destLost) _ _ B
        rw [hXf]
        by_cases hl : (s.ctx c).state.isLive = true
        · rw [hRf, if_pos ⟨hd, hcl, hl⟩]
          exact hch.fail c .destLost hc (by rw [Function.update_self]; exact hl)
        · rw [same (by rw [hRf, if_neg]; rintro ⟨-, -, e⟩; exact hl e)]
          have : (t.setCtx c (s.ctx c).unclaimed).failCtx c .destLost = t.setCtx c (s.ctx c).unclaimed := by
            unfold State.failCtx
            rw [if_neg]
            rw [ctx_setCtx_same]; exact hl
          rw [this]; exact hch
      · dsimp only
        rw [if_neg hcl, same (by rw [hRf, if_neg]; rintro ⟨-, e, -⟩; exact hcl e), hXf]
        have : ({ s.ctx c with flights := (s.ctx c).flights.map (fun f => { f with claim := false }) } : Ctx) = (s.ctx c).unclaimed := by
          unfold Ctx.unclaimed
          simp only [Bool.not_eq_true] at hcl
          rw [← hcl]
        rw [this]
        exact h.change c (s.ctx c).unclaimed hc (by rw [hY]; exact (s.ctx c).alike_unclaimed)
    · rw [if_neg hd, same (by rw [hRf, if_neg]; rintro ⟨e, -⟩; exact hd e)]
      have : s.refused k c = Y c := by rw [hY]; exact if_neg hd
      rw [this, Function.update_eq_self]
      exact h

/-! ### The report to the Migration Engine (R86, R113, R156 to R158) -/

theorem Losing.windowFits (h : Losing k s t R X B) {c : CtxId} (hc : R c = none) : t.windowFits c = s.windowFits c := by
  obtain ⟨hx, ha⟩ := h.kept c hc
  obtain ⟨f1, f2, f3, f4⟩ := ha.fields
  have hset : t.ctxSet c = s.ctxSet c := by
    unfold State.ctxSet; rw [hx, f1, h.layoutSet]
  have hrec : ∀ j l v, t.windowRecords j l v = (s.spareMap j).filterMap (s.windowRecord l v) := fun j l v => by
    unfold State.windowRecords
    rw [h.spares j, List.filterMap_map]
    congr 1
    funext x
    have hreg : ∀ i, t.region i = s.region i := fun i => by unfold State.region; rw [h.regions]
    cases x with
    | retired => rfl
    | remap i e v' n o q =>
      cases o with
      | none => simp [SpareRec.disowns, State.windowRecord, hreg]
      | some d =>
        by_cases hd : (R d).isSome = true <;> simp [SpareRec.disowns, State.windowRecord, hreg, hd]
  unfold State.windowFits State.windowCount State.windowCap
  rw [hrec, hset, hx, f3, show (X c).dstView = (s.ctx c).dstView by unfold Ctx.dstView; rw [f4]]
  have hl : t.layout (s.ctxSet c) = s.layout (s.ctxSet c) := by unfold State.layout; rw [h.layouts]
  rw [hl]
  rfl

/-- Why a context that the report of a slot's departure finds live fails. -/
def State.reportReason (s : State) (k : SlotId) (c : CtxId) : Option FailReason :=
  match (s.ctx c).state with
  | .opened | .walking | .paused =>
    if (s.ctx c).src = k then some .sourceLost else if (s.ctx c).dst = k then some .destLost else none
  | .waiting => if (s.ctx c).src = k then some .sourceLost else none
  | .synced =>
    if (s.ctx c).src = k then
      if (∀ g ∈ s.gaps, g.ctx ≠ c) ∧ s.windowFits c = true then
        if (s.ctx c).dst ≠ k ∧ s.isReady (s.ctx c).dst = true then none else some .destLost
      else some .sourceLost
    else if (s.ctx c).dst = k then some .destLost
    else none
  | .cutting => if (s.ctx c).src ≠ k ∧ (s.ctx c).dst = k then some .destLost else none
  | .idle | .failed => none

def State.reported (s : State) (k : SlotId) (c : CtxId) : Ctx :=
  if (s.ctx c).state = .synced ∧ (s.ctx c).src = k then (s.refused k c).cut else s.refused k c

theorem losing_engineLeft (h : Losing k s t R (s.refused k) B) :
    Losing k s (t.engineLeft k) (fun c => (R c).or (s.reportReason k c)) (s.reported k) B := by
  refine Losing.foldAll (fun t S Y c h hS hY => ?_) h
  unfold State.ctxLeft
  cases hc : S c with
  | some r =>
    have hx := h.lost c r hc
    have hR : Function.update S c ((R c).or (s.reportReason k c)) = S := by
      rw [← hS, hc, Option.some_or, ← hc, Function.update_eq_self]
    rw [hR]
    refine Losing.congr (X := Y) ?_ (fun d hd => Function.update_of_ne (by rintro rfl; rw [hc] at hd; cases hd) _ _)
    have h2 : (t.ctx c).state = .failed := by rw [hx]; rfl
    dsimp only
    rw [h2]
    exact h
  | none =>
    obtain ⟨hx, hal⟩ := h.kept c hc
    have hst : (t.ctx c).state = (s.ctx c).state := by
      rw [hx, hY]; unfold State.refused; split <;> rfl
    have hsrc : (t.ctx c).src = (s.ctx c).src := by
      rw [hx, hY]; unfold State.refused; split <;> rfl
    have hdst : (t.ctx c).dst = (s.ctx c).dst := by
      rw [hx, hY]; unfold State.refused; split <;> rfl
    rw [← hS, hc, Option.none_or]
    have keep : s.reportReason k c = none → s.reported k c = s.refused k c →
        Losing k s t (Function.update S c (s.reportReason k c)) (Function.update Y c (s.reported k c)) B := fun e1 e2 => by
      rw [e1, e2, ← hY, ← hc, Function.update_eq_self, Function.update_eq_self]; exact h
    have fail : ∀ r, s.reportReason k c = some r → (s.ctx c).state.isLive = true →
        Losing k s (t.failCtx c r) (Function.update S c (s.reportReason k c)) (Function.update Y c (s.reported k c)) B := fun r e1 hl => by
      rw [e1]
      refine (h.fail c r hc (by rw [← hx, hst]; exact hl)).congr (fun d hd => Function.update_of_ne ?_ _ _)
      rintro rfl; rw [Function.update_self] at hd; cases hd
    dsimp only
    rw [hst, hsrc, hdst]
    have hrep : (s.ctx c).state ≠ .synced ∨ (s.ctx c).src ≠ k → s.reported k c = s.refused k c := fun e => by
      unfold State.reported; rw [if_neg]; rintro ⟨e1, e2⟩; exact e.elim (fun f => f e1) (fun f => f e2)
    cases hs2 : (s.ctx c).state with
    | idle => exact keep (by unfold State.reportReason; rw [hs2]) (hrep (.inl (by rw [hs2]; simp)))
    | failed => exact keep (by unfold State.reportReason; rw [hs2]) (hrep (.inl (by rw [hs2]; simp)))
    | opened | walking | paused =>
      dsimp only
      split
      · rename_i e; exact fail _ (by unfold State.reportReason; rw [hs2]; dsimp only; rw [if_pos e]) (by rw [hs2]; rfl)
      · rename_i e
        split
        · rename_i e2; exact fail _ (by unfold State.reportReason; rw [hs2]; dsimp only; rw [if_neg e, if_pos e2]) (by rw [hs2]; rfl)
        · rename_i e2
          exact keep (by unfold State.reportReason; rw [hs2]; dsimp only; rw [if_neg e, if_neg e2]) (hrep (.inr e))
    | waiting =>
      dsimp only
      split
      · rename_i e; exact fail _ (by unfold State.reportReason; rw [hs2]; dsimp only; rw [if_pos e]) (by rw [hs2]; rfl)
      · rename_i e; exact keep (by unfold State.reportReason; rw [hs2]; dsimp only; rw [if_neg e]) (hrep (.inr e))
    | cutting =>
      dsimp only
      split
      · rename_i e
        exact keep (by unfold State.reportReason; rw [hs2]; dsimp only; rw [if_neg]; rintro ⟨e1, -⟩; exact e1 e)
          (hrep (.inl (by rw [hs2]; simp)))
      · rename_i e
        split
        · rename_i e2
          exact fail _ (by unfold State.reportReason; rw [hs2]; dsimp only; rw [if_pos ⟨e, e2⟩]) (by rw [hs2]; rfl)
        · rename_i e2
          exact keep (by unfold State.reportReason; rw [hs2]; dsimp only; rw [if_neg]; rintro ⟨-, e1⟩; exact e2 e1) (hrep (.inr e))
    | synced =>
      dsimp only
      split
      · rename_i e
        have hrr : s.reportReason k c = if (∀ g ∈ s.gaps, g.ctx ≠ c) ∧ s.windowFits c = true then
            if (s.ctx c).dst ≠ k ∧ s.isReady (s.ctx c).dst = true then none else some .destLost
          else some .sourceLost := by
          unfold State.reportReason; rw [hs2]; dsimp only; rw [if_pos e]
        have hcond : ((t.gapsOf c).isEmpty && t.windowFits c) = true ↔ (∀ g ∈ s.gaps, g.ctx ≠ c) ∧ s.windowFits c = true := by
          rw [h.windowFits hc]
          unfold State.gapsOf
          rw [h.gaps]
          simp
        unfold State.sourceGone
        by_cases hcd : (∀ g ∈ s.gaps, g.ctx ≠ c) ∧ s.windowFits c = true
        · rw [if_pos (hcond.2 hcd)]
          rw [if_pos hcd] at hrr
          unfold State.enterCutting
          dsimp only
          rw [hdst, modCtx_eq]
          have hch := h.change c (t.ctx c).cut hc (by rw [hx]; exact ⟨fun _ => rfl, rfl, rfl⟩)
          have hcut : (t.ctx c).cut = s.reported k c := by
            unfold State.reported; rw [if_pos ⟨hs2, e⟩, hx, hY]
          by_cases hr : t.isReady (s.ctx c).dst = true
          · rw [if_pos hr]
            rw [if_pos ((h.ready _).1 hr)] at hrr
            rw [hrr, ← hc, Function.update_eq_self, ← hcut]; exact hch
          · rw [if_neg hr]
            rw [if_neg (fun e => hr ((h.ready _).2 e))] at hrr
            rw [hrr, ← hcut]
            refine hch.fail c .destLost hc ?_
            rw [Function.update_self]; rfl
        · rw [if_neg (fun e => hcd (hcond.1 e))]
          rw [if_neg hcd] at hrr
          exact fail _ hrr (by rw [hs2]; rfl)
      · rename_i e
        split
        · rename_i e2
          exact fail _ (by unfold State.reportReason; rw [hs2]; dsimp only; rw [if_neg e, if_pos e2]) (by rw [hs2]; rfl)
        · rename_i e2
          exact keep (by unfold State.reportReason; rw [hs2]; dsimp only; rw [if_neg e, if_neg e2]) (hrep (.inr e))

/-! ### The whole departure -/

theorem Losing.begins (s : State) (k : SlotId) {st : SlotState} (hst : st ≠ .ready) :
    Losing k s (s.modSlot k (fun p => { p with state := st, queue := [] })) (s.closeReason k []) s.ctx (s.unclosed k []) := by
  have hR : s.closeReason k [] = fun _ => none := rfl
  have hO : PendEntry.orphans (fun _ => none) = id := by
    funext e
    exact if_neg (by rintro ⟨c, h, -⟩; cases h)
  have hD : SpareRec.disowns (fun _ => none) = id := by
    funext x
    cases x with
    | retired => rfl
    | remap i e v n o q => cases o <;> rfl
  rw [hR]
  have hsl : ∀ j, (s.modSlot k (fun p => { p with state := st, queue := [] })).slot j =
      if k = j then { s.slot k with state := st, queue := [] } else s.slot j := fun j => by rw [modSlot_eq, slot_setSlot]
  refine ⟨fun c r e => (by cases e), fun c _ => ⟨rfl, .refl _⟩, rfl, rfl, rfl, fun _ => rfl, fun c b _ _ _ => rfl, fun j i => ?_,
    fun g => ?_, fun j => ?_, fun j => ?_, fun ⟨c, e⟩ => (by cases e), [], (List.append_nil _).symm, fun c r tag e => (by cases e)⟩
  · rw [hO, Option.map_id_fun, id, hsl]
    have : s.unclosed k [] j i = (s.slot j).pend[i] := if_neg (by simp)
    rw [this]
    split
    · rename_i e; subst e; rfl
    · rfl
  · rw [if_neg (by rintro ⟨c, e, -⟩; cases e)]; rfl
  · rw [hD, List.map_id]; rfl
  · unfold State.isReady
    rw [hsl]
    by_cases e : k = j
    · subst e
      simp [hst]
    · rw [if_neg e]
      exact ⟨fun h => ⟨Ne.symm e, h⟩, fun h => h.2⟩

theorem slot_steeringLeft (t : State) (k j : SlotId) : (t.steeringLeft k).slot j = t.slot j := by
  have hr : ∀ (u : State) (n : NoticeKind) (d : BitVec 8), (u.raise n d).slot j = u.slot j := fun u n d => by rw [raise_eq]; rfl
  unfold State.steeringLeft State.twinLoss State.primaryLoss
  dsimp only
  repeat' split
  all_goals first | rfl | exact hr _ _ _

theorem lossReason_eq (s : State) (k : SlotId) (c : CtxId) :
    s.lossReason k c = (s.refuseReason k (s.closeReason k (s.slot k).closeOrder) c).or (s.reportReason k c) := by
  have hclose : (s.slot k).closeOrder.findSome? (fun i => (s.slot k).pend[i].bind (fun e => e.origin.loss c (s.ctx c).state)) =
      s.closeReason k (s.slot k).closeOrder c := rfl
  have hdead : (s.ctx c).state = .idle ∨ (s.ctx c).state = .failed → s.closeReason k (s.slot k).closeOrder c = none := fun e => by
    unfold State.closeReason
    rw [List.findSome?_eq_none_iff]
    intro i _
    cases (s.slot k).pend[i] with
    | none => rfl
    | some e' =>
      rw [Option.bind_some]
      cases ho : e'.origin with
      | walk | verify | cutover => rcases e with e | e <;> simp [Origin.loss, e]
      | agent | fenceGroup | orphan => rfl
  unfold State.lossReason State.refuseReason
  dsimp only
  rw [hclose]
  by_cases hd : (s.ctx c).state = .idle ∨ (s.ctx c).state = .failed
  · rw [if_pos hd, hdead hd]
    dsimp only
    rw [if_neg (by rintro ⟨-, -, hl⟩; rcases hd with e | e <;> rw [e] at hl <;> cases hl), Option.none_or]
    unfold State.reportReason
    rcases hd with e | e <;> rw [e]
  · rw [if_neg hd]
    have hl : (s.ctx c).state.isLive = true := by
      revert hd
      cases (s.ctx c).state <;> simp [CtxState.isLive]
    cases s.closeReason k (s.slot k).closeOrder c with
    | some r => rfl
    | none =>
      dsimp only
      by_cases hcl : (s.ctx c).dst = k ∧ (s.ctx c).cutClaim = true
      · rw [if_pos hcl, if_pos ⟨hcl.1, hcl.2, hl⟩]; rfl
      · rw [if_neg hcl, if_neg (show ¬ ((s.ctx c).dst = k ∧ (s.ctx c).cutClaim = true ∧ (s.ctx c).state.isLive = true) from
          fun e => hcl ⟨e.1, e.2.1⟩), Option.none_or]
        rfl

/-- What a slot's departure from READY does to the migration contexts and to what they hold. -/
theorem losing_leaveReady (s : State) (k : SlotId) {st : SlotState} (hst : st ≠ .ready) :
    Losing k s (s.leaveReady k st) (s.lossReason k) (s.ctxAfterLoss k) (s.unclosed k (s.slot k).closeOrder) := by
  have h1 := losing_closeEntries (s.slot k).closeOrder [] _ (Losing.begins s k hst)
  rw [List.nil_append] at h1
  unfold State.leaveReady
  dsimp only
  generalize List.foldl (State.closeEntry k) _ _ = t at h1 ⊢
  have h2 : Losing k s (t.modSlot k (fun p => { p with credits := 0 })) (s.closeReason k (s.slot k).closeOrder) s.ctx
      (s.unclosed k (s.slot k).closeOrder) := by
    have hsl : ∀ j, (t.modSlot k (fun p => { p with credits := 0 })).slot j =
        if k = j then { t.slot k with credits := 0 } else t.slot j := fun j => by rw [modSlot_eq, slot_setSlot]
    refine h1.beside ⟨rfl, rfl, rfl, rfl, rfl, rfl, fun _ => ⟨rfl, fun _ => rfl⟩, id, [], (List.append_nil _).symm⟩
      (fun j => ?_) (fun j i => ?_)
    · unfold State.isReady
      rw [hsl]; split
      · rename_i e; subst e; rfl
      · rfl
    · rw [← h1.pend j i, hsl]; split
      · rename_i e; subst e; rfl
      · rfl
  have h3 := losing_refuse h2
  generalize List.foldl (State.refuseClaims k) _ _ = v at h3 ⊢
  have h4 : Losing k s (v.steeringLeft k) _ _ _ := h3.beside (.steeringLeft v k)
    (fun j => by unfold State.isReady; rw [slot_steeringLeft]) (fun j i => by rw [slot_steeringLeft]; exact h3.pend j i)
  have h5 := losing_engineLeft h4
  have hR : (fun c => (s.refuseReason k (s.closeReason k (s.slot k).closeOrder) c).or (s.reportReason k c)) = s.lossReason k :=
    funext fun c => (lossReason_eq s k c).symm
  rw [hR] at h5
  refine h5.congr (fun c hc => ?_)
  unfold State.ctxAfterLoss
  dsimp only
  rw [hc]
  dsimp only
  have hrr : s.reportReason k c = none := by
    rw [lossReason_eq] at hc
    exact (Option.or_eq_none_iff.1 hc).2
  unfold State.reported State.refused
  by_cases e : (s.ctx c).state = .synced ∧ (s.ctx c).src = k
  · rw [if_pos e, if_pos e]
    have hd : (s.ctx c).dst ≠ k := by
      intro hd
      unfold State.reportReason at hrr
      rw [e.1] at hrr
      dsimp only at hrr
      rw [if_pos e.2] at hrr
      split at hrr
      · rw [if_neg (fun x => x.1 hd)] at hrr; cases hrr
      · cases hrr
    rw [if_neg hd]; rfl
  · rw [if_neg e, if_neg e]
    rfl

end Sys2Proof.Machine
end

