-- ==== Sys2Proof/Laws/Tables.lean ====
section
/-! SUPPORT. The capacities of the gap list and the spare maps (R132, R141) through the shared operations. -/

namespace Sys2Proof.Machine

/-- A context's record after an update that leaves a context which may have gap records one that may, starts no walk, and
keeps the destination of one. -/
structure Ctx.Onward (x y : Ctx) : Prop where
  owns : x.state ≠ .idle ∧ x.state ≠ .cutting → y.state ≠ .idle ∧ y.state ≠ .cutting
  walks : y.state = .walking ∨ y.state = .paused → (x.state = .walking ∨ x.state = .paused) ∧ y.dst = x.dst

theorem Ctx.Onward.same {x y : Ctx} (hs : y.state = x.state) (hd : y.dst = x.dst) : x.Onward y :=
  ⟨fun h => by rw [hs]; exact h, fun h => ⟨by rw [← hs]; exact h, hd⟩⟩

theorem Ctx.Onward.refl (x : Ctx) : x.Onward x := .same rfl rfl

/-- A context that ends up in a state where it neither walks nor gives up its gap records. -/
theorem Ctx.Onward.rests {x y : Ctx} (h : y.state = .synced ∨ y.state = .failed ∨ y.state = .opened) : x.Onward y := by
  constructor <;> rcases h with h | h | h <;> rw [h] <;> simp

/-- No gap record and no spare map record is added, no two spares come together, no gap record stays with a context that gives
its records up, and no context starts to walk. -/
structure State.Trims (s t : State) : Prop where
  gaps : t.gaps.Sublist s.gaps
  spares : ∀ k, (t.spareMap k).length ≤ (s.spareMap k).length ∧ (SparesApart (s.spareMap k) → SparesApart (t.spareMap k))
  owners : ∀ g ∈ t.gaps, (s.ctx g.ctx).state ≠ .idle ∧ (s.ctx g.ctx).state ≠ .cutting →
    (t.ctx g.ctx).state ≠ .idle ∧ (t.ctx g.ctx).state ≠ .cutting
  walks : ∀ c, (t.ctx c).state = .walking ∨ (t.ctx c).state = .paused →
    ((s.ctx c).state = .walking ∨ (s.ctx c).state = .paused) ∧ (t.ctx c).dst = (s.ctx c).dst

theorem State.Trims.refl (s : State) : s.Trims s :=
  ⟨.refl _, fun _ => ⟨Nat.le_refl _, id⟩, fun _ _ => id, fun _ h => ⟨h, rfl⟩⟩

theorem State.Trims.trans {s t u : State} (h : s.Trims t) (g : t.Trims u) : s.Trims u :=
  ⟨g.gaps.trans h.gaps, fun k => ⟨Nat.le_trans (g.spares k).1 (h.spares k).1, fun a => (g.spares k).2 ((h.spares k).2 a)⟩,
    fun x hx a => g.owners x hx (h.owners x (g.gaps.subset hx) a), fun c a =>
      ⟨(h.walks c (g.walks c a).1).1, (g.walks c a).2.trans (h.walks c (g.walks c a).1).2⟩⟩

theorem State.Trims.foldl {α : Type} (f : State → α → State) (hf : ∀ (s : State) a, s.Trims (f s a)) (l : List α) (s : State) :
    s.Trims (l.foldl f s) := by
  induction l generalizing s with
  | nil => exact .refl s
  | cons a l ih => exact (hf s a).trans (ih (f s a))

/-- An operation on the contexts' records alone. -/
theorem State.Trims.of_ctxs {s t : State} (hg : t.gaps = s.gaps) (hs : t.spares = s.spares)
    (ho : ∀ g ∈ s.gaps, (s.ctx g.ctx).state ≠ .idle ∧ (s.ctx g.ctx).state ≠ .cutting →
      (t.ctx g.ctx).state ≠ .idle ∧ (t.ctx g.ctx).state ≠ .cutting)
    (hw : ∀ c, (t.ctx c).state = .walking ∨ (t.ctx c).state = .paused →
      ((s.ctx c).state = .walking ∨ (s.ctx c).state = .paused) ∧ (t.ctx c).dst = (s.ctx c).dst) : s.Trims t :=
  ⟨hg ▸ .refl _, fun k => by unfold State.spareMap; rw [hs]; exact ⟨Nat.le_refl _, id⟩, fun g h => ho g (hg ▸ h), hw⟩

/-- An operation on other blocks. -/
theorem State.Trims.of_tables {s t : State} (hg : t.gaps = s.gaps) (hs : t.spares = s.spares) (hc : t.ctxs = s.ctxs) : s.Trims t := by
  have h : ∀ c, t.ctx c = s.ctx c := fun c => by unfold State.ctx; rw [hc]
  exact .of_ctxs hg hs (fun g _ => by rw [h]; exact id) (fun c a => by rw [h] at a ⊢; exact ⟨a, rfl⟩)

theorem State.Trims.sound {s t : State} (h : s.Trims t) (hb : s.TablesSound) : t.TablesSound :=
  ⟨Nat.le_trans h.gaps.length_le hb.1, hb.2.1.sublist h.gaps, fun k =>
    ⟨Nat.le_trans (h.spares k).1 (hb.2.2 k).1, (h.spares k).2 (hb.2.2 k).2⟩⟩

theorem State.Trims.owned {s t : State} (h : s.Trims t) (hb : s.GapsOwned) : t.GapsOwned := fun g hg =>
  h.owners g hg (hb g (h.gaps.subset hg))

theorem State.Trims.empty {s t : State} (h : s.Trims t) {k : SlotId} (hk : s.spareMap k = []) : t.spareMap k = [] :=
  List.length_eq_zero_iff.1 (Nat.le_zero.1 (by have := (h.spares k).1; rw [hk] at this; exact this))

variable (s : State)

/-! ### The named updates -/

theorem trims_pushUp (t : Txn) : s.Trims (s.pushUp t) := .of_tables rfl rfl rfl
theorem trims_setSlot (k : SlotId) (p : SlotPort) : s.Trims (s.setSlot k p) := .of_tables rfl rfl rfl
theorem trims_modSlot (k : SlotId) (f : SlotPort → SlotPort) : s.Trims (s.modSlot k f) := .of_tables rfl rfl rfl
theorem trims_setCtx (c : CtxId) (x : Ctx) (hx : (s.ctx c).Onward x) : s.Trims (s.setCtx c x) :=
  .of_ctxs rfl rfl
    (fun g _ => by
      rw [ctx_setCtx]; split
      · rename_i h; rw [← h]; exact hx.owns
      · exact id)
    (fun d => by
      rw [ctx_setCtx]; split
      · rename_i h; rw [← h]; exact hx.walks
      · exact fun h => ⟨h, rfl⟩)
theorem trims_modCtx (c : CtxId) (f : Ctx → Ctx) (hx : (s.ctx c).Onward (f (s.ctx c))) : s.Trims (s.modCtx c f) := trims_setCtx s c _ hx
/-- A context without gap records ends, or is cut over. -/
theorem trims_endsCtx (c : CtxId) (x : Ctx) (hg : ∀ g ∈ s.gaps, g.ctx ≠ c) (hx : x.state ≠ .walking ∧ x.state ≠ .paused) :
    s.Trims (s.setCtx c x) :=
  .of_ctxs rfl rfl (fun g h => by rw [ctx_setCtx, if_neg (Ne.symm (hg g h))]; exact id)
    (fun d => by
      rw [ctx_setCtx]; split
      · exact fun h => absurd h (by simp [hx.1, hx.2])
      · exact fun h => ⟨h, rfl⟩)
theorem trims_setEntry (b : BoardId) (e : SteerEntry) : s.Trims (s.setEntry b e) := .of_tables rfl rfl rfl
theorem trims_setStaging (g : StagingId) (d : Option (List Word)) : s.Trims (s.setStaging g d) := .of_tables rfl rfl rfl
theorem trims_setNotice (n : NoticeKind) (r : NoticeRec) : s.Trims (s.setNotice n r) := .of_tables rfl rfl rfl
theorem trims_dropGap (c : CtxId) (r : RegionId) (e : Nat) : s.Trims (s.dropGap c r e) :=
  ⟨List.filter_sublist, fun _ => ⟨Nat.le_refl _, id⟩, fun _ _ => id, fun _ h => ⟨h, rfl⟩⟩
theorem trims_dropGapsOf (c : CtxId) : s.Trims (s.dropGapsOf c) :=
  ⟨List.filter_sublist, fun _ => ⟨Nat.le_refl _, id⟩, fun _ _ => id, fun _ h => ⟨h, rfl⟩⟩
theorem sparesApart_nil : SparesApart [] := ⟨List.nodup_nil, List.nodup_nil⟩
theorem trims_disown (c : CtxId) : s.Trims (s.disown c) := by
  have hm : ∀ k, (s.disown c).spareMap k = (s.spareMap k).map (SpareRec.disown c) := fun k => by
    simp [State.disown, State.spareMap]
  have h1 : SpareRec.spare ∘ SpareRec.disown c = SpareRec.spare := funext fun x => by
    cases x <;> simp only [Function.comp_apply, SpareRec.disown]
    · split <;> rfl
  have h2 : SpareRec.row ∘ SpareRec.disown c = SpareRec.row := funext fun x => by
    cases x <;> simp only [Function.comp_apply, SpareRec.disown]
    · split <;> rfl
  refine ⟨List.Sublist.refl _, fun k => ?_, fun _ _ => id, fun _ h => ⟨h, rfl⟩⟩
  rw [hm]
  unfold SparesApart
  rw [List.length_map, List.map_map, List.filterMap_map, h1, h2]
  exact ⟨Nat.le_refl _, id⟩
theorem trims_clearMap (k : SlotId) : s.Trims (s.setSpareMap k []) := by
  refine ⟨List.Sublist.refl _, fun j => ?_, fun _ _ => id, fun _ h => ⟨h, rfl⟩⟩
  rw [spareMap_setSpareMap]; split
  · exact ⟨Nat.zero_le _, fun _ => sparesApart_nil⟩
  · exact ⟨Nat.le_refl _, id⟩

theorem trims_pushReturn (tag : BitVec 8) (b : BoardId) (st : BitVec 4) (n : Nat) (d : List Word) :
    s.Trims (s.pushReturn tag b st n d) := trims_pushUp s _
theorem trims_pushFenceDone (tag : BitVec 8) (b : BoardId) (st : BitVec 4) : s.Trims (s.pushFenceDone tag b st) :=
  trims_pushUp s _
theorem trims_pushReply (tag : BitVec 8) (kind : BitVec 16) (st : ReplyStatus) (ws : List Word) (m : Bool) :
    s.Trims (s.pushReply tag kind st ws m) := trims_pushUp s _

/-! ### Notices (R176, R177) -/

theorem trims_sendNotice (k : NoticeKind) : s.Trims (s.sendNotice k) :=
  (trims_pushUp s _).trans (trims_setNotice _ _ _)

theorem trims_trySend (k : NoticeKind) : s.Trims (s.trySend k) := by
  unfold State.trySend; split
  · exact trims_sendNotice s k
  · exact .refl s

theorem trims_raise (k : NoticeKind) (d : BitVec 8) : s.Trims (s.raise k d) :=
  (trims_setNotice s k ((s.notice k).occur d)).trans (trims_trySend _ k)

theorem trims_sendOpened : s.Trims s.sendOpened := State.Trims.foldl _ (fun s k => trims_trySend s k) _ s

/-! ### The Steering Unit (R47, R55 to R59) -/

theorem trims_releaseStale (c : CtxId) : s.Trims (s.releaseStale c) := by
  unfold State.releaseStale; dsimp only; split
  · exact trims_setEntry s _ _
  · exact .refl s

theorem trims_releaseTwinned (c : CtxId) : s.Trims (s.releaseTwinned c) := by
  unfold State.releaseTwinned; dsimp only; split
  · exact trims_setEntry s _ _
  · exact .refl s

theorem trims_primaryLoss (b : BoardId) : s.Trims (s.primaryLoss b) := by
  unfold State.primaryLoss; dsimp only
  split
  · split
    · split
      · exact (trims_setEntry s _ _).trans (trims_raise _ _ _)
      · exact .refl s
    · exact (trims_setEntry s _ _).trans (trims_raise _ _ _)
  · exact .refl s

theorem trims_twinLoss (b : BoardId) (k : SlotId) : s.Trims (s.twinLoss b k) := by
  unfold State.twinLoss; split
  · exact (trims_setEntry s _ _).trans (trims_raise _ _ _)
  · exact .refl s

theorem trims_steeringLeft (k : SlotId) : s.Trims (s.steeringLeft k) := by
  unfold State.steeringLeft; split
  · exact .refl s
  · split
    · exact trims_primaryLoss s _
    · exact trims_twinLoss s _ _

theorem trims_resolvePart (n p : Nat) (r : PartResult) : s.Trims (s.resolvePart n p r) := by
  unfold State.resolvePart; split
  · exact .refl s
  · dsimp only; split
    · exact .of_tables rfl rfl rfl
    · exact .of_tables rfl rfl rfl

theorem trims_resolveFence (n : Nat) (w : Bool) (o : PartOutcome) : s.Trims (s.resolveFence n w o) := by
  unfold State.resolveFence; split
  · exact .refl s
  · rename_i g _
    generalize (if w then { g with twin := o } else { g with primary := o } : FenceGroup) = g'
    dsimp only; split
    · exact .of_tables rfl rfl rfl
    · exact .of_tables rfl rfl rfl

/-! ### The Migration Engine: ends and failures (R92, R95, R161) -/

theorem trims_orphan (c : CtxId) : s.Trims (s.orphan c) := .of_tables rfl rfl rfl

theorem trims_freeStagingOf (fs : List Flight) : s.Trims (s.freeStagingOf fs) :=
  State.Trims.foldl _ (fun s _ => trims_setStaging s _ _) fs s

theorem trims_release (c : CtxId) : s.Trims (s.release c) :=
  ((((trims_freeStagingOf s _).trans (trims_orphan _ c)).trans (trims_modCtx _ _ _ (.same rfl rfl))).trans
    (trims_releaseStale _ c)).trans (trims_disown _ c)

theorem trims_sendDeferred (c : CtxId) (st : ReplyStatus) (ws : List Word) : s.Trims (s.sendDeferred c st ws) := by
  unfold State.sendDeferred; split
  · exact .refl s
  · exact (trims_modCtx s _ _ (.same rfl rfl)).trans (trims_pushReply _ _ _ _ _ _)

theorem trims_failCtx (c : CtxId) (r : FailReason) : s.Trims (s.failCtx c r) := by
  unfold State.failCtx; split
  · exact (((trims_release s c).trans (trims_modCtx _ _ _ (.rests (.inr (.inl rfl))))).trans (trims_sendDeferred _ _ _ _)).trans
      (trims_raise _ _ _)
  · exact .refl s

/-! ### SYNCED, CUTTING and the cutover (R111, R112, R150, R154) -/

theorem no_gaps {s : State} {c : CtxId} (h : (s.gapsOf c).isEmpty = true) : ∀ g ∈ s.gaps, g.ctx ≠ c := fun g hg hc => by
  have := List.isEmpty_iff.1 h
  unfold State.gapsOf at this
  exact (List.filter_eq_nil_iff.1 this) g hg (by simpa using hc)

theorem trims_enterCutting (c : CtxId) (hg : ∀ g ∈ s.gaps, g.ctx ≠ c) : s.Trims (s.enterCutting c) := by
  have h : s.Trims (s.modCtx c Ctx.cut) := trims_endsCtx s c _ hg (by simp [Ctx.cut])
  unfold State.enterCutting; dsimp only; split
  · exact h
  · exact h.trans (trims_failCtx _ _ _)

theorem trims_autoCutover (c : CtxId) : s.Trims (s.autoCutover c) := by
  unfold State.autoCutover; split
  · split
    · rename_i hg
      split
      · exact trims_enterCutting s c (no_gaps hg)
      · exact .refl s
    · exact trims_raise s _ _
  · exact .refl s

theorem trims_testSynced (c : CtxId) : s.Trims (s.testSynced c) := by
  unfold State.testSynced; split
  · exact ((trims_modCtx s _ _ (.rests (.inl rfl))).trans (trims_raise _ _ _)).trans (trims_autoCutover _ c)
  · exact .refl s

theorem trims_primaryCheck (b : BoardId) : s.Trims (s.primaryCheck b) := by
  unfold State.primaryCheck; split
  · split
    · exact .refl s
    · exact trims_primaryLoss s b
  · exact .refl s

theorem trims_cutoverDone (c : CtxId) : s.Trims (s.cutoverDone c) := by
  unfold State.cutoverDone; split
  · rename_i hs
    have hc : ((s.releaseTwinned c).disown c).ctx c = s.ctx c := by
      unfold State.releaseTwinned; dsimp only; split <;> rfl
    exact (((((trims_releaseTwinned s c).trans (trims_disown _ c)).trans (trims_modCtx _ c Ctx.complete
      ⟨fun h => absurd (by rw [hc]; exact hs) h.2, fun h => by rcases h with h | h <;> cases h⟩)).trans
        (trims_sendDeferred _ _ _ _)).trans (trims_raise _ _ _)).trans (trims_primaryCheck _ _)
  · exact .refl s

/-! ### Reports of the slot ports (R86, R113, R114, R156 to R158) -/

theorem trims_sourceGone (c : CtxId) : s.Trims (s.sourceGone c) := by
  unfold State.sourceGone; split
  · rename_i h
    exact trims_enterCutting s c (no_gaps (Bool.and_eq_true _ _ ▸ h).1)
  · exact trims_failCtx s c _

theorem trims_ctxLeft (k : SlotId) (c : CtxId) : s.Trims (State.ctxLeft k s c) := by
  unfold State.ctxLeft; dsimp only
  split
  · exact .refl s
  · exact .refl s
  all_goals (repeat' split)
  all_goals first | exact .refl s | exact trims_failCtx s c _ | exact trims_sourceGone s c

theorem trims_engineLeft (k : SlotId) : s.Trims (s.engineLeft k) := State.Trims.foldl _ (fun s c => trims_ctxLeft s k c) _ s

theorem trims_entryLost (c : CtxId) (r : FailReason) : s.Trims (s.entryLost c r) := by
  unfold State.entryLost; split <;> first | exact trims_failCtx s c r | exact .refl s

theorem trims_cutoverLost (c : CtxId) : s.Trims (s.cutoverLost c) := by
  unfold State.cutoverLost; split
  · exact trims_failCtx s c _
  · exact .refl s

theorem trims_refuseClaims (k : SlotId) (c : CtxId) : s.Trims (State.refuseClaims k s c) := by
  have h := trims_modCtx s c (fun x => { x with flights := x.flights.map (fun f => { f with claim := false }) }) (.same rfl rfl)
  unfold State.refuseClaims; split
  · dsimp only; split
    · exact (h.trans (trims_modCtx _ _ _ (.same rfl rfl))).trans (trims_failCtx _ _ _)
    · exact h
  · exact .refl s

/-! ### The revisit list (R124 to R127) -/

theorem rewalk_onward (x : Ctx) : x.Onward x.rewalk := by
  unfold Ctx.rewalk Ctx.toHead; split <;> exact .same rfl rfl

theorem trims_exhausted (c : CtxId) : s.Trims (s.exhausted c) := by
  unfold State.exhausted; split
  · exact (trims_modCtx s c Ctx.rewalk (rewalk_onward _)).trans (trims_raise _ _ _)
  · exact trims_failCtx s c _

theorem trims_addRevisit (c : CtxId) (r : RegionId) (e : Nat) : s.Trims (s.addRevisit c r e).1 := by
  unfold State.addRevisit; dsimp only; split
  · exact .refl s
  · split
    · exact trims_setCtx s _ _ (.same rfl rfl)
    · split
      · exact trims_setCtx s _ _ (.same rfl rfl)
      · exact trims_exhausted s c

/-! ### Returns to a flight record (R105, R133, R140, R142) -/

theorem trims_stage (c : CtxId) (f : Flight) : s.Trims (s.stage c f) := trims_modCtx s _ _ (.same rfl rfl)

theorem trims_leaveFlight (c : CtxId) (f : Flight) : s.Trims (s.leaveFlight c f) :=
  ((trims_setStaging s _ _).trans (trims_modCtx _ _ _ (.same rfl rfl))).trans (trims_testSynced _ c)

/-! ### Delivery (R19, R20) -/

theorem trims_deliverFence (o : Origin) : s.Trims (s.deliverFence o) := by
  unfold State.deliverFence; split
  · exact trims_resolveFence s _ _ _
  · exact trims_cutoverDone s _
  all_goals exact .refl s

theorem trims_deliverLoss (o : Origin) (n : Nat) : s.Trims (s.deliverLoss o n) := by
  unfold State.deliverLoss; split
  · exact trims_pushReturn s _ _ _ _ _
  · exact trims_resolvePart s _ _ _
  · exact trims_resolveFence s _ _ _
  · exact trims_entryLost s _ _
  · exact trims_entryLost s _ _
  · exact trims_cutoverLost s _
  · exact .refl s

/-! ### Leaving READY, DOWN, HALTED -/

theorem trims_closeEntry (k : SlotId) (i : PendIdx) : s.Trims (State.closeEntry k s i) := by
  unfold State.closeEntry; split
  · exact .refl s
  · exact (trims_modSlot s _ _).trans (trims_deliverLoss _ _ _)

theorem trims_leaveReady (k : SlotId) (st : SlotState) : s.Trims (s.leaveReady k st) := by
  unfold State.leaveReady; dsimp only
  exact (((((trims_modSlot s k _).trans (.foldl _ (fun s i => trims_closeEntry s k i) _ _)).trans (trims_modSlot _ k _)).trans
    (.foldl _ (fun s c => trims_refuseClaims s k c) _ _)).trans (trims_steeringLeft _ k)).trans (trims_engineLeft _ k)

theorem trims_depart (k : SlotId) (st : SlotState) : s.Trims (s.depart k st) := by
  unfold State.depart; split
  · exact trims_leaveReady s k st
  · exact trims_modSlot s _ _

theorem trims_goDown (k : SlotId) : s.Trims (s.goDown k) := by
  unfold State.goDown; split
  · exact .refl s
  · exact (((trims_depart s k .down).trans (trims_modSlot _ _ _)).trans (trims_clearMap _ k)).trans (trims_raise _ _ _)

theorem trims_goHalted (k : SlotId) (source : HaltSource) (reason : BitVec 8) : s.Trims (s.goHalted k source reason) :=
  ((trims_depart s k .halted).trans (trims_modSlot _ _ _)).trans (trims_raise _ _ _)

/-! ### Gaps and spares that are added (R133, R142) -/

variable {s} {t u : State}

/-- What a RETURN to a flight record adds: nothing, a gap record of its context (R133), or a REMAP record of the destination's
map, for a spare that is not in use, which retires the entry's earlier one (R142). -/
inductive State.Adds (c : CtxId) (s : State) : State → Prop
  | nothing : State.Adds c s s
  | gap (r : RegionId) (e : Nat) : (⟨c, r, e⟩ : Gap) ∉ s.gaps → s.gaps.length < Config.gapListDepth →
      State.Adds c s { s with gaps := s.gaps ++ [(⟨c, r, e⟩ : Gap)] }
  | spare (r : RegionId) (e i : Nat) : (s.spareMap (s.ctx c).dst).any (SpareRec.uses r (s.ctx c).dstView i) = false →
      (s.spareMap (s.ctx c).dst).length < Config.spareMapDepth →
      State.Adds c s (s.setSpareMap (s.ctx c).dst (withSpare (s.spareMap (s.ctx c).dst) c r e (s.ctx c).dstView i))

/-- A spare that is not in use is taken, and the entry's old one is retired (R142). -/
theorem apart_withSpare {m : List SpareRec} (hm : SparesApart m) (c : CtxId) (r : RegionId) (e : Nat) (v : View) (i : Nat)
    (hi : m.any (SpareRec.uses r v i) = false) : SparesApart (withSpare m c r e v i) := by
  have h1 : SpareRec.spare ∘ SpareRec.retire r e = SpareRec.spare := funext fun x => by
    cases x <;> simp only [Function.comp_apply, SpareRec.retire]
    · split <;> rfl
  have hu : (r, v, i) ∉ m.map SpareRec.spare := fun h => by
    obtain ⟨x, hx, he⟩ := List.mem_map.1 h
    refine List.any_eq_false.1 hi x hx ?_
    cases x <;> simp_all [SpareRec.spare, SpareRec.uses]
  have hr : ∀ l : List SpareRec, (l.map (SpareRec.retire r e)).filterMap SpareRec.row =
      (l.filterMap SpareRec.row).filter (fun p => p ≠ (r, e)) := fun l => by
    induction l with
    | nil => rfl
    | cons x l ih =>
      cases x with
      | retired a b d => exact ih
      | remap a b d o n t =>
        by_cases h : a = r ∧ b = e
        · simp only [List.map_cons, SpareRec.retire, if_pos h, List.filterMap_cons, SpareRec.row]
          rw [ih, List.filter_cons_of_neg (by simp [h.1, h.2])]
        · have h' : (a, b) ≠ (r, e) := fun hh => h (by simpa using hh)
          simp only [List.map_cons, SpareRec.retire, if_neg h, List.filterMap_cons, SpareRec.row]
          rw [ih, List.filter_cons, if_pos (decide_eq_true h')]
  unfold withSpare SparesApart
  rw [List.map_append, List.filterMap_append, List.map_map, h1, hr]
  refine ⟨List.nodup_append.2 ⟨hm.1, by simp, fun a ha b hb hab => ?_⟩,
    List.nodup_append.2 ⟨hm.2.filter _, by simp [SpareRec.row], fun a ha b hb hab => ?_⟩⟩
  · simp only [List.map_cons, List.map_nil, List.mem_singleton, SpareRec.spare] at hb
    exact hu (by rw [← hb, ← hab]; exact ha)
  · have : a = (r, e) := by
      rw [hab]
      simpa [SpareRec.row] using hb
    have h2 := (List.mem_filter.1 ha).2
    rw [this] at h2
    simp at h2

theorem State.Adds.sound {c : CtxId} (h : s.Adds c t) (hb : s.TablesSound) : t.TablesSound := by
  cases h with
  | nothing => exact hb
  | gap r e hn hl =>
    refine ⟨?_, List.nodup_append.2 ⟨hb.2.1, by simp, fun a ha b hb' hab => ?_⟩, hb.2.2⟩
    · simp only [List.length_append, List.length_cons, List.length_nil]; omega
    · rw [List.mem_singleton.1 hb'] at hab; exact hn (hab ▸ ha)
  | spare r e i hi hl =>
    refine ⟨hb.1, hb.2.1, fun k => ?_⟩
    rw [spareMap_setSpareMap]; split
    · exact ⟨by simp only [withSpare, List.length_append, List.length_map, List.length_cons, List.length_nil]; omega,
        apart_withSpare (hb.2.2 _).2 c r e _ i hi⟩
    · exact hb.2.2 k

theorem State.Adds.ctx {c : CtxId} (h : s.Adds c t) (d : CtxId) : t.ctx d = s.ctx d := by cases h <;> rfl

/-- A context that walks may own a gap record. -/
theorem State.Adds.owned {c : CtxId} (h : s.Adds c t) (hw : (s.ctx c).state = .walking ∨ (s.ctx c).state = .paused)
    (hb : s.GapsOwned) : t.GapsOwned := by
  intro g hg
  rw [h.ctx]
  cases h with
  | nothing => exact hb g hg
  | gap r e _ _ =>
    rcases List.mem_append.1 hg with hg | hg
    · exact hb g hg
    · rw [List.mem_singleton.1 hg]
      show (s.ctx c).state ≠ _ ∧ (s.ctx c).state ≠ _
      rcases hw with hw | hw <;> rw [hw] <;> simp
  | spare r e i _ _ => exact hb g hg

theorem State.Adds.spareMap {c : CtxId} (h : s.Adds c t) {k : SlotId} (hk : k ≠ (s.ctx c).dst) : t.spareMap k = s.spareMap k := by
  cases h with
  | nothing => rfl
  | gap r e _ _ => rfl
  | spare r e i _ _ => rw [spareMap_setSpareMap, if_neg (Ne.symm hk)]

/-- A RETURN to a flight record of a context: what it adds, and then nothing more. -/
def State.Returns (c : CtxId) (s u : State) : Prop := ∃ t, s.Adds c t ∧ t.Trims u

theorem State.Returns.of_trims {c : CtxId} (h : s.Trims u) : s.Returns c u := ⟨s, .nothing, h⟩

theorem State.Returns.trans {c : CtxId} (h : s.Returns c t) (g : t.Trims u) : s.Returns c u := by
  obtain ⟨v, h1, h2⟩ := h
  exact ⟨v, h1, h2.trans g⟩

theorem returns_addGap (c : CtxId) (r : RegionId) (e : Nat)
    (h : ¬ (!(s.gaps.contains ⟨c, r, e⟩) && decide (Config.gapListDepth ≤ s.gaps.length)) = true) :
    s.Returns c (s.addGap c r e) := by
  unfold State.addGap; split
  · exact .of_trims (.refl s)
  · rename_i hn
    have hn' : (⟨c, r, e⟩ : Gap) ∉ s.gaps := by simpa using hn
    exact ⟨_, .gap r e hn' (by simpa [hn'] using h), (trims_modCtx _ c _ (.same rfl rfl)).trans (trims_raise _ _ _)⟩

theorem returns_unreadable (c : CtxId) (f : Flight) : s.Returns c (s.unreadable c f) := by
  unfold State.unreadable; split
  · exact .of_trims (trims_failCtx s c _)
  · rename_i hg
    split
    · exact .of_trims (.refl s)
    · exact (returns_addGap c _ _ hg).trans ((trims_setStaging _ _ _).trans (trims_stage _ _ _))

theorem returns_walkReturn (c : CtxId) (n : FlightNum) (st : BitVec 4) (d : List Word) : s.Returns c (s.walkReturn c n st d) := by
  unfold State.walkReturn
  split
  · exact .of_trims (.refl s)
  split
  · exact .of_trims (.refl s)
  split
  · exact .of_trims ((trims_setStaging _ _ _).trans (trims_stage _ _ _))
  split
  · exact .of_trims (((trims_setStaging _ _ _).trans (trims_modCtx _ c _ (.same rfl rfl))).trans (trims_stage _ _ _))
  split
  · exact returns_unreadable c _
  · exact .of_trims (trims_failCtx _ _ _)

theorem returns_mismatch (c : CtxId) (f : Flight) : s.Returns c (s.mismatch c f) := by
  unfold State.mismatch; dsimp only
  split
  · exact .of_trims (trims_failCtx _ _ _)
  split
  · exact .of_trims (.refl s)
  split
  · exact .of_trims (trims_failCtx _ _ _)
  split
  · exact .of_trims (trims_failCtx _ _ _)
  · rename_i i hi hl
    refine ⟨_, .spare f.region f.entry i (by simpa using List.find?_some hi) (by omega), ?_⟩
    exact ((trims_modCtx _ c _ (.same rfl rfl)).trans (trims_raise _ _ _)).trans (trims_stage _ _ _)

/-- A RETURN that is counted first. -/
theorem returns_count {c : CtxId} (g : CtxCounters → CtxCounters)
    (h : (s.modCtx c (fun x => { x with counters := g x.counters })).Returns c u) : s.Returns c u := by
  obtain ⟨t, ha, ht⟩ := h
  have hc : (s.modCtx c (fun x => { x with counters := g x.counters })).ctx c = { s.ctx c with counters := g (s.ctx c).counters } := by
    rw [modCtx_eq, ctx_setCtx_same]
  have hm : ∀ v : State, v.Trims (v.modCtx c (fun x => { x with counters := g x.counters })) := fun v =>
    trims_modCtx v c _ (.same rfl rfl)
  cases ha with
  | nothing => exact .of_trims ((hm s).trans ht)
  | gap r e h1 h2 => exact ⟨_, .gap r e h1 h2, (hm _).trans ht⟩
  | spare r e i h1 h2 =>
    rw [hc] at h1 h2 ht
    exact ⟨_, .spare r e i h1 h2, (hm _).trans ht⟩

theorem returns_verifyReturn (c : CtxId) (n : FlightNum) (st : BitVec 4) (d : List Word) : s.Returns c (s.verifyReturn c n st d) := by
  unfold State.verifyReturn
  split
  · exact .of_trims (.refl s)
  split
  · exact .of_trims (.refl s)
  refine returns_count CtxCounters.addVerify ?_
  dsimp only
  generalize s.modCtx c (fun x => { x with counters := x.counters.addVerify }) = t
  split
  · split
    · exact .of_trims (trims_leaveFlight _ _ _)
    · exact returns_mismatch c _
  · split
    · exact returns_mismatch c _
    · exact .of_trims (trims_failCtx _ _ _)

/-- A RETURN adds a record only for a context with a flight record. -/
theorem deliverReturn_returns (o : Origin) (x : Txn) :
    s.Trims (s.deliverReturn o x) ∨ ∃ c, (s.ctx c).flights ≠ [] ∧ s.Returns c (s.deliverReturn o x) := by
  have hf : ∀ (c : CtxId) (n : FlightNum), (s.ctx c).flight? n = none ∨ (s.ctx c).flights ≠ [] := fun c n => by
    cases h : (s.ctx c).flight? n with
    | none => exact .inl rfl
    | some f => exact .inr (List.ne_nil_of_mem (List.mem_of_find?_eq_some h))
  unfold State.deliverReturn; split
  · exact .inl (trims_pushReturn s _ _ _ _ _)
  · exact .inl (trims_resolvePart s _ _ _)
  · rename_i c n
    rcases hf c n with h | h
    · left; unfold State.walkReturn; rw [h]; exact .refl s
    · exact .inr ⟨c, h, returns_walkReturn c n _ _⟩
  · rename_i c n
    rcases hf c n with h | h
    · left; unfold State.verifyReturn; rw [h]; exact .refl s
    · exact .inr ⟨c, h, returns_verifyReturn c n _ _⟩
  all_goals exact .inl (.refl s)

theorem tables_deliverReturn (hb : s.TablesSound) (o : Origin) (x : Txn) : (s.deliverReturn o x).TablesSound := by
  rcases deliverReturn_returns (s := s) o x with h | ⟨c, -, t, ha, ht⟩
  · exact h.sound hb
  · exact ht.sound (ha.sound hb)

/-- Where only contexts that walk have flight records, and only towards a READY destination, a gap record that a RETURN adds is
that of a context that walks, and a spare is one of a READY slot. -/
theorem owned_deliverReturn (hw : ∀ c, (s.ctx c).flights ≠ [] → (s.ctx c).state = .walking ∨ (s.ctx c).state = .paused)
    (hb : s.GapsOwned) (o : Origin) (x : Txn) : (s.deliverReturn o x).GapsOwned := by
  rcases deliverReturn_returns (s := s) o x with h | ⟨c, hc, t, ha, ht⟩
  · exact h.owned hb
  · exact ht.owned (ha.owned (hw c hc) hb)

theorem walks_deliverReturn (o : Origin) (x : Txn) (e : CtxId)
    (h : ((s.deliverReturn o x).ctx e).state = .walking ∨ ((s.deliverReturn o x).ctx e).state = .paused) :
    ((s.ctx e).state = .walking ∨ (s.ctx e).state = .paused) ∧ ((s.deliverReturn o x).ctx e).dst = (s.ctx e).dst := by
  rcases deliverReturn_returns (s := s) o x with ht | ⟨c, -, t, ha, ht⟩
  · exact ht.walks e h
  · have := ht.walks e h
    rw [ha.ctx] at this; exact this

theorem empty_deliverReturn (hw : ∀ c, (s.ctx c).flights ≠ [] → (s.ctx c).state = .walking ∨ (s.ctx c).state = .paused)
    (hd : s.DestsReady) (hb : s.DownMapsEmpty) (o : Origin) (x : Txn) (k : SlotId) (hk : (s.slot k).state = .down) :
    (s.deliverReturn o x).spareMap k = [] := by
  rcases deliverReturn_returns (s := s) o x with ht | ⟨c, hc, t, ha, ht⟩
  · exact ht.empty (hb k hk)
  · have hne : k ≠ (s.ctx c).dst := fun e => by
      have := hd c (hw c hc)
      unfold State.isReady at this
      rw [← e, hk] at this
      cases this
    exact ht.empty (by rw [ha.spareMap hne]; exact hb k hk)

end Sys2Proof.Machine
end

