-- ==== Sys2Proof/Laws/Keeping.lean ====
section
/-! SUPPORT. What every event, internal step and forwarding step keeps: nine invariants of Safety. -/

namespace Sys2Proof.Machine

/-- The nine invariants, as names. -/
inductive Invariant
  | credits | bounds | agreement | tables | wiring | layout | owners | dests | maps

/-- Those of the nine invariants that W asks for hold. A theorem `Kept.f` says that f keeps each of them by itself. -/
structure Kept (W : Invariant → Prop) (s : State) : Prop where
  cr : W .credits → s.CreditsConserved
  sb : W .bounds → s.SlotsBounded
  ag : W .agreement → s.SlotsAgree
  tb : W .tables → s.TablesSound
  w : W .wiring → s.Wired
  lo : W .layout → s.LayoutSound
  ow : W .owners → s.GapsOwned
  ds : W .dests → s.DestsReady
  dm : W .maps → s.DownMapsEmpty

variable {W : Invariant → Prop} {s t : State}

theorem lo_of (h : s.LayoutSound) (h1 : t.layouts = s.layouts) (h2 : t.regions = s.regions) : t.LayoutSound := by
  unfold State.LayoutSound State.region State.layout at *
  rw [h1, h2]; exact h

/-- The destinations of contexts that walk stay READY: no context starts to walk, and no slot leaves READY. -/
theorem ds_of (h : s.DestsReady)
    (hw : ∀ c, (t.ctx c).state = .walking ∨ (t.ctx c).state = .paused →
      ((s.ctx c).state = .walking ∨ (s.ctx c).state = .paused) ∧ (t.ctx c).dst = (s.ctx c).dst)
    (hr : ∀ k, s.isReady k = true → t.isReady k = true) : t.DestsReady := fun c hc => by
  rw [(hw c hc).2]; exact hr _ (h c (hw c hc).1)

/-- The maps of slots in DOWN stay empty: none grows, and no slot goes to DOWN. -/
theorem dm_of (h : s.DownMapsEmpty) (tr : s.Trims t) (hd : ∀ k, (t.slot k).state = .down → (s.slot k).state = .down) :
    t.DownMapsEmpty := fun k hk => tr.empty (h k (hd k hk))

theorem State.Quiet.down (q : s.Quiet t) (k : SlotId) (h : (t.slot k).state = .down) : (s.slot k).state = .down := by
  rw [← (q.slot k).state]; exact h

/-- An operation that leaves the agent's side and the slot ports alone. -/
theorem Kept.ops (h : Kept W s) (q : s.Quiet t) (tr : s.Trims t) (w : s.Wired → t.Wired) : Kept W t :=
  ⟨fun a => q.toInner.credits (h.cr a), fun a => q.bounded (h.sb a), fun a => q.agrees (h.ag a), fun a => tr.sound (h.tb a),
    fun a => w (h.w a), fun a => lo_of (h.lo a) q.layouts q.regions, fun a => tr.owned (h.ow a),
    fun a => ds_of (h.ds a) tr.walks (fun k hk => by rw [q.isReady]; exact hk), fun a => dm_of (h.dm a) tr q.down⟩

/-- An operation on blocks that no invariant but R6's reads. -/
theorem Kept.beside (h : Kept W s) (h1 : s.CreditsConserved → t.CreditsConserved) (h4 : t.slots = s.slots) (h5 : t.gaps = s.gaps)
    (h6 : t.spares = s.spares) (h7 : t.steer = s.steer) (h8 : t.ctxs = s.ctxs) (h9 : t.layouts = s.layouts)
    (h10 : t.regions = s.regions) : Kept W t := by
  have hs : ∀ k, t.slot k = s.slot k := fun k => by unfold State.slot; rw [h4]
  have tr : s.Trims t := .of_tables h5 h6 h8
  exact ⟨fun a => h1 (h.cr a), fun a k => by rw [hs]; exact h.sb a k, fun a k => by rw [hs]; exact h.ag a k,
    fun a => tr.sound (h.tb a), fun a => wired_of_tables (h.w a) h7 h8, fun a => lo_of (h.lo a) h9 h10,
    fun a => tr.owned (h.ow a), fun a => ds_of (h.ds a) tr.walks (fun k hk => by unfold State.isReady at *; rw [hs]; exact hk),
    fun a => dm_of (h.dm a) tr (fun k hk => by rw [← hs]; exact hk)⟩

/-- An operation on blocks that no invariant reads. -/
theorem Kept.same (h : Kept W s) (h1 : t.startup = s.startup) (h2 : t.agentCredits = s.agentCredits)
    (h3 : t.intake.length = s.intake.length) (h4 : t.slots = s.slots) (h5 : t.gaps = s.gaps) (h6 : t.spares = s.spares)
    (h7 : t.steer = s.steer) (h8 : t.ctxs = s.ctxs) (h9 : t.layouts = s.layouts) (h10 : t.regions = s.regions) : Kept W t := by
  refine h.beside (fun a => ?_) h4 h5 h6 h7 h8 h9 h10
  unfold State.CreditsConserved at *
  rw [h1, h2, h3]
  split <;> simp_all

/-- An update of a slot port that neither leaves READY nor goes to DOWN. -/
theorem Kept.setSlot (h : Kept W s) (k) (p : SlotPort) (hb : (s.slot k).Bounded → p.Bounded) (ha : (s.slot k).Agrees → p.Agrees)
    (hr : (s.slot k).state = .ready → p.state = .ready := by exact id)
    (hd : p.state = .down → (s.slot k).state = .down := by exact id) : Kept W (s.setSlot k p) := by
  have tr := trims_setSlot s k p
  refine ⟨fun a => (quietBut_setSlot s k p).toInner.credits (h.cr a), fun a => bounded_setSlot (h.sb a) k p (hb (h.sb a k)),
    fun a => agrees_setSlot (h.ag a) k p (ha (h.ag a k)), fun a => tr.sound (h.tb a), fun a => wired_setSlot (h.w a) k p,
    fun a => lo_of (h.lo a) rfl rfl, fun a => tr.owned (h.ow a), fun a => ds_of (h.ds a) tr.walks (fun j hj => ?_),
    fun a => dm_of (h.dm a) tr (fun j hj => ?_)⟩
  · unfold State.isReady at *
    rw [slot_setSlot]; split
    · rename_i e; subst e
      rw [hr (by simpa using hj)]; rfl
    · exact hj
  · rw [slot_setSlot] at hj; split at hj
    · rename_i e; subst e; exact hd hj
    · exact hj

theorem Kept.raise (h : Kept W s) (k d) : Kept W (s.raise k d) := h.ops (quiet_raise _ _ _) (trims_raise _ _ _) (fun w => wired_raise w _ _)

theorem Kept.cutHead (h : Kept W s) : Kept W s.cutHead := by
  unfold State.cutHead
  split
  · split
    · exact h.same rfl rfl rfl rfl rfl rfl rfl rfl rfl rfl
    · exact h
  · exact h

/-- A context that still walks once a slot has left READY is one of another destination (R113). -/
theorem walks_leaveReady (s : State) (k : SlotId) {st : SlotState} (hst : st ≠ .ready) (c : CtxId)
    (h : ((s.leaveReady k st).ctx c).state = .walking ∨ ((s.leaveReady k st).ctx c).state = .paused) :
    ((s.leaveReady k st).ctx c).dst ≠ k := fun hk => by
  have hw := (trims_leaveReady s k st).walks c h
  have hl := losing_leaveReady s k hst
  rw [hw.2] at hk
  have hr : ∃ r, s.lossReason k c = some r := by
    unfold State.lossReason
    dsimp only
    rcases hw.1 with e | e
    all_goals
      rw [e, if_neg (by simp)]
      dsimp only
      repeat' split
      all_goals exact ⟨_, rfl⟩
  obtain ⟨r, hr⟩ := hr
  rw [hl.lost c r hr] at h
  rcases h with h | h <;> cases h

theorem dests_depart (h : s.DestsReady) (k : SlotId) {st : SlotState} (hst : st ≠ .ready) :
    (s.depart k st).DestsReady := fun c hc => by
  have hw := (trims_depart s k st).walks c hc
  have hs := h c hw.1
  have hq := (depart_spec s k st).1
  unfold State.isReady
  have hne : k ≠ ((s.depart k st).ctx c).dst := fun e => by
    by_cases hk : s.isReady k = true
    · unfold State.depart at e hc
      rw [if_pos hk] at e hc
      exact walks_leaveReady s k hst c hc e.symm
    · rw [← hw.2, ← e] at hs; exact hk hs
  rw [(hq.slot _ hne).state, hw.2]
  exact hs

theorem Kept.goDown (h : Kept W s) (k) : Kept W (s.goDown k) := by
  by_cases hd : (s.slot k).state = .down
  · unfold State.goDown; rw [if_pos hd]; exact h
  · have g := (goDown_spec s k hd).1
    have tr := trims_goDown s k
    have he : s.goDown k = ((s.depart k .down).enterDown k).raise .slotDown (detailOf k) := by unfold State.goDown; rw [if_neg hd]
    refine ⟨fun a => g.toInner.credits (h.cr a), fun a => bounded_goDown (h.sb a) k, fun a => agrees_goDown (h.ag a) k,
      fun a => tr.sound (h.tb a), fun a => wired_goDown (h.w a) k, fun a => lo_of (h.lo a) g.layouts g.regions,
      fun a => tr.owned (h.ow a), fun a => ?_, fun a j hj => ?_⟩
    · rw [he]
      refine ds_of (dests_depart (h.ds a) k (st := .down) (by simp))
        ((trims_modSlot _ k _).trans ((trims_clearMap _ k).trans (trims_raise _ _ _))).walks (fun j hj => ?_)
      rw [(quiet_raise _ _ _).isReady]
      have hne : k ≠ j := fun e => by
        have hst : ((s.depart k .down).slot k).state = .down := (depart_spec s k .down).2.1
        unfold State.isReady at hj
        rw [← e, hst] at hj; cases hj
      unfold State.isReady State.enterDown at *
      show ((((s.depart k .down).modSlot k SlotPort.toDown).slot j).state == .ready) = true
      rw [modSlot_eq, slot_setSlot, if_neg hne]; exact hj
    · by_cases hk : k = j
      · subst hk
        rw [he, raise_eq]
        show ((s.depart k .down).enterDown k).spareMap k = []
        simp [State.enterDown]
      · exact tr.empty (h.dm a j (by rw [← (g.slot j hk).state]; exact hj))

theorem Kept.goHalted (h : Kept W s) (k a b) : Kept W (s.goHalted k a b) := by
  have g := goHalted_spec s k a b
  have tr := trims_goHalted s k a b
  refine ⟨fun c => g.1.toInner.credits (h.cr c), fun c => bounded_goHalted (h.sb c) k _ _, fun c => agrees_goHalted (h.ag c) k _ _,
    fun c => tr.sound (h.tb c), fun c => wired_goHalted (h.w c) k _ _, fun c => lo_of (h.lo c) g.1.layouts g.1.regions,
    fun c => tr.owned (h.ow c), fun c => ?_, fun c => dm_of (h.dm c) tr (fun j hj => ?_)⟩
  · unfold State.goHalted
    refine ds_of (dests_depart (h.ds c) k (st := .halted) (by simp)) ((trims_modSlot _ k _).trans (trims_raise _ _ _)).walks
      (fun j hj => ?_)
    rw [(quiet_raise _ _ _).isReady]
    unfold State.isReady at *
    rw [modSlot_eq, slot_setSlot]; split
    · rename_i e; subst e; exact hj
    · exact hj
  · by_cases hk : k = j
    · subst hk; rw [g.2.1] at hj; cases hj
    · rw [← (g.1.slot j hk).state]; exact hj

theorem slotsReset_agrees (p : SlotPort) : (SlotPort.reset p).Agrees :=
  agrees_empty _ rfl (fun i => by simp [SlotPort.reset]) rfl (fun _ => rfl)

theorem slot_map (v : Vector SlotPort 8) (f) (k : SlotId) (s : State) : State.slot { s with slots := v.map f } k = f v[k] := by
  simp [State.slot]

theorem Kept.resetPart (s : State) (st r) (h : st ≠ .running) : Kept W (s.resetPart st r) := by
  refine ⟨fun _ => ?_, fun _ k => ?_, fun _ k => ?_, fun _ => ?_, fun _ => ?_,
    fun _ i r hr => by simp [State.region, State.resetPart] at hr, fun _ g hg => ?_,
    fun _ c hc => by simp [State.ctx, State.resetPart] at hc, fun _ k _ => by simp [State.spareMap, State.resetPart]⟩
  · unfold State.CreditsConserved State.resetPart; cases st <;> simp_all
  · have : (s.resetPart st r).slot k = SlotPort.reset (s.slot k) := by simp [State.slot, State.resetPart]
    rw [this]; exact ⟨Nat.zero_le _, Nat.zero_le _⟩
  · have : (s.resetPart st r).slot k = SlotPort.reset (s.slot k) := by simp [State.slot, State.resetPart]
    rw [this]; exact slotsReset_agrees _
  · refine ⟨by simp [State.resetPart], by simp [State.resetPart], fun k => ?_⟩
    simp [State.resetPart, State.spareMap, sparesApart_nil]
  · refine ⟨⟨fun b => ?_, fun a b k h1 => ?_⟩, fun b c => ?_⟩
    · simp [State.resetPart, State.entry, SteerEntry.Legal]
    · simp [State.resetPart, State.entry, SteerEntry.Names] at h1
    · simp [State.resetPart, State.entry, State.ctx, CtxState.isLive]
  · exact absurd hg (by simp [State.resetPart])

theorem bounded_same {p q : SlotPort} (h : p.Bounded) (hq : q.queue = p.queue) (hc : q.credits ≤ p.credits ∨ q.credits ≤ 64) : q.Bounded := by
  obtain ⟨a, b⟩ := h
  refine ⟨?_, hq ▸ b⟩
  rcases hc with hc | hc
  · exact Nat.le_trans hc a
  · exact hc

/-- A port update that moves neither the queue nor the pending table. -/
theorem agrees_same {p q : SlotPort} (h : p.Agrees) (hq : q.queue = p.queue) (hp : q.pend = p.pend) (ho : q.sentOrder = p.sentOrder)
   (hs : q.state ≠ .ready → p.state ≠ .ready) (hc : q.state.receives = false → q.credits = 0) : q.Agrees := by
  obtain ⟨a1, a2, a3, a4, a5, a6⟩ := h
  exact ⟨hq ▸ a1, fun i => by rw [ho, hp]; exact a2 i, fun i => by rw [hq, hp]; exact a3 i, hq ▸ a4,
    fun hn => by rw [hq, hp]; exact a5 (hs hn), hc⟩

theorem Kept.modSame (h : Kept W s) (k) (q : SlotPort) (hq : q.queue = (s.slot k).queue) (hp : q.pend = (s.slot k).pend) (ho : q.sentOrder = (s.slot k).sentOrder)
   (hs : q.state ≠ .ready → (s.slot k).state ≠ .ready)
   (hc : (s.slot k).Agrees → q.state.receives = false → q.credits = 0) (hb : q.credits ≤ (s.slot k).credits ∨ q.credits ≤ 64)
   (hd : q.state = .down → (s.slot k).state = .down := by first | exact id | exact fun e => nomatch e) : Kept W (s.setSlot k q) :=
  h.setSlot k q (fun a => bounded_same a hq hb) (fun a => agrees_same a hq hp ho hs (hc a))
    (fun a => by by_contra hn; exact hs hn a) hd

theorem Kept.linkUp (h : Kept W s) (k) : Kept W (s.linkUp k) := by
  unfold State.linkUp
  repeat' split
  all_goals first | exact h | skip
  · rename_i hd _
    refine h.modSame k _ rfl rfl rfl (fun _ => by rw [hd]; simp) (fun _ hr => by simp [SlotPort.listen, SlotState.receives] at hr) (.inl (Nat.le_refl _))
  · rename_i hd
    refine h.modSame k _ rfl rfl rfl (fun _ => by rw [hd]; simp) (fun _ hr => by simp [SlotPort.listen, SlotState.receives] at hr) (.inl (Nat.le_refl _))

theorem receives_keep {p q : SlotPort} (h : p.Agrees) (h1 : q.state = p.state) (h2 : q.credits = p.credits) : q.state.receives = false → q.credits = 0 := by
  rw [h1, h2]; exact h.2.2.2.2.2

theorem Kept.helloExpires (h : Kept W s) (k) : Kept W (s.helloExpires k) := by
  unfold State.helloExpires
  split
  · rename_i hd
    have h1 : Kept W (s.helloMissed k) := by
      refine Kept.raise ?_ _ _
      refine h.modSame k _ rfl rfl rfl (fun hn => hn) (fun a => receives_keep a rfl rfl) (.inl (Nat.le_refl _))
    have hq : (s.helloMissed k).slot k = _ := ((quiet_raise _ _ _).slot k).frame
    have hst : ((s.helloMissed k).slot k).state = .awaitHello .listening := by
      unfold State.helloMissed; rw [((quiet_raise _ _ _).slot k).state]; simp [hd]
    dsimp only
    split
    · refine h1.modSame k _ rfl rfl rfl (fun _ => by rw [hst]; simp) (fun _ _ => rfl) (.inr (by simp [SlotPort.retrain]))
    · refine Kept.raise ?_ _ _
      refine h1.modSame k _ rfl rfl rfl (fun _ => by rw [hst]; simp) (fun _ _ => rfl) (.inr (by simp [SlotPort.disable]))
  · exact h

/-- A slot that has entered READY is a READY destination for the contexts that waited for it (R86). -/
theorem Kept.engineEntered (h : Kept W s) (k) (hr : s.isReady k = true) : Kept W (s.engineEntered k) := by
  have q := quiet_engineEntered s k
  have hc : ∀ c, (s.engineEntered k).ctx c = (s.ctx c).dstReady k := fun c => by simp [State.ctx, State.engineEntered]
  refine ⟨fun a => q.toInner.credits (h.cr a), fun a => q.bounded (h.sb a), fun a => q.agrees (h.ag a), h.tb,
    fun a => wired_engineEntered (h.w a) k, fun a => lo_of (h.lo a) q.layouts q.regions, fun a g hg => ?_, fun a c hw => ?_, h.dm⟩
  · have := h.ow a g hg
    rw [hc]; unfold Ctx.dstReady; split
    · exact ⟨by simp, by simp⟩
    · exact this
  · rw [q.isReady]
    rw [hc] at hw ⊢
    unfold Ctx.dstReady at *
    split
    · rename_i e; rw [show ({ s.ctx c with state := .walking } : Ctx).dst = k from e.2]; exact hr
    · rename_i e; rw [if_neg e] at hw; exact h.ds a c hw

theorem Kept.settleExpires (h : Kept W s) (k) : Kept W (s.settleExpires k) := by
  unfold State.settleExpires
  split
  · rename_i hd
    have h1 : Kept W ((s.modSlot k (fun p => { p with state := .ready, settleTimer := none })).raise .slotUp (detailOf k)) := by
      refine Kept.raise ?_ _ _
      refine h.modSame k _ rfl rfl rfl (fun hn => absurd rfl hn) (fun _ hr => by simp [SlotState.receives] at hr) (.inl (Nat.le_refl _))
    have hr : ((s.modSlot k (fun p => { p with state := .ready, settleTimer := none })).raise .slotUp (detailOf k)).isReady k = true := by
      rw [(quiet_raise _ _ _).isReady]; unfold State.isReady; rw [modSlot_eq, slot_setSlot_same]; rfl
    exact h1.engineEntered k hr
  · exact h

theorem Kept.replyExpires (h : Kept W s) (k i) : Kept W (s.replyExpires k i) := by
  unfold State.replyExpires
  split
  · refine Kept.goHalted ?_ _ _ _
    exact h.modSame k _ rfl rfl rfl (fun hn => hn) (fun a => receives_keep a rfl rfl) (.inl (Nat.le_refl _))
  · exact h

theorem receives_brings (h : s.boardBrings k kd f = some t') : (s.slot k).state.receives = true := by
  unfold State.boardBrings at h
  split at h
  · assumption
  · cases h

theorem Kept.grantArrives (h : Kept W s) (k f) : Kept W (s.grantArrives k f) := by
  unfold State.grantArrives
  split
  · rename_i t ht
    have hr := receives_brings ht
    unfold State.addCredits
    dsimp only
    split
    · refine Kept.raise ?_ _ _
      refine h.modSame k _ rfl rfl rfl (fun hn => hn) (fun _ hn => ?_) (.inr (Nat.le_refl _))
      simp [hr] at hn
    · rename_i hle
      refine h.modSame k _ rfl rfl rfl (fun hn => hn) (fun _ hn => ?_) (.inr (by simpa [Config.boardCredits] using hle))
      simp [hr] at hn
  · exact h

theorem Kept.depart (h : Kept W s) (k st) (q : SlotPort) (hst : st ≠ .ready)
   (hq : q.queue = ((s.depart k st).slot k).queue) (hp : q.pend = ((s.depart k st).slot k).pend) (ho : q.sentOrder = ((s.depart k st).slot k).sentOrder)
   (hc : q.state.receives = false → q.credits = 0) (hcr : q.credits ≤ 64)
   (hdn : q.state ≠ .down := by first | exact fun e => nomatch e | (rw [SlotPort.settle]; simp)) : Kept W ((s.depart k st).setSlot k q) := by
  have hd := depart_spec s k st
  have hqb : State.QuietBut k s ((s.depart k st).setSlot k q) := hd.1.trans (quietBut_setSlot _ k _)
  have hL : State.LayoutSound s → State.LayoutSound ((s.depart k st).setSlot k q) := fun a => lo_of a hqb.layouts hqb.regions
  have hT := ((trims_depart s k st).trans (trims_setSlot _ k q))
  refine ⟨fun a => hqb.toInner.credits (h.cr a), fun a => hqb.bounded (h.sb a) ?_, fun a => hqb.agrees (h.ag a) ?_,
    fun a => hT.sound (h.tb a), fun a => wired_setSlot (wired_depart (h.w a) k st) _ _, fun a => hL (h.lo a),
    fun a => hT.owned (h.ow a), fun a => ds_of (dests_depart (h.ds a) k hst) (trims_setSlot _ k q).walks (fun j hj => ?_),
    fun a => dm_of (h.dm a) hT (fun j hj => ?_)⟩
  · rw [slot_setSlot_same]; exact ⟨hcr, by rw [hq]; exact (hd.2.2.2.2.2.1 (h.sb a k)).2⟩
  · obtain ⟨e1, e2, e3, e4⟩ := depart_empties s k st (h.ag a k)
    rw [slot_setSlot_same]
    exact agrees_empty q (hq.trans e1) (fun i => by rw [hp]; exact e2 i) (ho.trans e3) hc
  · have hne : k ≠ j := fun e => by
      unfold State.isReady at hj
      rw [← e, hd.2.1] at hj
      exact hst (by simpa using hj)
    unfold State.isReady at *
    rw [slot_setSlot, if_neg hne]; exact hj
  · have hne : k ≠ j := fun e => by
      rw [← e, slot_setSlot_same] at hj; exact hdn hj
    rw [← (hqb.slot j hne).state]; exact hj

theorem Kept.helloArrives (h : Kept W s) (k f) : Kept W (s.helloArrives k f) := by
  unfold State.helloArrives
  split
  · rename_i t ht
    split
    · unfold State.helloAccepted
      split
      · rename_i hd
        refine h.modSame k _ rfl rfl rfl (fun _ => by rw [hd]; simp) (fun _ hn => by simp [SlotPort.settle, SlotState.receives] at hn) (.inl (Nat.le_refl _))
      · rename_i hd
        refine h.modSame k _ rfl rfl rfl (fun _ => by rw [hd]; simp) (fun _ hn => by simp [SlotPort.settle, SlotState.receives] at hn) (.inr (Nat.zero_le _))
      · exact h.depart k .settling _ (by simp) rfl rfl rfl (fun _ => rfl) (Nat.zero_le _)
      · exact h.depart k .settling _ (by simp) rfl rfl rfl (fun _ => rfl) (Nat.zero_le _)
      all_goals exact h
    · exact h
  · exact h

theorem Kept.haltArrives (h : Kept W s) (k f) : Kept W (s.haltArrives k f) := by
  unfold State.haltArrives
  split
  · unfold State.haltAccepted
    split <;> first | exact h.goHalted _ _ _ | exact h
  · exact h

theorem Kept.rejectBoard (h : Kept W s) (k) : Kept W (s.rejectBoard k) := by
  unfold State.rejectBoard
  refine Kept.raise ?_ _ _
  exact h.modSame k _ rfl rfl rfl (fun hn => hn) (fun a => receives_keep a rfl rfl) (.inl (Nat.le_refl _))

theorem Kept.freePend (h : Kept W s) (k i) (hi : ((s.slot k).pend[i]).map (·.phase) = some .sent) : Kept W (s.freePend k i) :=
  h.setSlot k _ (fun a => a) (fun a => agrees_freeEntry a i hi)

theorem matched_spec {p : SlotPort} {kd} {t : Txn} {i e} (h : p.matched kd t = some (i, e)) : p.pend[i] = some e ∧ e.phase = .sent := by
  unfold SlotPort.matched at h
  split at h
  · cases h
  · split at h
    · cases h
    · split at h
      · rename_i hp _ hc; cases h; exact ⟨by assumption, hc.1⟩
      · cases h

/-- A RETURN's delivery, where only contexts that walk have flight records, and only towards a READY destination. -/
theorem Kept.deliverReturn (h : Kept W s) (o : Origin) (x : Txn)
    (hw : W .owners ∨ W .maps → ∀ c, (s.ctx c).flights ≠ [] → (s.ctx c).state = .walking ∨ (s.ctx c).state = .paused)
    (hd : W .maps → s.DestsReady) : Kept W (s.deliverReturn o x) := by
  have q := quiet_deliverReturn s o x
  exact ⟨fun a => q.toInner.credits (h.cr a), fun a => q.bounded (h.sb a), fun a => q.agrees (h.ag a),
    fun a => tables_deliverReturn (h.tb a) o x, fun a => wired_deliverReturn (h.w a) _ _,
    fun a => lo_of (h.lo a) q.layouts q.regions, fun a => owned_deliverReturn (hw (.inl a)) (h.ow a) o x,
    fun a => ds_of (h.ds a) (walks_deliverReturn o x) (fun k hk => by rw [q.isReady]; exact hk),
    fun a k hk => empty_deliverReturn (hw (.inr a)) (hd a) (h.dm a) o x k (q.down k hk)⟩

theorem Kept.replyAccepted (h : Kept W s) (k kd) (t : Txn)
    (hw : W .owners ∨ W .maps → ∀ c, (s.ctx c).flights ≠ [] → (s.ctx c).state = .walking ∨ (s.ctx c).state = .paused)
    (hd : W .maps → s.DestsReady) : Kept W (s.replyAccepted k kd t) := by
  unfold State.replyAccepted
  split
  · split
    · exact h.rejectBoard k
    · rename_i i e hm
      obtain ⟨hp, hs⟩ := matched_spec hm
      have h1 := h.freePend k i (by rw [hp]; simp [hs])
      cases kd
      · exact h1.deliverReturn _ _ hw (fun a => ds_of (hd a) (trims_modSlot s k _).walks (fun j hj => by
          unfold State.isReady at *
          rw [State.freePend, modSlot_eq, slot_setSlot]; split
          · rename_i e; subst e; exact hj
          · exact hj))
      · exact h1.ops (quiet_deliverFence _ _) (trims_deliverFence _ _) (fun w => wired_deliverFence w _)
  · exact h

theorem sendHead_state (p : SlotPort) (x : QTxn) (rest : List QTxn) : (p.sendHead x rest).state = p.state := by
  unfold SlotPort.sendHead; dsimp only; repeat' split
  all_goals rfl

theorem Kept.sendSlot (h : Kept W s) (k) : Kept W (s.sendSlot k) := by
  unfold State.sendSlot
  split
  · exact h
  · rename_i x rest hq
    split
    · rename_i hr
      have hst : (s.slot k).state = .ready := by simpa [State.isReady] using hr.1
      refine h.setSlot k _ (fun hb => ?_) (fun a => agrees_sendHead a x rest hq hst)
        (fun e => by rw [sendHead_state]; exact e) (fun e => by rw [sendHead_state] at e; exact e)
      unfold SlotPort.Bounded at *
      rw [hq] at hb
      unfold SlotPort.sendHead
      dsimp only
      split
      · simp at *; omega
      · split <;> (simp at *; omega)
    · exact h


theorem kept_unlessHeld (h : Kept W s) (f : State → State) (hf : Kept W (f s)) : Kept W (s.unlessHeld f) := by
  unfold State.unlessHeld; split
  · exact h
  · exact hf

theorem Kept.pushUp (h : Kept W s) (t) : Kept W (s.pushUp t) := h.same rfl rfl rfl rfl rfl rfl rfl rfl rfl rfl

theorem not_held_of (h : s.CreditsConserved) (hi : s.intake ≠ []) : s.startup = .running := by
  unfold State.CreditsConserved at h
  cases hs : s.startup <;> simp_all

theorem Kept.agent (h : Kept W s) (hr : s.CreditsConserved → s.startup = .running) (h1 : t.startup = s.startup)
    (h2 : t.agentCredits + t.intake.length = s.agentCredits + s.intake.length) (h4 : t.slots = s.slots) (h5 : t.gaps = s.gaps)
    (h6 : t.spares = s.spares) (h7 : t.steer = s.steer) (h8 : t.ctxs = s.ctxs) (h9 : t.layouts = s.layouts) (h10 : t.regions = s.regions) : Kept W t := by
  refine h.beside (fun a => ?_) h4 h5 h6 h7 h8 h9 h10
  have hr := hr a
  unfold State.CreditsConserved at *
  rw [hr] at a; rw [h1, hr]; dsimp at *; omega

theorem Kept.agentArrives (h : Kept W s) (f) : Kept W (s.agentArrives f) := by
  unfold State.agentArrives
  split
  · refine Kept.raise ?_ _ _
    exact h.same rfl rfl rfl rfl rfl rfl rfl rfl rfl rfl
  · rename_i hc
    have hr : s.CreditsConserved → s.startup = .running := by
      intro this; unfold State.CreditsConserved at this
      cases hs : s.startup <;> simp_all
    split
    · refine Kept.raise ?_ _ _
      refine h.agent hr rfl ?_ rfl rfl rfl rfl rfl rfl rfl
      simp; omega
    · refine Kept.cutHead ?_
      refine h.agent hr rfl ?_ rfl rfl rfl rfl rfl rfl rfl
      simp; omega

theorem Kept.takeHead (h : Kept W s) (x) (rest) (hi : s.intake = x :: rest) : Kept W s.takeHead := by
  have hr := fun h => not_held_of (s := s) h (by simp [hi])
  refine h.agent hr rfl ?_ rfl rfl rfl rfl rfl rfl rfl
  simp [hi]; omega


theorem arbiter_eligible (h : s.arbiter = some c) : s.eligible c = true := by
  unfold State.arbiter at h
  obtain ⟨l1, p, l2, h1, h2, h3⟩ := List.findSome?_eq_some_iff.1 h
  have := List.find?_some h2
  simp only [Bool.and_eq_true] at this; exact this.2

theorem arbiter_walking (h : s.arbiter = some c) : (s.ctx c).state = .walking := by
  have := arbiter_eligible h
  unfold State.eligible at this
  simp only [Bool.and_eq_true, beq_iff_eq] at this; exact this.1.1

theorem Kept.setCtx (h : Kept W s) (c) (x : Ctx) (hl : x.state.isLive = (s.ctx c).state.isLive) (hb : x.board = (s.ctx c).board)
    (ho : (s.ctx c).Onward x := by exact .same rfl rfl) : Kept W (s.setCtx c x) :=
  h.ops (quiet_setCtx _ _ _) (trims_setCtx _ _ _ ho) (fun w => wired_setCtx w c x hl hb)

theorem Kept.testSynced (h : Kept W s) (c) : Kept W (s.testSynced c) := h.ops (quiet_testSynced _ _) (trims_testSynced _ _) (fun w => wired_testSynced w c)

theorem Kept.claim (h : Kept W s) (ho : ∀ x ∈ cs, ClaimTxn.Ok x) (hc : s.claim k cs = some t) : Kept W t := by
  obtain ⟨hr, q, hq, rfl⟩ := claim_spec hc
  have hst : q.state = (s.slot k).state := by rw [(enqueueAll_spec hq).1]
  exact h.setSlot k q (enqueueAll_spec hq).2.2 (agrees_enqueueAll ho hq (by simpa [State.isReady] using hr)) (fun e => hst.trans e)
    (fun e => hst ▸ e)

theorem Kept.claimAll (h : Kept W s) (ho : ∀ x ∈ l, ∀ c ∈ x.2, ClaimTxn.Ok c) (hc : s.claimAll l = some t) : Kept W t := by
  induction l generalizing s with
  | nil => cases hc; exact h
  | cons x l ih =>
    obtain ⟨k, cs⟩ := x
    have hl : ∀ y ∈ l, ∀ c ∈ y.2, ClaimTxn.Ok c := fun y hy => ho y (by simp [hy])
    cases cs with
    | nil => exact ih h hl hc
    | cons c cs =>
      unfold State.claimAll at hc
      split at hc
      · cases hc
      · rename_i u hu
        exact ih (h.claim (ho (k, c :: cs) (by simp)) hu) hl hc

theorem advance_live (f) (x : Ctx) : (x.advance f).state = x.state ∧ (x.advance f).board = x.board ∧ (x.advance f).dst = x.dst := by
  unfold Ctx.advance
  repeat' split
  all_goals exact ⟨rfl, rfl, rfl⟩

theorem issued_live (w g) (x : Ctx) : (Ctx.issued w g x).state = x.state ∧ (Ctx.issued w g x).board = x.board ∧
    (Ctx.issued w g x).dst = x.dst := by
  unfold Ctx.issued Ctx.startPace
  dsimp only
  split
  · exact advance_live _ _
  · exact ⟨rfl, rfl, rfl⟩

theorem Kept.grantFetch (h : Kept W s) (c w) (hwk : (s.ctx c).state = .walking) : Kept W (s.grantFetch c w) := by
  have h0 : Kept W (s.served c) := h.same rfl rfl rfl rfl rfl rfl rfl rfl rfl rfl
  unfold State.grantFetch; dsimp only
  split
  · refine Kept.raise ?_ _ _
    refine h0.setCtx c _ ?_ (by rfl) ⟨fun _ => ⟨by simp [Ctx.firePoint], by simp [Ctx.firePoint]⟩, fun _ => ⟨.inl hwk, rfl⟩⟩
    show CtxState.isLive .paused = (s.ctx c).state.isLive
    rw [hwk]; rfl
  · unfold State.issueFetch
    split
    · rename_i g t hg ht
      refine Kept.testSynced ?_ c
      have h1 := h0.claim (by
        intro x hx; rw [List.mem_singleton.1 hx]; exact .inr ⟨.inl rfl, _, rfl, rfl⟩) ht
      have h2 : Kept W (t.setStaging g (some [])) := h1.same rfl rfl rfl rfl rfl rfl rfl rfl rfl rfl
      exact h2.setCtx c _ (by rw [(issued_live _ _ _).1]) (issued_live _ _ _).2.1
        (.same (issued_live _ _ _).1 (issued_live _ _ _).2.2)
    · exact h0

theorem Kept.grantZero (h : Kept W s) (c w) : Kept W (s.grantZero c w) := by
  have h0 : Kept W (s.served c) := h.same rfl rfl rfl rfl rfl rfl rfl rfl rfl rfl
  unfold State.grantZero; dsimp only
  split
  · rename_i t ht
    refine Kept.testSynced ?_ c
    have h1 := h0.claim (by
        intro x hx; rw [List.mem_singleton.1 hx]; exact .inl ⟨.inr rfl, rfl⟩) ht
    have hz : ∀ (f n : Nat) (x : Ctx), (Ctx.zeroed f n x).state = x.state ∧ (Ctx.zeroed f n x).board = x.board ∧
        (Ctx.zeroed f n x).dst = x.dst := fun f n x => by
      obtain ⟨a, b, c⟩ := advance_live (f + n) { x with counters := x.counters.addWritten n }
      exact ⟨a, b, c⟩
    exact h1.setCtx c _ (by rw [(hz _ _ _).1]) (hz _ _ _).2.1 (.same (hz _ _ _).1 (hz _ _ _).2.2)
  · exact h0

theorem Kept.written (h : Kept W s) (c f r) : Kept W (s.written c f r) := by
  unfold State.written
  extract_lets sel u v
  have h2 : Kept W u := h.setCtx c _ (by rfl) (by rfl)
  clear_value u
  have h3 : Kept W v := by
    show Kept W (if f.poison = true then u else u.dropGap c f.region f.entry)
    split
    · exact h2
    · exact h2.ops (quiet_dropGap _ _ _ _) (trims_dropGap _ _ _ _) (fun w => wired_of_tables w rfl rfl)
  clear_value v
  split
  · exact h3.setCtx c _ (by rfl) (by rfl)
  · exact h3.ops (quiet_leaveFlight _ _ _) (trims_leaveFlight _ _ _) (fun w => wired_leaveFlight w _ _)

theorem Kept.takeWrite (h : Kept W s) (c n) : Kept W (s.takeWrite c n) := by
  unfold State.takeWrite
  split
  · exact h
  split
  · split
    · exact h
    split
    · exact h
    · rename_i f _ _ _ r _ _ t ht
      have h1 := h.claim (by
        intro x hx; rw [List.mem_singleton.1 hx]; exact .inl ⟨.inl rfl, rfl⟩) ht
      exact h1.written c f r
  · exact h

theorem Kept.takeVerify (h : Kept W s) (c n) : Kept W (s.takeVerify c n) := by
  unfold State.takeVerify
  split
  · exact h
  split
  · split
    · exact h
    split
    · exact h
    · rename_i ht
      have h1 := h.claim (by
        intro x hx; rw [List.mem_singleton.1 hx]; exact .inr ⟨.inl rfl, _, rfl, rfl⟩) ht
      exact h1.setCtx c _ (by rfl) (by rfl)
  · exact h

theorem Kept.takeCutover (h : Kept W s) (c) : Kept W (s.takeCutover c) := by
  unfold State.takeCutover
  split
  · split
    · exact h
    · rename_i ht
      have h1 := h.claim (by
        intro x hx
        simp only [State.cutoverClaim, List.mem_append, List.mem_map, List.mem_singleton] at hx
        rcases hx with ⟨y, hy, rfl⟩ | rfl
        · simp only [State.writeOutStores, List.mem_map] at hy
          obtain ⟨z, _, rfl⟩ := hy
          exact .inl ⟨.inl rfl, rfl⟩
        · exact .inr ⟨.inr rfl, _, rfl, rfl⟩) ht
      exact h1.setCtx c _ (by rfl) (by rfl)
  · exact h

theorem Kept.grantIf (h : Kept W s) (z) (f) (hf : ∀ c w, (s.ctx c).state = .walking → Kept W (f s c w)) : Kept W (s.grantIf z f) := by
  unfold State.grantIf
  split
  · exact h
  · rename_i c hc
    split
    · exact h
    · split
      · exact hf _ _ (arbiter_walking hc)
      · exact h

/-! ### Forwarding -/
theorem addRevisit_wired (w : s.Wired) (c r e) : (s.addRevisit c r e).1.Wired := by
  unfold State.addRevisit; dsimp only
  split
  · exact w
  split
  · exact wired_setCtx w c _ (by rfl) (by rfl)
  split
  · exact wired_setCtx w c _ (by rfl) (by rfl)
  · unfold State.exhausted
    split
    · refine wired_raise (wired_setCtx w c _ ?_ ?_) _ _
      · simp only [Ctx.rewalk, Ctx.toHead]; split <;> rfl
      · simp only [Ctx.rewalk, Ctx.toHead]; split <;> rfl
    · exact wired_failCtx w c _

theorem Kept.settlePiece (e v) (x : State × Bool) (h : Kept W x.1) : Kept W (State.settlePiece e x v).1 := by
  unfold State.settlePiece; dsimp only
  have h1 : Kept W (x.1.countDiscard e v) := by
    unfold State.countDiscard; split
    · exact h
    · refine Kept.raise ?_ _ _; exact h.same rfl rfl rfl rfl rfl rfl rfl rfl rfl rfl
  have h2 : Kept W ((x.1.countDiscard e v).countWithheld e v) := by
    unfold State.countWithheld; split <;> exact h1.same rfl rfl rfl rfl rfl rfl rfl rfl rfl rfl
  have h3 : Kept W (((x.1.countDiscard e v).countWithheld e v).countUncovered v) := by
    unfold State.countUncovered; split
    · exact h2.same rfl rfl rfl rfl rfl rfl rfl rfl rfl rfl
    · exact h2
  generalize ((x.1.countDiscard e v).countWithheld e v).countUncovered v = u at h3 ⊢
  have h4 : Kept W (u.reportGap e v) := by
    unfold State.reportGap
    split
    · split
      · exact h3.ops (quiet_dropGap _ _ _ _) (trims_dropGap _ _ _ _) (fun w => wired_of_tables w rfl rfl)
      · exact h3
    · exact h3
  generalize u.reportGap e v = q at h4 ⊢
  unfold State.reportRevisit
  split
  · split
    · exact h4.ops (quiet_addRevisit _ _ _ _) (trims_addRevisit _ _ _ _) (fun w => addRevisit_wired w _ _ _)
    · exact h4
  · exact h4

theorem Kept.settlePieces (h : Kept W s) (e vs) : Kept W (s.settlePieces e vs) := by
  unfold State.settlePieces
  have : ∀ (x : State × Bool), Kept W x.1 → Kept W (vs.foldl (State.settlePiece e) x).1 := by
    induction vs with
    | nil => exact fun x h => h
    | cons v vs ih => exact fun x h => ih _ (Kept.settlePiece e v x h)
  exact this _ h

theorem settlePieces_intake (s : State) (e vs) : (s.settlePieces e vs).intake = s.intake := by
  unfold State.settlePieces
  have : ∀ (x : State × Bool), (vs.foldl (State.settlePiece e) x).1.intake = x.1.intake := by
    induction vs with
    | nil => exact fun x => rfl
    | cons v vs ih =>
      intro x
      rw [List.foldl_cons, ih]
      unfold State.settlePiece; dsimp only
      have h4 : ∀ u : State, (u.reportRevisit e v x.2).1.intake = u.intake := fun u => by
        unfold State.reportRevisit
        split
        · split
          · exact (quiet_addRevisit _ _ _ _).intake
          · rfl
        · rfl
      rw [h4]
      have h3 : ∀ u : State, (u.reportGap e v).intake = u.intake := fun u => by
        unfold State.reportGap; split
        · split <;> rfl
        · rfl
      rw [h3]
      have h2 : ∀ u : State, (u.countUncovered v).intake = u.intake := fun u => by unfold State.countUncovered; split <;> rfl
      rw [h2]
      have h1 : ∀ u : State, (u.countWithheld e v).intake = u.intake := fun u => by unfold State.countWithheld; split <;> rfl
      rw [h1]
      unfold State.countDiscard; split
      · rfl
      · rw [(quiet_raise _ _ _).intake]
  exact this _

theorem claimsFor_ok (s : State) (e f a b) (hf : ∀ r, ClaimTxn.Ok (f r)) : ∀ x ∈ s.claimsFor e f a b, ∀ c ∈ x.2, ClaimTxn.Ok c := by
  intro x hx c hc
  unfold State.claimsFor at hx
  rcases List.mem_append.1 hx with hx | hx
  · split at hx
    · rw [List.mem_singleton.1 hx] at hc
      obtain ⟨r, _, rfl⟩ := List.mem_map.1 hc; exact hf r
    · cases hx
  · split at hx
    · rw [List.mem_singleton.1 hx] at hc
      obtain ⟨r, _, rfl⟩ := List.mem_map.1 hc; exact hf r
    · cases hx

theorem claimAll_intake (h : s.claimAll l = some t) : t.intake = s.intake := by rw [(claimAll_spec h).1]

theorem Kept.withHead (h : Kept W s) (kd f) (hf : ∀ t b rest, s.intake = t :: rest → Kept W (f s t b)) : Kept W (s.withHead kd f) := by
  unfold State.withHead
  split
  · exact h
  · rename_i t rest hi
    split
    · split
      · exact hf _ _ _ hi
      · exact h
    · exact h

theorem Kept.takeStore (h : Kept W s) (x b rest) (hi : s.intake = x :: rest) : Kept W (s.takeStore x b) := by
  unfold State.takeStore
  split
  · exact h
  · rename_i u hu
    have h1 := h.claimAll (claimsFor_ok _ _ _ _ _ (fun r => .inl ⟨.inl rfl, rfl⟩)) hu
    have h2 := h1.settlePieces (s.entry b) (s.judgeStore x b)
    exact (h2.takeHead x rest (by rw [settlePieces_intake, claimAll_intake hu, hi])).cutHead

theorem Kept.endFill (h : Kept W s) (x rest) (hi : s.intake = x :: rest) : Kept W s.endFill := by
  unfold State.endFill
  have h0 : Kept W { s with fill := none } := h.same rfl rfl rfl rfl rfl rfl rfl rfl rfl rfl
  exact (h0.takeHead x rest hi).cutHead

theorem Kept.fillPiece (h : Kept W s) (x : Txn) (e w p ps rest) (hi : s.intake = x :: rest) : Kept W (s.fillPiece x e w p ps) := by
  unfold State.fillPiece; dsimp only
  split
  · exact h
  · rename_i u hu
    have h1 := h.claimAll (claimsFor_ok _ _ _ _ _ (fun r => .inl ⟨.inr rfl, rfl⟩)) hu
    have h2 := h1.settlePieces e [s.judge e p]
    split
    · exact h2.endFill x rest (by rw [settlePieces_intake, claimAll_intake hu, hi])
    · exact h2.same rfl rfl rfl rfl rfl rfl rfl rfl rfl rfl

theorem Kept.fillWhole (h : Kept W s) (x : Txn) (e w ps vs rest) (hi : s.intake = x :: rest) : Kept W (s.fillWhole x e w ps vs) := by
  unfold State.fillWhole
  split
  · exact h
  · rename_i u hu
    have h1 := h.claimAll (claimsFor_ok _ _ _ _ _ (fun r => .inl ⟨.inr rfl, rfl⟩)) hu
    split
    · exact (h1.settlePieces e vs).endFill x rest (by rw [settlePieces_intake, claimAll_intake hu, hi])
    · exact h1.same rfl rfl rfl rfl rfl rfl rfl rfl rfl rfl

theorem Kept.stepFill (h : Kept W s) (x b rest) (hi : s.intake = x :: rest) : Kept W (s.stepFill x b) := by
  unfold State.stepFill
  split
  · exact h
  · dsimp only
    split
    · exact h.endFill x rest hi
    · exact h.fillPiece x _ _ _ _ rest hi
    · split
      · exact h.fillPiece x _ _ _ _ rest hi
      · exact h.fillWhole x _ _ _ _ rest hi

theorem Kept.takeFetch (h : Kept W s) (x b rest) (hi : s.intake = x :: rest) : Kept W (s.takeFetch x b) := by
  unfold State.takeFetch
  split
  · exact ((h.takeHead x rest hi).pushUp _).cutHead
  · split
    · split
      · exact h
      · rename_i u hu
        have h1 := h.claim (by
          intro y hy
          simp only [State.fetchParts, List.mem_map] at hy
          obtain ⟨z, _, rfl⟩ := hy
          exact .inr ⟨.inl rfl, _, rfl, rfl⟩) hu
        have hin : u.intake = s.intake := by obtain ⟨-, q, -, rfl⟩ := claim_spec hu; rfl
        have h2 : Kept W (u.openAssembly s.freshAssembly x b (s.fetchParts x b ‹_›).length) ∧ (u.openAssembly s.freshAssembly x b (s.fetchParts x b ‹_›).length).intake = u.intake := by
          unfold State.openAssembly; split
          · exact ⟨h1, rfl⟩
          · exact ⟨h1.same rfl rfl rfl rfl rfl rfl rfl rfl rfl rfl, rfl⟩
        exact (h2.1.takeHead x rest (by rw [h2.2, hin, hi])).cutHead
    · exact ((h.takeHead x rest hi).pushUp _).cutHead

theorem Kept.takeFence (h : Kept W s) (x b rest) (hi : s.intake = x :: rest) : Kept W (s.takeFence x b) := by
  unfold State.takeFence
  split
  · exact ((h.takeHead x rest hi).pushUp _).cutHead
  · split
    · exact h
    · rename_i hcs _ u hu
      have h1 := h.claimAll (by
        intro y hy c hc
        unfold State.fenceClaims at hy
        rcases List.mem_append.1 hy with hy | hy
        all_goals
          simp only [Option.mem_toList, Option.map_eq_some_iff] at hy
          obtain ⟨z, _, rfl⟩ := hy
          rw [List.mem_singleton.1 hc]
          exact .inr ⟨.inr rfl, _, rfl, rfl⟩) hu
      have h2 : Kept W { u with fences := u.fences ++ [s.openGroup x b] } := h1.same rfl rfl rfl rfl rfl rfl rfl rfl rfl rfl
      refine (h2.takeHead x rest ?_).cutHead
      show u.intake = _
      rw [claimAll_intake hu, hi]

end Sys2Proof.Machine
end

