-- ==== Sys2Proof/Laws/KeepingRequests.lean ====
section
/-! SUPPORT. What every management request keeps: nine invariants of Safety. -/

namespace Sys2Proof.Machine

variable {W : Invariant → Prop} {s t : State}
theorem Kept.decode (h : Kept W s) (m) (body : Txn → State → State × Option Answer) (hb : ∀ x s, Kept W s → Kept W (body x s).1) : Kept W (s.decode m body) := by
  unfold State.decode
  split
  · exact h
  · rename_i x rest hi
    split
    · refine Kept.cutHead ?_
      have h1 := hb x _ (h.takeHead x rest hi)
      unfold State.answer
      split
      · exact h1.pushUp _
      · exact h1
    · exact h

theorem Kept.serve (h : Kept W s) (r) (body : List Nat → State → State × Answer) (hb : ∀ ps s, Kept W s → (∀ v ∈ ps, v < 4294967296) → Kept W (body ps s).1) : Kept W (s.serve r body) :=
  h.decode _ _ (fun x s hs => hb x.params s hs (params_lt x))

theorem Kept.read (h : Kept W s) (o v) : Kept W (s.read o v) := h.decode _ _ (fun _ _ hs => hs)

/-- Those of the invariants that do not speak of gap records. -/
def Invariant.ButOwners (W : Invariant → Prop) (i : Invariant) : Prop := W i ∧ i ≠ .owners

theorem Kept.butOwners (h : Kept W s) : Kept (Invariant.ButOwners W) s :=
  ⟨fun a => h.cr a.1, fun a => h.sb a.1, fun a => h.ag a.1, fun a => h.tb a.1, fun a => h.w a.1, fun a => h.lo a.1,
    fun a => absurd rfl a.2, fun a => h.ds a.1, fun a => h.dm a.1⟩

theorem Kept.andOwners (h : Kept (Invariant.ButOwners W) s) (ho : W .owners → s.GapsOwned) : Kept W s :=
  ⟨fun a => h.cr ⟨a, by simp⟩, fun a => h.sb ⟨a, by simp⟩, fun a => h.ag ⟨a, by simp⟩, fun a => h.tb ⟨a, by simp⟩,
    fun a => h.w ⟨a, by simp⟩, fun a => h.lo ⟨a, by simp⟩, ho, fun a => h.ds ⟨a, by simp⟩, fun a => h.dm ⟨a, by simp⟩⟩

/-- A context's holdings are released and it ends; what becomes of its gap records is left open. -/
theorem Kept.release_end (h : Kept (Invariant.ButOwners W) s) (c) (f : Ctx → Ctx) (hf : (f (s.ctx c).released).state.isLive = false) :
    Kept (Invariant.ButOwners W) ((s.release c).modCtx c f) := by
  have hi : ∀ d, ((s.release c).modCtx c f).ctx d = if c = d then f (s.ctx c).released else s.ctx d := fun d => by
    rw [modCtx_eq, ctx_setCtx]; split
    · rename_i hd; subst hd; rw [ctx_release, if_pos rfl]
    · rename_i hd; rw [ctx_release, if_neg hd]
  have q := (quiet_release s c).trans (quiet_modCtx _ c f)
  have tr := trims_release s c
  refine ⟨fun a => q.toInner.credits (h.cr a), fun a => q.bounded (h.sb a), fun a => q.agrees (h.ag a), fun a => tr.sound (h.tb a),
    fun a => wired_release_end (h.w a) c (f (s.ctx c).released) hf rfl hi, fun a => lo_of (h.lo a) q.layouts q.regions,
    fun a => absurd rfl a.2, fun a => ds_of (h.ds a) (fun d hd => ?_) (fun k hk => by rw [q.isReady]; exact hk),
    fun a k hk => tr.empty (h.dm a k (q.down k hk))⟩
  rw [hi] at hd ⊢
  split at hd
  · rcases hd with e | e <;> rw [e] at hf <;> cases hf
  · rename_i hne; rw [if_neg hne]; exact ⟨hd, rfl⟩

theorem Kept.sendDeferred (h : Kept W s) (c st ws) : Kept W (s.sendDeferred c st ws) :=
  h.ops (quiet_sendDeferred _ _ _ _) (trims_sendDeferred _ _ _ _) (fun w => wired_sendDeferred w _ _ _)

theorem Kept.slotsMap (h : Kept W s) (f : SlotPort → SlotPort) (hb : ∀ p, p.Bounded → (f p).Bounded) (ha : ∀ p, p.Agrees → (f p).Agrees)
    (hst : ∀ p, (f p).state = p.state := by exact fun _ => rfl) : Kept W { s with slots := s.slots.map f } := by
  have hs : ∀ k, State.slot { s with slots := s.slots.map f } k = f (s.slot k) := fun k => by simp [State.slot]
  refine ⟨h.cr, fun a k => ?_, fun a k => ?_, h.tb, h.w, h.lo, h.ow, fun a c hc => ?_, fun a k hk => h.dm a k ?_⟩
  · rw [hs]; exact hb _ (h.sb a k)
  · rw [hs]; exact ha _ (h.ag a k)
  · unfold State.isReady; rw [hs, hst]; exact h.ds a c hc
  · rw [hs, hst] at hk; exact hk

theorem kept_foldl {α} (f : State → α → State) (hf : ∀ s a, Kept W s → Kept W (f s a)) (l : List α) (h : Kept W s) : Kept W (l.foldl f s) := by
  induction l generalizing s with
  | nil => exact h
  | cons a l ih => exact ih (hf s a h)

theorem Kept.softReset (h : Kept W s) : Kept W s.softReset := by
  unfold State.softReset
  extract_lets a b
  have h1 : Kept (Invariant.ButOwners W) a := kept_foldl _ (fun s c h => by
    unfold State.softResetCtx; split
    · exact h
    · exact (h.release_end c _ rfl).sendDeferred _ _ _) _ h.butOwners
  clear_value a
  have h2 : Kept W { a with gaps := [] } := Kept.andOwners
    ⟨h1.cr, h1.sb, h1.ag, fun a => ⟨Nat.zero_le _, List.nodup_nil, (h1.tb a).2.2⟩, h1.w, h1.lo, fun a => absurd rfl a.2, h1.ds, h1.dm⟩
    (fun _ g hg => absurd hg List.not_mem_nil)
  have h3 : Kept W ({ a with gaps := [] } : State).softResetSlots := h2.slotsMap _ (fun p hp => by
    rw [softReset_spec]
    exact ⟨hp.1, Nat.le_trans (List.length_filter_le _ _) hp.2⟩) (fun p hp => agrees_softReset hp) (fun p => by rw [softReset_spec])
  have h4 : Kept W b := h3.same rfl rfl rfl rfl rfl rfl rfl rfl rfl rfl
  exact h4.same rfl rfl rfl rfl rfl rfl rfl rfl rfl rfl

theorem clearCounters_agrees (p : SlotPort) (h : p.Agrees) : p.clearCounters.Agrees := h

theorem Kept.ctxsMap (h : Kept W s) (f : Ctx → Ctx) (hf : ∀ x, (f x).state = x.state ∧ (f x).board = x.board ∧ (f x).dst = x.dst) :
    Kept W { s with ctxs := s.ctxs.map f } := by
  have hc : ∀ c, State.ctx { s with ctxs := s.ctxs.map f } c = f (s.ctx c) := fun c => by simp [State.ctx]
  have hw : s.SameWiring { s with ctxs := s.ctxs.map f } := ⟨rfl, fun c => by
    rw [hc, (hf _).1, (hf _).2.1]; exact ⟨rfl, rfl⟩⟩
  refine ⟨h.cr, h.sb, h.ag, h.tb, fun a => hw.wired (h.w a), h.lo, fun a g hg => ?_, fun a c hs => ?_, h.dm⟩
  · rw [hc, (hf _).1]; exact h.ow a g hg
  · rw [hc, (hf _).1] at hs; rw [hc, (hf _).2.2]; exact h.ds a c hs

theorem Kept.clearScope (h : Kept W s) (x) : Kept W (s.clearScope x) := by
  cases x with
  | all =>
    have h1 := h.slotsMap SlotPort.clearCounters (fun p h => h) (fun p h => h)
    have h2 := h1.ctxsMap Ctx.clearCounters (fun x => ⟨rfl, rfl, rfl⟩)
    exact h2.same rfl rfl rfl rfl rfl rfl rfl rfl rfl rfl
  | global => exact h.same rfl rfl rfl rfl rfl rfl rfl rfl rfl rfl
  | slot k => exact h.setSlot k _ id id
  | ctx c => exact h.setCtx c _ rfl rfl

theorem Kept.setEntry (h : Kept W s) (b) (e : SteerEntry) (hn : ∀ k, e.Names k → (s.entry b).Names k)
    (he : s.Wired → e.Legal ∧ e.bound = (s.entry b).bound) : Kept W (s.setEntry b e) :=
  h.ops (quiet_setEntry _ _ _) (trims_setEntry _ _ _) (fun w => wired_setEntry w b e (he w).1 hn (he w).2)

theorem wired_setEntry_new (w : s.Wired) (b) (e : SteerEntry) (he : e.Legal)
    (hn : ∀ k, e.Names k → (s.entry b).Names k ∨ ∀ a, a ≠ b → ¬ (s.entry a).Names k) (hb : e.bound = (s.entry b).bound) : (s.setEntry b e).Wired := by
  refine ⟨⟨fun a => ?_, fun a d k ha hd => ?_⟩, fun a c => ?_⟩
  · rw [entry_setEntry]; split
    · exact he
    · exact w.1.1 a
  · rw [entry_setEntry] at ha hd
    split at ha <;> split at hd
    · rename_i h1 h2; exact h1.symm.trans h2
    · rename_i h1 h2; subst h1
      rcases hn k ha with h | h
      · exact w.1.2 _ _ k h hd
      · exact absurd hd (h d (Ne.symm h2))
    · rename_i h1 h2; subst h2
      rcases hn k hd with h | h
      · exact w.1.2 _ _ k ha h
      · exact absurd ha (h a (Ne.symm h1))
    · exact w.1.2 _ _ k ha hd
  · rw [entry_setEntry, ctx_setEntry]; split
    · rename_i h; subst h; rw [hb]; exact w.2 b c
    · exact w.2 a c

theorem Kept.setEntryNew (h : Kept W s) (b) (e : SteerEntry) (hn : ∀ k, e.Names k → (s.entry b).Names k ∨ ∀ a, a ≠ b → ¬ (s.entry a).Names k)
    (he : s.Wired → e.Legal ∧ e.bound = (s.entry b).bound) : Kept W (s.setEntry b e) :=
  h.ops (quiet_setEntry _ _ _) (trims_setEntry _ _ _) (fun w => wired_setEntry_new w b e (he w).1 hn (he w).2)

theorem Kept.reqSteerSet (h : Kept W s) (ps) : Kept W (reqSteerSet ps s).1 := by
  unfold Machine.reqSteerSet
  split
  · exact h
  · rename_i p _
    split
    · exact h
    · rename_i hf
      split
      · exact h
      · rename_i hg
        have hf' : s.slotFreeFor p.board p.slot = true := by simpa using hf
        unfold State.slotFreeFor at hf'
        simp only [Bool.and_eq_true, bne_iff_ne, ne_eq, List.all_eq_true, Bool.or_eq_true, beq_iff_eq] at hf'
        refine h.setEntryNew p.board _ ?_ (fun w => ?_)
        rotate_left
        · obtain ⟨a, b, c, d⟩ := w.1.1 p.board
          refine ⟨⟨fun h => (by cases h), b, c, fun _ h => hf'.1 h.symm⟩, rfl⟩
        · intro k hk
          rcases hk with hk | hk
          · cases hk
            right
            intro a ha hn
            rcases hf'.2 a (mem_allBoards a) with h | h
            · exact ha h
            · rcases hn with hn | hn
              · exact h.1 hn
              · exact h.2 hn
          · exact .inl (.inr hk)

theorem not_building {e : SteerEntry} (h : e.Legal) (hn : e.twinState ≠ .building) : e.bound = none := by
  cases hb : e.bound with
  | none => rfl
  | some c => exact absurd (h.2.2.1.1 (by rw [hb]; rfl)) hn

theorem Kept.reqSteerClear (h : Kept W s) (ps) : Kept W (reqSteerClear ps s).1 := by
  unfold Machine.reqSteerClear
  split
  · unfold State.clearSteer
    split
    · exact h
    split
    · exact h
    · rename_i b _ _ hp
      refine h.setEntry b _ (fun k hk => by simp [SteerEntry.Names] at hk) (fun w => ⟨by simp [SteerEntry.Legal], ?_⟩)
      refine (not_building (w.1.1 b) ?_).symm
      intro hb; simp [SteerEntry.paired, hb] at hp
  · exact h

theorem boardNaming_none (h : s.boardNaming k = none) : ∀ a, ¬ (s.entry a).Names k := by
  intro a ha
  have := List.find?_eq_none.1 h a (mem_allBoards a)
  simp only [Bool.or_eq_true, beq_iff_eq] at this
  exact this ha

theorem Kept.reqTwinSet (h : Kept W s) (ps) : Kept W (reqTwinSet ps s).1 := by
  unfold Machine.reqTwinSet
  split
  · rename_i b k _
    unfold State.setTwin
    split
    · exact h
    · rename_i hp
      split
      · rename_i hts
        split
        · exact h
        · rename_i hb
          have hb' := boardNaming_none (by simpa using hb)
          refine h.setEntryNew b _ ?_ (fun w => ?_)
          rotate_left
          · obtain ⟨a1, a2, a3, a4⟩ := w.1.1 b
            refine ⟨⟨fun hn => absurd hn hp, by simp, ?_, fun _ he => ?_⟩, rfl⟩
            · rw [not_building (w.1.1 b) (by rw [hts]; simp)]; simp
            · exact hb' b (.inl he)
          · intro j hj
            rcases hj with hj | hj
            · exact .inl (.inl hj)
            · cases hj; exact .inr (fun a _ => hb' a)
      all_goals exact h
  · exact h

theorem Kept.reqTwinClear (h : Kept W s) (ps) : Kept W (reqTwinClear ps s).1 := by
  unfold Machine.reqTwinClear
  split
  · rename_i b _
    unfold State.clearTwin
    split
    · exact h
    · rename_i hp
      split
      · rename_i hts
        refine h.setEntry b _ ?_ (fun w => ?_)
        rotate_left
        · refine ⟨⟨fun hn => absurd hn hp, by simp, ?_, fun _ he => hp he⟩, rfl⟩
          rw [not_building (w.1.1 b) (by rw [hts]; simp)]; simp
        · intro j hj
          rcases hj with hj | hj
          · exact .inl hj
          · cases hj
      all_goals exact h
  · exact h

theorem Kept.reqSwap (h : Kept W s) (ps) : Kept W (reqSwap ps s).1 := by
  unfold Machine.reqSwap
  split
  · rename_i b _
    unfold State.swap
    split
    · exact h
    split
    · rename_i hp hts
      have hps : (s.entry b).primary.isSome = true := Option.isSome_iff_ne_none.2 hp
      refine h.setEntry b _ ?_ (fun w => ?_)
      rotate_left
      · obtain ⟨a1, a2, a3, a4⟩ := w.1.1 b
        have hbn := not_building (w.1.1 b) (by rw [hts]; simp)
        have ht : (s.entry b).twin.isSome = true := a2.2 (by rw [hts]; simp)
        refine ⟨⟨fun hn => ?_, ?_, ?_, fun _ he => a4 hps he.symm⟩, rfl⟩
        · have : (s.entry b).twin = none := hn
          rw [this] at ht; cases ht
        · show (s.entry b).primary.isSome = true ↔ (if s.readyOpt (s.entry b).primary = true then TwinState.twinned else .stale) ≠ .none
          simp [hps]; split <;> simp
        · show (s.entry b).bound.isSome = true ↔ (if s.readyOpt (s.entry b).primary = true then TwinState.twinned else .stale) = .building
          rw [hbn]; simp; split <;> simp
      · intro j hj
        exact Or.symm hj
    · exact h
  · exact h


theorem Kept.map (h : Kept W s) (h1 : t = { s with layouts := t.layouts, regions := t.regions }) (h2 : s.LayoutSound → t.LayoutSound) : Kept W t := by
  rw [h1]
  exact ⟨h.cr, h.sb, h.ag, h.tb, h.w, fun a => by rw [← h1]; exact h2 (h.lo a), h.ow, h.ds, h.dm⟩

theorem hits_comm (r o : Region) (v) : r.hits o v = o.hits r v := by
  rw [Bool.eq_iff_iff, regionHits_iff, regionHits_iff]
  exact ⟨fun ⟨a, h1, h2⟩ => ⟨a, h2, h1⟩, fun ⟨a, h1, h2⟩ => ⟨a, h2, h1⟩⟩

theorem Kept.reqLayoutSet (h : Kept W s) (ps) : Kept W (reqLayoutSet ps s).1 := by
  unfold Machine.reqLayoutSet State.setLayout
  repeat' split
  all_goals try exact h
  rename_i l x _ _ hc
  refine h.map rfl (fun hlo => ?_)
  simp only [Bool.or_eq_true, not_or, Bool.not_eq_true] at hc
  have hn : ∀ v, s.windowClash l x v = false := fun v => by cases v; exact hc.1; exact hc.2
  intro i r hr v
  obtain ⟨a1, a2, a3, a4, a5, a6⟩ := hlo i r hr v
  refine ⟨a1, a2, a3, a4, ?_, a6⟩
  have hl : State.layout { s with layouts := s.layouts.set l x } r.set = if l = r.set then x else s.layout r.set := by
    unfold State.layout
    simp [Vector.getElem_set, Fin.val_inj]
  show (State.layout { s with layouts := s.layouts.set l x } r.set).hits v r = false
  rw [hl]
  split
  · rename_i hlr
    have := hn v
    rw [← Bool.not_eq_true, windowClash_iff] at this
    rw [← Bool.not_eq_true]
    exact fun hx => this ⟨i, r, hr, hlr.symm, hx⟩
  · exact a5

theorem Kept.reqRegionLoad (h : Kept W s) (ps) (hw : ∀ v ∈ ps, v < 4294967296) : Kept W (reqRegionLoad ps s).1 := by
  unfold Machine.reqRegionLoad State.loadRegion
  repeat' split
  all_goals try exact h
  rename_i i r hp _ hc
  obtain ⟨-, hr⟩ := (parseRegion_some hw).1 hp
  refine h.map rfl (fun hlo => ?_)
  simp only [Bool.or_eq_true, not_or, Bool.not_eq_true] at hc
  have hn : ∀ v, s.loadClash i r v = false := fun v => by cases v; exact hc.1; exact hc.2
  intro j o hj v
  change (s.setRegion i (some r)).region j = some o at hj
  rw [region_setRegion] at hj
  have hnv := hn v
  rw [← Bool.not_eq_true, loadClash_iff] at hnv
  push Not at hnv
  obtain ⟨n1, n2, n3⟩ := hnv
  split at hj
  · rename_i hij; subst hij; cases hj
    have hg : 1 ≤ r.width ∧ r.width ≤ (r.geom v).pitch ∧ (r.geom v).base.toNat + r.extentLen v ≤ Config.addressTop := by
      obtain ⟨r1, -, -, -, -, r2⟩ := hr
      exact ⟨r1, (r2 v).1, (r2 v).2.2.2.1⟩
    refine ⟨hg.1, hg.2.1, hg.2.2, by simpa using n1, by simpa using n3, fun j o hji hj hs => ?_⟩
    change (s.setRegion i (some r)).region j = some o at hj
    rw [region_setRegion, if_neg (Ne.symm hji)] at hj
    simpa using n2 j o hji hj hs
  · rename_i hij
    obtain ⟨a1, a2, a3, a4, a5, a6⟩ := hlo j o hj v
    refine ⟨a1, a2, a3, a4, a5, fun m q hm hq hs => ?_⟩
    change (s.setRegion i (some r)).region m = some q at hq
    rw [region_setRegion] at hq
    split at hq
    · rename_i him; subst him; cases hq
      have := n2 j o (Ne.symm hij) hj hs.symm
      rw [hits_comm]; simpa using this
    · exact a6 m q hm hq hs

theorem Kept.reqRegionClear (h : Kept W s) (ps) : Kept W (reqRegionClear ps s).1 := by
  unfold Machine.reqRegionClear State.clearRegion
  repeat' split
  all_goals try exact h
  rename_i i _ _ _
  refine h.map rfl (fun hlo => ?_)
  intro j o hj v
  change (s.setRegion i none).region j = some o at hj
  rw [region_setRegion] at hj
  split at hj
  · cases hj
  · obtain ⟨a1, a2, a3, a4, a5, a6⟩ := hlo j o hj v
    refine ⟨a1, a2, a3, a4, a5, fun m q hm hq hs => ?_⟩
    change (s.setRegion i none).region m = some q at hq
    rw [region_setRegion] at hq
    split at hq
    · cases hq
    · exact a6 m q hm hq hs

theorem Kept.reqCtxOpen (h : Kept W s) (ps) : Kept W (reqCtxOpen ps s).1 := by
  unfold Machine.reqCtxOpen
  split
  · rename_i q _
    unfold State.openCtx
    split
    · exact h
    · rename_i hid
      split
      · exact h
      · rename_i p t hp ht
        split
        · rename_i hts
          have hid' : (s.ctx q.ctx).state = .idle := by simpa using hid
          refine h.ops ((quiet_modCtx s q.ctx (Ctx.opened q p t (s.entry q.board).view)).trans (quiet_setEntry _ _ _))
            ((trims_modCtx s q.ctx (Ctx.opened q p t (s.entry q.board).view) (.rests (.inr (.inr rfl)))).trans (trims_setEntry _ _ _))
            (fun w => ?_)
          · have hbn := not_building (w.1.1 q.board) (by rw [hts]; simp)
            obtain ⟨a1, a2, a3, a4⟩ := w.1.1 q.board
            refine ⟨?_, fun b c => ?_⟩
            · refine legal_setEntry (s := s.modCtx q.ctx (Ctx.opened q p t (s.entry q.board).view)) w.1 q.board _ ?_ (fun k hk => hk)
              refine ⟨?_, ?_, by simp, a4⟩
              · exact a1
              · show (s.entry q.board).twin.isSome = true ↔ _
                rw [ht]; simp
            · unfold State.bind
              rw [entry_setEntry, ctx_setEntry, modCtx_eq, ctx_setCtx]
              have hw := w.2 b c
              by_cases hb : q.board = b
              · subst hb
                rw [if_pos rfl]
                by_cases hc : q.ctx = c
                · subst hc; simp [Ctx.opened, CtxState.isLive]
                · rw [if_neg hc, ← hw, hbn]; simp [hc]
              · rw [if_neg hb]
                by_cases hc : q.ctx = c
                · subst hc
                  rw [if_pos rfl]
                  simp only [entry_setCtx]
                  rw [hw, hid']; simp [Ctx.opened, CtxState.isLive, hb]
                · rw [if_neg hc]; exact hw
        · exact h
      · exact h
  · exact h

theorem Kept.reqSegAppend (h : Kept W s) (ps) : Kept W (reqSegAppend ps s).1 := by
  unfold Machine.reqSegAppend State.appendSeg
  repeat' split
  all_goals first | exact h | exact h.setCtx _ _ (by rfl) (by rfl)

theorem toHead_same (x : Ctx) : x.toHead.state = x.state ∧ x.toHead.board = x.board := by
  unfold Ctx.toHead; split <;> exact ⟨rfl, rfl⟩

theorem Kept.reqCtxStart (h : Kept W s) (ps) : Kept W (reqCtxStart ps s).1 := by
  unfold Machine.reqCtxStart State.startCtx
  split
  · split
    · exact h
    · rename_i c _ ho
      split
      · exact h
      · split
        · have hs : (s.ctx c).state = .opened := by simpa using ho
          have hl : CtxState.isLive (if s.isReady (s.ctx c).dst = true then .walking else .waiting) = (s.ctx c).state.isLive := by
            rw [hs]; split <;> rfl
          refine ⟨h.cr, h.sb, h.ag, h.tb, fun a => wired_setCtx (h.w a) c _ hl (toHead_same _).2, h.lo, fun a g hg => ?_,
            fun a d hd => ?_, h.dm⟩
          · rw [modCtx_eq, ctx_setCtx]; split
            · show (if _ then _ else _) ≠ _ ∧ (if _ then _ else _) ≠ _
              split <;> simp
            · exact h.ow a g hg
          · show s.isReady _ = true
            rw [modCtx_eq, ctx_setCtx] at hd ⊢
            split at hd
            · rename_i e; rw [if_pos e]
              show s.isReady (s.ctx c).toHead.dst = true
              rw [show (s.ctx c).toHead.dst = (s.ctx c).dst by unfold Ctx.toHead; split <;> rfl]
              by_contra hn
              have hd' : (if s.isReady (s.ctx c).dst = true then CtxState.walking else .waiting) = .walking ∨
                  (if s.isReady (s.ctx c).dst = true then CtxState.walking else .waiting) = .paused := hd
              rw [if_neg hn] at hd'
              rcases hd' with e | e <;> cases e
            · rename_i e; rw [if_neg e]; exact h.ds a d hd
        · exact h
  · exact h

theorem Kept.reqCtxPause (h : Kept W s) (ps) : Kept W (reqCtxPause ps s).1 := by
  unfold Machine.reqCtxPause State.pauseCtx
  split
  · split
    · rename_i hs
      exact h.setCtx _ _ (by rw [hs]; rfl) rfl ⟨fun _ => ⟨by simp, by simp⟩, fun _ => ⟨.inl hs, rfl⟩⟩
    · rename_i hs
      exact h.setCtx _ _ (by rw [hs]) rfl ⟨fun _ => ⟨by simp, by simp⟩, fun _ => ⟨.inr hs, rfl⟩⟩
    all_goals exact h
  · exact h

theorem Kept.reqCtxResume (h : Kept W s) (ps) : Kept W (reqCtxResume ps s).1 := by
  unfold Machine.reqCtxResume State.resumeCtx
  split
  · split
    · rename_i hs
      refine Kept.testSynced ?_ _
      exact h.setCtx _ _ (by rw [hs]; rfl) (by rfl) ⟨fun _ => ⟨by simp, by simp⟩, fun _ => ⟨.inr hs, rfl⟩⟩
    · exact h
  · exact h

theorem Kept.reqStopPoint (h : Kept W s) (ps) : Kept W (reqStopPoint ps s).1 := by
  unfold Machine.reqStopPoint State.setStop
  repeat' split
  all_goals first | exact h | exact h.setCtx _ _ (by rfl) (by rfl)

theorem Kept.endCtx (h : Kept W s) (c o) : Kept W (s.endCtx c o) := by
  have h1 := h.butOwners.release_end c (Ctx.ended o) rfl
  have h2 : Kept (Invariant.ButOwners W) (((s.release c).modCtx c (Ctx.ended o)).dropGapsOf c) :=
    h1.ops (quiet_dropGapsOf _ _) (trims_dropGapsOf _ _) (fun w => wired_of_tables w rfl rfl)
  refine Kept.andOwners h2 (fun a g hg => ?_)
  obtain ⟨h0, -, ho, -⟩ := released_release c s
  obtain ⟨hg, hgc⟩ := List.mem_filter.1 hg
  have hgc : g.ctx ≠ c := by simpa using hgc
  unfold State.endCtx
  rw [modCtx_eq, ctx_setCtx, if_neg (Ne.symm hgc)]
  show ((s.release c).ctx g.ctx).state ≠ _ ∧ ((s.release c).ctx g.ctx).state ≠ _
  rw [ho _ hgc]
  rw [h0] at hg
  exact h.ow a g hg

theorem Kept.reqCtxAbort (h : Kept W s) (ps) : Kept W (reqCtxAbort ps s).1 := by
  unfold Machine.reqCtxAbort State.abortCtx
  repeat' split
  all_goals first | exact h | exact (h.sendDeferred _ _ _).endCtx _ _

theorem Kept.reqCtxClose (h : Kept W s) (ps) : Kept W (reqCtxClose ps s).1 := by
  unfold Machine.reqCtxClose State.closeCtx
  repeat' split
  all_goals first | exact h | exact h.endCtx _ _

theorem Kept.reqCtxCutover (h : Kept W s) (x) : Kept W (reqCtxCutover x s).1 := by
  unfold Machine.reqCtxCutover State.cutover
  split
  · split
    · exact h
    split
    · exact h
    split
    · rename_i c _ hs hgp _
      have hs' : (s.ctx c).state = .synced := by simpa using hs
      have h1 : Kept W (s.modCtx c (fun y => { y with deferred := some x.tag })) := h.setCtx c _ (by rfl) (by rfl)
      refine h1.ops (quiet_enterCutting _ _) (trims_enterCutting _ _ (no_gaps (s := s) (List.isEmpty_iff.2 (not_not.1 hgp)))) (fun w => wired_enterCutting w c ?_)
      rw [modCtx_eq, ctx_setCtx_same]; show (s.ctx c).state.isLive = true; rw [hs']; rfl
    · exact h
  · exact h

theorem Kept.reqGapWaive (h : Kept W s) (ps) : Kept W (reqGapWaive ps s).1 := by
  unfold Machine.reqGapWaive State.waive
  split
  · split
    · exact h
    split
    · exact h.ops (quiet_dropGapsOf _ _) (trims_dropGapsOf _ _) (fun w => wired_of_tables w rfl rfl)
    · split
      · exact h.ops (quiet_dropGap _ _ _ _) (trims_dropGap _ _ _ _) (fun w => wired_of_tables w rfl rfl)
      · exact h
  · exact h

theorem Kept.reqSpareDrop (h : Kept W s) (ps) : Kept W (reqSpareDrop ps s).1 := by
  unfold Machine.reqSpareDrop State.dropMap
  split
  · split
    · exact h
    · exact h.ops (quiet_setSpareMap _ _ _) (trims_clearMap _ _) (fun w => wired_of_tables w rfl rfl)
  · exact h

theorem Kept.sendOpened (h : Kept W s) : Kept W s.sendOpened := h.ops (quiet_sendOpened _) (trims_sendOpened _) (fun w => wired_sendOpened w)

theorem Kept.slotReq (h : Kept W s) (ps) : Kept W (reqSlotRetry ps s).1 := by
  unfold reqSlotRetry State.retrySlot
  split
  · split
    · rename_i hs; exact h.modSame _ _ rfl rfl rfl (fun _ => by rw [hs]; simp) (fun _ _ => rfl) (.inr (Nat.zero_le _))
    · rename_i hs; exact h.modSame _ _ rfl rfl rfl (fun _ => by rw [hs]; simp) (fun _ _ => rfl) (.inr (Nat.zero_le _))
    all_goals exact h
  · exact h

theorem Kept.haltReq (h : Kept W s) (ps) : Kept W (reqSlotHalt ps s).1 := by
  unfold reqSlotHalt State.haltSlot
  repeat' split
  all_goals first | exact h | exact h.goHalted _ _ _

theorem next_inj {s t : State} (h : (Host.Outcome.next s : Host.Outcome State Fault Refusal) = .next t) : s = t := by injection h

end Sys2Proof.Machine
end

