-- ==== Sys2Proof/Laws/Placing.lean ====
section
/-! SUPPORT. Claims taken together or not at all: what is placed, and when nothing is, for STOREs and FILLs on several queues and for the parts of one FETCH (R14, R16, R51, R52, R54). -/

namespace Sys2Proof.Machine

variable {s : State}

theorem slot_placed (s : State) (q : SlotId → List QTxn) (k : SlotId) : (s.placed q).slot k = s.queued k (q k) := by
  simp [State.placed, State.slot]

/-- A claim that the queue has no room for, whatever it brings. -/
theorem enqueueAll_fits {p q : SlotPort} {cs : List ClaimTxn} (h : p.enqueueAll cs = some q) (hc : cs ≠ []) :
    p.queue.length + cs.length ≤ Config.slotQueueDepth := by
  induction cs generalizing p with
  | nil => exact absurd rfl hc
  | cons c cs ih =>
    unfold SlotPort.enqueueAll at h
    split at h
    · cases h
    · rename_i r hr
      obtain ⟨h1, -, x, h3, -⟩ := enqueue_spec hr
      by_cases hn : cs = []
      · subst hn; simp; omega
      · have := ih h hn
        rw [h3] at this
        simp at this ⊢; omega

theorem claim_tooLong (s : State) (k : SlotId) (cs : List ClaimTxn) (hc : cs ≠ [])
    (h : Config.slotQueueDepth < (s.slot k).queue.length + cs.length) : s.claim k cs = none := by
  cases hx : s.claim k cs with
  | none => rfl
  | some t =>
    obtain ⟨-, q, hq, -⟩ := claim_spec hx
    have := enqueueAll_fits hq hc
    omega

/-- What a claim without pending entries places. -/
def ClaimTxn.asQueued (c : ClaimTxn) : QTxn := ⟨c.txn, c.mark⟩

theorem claim_plainAll (s : State) (k : SlotId) (cs : List ClaimTxn) (hr : s.isReady k = true) (hc : ∀ c ∈ cs, c.pend = none)
    (h : (s.slot k).queue.length + cs.length ≤ Config.slotQueueDepth) :
    s.claim k cs = some (s.setSlot k (s.queued k (cs.map ClaimTxn.asQueued))) :=
  claim_of_fits s k cs _ hr (enqueueAll_plain _ cs hc h)

/-- What a list of claims places on a slot's queue. -/
def queuesOf (l : List (SlotId × List ClaimTxn)) (k : SlotId) : List QTxn :=
  l.flatMap (fun x => if x.1 = k then x.2.map ClaimTxn.asQueued else [])

theorem queuesOf_absent {l : List (SlotId × List ClaimTxn)} {k : SlotId} (h : k ∉ l.map (·.1)) : queuesOf l k = [] := by
  unfold queuesOf
  rw [List.flatMap_eq_nil_iff]
  intro x hx
  rw [if_neg]
  rintro rfl
  exact h (List.mem_map_of_mem hx)

theorem placed_none (s : State) (q : SlotId → List QTxn) (h : ∀ k, q k = []) : s.placed q = s := by
  have : (s.placed q).slots = s.slots := by
    apply Vector.ext
    intro i hi
    have := slot_placed s q ⟨i, hi⟩
    unfold State.slot at this
    rw [h] at this
    simpa [State.queued, State.slot] using this
  show { s with slots := (s.placed q).slots } = s
  rw [this]

/-- Claims on different queues, each with room, are all taken. -/
theorem claimAll_placed (l : List (SlotId × List ClaimTxn)) : ∀ s : State, (l.map (·.1)).Nodup →
    (∀ x ∈ l, ∀ c ∈ x.2, c.pend = none) →
    (∀ x ∈ l, x.2 ≠ [] → s.isReady x.1 = true ∧ (s.slot x.1).queue.length + x.2.length ≤ Config.slotQueueDepth) →
    s.claimAll l = some (s.placed (queuesOf l)) := by
  induction l with
  | nil => exact fun s _ _ _ => by rw [placed_none s (queuesOf []) (fun _ => rfl)]; rfl
  | cons x l ih =>
    obtain ⟨k, cs⟩ := x
    intro s hn hp hr
    have hn' := (List.nodup_cons.1 (by simpa using hn : (k :: l.map (·.1)).Nodup))
    cases cs with
    | nil =>
      unfold State.claimAll
      rw [ih s hn'.2 (fun x hx => hp x (by simp [hx])) (fun x hx => hr x (by simp [hx]))]
      congr 2
      funext j
      unfold queuesOf
      simp
    | cons c cs =>
      obtain ⟨hk, hl⟩ := hr (k, c :: cs) (by simp) (by simp)
      unfold State.claimAll
      rw [claim_plainAll s k (c :: cs) hk (hp (k, c :: cs) (by simp)) hl]
      dsimp only
      generalize ht : s.setSlot k (s.queued k ((c :: cs).map ClaimTxn.asQueued)) = t
      have hne : ∀ x ∈ l, x.1 ≠ k := fun x hx h => hn'.1 (h ▸ List.mem_map_of_mem hx)
      rw [ih t hn'.2 (fun x hx => hp x (by simp [hx])) (fun x hx h => by
        have := hr x (by simp [hx]) h
        rw [← ht]
        unfold State.isReady at *
        rw [slot_setSlot, if_neg (Ne.symm (hne x hx))]
        exact this)]
      congr 1
      have hsl : ∀ j, (t.placed (queuesOf l)).slot j = (s.placed (queuesOf ((k, c :: cs) :: l))).slot j := by
        intro j
        rw [slot_placed, slot_placed, ← ht]
        unfold State.queued
        rw [slot_setSlot]
        by_cases hj : k = j
        · subst hj
          rw [if_pos rfl, queuesOf_absent hn'.1]
          unfold queuesOf at *
          have hz : l.flatMap (fun x => if x.1 = k then x.2.map ClaimTxn.asQueued else []) = [] := queuesOf_absent hn'.1
          simp only [List.flatMap_cons, if_pos, hz, List.append_nil]
        · rw [if_neg hj]
          unfold queuesOf
          simp only [List.flatMap_cons, if_neg hj, List.nil_append]
      have : (t.placed (queuesOf l)).slots = (s.placed (queuesOf ((k, c :: cs) :: l))).slots := by
        apply Vector.ext
        intro i hi
        exact hsl ⟨i, hi⟩
      have e1 : t.placed (queuesOf l) = { s with slots := (t.placed (queuesOf l)).slots } := by rw [← ht]; rfl
      rw [e1, this]; rfl

/-- One claim without room, and none is taken. -/
theorem claimAll_tooLong (l : List (SlotId × List ClaimTxn)) : ∀ s : State, (l.map (·.1)).Nodup →
    (∃ x ∈ l, x.2 ≠ [] ∧ Config.slotQueueDepth < (s.slot x.1).queue.length + x.2.length) → s.claimAll l = none := by
  induction l with
  | nil => rintro s - ⟨x, hx, -⟩; cases hx
  | cons y l ih =>
    obtain ⟨k, cs⟩ := y
    intro s hn ⟨x, hx, hc, hl⟩
    have hn' := (List.nodup_cons.1 (by simpa using hn : (k :: l.map (·.1)).Nodup))
    cases cs with
    | nil =>
      unfold State.claimAll
      rcases List.mem_cons.1 hx with rfl | hx
      · exact absurd rfl hc
      · exact ih s hn'.2 ⟨x, hx, hc, hl⟩
    | cons c cs =>
      unfold State.claimAll
      rcases List.mem_cons.1 hx with rfl | hx
      · rw [claim_tooLong s k (c :: cs) hc hl]
      · cases hcl : s.claim k (c :: cs) with
        | none => rfl
        | some t =>
          dsimp only
          obtain ⟨-, q, -, rfl⟩ := claim_spec hcl
          refine ih _ hn'.2 ⟨x, hx, hc, ?_⟩
          have hk : k ≠ x.1 := fun h => hn'.1 (by rw [h]; exact List.mem_map_of_mem hx)
          rw [slot_setSlot, if_neg hk]
          exact hl

/-! ### The claims of a STORE or FILL -/

/-- What the claims for a primary and a twin place on each queue. -/
theorem queuesOf_claimsFor (s : State) (e : SteerEntry) (f : Run → ClaimTxn) (a b : List Piece)
    (hl : e.primary.isSome = true → e.primary ≠ e.twin) (k : SlotId) :
    queuesOf (s.claimsFor e f a b) k =
      if e.primary = some k then (s.runsFor k e.view a).map (fun r => (f r).asQueued)
      else if e.twin = some k then (s.runsFor k e.view.other b).map (fun r => (f r).asQueued)
      else [] := by
  unfold State.claimsFor queuesOf
  cases hp : e.primary with
  | none =>
    cases ht : e.twin with
    | none => rfl
    | some j =>
      by_cases hj : j = k
      · subst hj; simp [Function.comp_def]
      · simp [hj]
  | some i =>
    rw [hp] at hl
    by_cases hi : i = k
    · subst hi
      cases ht : e.twin with
      | none => simp [Function.comp_def]
      | some j =>
        have : j ≠ i := fun h => hl rfl (by rw [ht, h])
        simp [Function.comp_def, this]
    · cases ht : e.twin with
      | none => simp [hi]
      | some j =>
        by_cases hj : j = k
        · subst hj; simp [hi, Function.comp_def]
        · simp [hi, hj]

theorem claimsFor_nodup (s : State) (e : SteerEntry) (f : Run → ClaimTxn) (a b : List Piece)
    (hl : e.primary.isSome = true → e.primary ≠ e.twin) : ((s.claimsFor e f a b).map (·.1)).Nodup := by
  unfold State.claimsFor
  cases hp : e.primary with
  | none => cases e.twin <;> simp
  | some i =>
    rw [hp] at hl
    cases ht : e.twin with
    | none => simp
    | some j =>
      have : i ≠ j := fun h => hl rfl (by rw [ht, h])
      simpa using this

/-- The claims of a STORE or FILL, all taken where every queue that receives any of them has room. -/
theorem claimAll_claimsFor (s : State) (e : SteerEntry) (f : Run → ClaimTxn) (a b : List Piece)
    (hl : e.primary.isSome = true → e.primary ≠ e.twin) (hf : ∀ r, (f r).pend = none)
    (ha : a ≠ [] → ∀ k, e.primary = some k → s.isReady k = true) (hb : b ≠ [] → ∀ k, e.twin = some k → s.isReady k = true)
    (hroom : ∀ k, queuesOf (s.claimsFor e f a b) k ≠ [] →
      (s.slot k).queue.length + (queuesOf (s.claimsFor e f a b) k).length ≤ Config.slotQueueDepth) :
    s.claimAll (s.claimsFor e f a b) = some (s.placed (queuesOf (s.claimsFor e f a b))) := by
  have key : ∀ x ∈ s.claimsFor e f a b, queuesOf (s.claimsFor e f a b) x.1 = x.2.map ClaimTxn.asQueued := by
    intro x hx
    rw [queuesOf_claimsFor s e f a b hl]
    unfold State.claimsFor at hx
    rcases List.mem_append.1 hx with hx | hx
    · split at hx
      · rename_i k hk
        rw [List.mem_singleton.1 hx, if_pos hk, List.map_map]; rfl
      · cases hx
    · split at hx
      · rename_i k hk
        rw [List.mem_singleton.1 hx, if_neg, if_pos hk, List.map_map]
        · rfl
        · intro h; exact hl (by rw [h]; rfl) (by rw [h, hk])
      · cases hx
  refine claimAll_placed _ s (claimsFor_nodup s e f a b hl) ?_ ?_
  · intro x hx c hc
    unfold State.claimsFor at hx
    rcases List.mem_append.1 hx with hx | hx
    all_goals
      split at hx
      · rw [List.mem_singleton.1 hx] at hc
        obtain ⟨r, -, rfl⟩ := List.mem_map.1 hc
        exact hf r
      · cases hx
  · intro x hx hne
    have hk := key x hx
    have hr := hroom x.1 (by rw [hk]; simpa using hne)
    rw [hk, List.length_map] at hr
    refine ⟨?_, hr⟩
    unfold State.claimsFor at hx
    rcases List.mem_append.1 hx with hx | hx
    · split at hx
      · rename_i k hp
        rw [List.mem_singleton.1 hx] at hne ⊢
        refine ha ?_ k hp
        rintro rfl; exact hne rfl
      · cases hx
    · split at hx
      · rename_i k hp
        rw [List.mem_singleton.1 hx] at hne ⊢
        refine hb ?_ k hp
        rintro rfl; exact hne rfl
      · cases hx

/-- The claims of a STORE or FILL, none taken where a queue lacks room. -/
theorem claimAll_claimsFor_none (s : State) (e : SteerEntry) (f : Run → ClaimTxn) (a b : List Piece)
    (hl : e.primary.isSome = true → e.primary ≠ e.twin)
    (h : ∃ k, queuesOf (s.claimsFor e f a b) k ≠ [] ∧
      Config.slotQueueDepth < (s.slot k).queue.length + (queuesOf (s.claimsFor e f a b) k).length) :
    s.claimAll (s.claimsFor e f a b) = none := by
  obtain ⟨k, h1, h2⟩ := h
  refine claimAll_tooLong _ s (claimsFor_nodup s e f a b hl) ?_
  rw [queuesOf_claimsFor s e f a b hl] at h1 h2
  unfold State.claimsFor
  by_cases hp : e.primary = some k
  · rw [if_pos hp] at h1 h2
    refine ⟨(k, (s.runsFor k e.view a).map f), ?_, ?_, ?_⟩
    · rw [hp]; simp
    · intro h; exact h1 (by simpa using h)
    · simpa using h2
  · rw [if_neg hp] at h1 h2
    by_cases ht : e.twin = some k
    · rw [if_pos ht] at h1 h2
      refine ⟨(k, (s.runsFor k e.view.other b).map f), ?_, ?_, ?_⟩
      · rw [ht]; simp
      · intro h; exact h1 (by simpa using h)
      · simpa using h2
    · rw [if_neg ht] at h1; exact absurd rfl h1

/-! ### Claims with pending entries: the parts of a FETCH (R16, R54) -/

/-- What a claim with a pending entry places, under the entry's index as its tag (R16). -/
def ClaimTxn.tagged (c : ClaimTxn) (i : PendIdx) : QTxn := ⟨{ c.txn with tag := BitVec.ofNat 8 i }, c.mark⟩

/-- A pending reply table once claims have taken entries of it. -/
def entriesTaken (v : Vector (Option PendEntry) 64) (cs : List ClaimTxn) (is : List PendIdx) : Vector (Option PendEntry) 64 :=
  (cs.zip is).foldl (fun v x => v.set x.2 x.1.pend) v

theorem entriesTaken_cons (v : Vector (Option PendEntry) 64) (c : ClaimTxn) (cs : List ClaimTxn) (i : PendIdx)
    (is : List PendIdx) : entriesTaken v (c :: cs) (i :: is) = entriesTaken (v.set i c.pend) cs is := rfl

theorem entriesTaken_other (cs : List ClaimTxn) (is : List PendIdx) :
    ∀ (v : Vector (Option PendEntry) 64) (i : PendIdx), i ∉ is → (entriesTaken v cs is)[i] = v[i] := by
  induction cs generalizing is with
  | nil => exact fun v i _ => rfl
  | cons c cs ih =>
    intro v i hi
    cases is with
    | nil => rfl
    | cons j is =>
      rw [entriesTaken_cons, ih is _ i (fun h => hi (by simp [h]))]
      have : (j : Nat) ≠ i := fun h => hi (by simp [Fin.ext h])
      simp [this]

theorem entriesTaken_at (cs : List ClaimTxn) (is : List PendIdx) (hn : is.Nodup) :
    ∀ (v : Vector (Option PendEntry) 64) (n : Nat) (c : ClaimTxn) (i : PendIdx), cs[n]? = some c → is[n]? = some i →
      (entriesTaken v cs is)[i] = c.pend := by
  induction cs generalizing is with
  | nil => intro v n c i h; simp at h
  | cons d cs ih =>
    intro v n c i hc hi
    cases is with
    | nil => simp at hi
    | cons j is =>
      rw [entriesTaken_cons]
      obtain ⟨h1, h2⟩ := List.nodup_cons.1 hn
      cases n with
      | zero =>
        simp only [List.getElem?_cons_zero, Option.some.injEq] at hc hi
        subst hc; subst hi
        rw [entriesTaken_other cs is _ j h1]; simp
      | succ n => exact ih is h2 _ n c i (by simpa using hc) (by simpa using hi)

/-- The lowest FREE entry is the one that a claim takes. -/
theorem freeEntry?_eq {p : SlotPort} {i : PendIdx} (h : p.pend[i] = none) (hl : ∀ j : PendIdx, p.pend[j] = none → i ≤ j) :
    p.freeEntry? = some i := by
  unfold SlotPort.freeEntry?
  rw [List.find?_eq_some_iff_getElem]
  refine ⟨by simpa using h, i.val, by simp, by simp, fun j hj => ?_⟩
  simp only [List.getElem_finRange]
  rw [Bool.not_eq_true', ← Bool.not_eq_true, Option.isNone_iff_eq_none]
  intro hc
  have := hl ⟨j, by omega⟩ hc
  rw [Fin.le_def] at this
  dsimp only at this
  omega

/-- A claim of FETCHes fits when the queue has room for all and the table a FREE entry for each: the lowest ones are taken,
in order. -/
theorem enqueueAll_pends (cs : List ClaimTxn) : ∀ (p : SlotPort) (is : List PendIdx), (∀ c ∈ cs, c.pend.isSome = true) →
    is.length = cs.length → p.queue.length + cs.length ≤ Config.slotQueueDepth → is.Pairwise (· < ·) →
    (∀ i ∈ is, p.pend[i] = none) → (∀ j : PendIdx, p.pend[j] = none → j ∉ is → ∀ i ∈ is, i < j) →
    p.enqueueAll cs = some { p with
      queue := p.queue ++ List.zipWith ClaimTxn.tagged cs is, pend := entriesTaken p.pend cs is } := by
  induction cs with
  | nil => intro p is _ hl _ _ _ _; simp [SlotPort.enqueueAll, entriesTaken]
  | cons c cs ih =>
    intro p is hc hl hq ho hf hm
    cases is with
    | nil => simp at hl
    | cons i is =>
      obtain ⟨e, he⟩ := Option.isSome_iff_exists.1 (hc c (by simp))
      obtain ⟨ho1, ho2⟩ := List.pairwise_cons.1 ho
      have hi : p.freeEntry? = some i := by
        refine freeEntry?_eq (hf i (by simp)) (fun j hj => ?_)
        by_cases hji : j ∈ i :: is
        · rcases List.mem_cons.1 hji with rfl | h
          · exact le_refl _
          · exact le_of_lt (ho1 j h)
        · exact le_of_lt (hm j hj hji i (by simp))
      have h0 : p.enqueue c = some { p with
          queue := p.queue ++ [c.tagged i], pend := p.pend.set i c.pend } := by
        unfold SlotPort.enqueue
        rw [if_pos (by simp only [List.length_cons] at hq; omega), he]
        dsimp only
        rw [hi]; rfl
      have hne : ∀ j : PendIdx, j ≠ i → (p.pend.set i c.pend)[j] = p.pend[j] := fun j hj => by
        have : (i : Nat) ≠ j := fun h => hj (Fin.ext h.symm)
        simp [this]
      have hat : (p.pend.set i c.pend)[i] = c.pend := by simp
      unfold SlotPort.enqueueAll
      rw [h0]
      dsimp only
      rw [ih _ is (fun d hd => hc d (by simp [hd])) (by simpa using hl) (by simp at hq ⊢; omega) ho2
        (fun j hj => by dsimp only; rw [hne j (fun h => absurd (ho1 j hj) (by simp [h])), hf j (by simp [hj])])
        (fun j hj hn k hk => by
          dsimp only at hj
          have hji : j ≠ i := by rintro rfl; rw [hat, he] at hj; cases hj
          rw [hne j hji] at hj
          exact hm j hj (by simp [hji, hn]) k (by simp [hk]))]
      simp [entriesTaken_cons]

/-- A claim of FETCHes takes as many FREE entries as it brings transactions. -/
theorem enqueueAll_uses (cs : List ClaimTxn) : ∀ (p q : SlotPort), (∀ c ∈ cs, c.pend.isSome = true) →
    p.enqueueAll cs = some q → cs.length ≤ (List.finRange 64).countP (fun i : PendIdx => p.pend[i].isNone) := by
  induction cs with
  | nil => intro p q _ _; simp
  | cons c cs ih =>
    intro p q hc h
    unfold SlotPort.enqueueAll at h
    split at h
    · cases h
    · rename_i r hr
      obtain ⟨e, he⟩ := Option.isSome_iff_exists.1 (hc c (by simp))
      have h1 := ih r q (fun d hd => hc d (by simp [hd])) h
      unfold SlotPort.enqueue at hr
      split at hr
      · rw [he] at hr
        dsimp only at hr
        split at hr
        · cases hr
        · rename_i i hi
          cases hr
          dsimp only at h1
          have h2 : (List.finRange 64).countP (fun j : PendIdx => p.pend[j].isNone) =
              (List.finRange 64).countP (fun j : PendIdx => (p.pend.set i (some e))[j].isNone) + 1 := by
            have hm : i ∈ List.finRange 64 := List.mem_finRange i
            have hn := freeEntry?_spec hi
            have hp := List.perm_cons_erase hm
            rw [hp.countP_eq, hp.countP_eq, List.countP_cons_of_pos (by simp [hn]), List.countP_cons_of_neg (by simp)]
            refine congrArg (· + 1) (List.countP_congr (fun j hj => ?_))
            have hji : (i : Nat) ≠ j := fun h => ((List.nodup_finRange 64).mem_erase_iff.1 hj).1 (Fin.ext h.symm)
            simp [hji]
          simp only [List.length_cons]
          omega
      · cases hr

end Sys2Proof.Machine
end

