-- ==== Sys2Proof/Laws/Requests.lean ====
section
/-! SUPPORT. The envelope of a management request: what taking and answering it amounts to (R8, R69, R164, R165). -/

namespace Sys2Proof.Machine

variable {s : State} {t : Txn} {rest : List Txn}

theorem takeHead_of (h : s.intake = t :: rest) : s.takeHead = s.taken rest := by
  simp only [State.takeHead, State.pushGrant, State.taken, Txn.grantOf, h, List.tail_cons]

/-- R69: a FILL that becomes the head of intake is cut then. -/
theorem cutHead_fill {b : BoardId} (hf : s.fill = none) (hi : s.intake = t :: rest) (hk : t.kind = .fill) (hb : t.boardId = some b) :
    s.cutHead = { s with fill := some ⟨s.cut (s.entry b).layoutSet (s.entry b).view t.addr t.count, none⟩ } := by
  unfold State.cutHead; rw [hf, hi]; dsimp only; rw [hk, hb]

/-- Any other head stands, and so does a FILL that was cut before. -/
theorem cutHead_stands (h : s.fill ≠ none ∨ ∀ t rest, s.intake = t :: rest → ¬ (t.kind = .fill ∧ ∃ b, t.boardId = some b)) :
    s.cutHead = s := by
  unfold State.cutHead
  split
  · rename_i t rest hi hf
    split
    · rename_i b hk hb
      exact h.elim (absurd hf) (fun h => absurd ⟨hk, b, hb⟩ (h t rest hi))
    · rfl
  · rfl

theorem unlessHeld_of (h : s.startup ≠ .held) (f : State → State) : s.unlessHeld f = f s := by
  unfold State.unlessHeld; rw [if_neg h]

/-- A head that the step takes: carried out on what is left, then answered. -/
theorem decode_of (hi : s.intake = t :: rest) (hk : t.kind = .mgmt) (mine : Txn → Bool) (hm : mine t = true)
    (body : Txn → State → State × Option Answer) :
    s.decode mine body = ((body t (s.taken rest)).1.answer t (body t (s.taken rest)).2).cutHead := by
  rw [← takeHead_of hi]
  unfold State.decode
  rw [hi]
  simp only
  rw [if_pos ⟨hk, hm⟩]

/-- A request that is served and answered at once. -/
theorem serve_of {r : Request} (h : s.Requested r t rest) (body : List Nat → State → State × Answer) :
    s.unlessHeld (fun s => s.serve r body) =
      (body t.params (s.taken rest)).1.replied t (body t.params (s.taken rest)).2.status
        (body t.params (s.taken rest)).2.words (body t.params (s.taken rest)).2.more := by
  obtain ⟨h1, h2, h3, h4⟩ := h
  rw [unlessHeld_of h1]
  unfold State.serve
  rw [decode_of h2 h3 _ (by simp [h4])]
  rfl

/-- A READ-STATE of an object that the step reads: answered, with nothing changed. -/
theorem read_of (h : s.Requested .readState t rest) (o : Object) (hp : o.takes t.params = true)
    (view : State → Nat → Nat → Option Answer) (a : Answer)
    (ha : (match o.operands t.params with
      | some (i, p) => (view (s.taken rest) i p).getD .badArgument
      | none => .badArgument) = a) :
    s.unlessHeld (fun s => s.read o view) = (s.taken rest).replied t a.status a.words a.more := by
  obtain ⟨h1, h2, h3, h4⟩ := h
  rw [unlessHeld_of h1]
  unfold State.read
  rw [decode_of h2 h3 _ (by simp [h4, hp])]
  subst ha; rfl

end Sys2Proof.Machine
end

