-- ==== Sys2Proof/Laws/Settling.lean ====
section
/-! SUPPORT. What comes with the pieces of a STORE or FILL at the take, said once: the counters, the gap records and the reports, each by itself (R49, R120 to R122, R136). -/

namespace Sys2Proof.Machine

/-! ### Counting -/

theorem satAdd_zero (c : Word) : satAdd c 0 = c := by
  unfold satAdd
  apply BitVec.eq_of_toNat_eq
  have := c.isLt
  simp; omega

theorem satAdd_satAdd (c : Word) (m n : Nat) : satAdd (satAdd c m) n = satAdd c (m + n) := by
  unfold satAdd
  apply BitVec.eq_of_toNat_eq
  have := c.isLt
  simp; omega

theorem GlobalCounters.after_nil (n : GlobalCounters) (e : SteerEntry) : n.after e [] = n := by
  unfold GlobalCounters.after
  simp [satAdd_zero]

theorem GlobalCounters.after_cons (n : GlobalCounters) (e : SteerEntry) (v : Verdict) (vs : List Verdict) :
    n.after e (v :: vs) = (n.after e [v]).after e vs := by
  unfold GlobalCounters.after
  simp only [List.countP_cons, List.countP_nil, satAdd_satAdd, Nat.zero_add]
  congr 2 <;> omega

/-! ### Global counters and gap records, set beside the rest -/

/-- A state with its global counters and gap list replaced. -/
def State.mended (s : State) (g : GlobalCounters) (p : List Gap) : State := { s with globals := g, gaps := p }

variable (s : State) (g : GlobalCounters) (p : List Gap)

theorem raise_mended (k : NoticeKind) (d : BitVec 8) : (s.mended g p).raise k d = (s.raise k d).mended g p := by
  unfold State.raise State.trySend
  have h : ((s.mended g p).setNotice k (((s.mended g p).notice k).occur d)).sendDue k =
      (s.setNotice k ((s.notice k).occur d)).sendDue k := rfl
  rw [h]
  split <;> rfl

theorem freeStagingOf_mended (fs : List Flight) : (s.mended g p).freeStagingOf fs = (s.freeStagingOf fs).mended g p := by
  unfold State.freeStagingOf
  induction fs generalizing s with
  | nil => rfl
  | cons f fs ih => exact ih (s.setStaging f.staging none)

theorem release_mended (c : CtxId) : (s.mended g p).release c = (s.release c).mended g p := by
  unfold State.release
  have h1 := freeStagingOf_mended s g p (s.ctx c).flights
  have h2 : ∀ u : State, (u.mended g p).releaseStale c = (u.releaseStale c).mended g p := fun u => by
    unfold State.releaseStale
    dsimp only
    have : ((u.mended g p).entry ((u.mended g p).ctx c).board) = u.entry (u.ctx c).board := rfl
    rw [this]
    split <;> rfl
  have h3 : ∀ u : State, (u.mended g p).disown c = (u.disown c).mended g p := fun _ => rfl
  show (((((s.mended g p).freeStagingOf (s.ctx c).flights).orphan c).modCtx c Ctx.released).releaseStale c).disown c = _
  rw [h1]
  show (((((s.freeStagingOf (s.ctx c).flights).orphan c).modCtx c Ctx.released).mended g p).releaseStale c).disown c = _
  rw [h2, h3]

theorem failCtx_mended (c : CtxId) (r : FailReason) : (s.mended g p).failCtx c r = (s.failCtx c r).mended g p := by
  unfold State.failCtx
  have h : ((s.mended g p).ctx c) = s.ctx c := rfl
  rw [h]
  split
  · rw [release_mended]
    have h1 : ((s.release c).mended g p).modCtx c (Ctx.fail r) = ((s.release c).modCtx c (Ctx.fail r)).mended g p := rfl
    rw [h1]
    generalize (s.release c).modCtx c (Ctx.fail r) = u
    have h2 : (u.mended g p).sendDeferred c .failed [BitVec.ofNat 32 r.code] =
        (u.sendDeferred c .failed [BitVec.ofNat 32 r.code]).mended g p := by
      unfold State.sendDeferred
      have : (u.mended g p).ctx c = u.ctx c := rfl
      rw [this]
      cases (u.ctx c).deferred <;> rfl
    rw [h2, raise_mended]
  · rfl

theorem addRevisit_mended (c : CtxId) (i : RegionId) (e : Nat) :
    (s.mended g p).addRevisit c i e = ((s.addRevisit c i e).1.mended g p, (s.addRevisit c i e).2) := by
  unfold State.addRevisit
  dsimp only
  have h : ((s.mended g p).ctx c) = s.ctx c := rfl
  rw [h]
  split
  · rfl
  · cases (s.ctx c).extendRevisit i e with
    | some l => rfl
    | none =>
      have h1 : (s.mended g p).freeRange? = s.freeRange? := rfl
      rw [h1]
      cases s.freeRange? with
      | some n => rfl
      | none =>
        dsimp only
        unfold State.exhausted
        rw [h]
        split
        · rw [← raise_mended]; rfl
        · rw [failCtx_mended]

/-! ### One piece, and all of them -/

variable {s}

theorem report_regions (e : SteerEntry) (x : State × Bool) (v : Verdict) : (e.report x v).1.regions = x.1.regions := by
  unfold SteerEntry.report
  split
  · exact (quiet_raise _ _ _).regions
  · split
    · split
      · exact (quiet_addRevisit _ _ _ _).regions
      · rfl
    · rfl

theorem settlePiece_mended (e : SteerEntry) (v : Verdict) (x : State) (st : Bool) (hr : x.regions = s.regions) :
    State.settlePiece e (x.mended g p, st) v =
      ((e.report (x, st) v).1.mended (g.after e [v]) (p.filter (fun q => !v.repairs s e q)), (e.report (x, st) v).2) := by
  -- the counters
  have hc : ∀ u : State, ∀ g : GlobalCounters, (((u.mended g p).countWithheld e v).countUncovered v) = u.mended
      { g with
        padWrites := satAdd g.padWrites ([v].countP (fun x => (e.twinState == .building || e.twinState == .twinned) && x.piece.kind == .pad))
        unmappedStores := satAdd g.unmappedStores
          ([v].countP (fun x => (e.twinState == .building || e.twinState == .twinned) && x.piece.kind == .outside))
        uncoveredStores := satAdd g.uncoveredStores ([v].countP (fun x => x.cls == some .uncovered)) } p := by
    intro u g
    have h1 : (u.mended g p).countWithheld e v = u.mended { g with
        padWrites := satAdd g.padWrites ([v].countP (fun x => (e.twinState == .building || e.twinState == .twinned) && x.piece.kind == .pad))
        unmappedStores := satAdd g.unmappedStores
          ([v].countP (fun x => (e.twinState == .building || e.twinState == .twinned) && x.piece.kind == .outside)) } p := by
      unfold State.countWithheld
      cases ht : e.twinState <;> cases hk : v.piece.kind <;>
        simp only [List.countP_cons, List.countP_nil, hk] <;> simp [satAdd_zero] <;> rfl
    rw [h1]
    unfold State.countUncovered
    by_cases hu : v.cls = some .uncovered
    · rw [if_pos hu]; simp [hu]; rfl
    · rw [if_neg hu]; simp [hu, satAdd_zero]
  -- the gap records
  have hg : ∀ u : State, u.regions = s.regions → ∀ g : GlobalCounters, (u.mended g p).reportGap e v =
      u.mended g (p.filter (fun q => !v.repairs s e q)) := by
    intro u hu g
    have all : ∀ P : Prop, (∀ q, v.repairs s e q = false) → u.mended g p = u.mended g (p.filter (fun q => !v.repairs s e q)) := by
      intro _ h
      rw [List.filter_eq_self.2 (fun q _ => by rw [h q]; rfl)]
    unfold State.reportGap
    cases hb : e.bound with
    | none => exact all True (fun q => by unfold Verdict.repairs; rw [hb]; simp)
    | some c =>
      cases hi : v.piece.region with
      | none => exact all True (fun q => by unfold Verdict.repairs; rw [hi]; simp)
      | some i =>
        have hcov : (u.mended g p).coversEntry v.piece =
            ((v.piece.offset == 0) && (s.region i).any (fun r => v.piece.len == r.width)) := by
          unfold State.coversEntry
          rw [hi]
          have : (u.mended g p).region i = s.region i := by unfold State.region State.mended; dsimp only; rw [hu]
          dsimp only
          rw [this]
          cases s.region i <;> simp
        have hm : v.cls.any Class.isMirror = (v.cls == some .mirrorMode || v.cls == some .walked) := by
          cases v.cls with
          | none => rfl
          | some x => cases x <;> rfl
        dsimp only
        rw [hcov, hm]
        split
        · rename_i h
          simp only [Bool.and_eq_true] at h
          unfold State.dropGap State.mended
          congr 1
          refine List.filter_congr fun q _ => ?_
          obtain ⟨qc, qr, qe⟩ := q
          unfold Verdict.repairs
          rw [hb, hi]
          by_cases h2 : i = qr
          · subst h2
            rw [h.1.2, h.1.1, h.2.1, h.2.2]
            by_cases h1 : c = qc
            · by_cases h3 : v.piece.entry = qe
              · subst h1 h3; simp
              · simp [h3, Ne.symm h3]
            · simp [h1, Ne.symm h1]
          · simp [h2, Ne.symm h2]
        · rename_i h
          refine all True (fun q => ?_)
          unfold Verdict.repairs
          rw [hb, hi]
          by_cases h2 : i = q.region
          · subst h2
            revert h
            cases v.twin <;> cases (v.cls == some .mirrorMode || v.cls == some .walked) <;> cases (v.piece.offset == 0) <;>
              cases (s.region q.region).any (fun r => v.piece.len == r.width) <;> simp
          · simp [h2]
  unfold State.settlePiece
  dsimp only
  by_cases hd : v.discarded = true
  · have h0 : (v.primary || v.twin) = false := by
      unfold Verdict.discarded at hd; revert hd; cases v.primary <;> cases v.twin <;> simp
    have h1 : (x.mended g p).countDiscard e v = (x.raise .noBoardTraffic e.discardDetail).mended g.addDiscard p := by
      unfold State.countDiscard
      rw [h0, if_neg (by simp)]
      exact raise_mended x g.addDiscard p _ _
    have h2 : e.report (x, st) v = (x.raise .noBoardTraffic e.discardDetail, st) := by
      unfold SteerEntry.report
      rw [if_pos hd]
      have : (e.primary.map (fun k => BitVec.ofNat 8 k)).getD (255 : BitVec 8) = e.discardDetail := by
        unfold SteerEntry.discardDetail; cases e.primary <;> rfl
      rw [this]
    rw [h1, hc, hg _ (by rw [(quiet_raise x _ _).regions, hr]), h2]
    have h3 : v.primary = false := by revert h0; cases v.primary <;> simp
    have h4 : ∀ u : State, u.reportRevisit e v st = (u, st) := fun u => by
      unfold State.reportRevisit
      cases e.bound <;> cases v.piece.region <;> simp [h3]
    rw [h4]
    unfold GlobalCounters.after GlobalCounters.addDiscard
    simp [hd]
  · have h0 : (v.primary || v.twin) = true := by
      unfold Verdict.discarded at hd; revert hd; cases v.primary <;> cases v.twin <;> simp
    have h1 : (x.mended g p).countDiscard e v = x.mended g p := by unfold State.countDiscard; rw [if_pos h0]
    rw [h1, hc, hg _ hr]
    have h5 : g.after e [v] = { g with
        padWrites := satAdd g.padWrites ([v].countP (fun x => (e.twinState == .building || e.twinState == .twinned) && x.piece.kind == .pad))
        unmappedStores := satAdd g.unmappedStores
          ([v].countP (fun x => (e.twinState == .building || e.twinState == .twinned) && x.piece.kind == .outside))
        uncoveredStores := satAdd g.uncoveredStores ([v].countP (fun x => x.cls == some .uncovered)) } := by
      unfold GlobalCounters.after
      simp [hd, satAdd_zero]
    rw [← h5]
    unfold State.reportRevisit SteerEntry.report
    rw [if_neg hd]
    cases e.bound with
    | none => rfl
    | some c =>
      cases v.piece.region with
      | none => rfl
      | some i =>
        dsimp only
        split
        · exact addRevisit_mended x _ _ c i _
        · rfl

theorem settlePieces_mended (e : SteerEntry) (vs : List Verdict) : ∀ (x : State) (st : Bool) (g : GlobalCounters) (p : List Gap),
    x.regions = s.regions → vs.foldl (State.settlePiece e) (x.mended g p, st) =
      ((vs.foldl e.report (x, st)).1.mended (g.after e vs) (p.filter (fun q => !vs.any (fun v => v.repairs s e q))),
        (vs.foldl e.report (x, st)).2) := by
  induction vs with
  | nil =>
    intro x st g p _
    rw [GlobalCounters.after_nil]
    simp
  | cons v vs ih =>
    intro x st g p hx
    rw [List.foldl_cons, settlePiece_mended g p e v x st hx, ih _ _ _ _ ((report_regions e (x, st) v).trans hx),
      ← GlobalCounters.after_cons, List.foldl_cons, List.filter_filter]
    simp only [List.any_cons, Bool.not_or, Bool.and_comm]

/-- The side effects of pieces, once and for all. -/
theorem settlePieces_eq (s : State) (e : SteerEntry) (vs : List Verdict) : s.settlePieces e vs = s.settled e vs := by
  have h := settlePieces_mended (s := s) e vs s false s.globals s.gaps rfl
  unfold State.settlePieces
  have : (s, false) = (s.mended s.globals s.gaps, false) := rfl
  rw [this, h]
  rfl

end Sys2Proof.Machine
end

