-- ==== Sys2Proof/Laws/Shedding.lean ====
section
/-! SUPPORT. What a slot's departure from READY does to the steering table beside the release of the entries of contexts that fail: the reaction of R58 and R59, and nothing more. -/

namespace Sys2Proof.Machine

/-- The two kinds that the Steering Unit's reaction raises (R58, R59). -/
def NoticeKind.Steers (n : NoticeKind) : Prop := n = .autoSwap ∨ n = .twinStale

/-- No entry moves but a BUILDING one whose context fails, neither kind of the Steering Unit's reaction is raised, and every slot
stays as READY as it was. -/
structure State.Sheds (s t : State) : Prop where
  entry : ∀ b, t.entry b = s.entry b ∨ ∃ c, (s.entry b).twinState = .building ∧ (s.entry b).bound = some c ∧
    (s.ctx c).board = b ∧ (s.ctx c).state ≠ .failed ∧ (t.ctx c).state = .failed ∧
      t.entry b = { s.entry b with twinState := .stale, bound := none }
  ctx : ∀ c, (t.ctx c).board = (s.ctx c).board ∧ ((s.ctx c).state = .failed → (t.ctx c).state = .failed)
  notice : ∀ n : NoticeKind, n.Steers → t.notice n = s.notice n
  level : t.levels = s.levels ∧ t.floor = s.floor
  ready : ∀ j, t.isReady j = s.isReady j

theorem State.Sheds.refl (s : State) : s.Sheds s := ⟨fun _ => .inl rfl, fun _ => ⟨rfl, id⟩, fun _ _ => rfl, ⟨rfl, rfl⟩, fun _ => rfl⟩

theorem State.Sheds.trans {s t u : State} (h : s.Sheds t) (g : t.Sheds u) : s.Sheds u where
  entry b := by
    rcases h.entry b with e | ⟨c, h1, h2, h3, h4, h5, h6⟩
    · rcases g.entry b with f | ⟨c, g1, g2, g3, g4, g5, g6⟩
      · exact .inl (f.trans e)
      · rw [e] at g1 g2 g6
        exact .inr ⟨c, g1, g2, (h.ctx c).1.symm.trans g3, fun a => g4 ((h.ctx c).2 a), g5, g6⟩
    · rcases g.entry b with f | ⟨d, g1, -⟩
      · exact .inr ⟨c, h1, h2, h3, h4, (g.ctx c).2 h5, f.trans h6⟩
      · rw [h6] at g1; cases g1
  ctx c := ⟨(g.ctx c).1.trans (h.ctx c).1, fun a => (g.ctx c).2 ((h.ctx c).2 a)⟩
  notice n hn := (g.notice n hn).trans (h.notice n hn)
  level := ⟨g.level.1.trans h.level.1, g.level.2.trans h.level.2⟩
  ready j := (g.ready j).trans (h.ready j)

theorem State.Sheds.foldl {α : Type} (f : State → α → State) (hf : ∀ (s : State) a, s.Sheds (f s a)) (l : List α) (s : State) :
    s.Sheds (l.foldl f s) := by
  induction l generalizing s with
  | nil => exact .refl s
  | cons a l ih => exact (hf s a).trans (ih (f s a))

/-- An operation on other blocks. -/
theorem State.Sheds.of_tables {s t : State} (h1 : t.steer = s.steer) (h2 : t.ctxs = s.ctxs) (h3 : t.notices = s.notices)
    (h4 : t.levels = s.levels) (h5 : t.floor = s.floor) (h6 : t.slots = s.slots) : s.Sheds t :=
  ⟨fun b => .inl (by unfold State.entry; rw [h1]), fun c => by unfold State.ctx; rw [h2]; exact ⟨rfl, id⟩,
    fun n _ => by unfold State.notice; rw [h3], ⟨h4, h5⟩, fun j => by unfold State.isReady State.slot; rw [h6]⟩

variable (s : State)

/-! ### Occurrences (R176) -/

theorem notice_raise_eq (k j : NoticeKind) (d : BitVec 8) : (s.raise k d).notice j =
    if k = j then
      if (s.notice k).sent = false ∧ (s.notice k).mask = false ∧ s.floor < s.levelOf k then { (s.notice k).occur d with sent := true }
      else (s.notice k).occur d
    else s.notice j := by
  have hd : (s.setNotice k ((s.notice k).occur d)).sendDue k = true ↔
      (s.notice k).sent = false ∧ (s.notice k).mask = false ∧ s.floor < s.levelOf k := by
    unfold State.sendDue State.isOpen
    rw [notice_setNotice_same]
    show (true && !(s.notice k).sent && (!(s.notice k).mask && decide (s.floor < s.levelOf k))) = true ↔ _
    simp
  unfold State.raise State.trySend
  by_cases h : (s.setNotice k ((s.notice k).occur d)).sendDue k = true
  · rw [if_pos h]
    unfold State.sendNotice
    rw [notice_setNotice, notice_setNotice_same, if_pos (hd.1 h)]
    show (if k = j then _ else (s.setNotice k ((s.notice k).occur d)).notice j) = _
    rw [notice_setNotice]
    split <;> rfl
  · rw [if_neg h, if_neg (fun a => h (hd.2 a)), notice_setNotice]

theorem sheds_raise {n : NoticeKind} (hn : ¬ n.Steers) (d : BitVec 8) : s.Sheds (s.raise n d) := by
  have h := raise_eq s n d
  refine ⟨fun b => .inl (by rw [h]; rfl), fun c => by rw [h]; exact ⟨rfl, id⟩, fun m hm => ?_, by rw [h]; exact ⟨rfl, rfl⟩,
    fun j => by rw [h]; rfl⟩
  rw [notice_raise_eq, if_neg (show n ≠ m from fun e => hn (e ▸ hm))]

/-- The same occurrence on two states that agree on the records of the Steering Unit's kinds. -/
theorem notice_raise_congr {t : State} (hn : ∀ n : NoticeKind, n.Steers → t.notice n = s.notice n)
    (hl : t.levels = s.levels ∧ t.floor = s.floor) {k : NoticeKind} (hk : k.Steers) (d : BitVec 8) (n : NoticeKind) (h : n.Steers) :
    (t.raise k d).notice n = (s.raise k d).notice n := by
  rw [notice_raise_eq, notice_raise_eq, hn k hk, hn n h]
  unfold State.levelOf
  rw [hl.1, hl.2]

/-! ### Contexts that fail, or are told of a loss (R95, R114, R156 to R158) -/

theorem sheds_setCtx (c : CtxId) (x : Ctx) (hb : x.board = (s.ctx c).board) (hs : (s.ctx c).state = .failed → x.state = .failed) :
    s.Sheds (s.setCtx c x) :=
  ⟨fun _ => .inl rfl, fun d => by
    rw [ctx_setCtx]; split
    · rename_i e; subst e; exact ⟨hb, hs⟩
    · exact ⟨rfl, id⟩, fun _ _ => rfl, ⟨rfl, rfl⟩, fun _ => rfl⟩

theorem sheds_failCtx (c : CtxId) (r : FailReason) : s.Sheds (s.failCtx c r) := by
  by_cases hl : (s.ctx c).state.isLive = true
  · have h := failCtx_spec s c r hl
    have q := quiet_failCtx s c r
    have hx : ∀ d, ((s.failCtx c r).ctx d).board = (s.ctx d).board ∧
        ((s.ctx d).state = .failed → ((s.failCtx c r).ctx d).state = .failed) := fun d => by
      by_cases hd : d = c
      · rw [hd, h.ctx]; exact ⟨rfl, fun _ => rfl⟩
      · rw [h.others d hd]; exact ⟨rfl, id⟩
    refine ⟨fun b => ?_, hx, fun n hn => ?_, ⟨q.levels, q.floor⟩, q.isReady⟩
    · rw [h.entry]
      split
      · rename_i e
        have h4 : (s.ctx c).state ≠ .failed := fun a => by rw [a] at hl; cases hl
        exact .inr ⟨c, e.2.1, e.2.2, e.1.symm, h4, by rw [h.ctx]; rfl, rfl⟩
      · exact .inl rfl
    · have hne : NoticeKind.ctxFailed ≠ n := fun e => by rw [← e] at hn; rcases hn with e | e <;> cases e
      have hd : ∀ (u : State) st ws, (u.sendDeferred c st ws).notice n = u.notice n := fun u st ws => by
        unfold State.sendDeferred; split <;> rfl
      have hr : (s.release c).notice n = s.notice n := by rw [(released_release c s).1]; rfl
      unfold State.failCtx
      rw [if_pos hl, notice_raise_eq, if_neg hne, hd]
      exact hr
  · unfold State.failCtx; rw [if_neg hl]; exact .refl s

theorem sheds_enterCutting (c : CtxId) (hs : (s.ctx c).state = .synced) : s.Sheds (s.enterCutting c) := by
  have h : s.Sheds (s.modCtx c Ctx.cut) := sheds_setCtx s c _ rfl (fun e => by rw [hs] at e; cases e)
  unfold State.enterCutting; dsimp only; split
  · exact h
  · exact h.trans (sheds_failCtx _ _ _)

theorem sheds_entryLost (c : CtxId) (r : FailReason) : s.Sheds (s.entryLost c r) := by
  unfold State.entryLost; split <;> first | exact sheds_failCtx s c r | exact .refl s

theorem sheds_cutoverLost (c : CtxId) : s.Sheds (s.cutoverLost c) := by
  unfold State.cutoverLost; split
  · exact sheds_failCtx s c _
  · exact .refl s

theorem sheds_resolvePart (n p : Nat) (r : PartResult) : s.Sheds (s.resolvePart n p r) := by
  unfold State.resolvePart; split
  · exact .refl s
  · dsimp only; split <;> exact .of_tables rfl rfl rfl rfl rfl rfl

theorem sheds_resolveFence (n : Nat) (w : Bool) (o : PartOutcome) : s.Sheds (s.resolveFence n w o) := by
  unfold State.resolveFence; split
  · exact .refl s
  · rename_i g _
    generalize (if w then { g with twin := o } else { g with primary := o } : FenceGroup) = g'
    dsimp only; split <;> exact .of_tables rfl rfl rfl rfl rfl rfl

/-- A slot port update that leaves its state alone. -/
theorem sheds_modSlot (k : SlotId) (f : SlotPort → SlotPort) (hf : (f (s.slot k)).state = (s.slot k).state) : s.Sheds (s.modSlot k f) :=
  ⟨fun _ => .inl rfl, fun _ => ⟨rfl, id⟩, fun _ _ => rfl, ⟨rfl, rfl⟩, fun j => by
    unfold State.isReady
    rw [modSlot_eq, slot_setSlot]; split
    · rename_i e; subst e; rw [hf]
    · rfl⟩

theorem sheds_closeEntry (k : SlotId) (i : PendIdx) : s.Sheds (State.closeEntry k s i) := by
  unfold State.closeEntry; split
  · exact .refl s
  · refine (sheds_modSlot s k (·.freeEntry i) rfl).trans ?_
    unfold State.deliverLoss; split
    · exact .of_tables rfl rfl rfl rfl rfl rfl
    · exact sheds_resolvePart _ _ _ _
    · exact sheds_resolveFence _ _ _ _
    · exact sheds_entryLost _ _ _
    · exact sheds_entryLost _ _ _
    · exact sheds_cutoverLost _ _
    · exact .refl _

theorem sheds_refuseClaims (k : SlotId) (c : CtxId) : s.Sheds (State.refuseClaims k s c) := by
  have h : s.Sheds (s.modCtx c (fun x => { x with flights := x.flights.map (fun f => { f with claim := false }) })) :=
    sheds_setCtx s c _ rfl id
  unfold State.refuseClaims; split
  · dsimp only; split
    · exact (h.trans (sheds_setCtx _ c { (s.modCtx c (fun x => { x with flights := x.flights.map (fun f => { f with claim := false }) })).ctx c with
        cutClaim := false } rfl id)).trans (sheds_failCtx _ _ _)
    · exact h
  · exact .refl s

theorem sheds_ctxLeft (k : SlotId) (c : CtxId) : s.Sheds (State.ctxLeft k s c) := by
  unfold State.ctxLeft; dsimp only
  split
  · exact .refl s
  · exact .refl s
  all_goals (repeat' split)
  all_goals first | exact .refl s | exact sheds_failCtx s c _ | skip
  rename_i hs _
  unfold State.sourceGone; split
  · exact sheds_enterCutting s c hs
  · exact sheds_failCtx s c _

/-! ### The Steering Unit's reaction beside it (R58, R59) -/

variable {s}

theorem sheds_slots {t : State} (h : s.Sheds t) (b : BoardId) :
    (t.entry b).primary = (s.entry b).primary ∧ (t.entry b).twin = (s.entry b).twin := by
  rcases h.entry b with e | ⟨c, -, -, -, -, -, e⟩ <;> rw [e] <;> exact ⟨rfl, rfl⟩

/-- An entry that the reaction changes is TWINNED, so it is none of those that were released. -/
theorem sheds_react {t : State} (h : s.Sheds t) (b : BoardId) (e' : SteerEntry) (n : NoticeKind) (hn : n.Steers) (d : BitVec 8) :
    ((s.setEntry b e').raise n d).Sheds ((t.setEntry b e').raise n d) := by
  have hs := raise_eq (s.setEntry b e') n d
  have ht := raise_eq (t.setEntry b e') n d
  have he : ∀ u : State, ((u.setEntry b e').raise n d).entry = (u.setEntry b e').entry := fun u => by rw [raise_eq]; rfl
  have hc : ∀ u : State, ((u.setEntry b e').raise n d).ctx = u.ctx := fun u => by rw [raise_eq]; rfl
  refine ⟨fun a => ?_, fun c => ?_, notice_raise_congr (s.setEntry b e') (t := t.setEntry b e') h.notice h.level hn d, ?_, fun j => ?_⟩
  · rw [he, he, hc, hc, entry_setEntry, entry_setEntry]
    split
    · exact .inl rfl
    · exact h.entry a
  · rw [hc, hc]; exact h.ctx c
  · rw [hs, ht]; exact h.level
  · rw [hs, ht]; exact h.ready j

theorem sheds_steeringLeft {t : State} (h : s.Sheds t) (k : SlotId) : (s.steeringLeft k).Sheds (t.steeringLeft k) := by
  have hb : t.boardNaming k = s.boardNaming k := by
    unfold State.boardNaming
    refine congrArg (List.find? · allBoards) (funext fun b => ?_)
    rw [(sheds_slots h b).1, (sheds_slots h b).2]
  unfold State.steeringLeft
  rw [hb]
  cases s.boardNaming k with
  | none => exact h
  | some b =>
    dsimp only
    rw [(sheds_slots h b).1]
    rcases h.entry b with e | ⟨c, h1, h2, h3, h4, h5, h6⟩
    · split
      · unfold State.primaryLoss
        dsimp only
        rw [e]
        simp only [h.ready]
        split
        · split
          · split
            · exact sheds_react h b _ _ (.inl rfl) _
            · exact h
          · exact sheds_react h b _ _ (.inr rfl) _
        · exact h
      · unfold State.twinLoss
        rw [e]
        split
        · exact sheds_react h b _ _ (.inr rfl) _
        · exact h
    · have hs : s.primaryLoss b = s ∧ s.twinLoss b k = s := by
        unfold State.primaryLoss State.twinLoss; simp [h1]
      have ht : t.primaryLoss b = t ∧ t.twinLoss b k = t := by
        unfold State.primaryLoss State.twinLoss; simp [h6]
      rw [hs.1, hs.2, ht.1, ht.2, ite_self, ite_self]
      exact h

/-- A slot's departure from READY: the Steering Unit's reaction, to the two slots as they are with that slot not READY, and the
release of the entries of contexts that fail. -/
theorem sheds_leaveReady (s : State) (k : SlotId) {st : SlotState} (hst : st ≠ .ready) :
    ((s.setSlot k { s.slot k with state := .halted }).steeringLeft k).Sheds (s.leaveReady k st) := by
  have h0 : (s.setSlot k { s.slot k with state := .halted }).Sheds (s.modSlot k (fun p => { p with state := st, queue := [] })) :=
    ⟨fun _ => .inl rfl, fun _ => ⟨rfl, id⟩, fun _ _ => rfl, ⟨rfl, rfl⟩, fun j => by
      unfold State.isReady
      rw [modSlot_eq, slot_setSlot, slot_setSlot]; split
      · exact beq_eq_false_iff_ne.2 hst
      · rfl⟩
  unfold State.leaveReady
  dsimp only
  refine (sheds_steeringLeft (((h0.trans (.foldl _ (fun s i => sheds_closeEntry s k i) (s.slot k).closeOrder _)).trans (sheds_modSlot _ k (fun p => { p with credits := 0 }) rfl)).trans
    (.foldl _ (fun s c => sheds_refuseClaims s k c) allCtxs _)) k).trans ?_
  exact .foldl _ (fun s c => sheds_ctxLeft s k c) _ _

/-- The reaction is nothing, or one entry goes to STALE with one of the two kinds raised. -/
theorem steeringLeft_cases (s : State) (k : SlotId) : s.steeringLeft k = s ∨
    ∃ (b : BoardId) (e : SteerEntry) (n : NoticeKind) (d : BitVec 8), e.twinState = .stale ∧ n.Steers ∧
      s.steeringLeft k = (s.setEntry b e).raise n d := by
  unfold State.steeringLeft
  split
  · exact .inl rfl
  · split
    · unfold State.primaryLoss
      dsimp only
      split
      · split
        · split
          · exact .inr ⟨_, _, _, _, rfl, .inl rfl, rfl⟩
          · exact .inl rfl
        · exact .inr ⟨_, _, _, _, rfl, .inr rfl, rfl⟩
      · exact .inl rfl
    · unfold State.twinLoss
      split
      · exact .inr ⟨_, _, _, _, rfl, .inr rfl, rfl⟩
      · exact .inl rfl

/-- The reaction leaves the contexts, and every entry that is BUILDING after it, as they were. -/
theorem steeringLeft_leaves (s : State) (k : SlotId) : (∀ c, (s.steeringLeft k).ctx c = s.ctx c) ∧
    ∀ b, ((s.steeringLeft k).entry b).twinState = .building → (s.steeringLeft k).entry b = s.entry b := by
  rcases steeringLeft_cases s k with h | ⟨a, e, n, d, he, -, h⟩
  · rw [h]; exact ⟨fun _ => rfl, fun _ _ => rfl⟩
  · rw [h, raise_eq]
    refine ⟨fun _ => rfl, fun b hb => ?_⟩
    change ((s.setEntry a e).entry b).twinState = .building at hb
    show (s.setEntry a e).entry b = _
    rw [entry_setEntry] at hb ⊢
    split
    · rename_i h0; rw [if_pos h0, he] at hb; cases hb
    · rfl

/-- The same in the words of the statement: every entry but those of contexts that fail is as the reaction leaves it, and so are
the records of its two kinds. -/
theorem steered_leaveReady (s : State) (k : SlotId) {st : SlotState} (hst : st ≠ .ready) :
    let w := s.setSlot k { s.slot k with state := .halted }
    (∀ b, ¬ (∃ c, (s.lossReason k c).isSome = true ∧ (s.ctx c).board = b ∧ (s.entry b).twinState = .building ∧
      (s.entry b).bound = some c) → (s.leaveReady k st).entry b = (w.steeringLeft k).entry b) ∧
    ∀ n : NoticeKind, n.Steers → (s.leaveReady k st).notice n = (w.steeringLeft k).notice n := by
  intro w
  have h := sheds_leaveReady s k hst
  have hl := losing_leaveReady s k hst
  obtain ⟨hc, hb⟩ := steeringLeft_leaves w k
  refine ⟨fun b hn => ?_, h.notice⟩
  rcases h.entry b with e | ⟨c, h1, h2, h3, h4, h5, -⟩
  · exact e
  · have he : (w.steeringLeft k).entry b = s.entry b := hb b h1
    rw [hc] at h3 h4
    change (s.ctx c).board = b at h3
    change (s.ctx c).state ≠ .failed at h4
    rw [he] at h1 h2
    refine absurd ⟨c, ?_, h3, h1, h2⟩ hn
    cases hr : s.lossReason k c with
    | some r => rfl
    | none =>
      rw [(hl.kept c hr).1] at h5
      unfold State.ctxAfterLoss at h5
      rw [hr] at h5
      dsimp only at h5
      split at h5
      · cases h5
      · split at h5 <;> exact absurd h5 h4

end Sys2Proof.Machine
end

