-- ==== Sys2Proof/Laws/Taking.lean ====
section
/-! SUPPORT. Taking what a claim, a head of intake or a pool offers: the claims of one transaction, fresh record numbers, the answer of a split FETCH, packed fields. -/

namespace Sys2Proof.Machine

variable {s : State}

/-- The lowest FREE entry is the one that an enqueue takes (R16). -/
theorem freeEntry_of_lowest {p : SlotPort} {i : PendIdx} (h : Lowest (fun j : PendIdx => p.pend[j] = none) i) : p.freeEntry? = some i := by
  unfold SlotPort.freeEntry?
  rw [List.find?_eq_some_iff_getElem]
  refine ⟨by simpa using h.1, i.val, by simp, by simp, fun j hj => ?_⟩
  have := h.2 ⟨j, by omega⟩ hj
  simp only [List.getElem_finRange]
  rw [Bool.not_eq_true', ← Bool.not_eq_true, Option.isNone_iff_eq_none]; exact this

/-- With no FREE entry an enqueue finds none. -/
theorem freeEntry_of_full {p : SlotPort} (h : ∀ i : PendIdx, p.pend[i] ≠ none) : p.freeEntry? = none := by
  unfold SlotPort.freeEntry?
  rw [List.find?_eq_none]
  intro i _; simpa [Option.isNone_iff_eq_none] using h i

/-- A claim of one transaction on a full queue is not taken (R14). -/
theorem claim_full (s : State) (k) (c : ClaimTxn) (h : 48 ≤ (s.slot k).queue.length) : s.claim k [c] = none := by
  unfold State.claim
  split
  · have : (s.slot k).enqueueAll [c] = none := by
      unfold SlotPort.enqueueAll SlotPort.enqueue; rw [if_neg (by unfold Config.slotQueueDepth; omega)]
    rw [this]
  · rfl

/-- A FETCH or FENCE without a FREE entry is not taken (R16). -/
theorem claim_nofree (s : State) (k) (c : ClaimTxn) (e) (he : c.pend = some e) (h : ∀ i : PendIdx, (s.slot k).pend[i] ≠ none) : s.claim k [c] = none := by
  unfold State.claim
  split
  · have : (s.slot k).enqueueAll [c] = none := by
      unfold SlotPort.enqueueAll SlotPort.enqueue
      rw [he]; dsimp only; rw [freeEntry_of_full h]; dsimp only
      split <;> rename_i h <;> first | rfl | (split at h <;> cases h)
    rw [this]
  · rfl

/-- A STORE or FILL is taken where there is room (R14). -/
theorem claim_plain (s : State) (k) (c : ClaimTxn) (hr : s.isReady k = true) (he : c.pend = none) (h : (s.slot k).queue.length < 48) :
   s.claim k [c] = some (s.setSlot k (s.queued k [⟨c.txn, c.mark⟩])) := by
  refine claim_of_fits s k [c] _ hr ?_
  rw [enqueueAll_plain _ [c] (by simpa using he) (by simp [Config.slotQueueDepth]; omega)]
  rfl

/-- A FETCH or FENCE is taken with the lowest FREE entry, whose index is its tag (R16). -/
theorem claim_pend (s : State) (k) (c : ClaimTxn) (e) (i) (hr : s.isReady k = true) (he : c.pend = some e) (h : (s.slot k).queue.length < 48) 
   (hi : Lowest (fun j : PendIdx => (s.slot k).pend[j] = none) i) :
   s.claim k [c] = some (s.setSlot k { s.queued k [⟨{ c.txn with tag := BitVec.ofNat 8 i }, c.mark⟩] with pend := (s.slot k).pend.set i (some e) }) := by
  refine claim_of_fits s k [c] _ hr ?_
  rw [enqueueAll_one _ c e i he (freeEntry_of_lowest hi) (by unfold Config.slotQueueDepth; exact h)]
  rfl

/-- The step that may take the head, when the head is of its kind. -/
theorem heads_exec {kind : TxnKind} {t : Txn} {b} {rest} (h : s.Heads kind t b rest) (f : State → Txn → BoardId → State) :
   s.unlessHeld (fun s => s.withHead kind f) = f s t b := by
  obtain ⟨h1, h2, h3, h4⟩ := h
  unfold State.unlessHeld; rw [if_neg h1]; unfold State.withHead; dsimp only; rw [h2]; dsimp only; rw [h4]; dsimp only; rw [if_pos h3]

/-- A new record takes a number that none bears. -/
theorem freshNum_not_mem (l : List Nat) : freshNum l ∉ l := by
  unfold freshNum
  cases h : (List.range (l.length + 1)).find? (fun n => !(l.contains n)) with
  | some n => have := List.find?_some h; simpa using this
  | none =>
    exfalso
    rw [List.find?_eq_none] at h
    have hs : List.range (l.length + 1) ⊆ l := fun x hx => by simpa using h x hx
    have := (List.nodup_range (n := l.length + 1)).subperm hs |>.length_le
    simp at this

/-- Parts that are all resolved. -/
theorem allResolved_map : ∀ ps : List PartResult, allResolved (ps.map some) = some ps
  | [] => rfl
  | p :: ps => by rw [List.map_cons]; unfold allResolved; rw [allResolved_map ps]; rfl

/-- The worst status of the parts (R55). -/
theorem worst_foldl : ∀ (ps : List PartResult) (m : BitVec 4), 
   let f := ps.foldl (fun m p => if m < p.status then p.status else m) m
   m ≤ f ∧ (∀ q ∈ ps, q.status ≤ f) ∧ (f = m ∨ ∃ q ∈ ps, f = q.status)
  | [], m => by simp
  | p :: ps, m => by
    have := worst_foldl ps (if m < p.status then p.status else m)
    dsimp only at this ⊢
    rw [List.foldl_cons]
    generalize (ps.foldl (fun m p => if m < p.status then p.status else m) (if m < p.status then p.status else m)) = f at *
    obtain ⟨h1, h2, h3⟩ := this
    split at h1
    · rename_i hlt
      refine ⟨BitVec.le_trans (BitVec.le_of_lt hlt) h1, ?_, ?_⟩
      · intro q hq; rcases List.mem_cons.1 hq with rfl | hq
        · exact h1
        · exact h2 q hq
      · rw [if_pos hlt] at h3
        rcases h3 with h | ⟨q, hq, h⟩
        · exact .inr ⟨p, by simp, h⟩
        · exact .inr ⟨q, by simp [hq], h⟩
    · rename_i hlt
      rw [if_neg hlt] at h3
      refine ⟨h1, ?_, ?_⟩
      · intro q hq; rcases List.mem_cons.1 hq with rfl | hq
        · exact BitVec.le_trans (BitVec.not_lt.1 hlt) h1
        · exact h2 q hq
      · rcases h3 with h | ⟨q, hq, h⟩
        · exact .inl h
        · exact .inr ⟨q, by simp [hq], h⟩

/-- Packed fields as one number (R168). -/
theorem packing_foldl (fs : List Field) : ∀ (n m : Nat), ∃ q, q < 2 ^ (fs.map (·.1)).sum ∧
    fs.foldl (fun x f => (x.1 * 2 ^ f.1 + f.2 % 2 ^ f.1, x.2 + f.1)) (n, m) = (n * 2 ^ (fs.map (·.1)).sum + q, m + (fs.map (·.1)).sum) := by
  induction fs with
  | nil => intro n m; exact ⟨0, by simp, by simp⟩
  | cons f fs ih =>
    intro n m
    obtain ⟨q, h1, h2⟩ := ih (n * 2 ^ f.1 + f.2 % 2 ^ f.1) (m + f.1)
    refine ⟨(f.2 % 2 ^ f.1) * 2 ^ (fs.map (·.1)).sum + q, ?_, ?_⟩
    · simp only [List.map_cons, List.sum_cons, pow_add]
      have : f.2 % 2 ^ f.1 < 2 ^ f.1 := Nat.mod_lt _ (by positivity)
      nlinarith [Nat.two_pow_pos (fs.map (·.1)).sum]
    · rw [List.foldl_cons, h2]
      simp only [List.map_cons, List.sum_cons, pow_add, Prod.mk.injEq]
      constructor
      · ring
      · ring

/-- A number and its words of 32 bits, most significant first. -/
theorem words_digits (n : Nat) : ∀ k, n < 2 ^ (32 * k) → ((List.range k).map (fun i => BitVec.ofNat 32 (n / 2 ^ (32 * (k - 1 - i))))).foldl (fun a w => a * 4294967296 + w.toNat) 0 = n := by
  intro k
  induction k generalizing n with
  | zero => intro h; simp at h; simp [h]
  | succ k ih =>
    intro h
    rw [List.range_succ, List.map_append, List.foldl_append]
    have h1 : (List.range k).map (fun i => BitVec.ofNat 32 (n / 2 ^ (32 * (k + 1 - 1 - i)))) = (List.range k).map (fun i => BitVec.ofNat 32 ((n / 2 ^ 32) / 2 ^ (32 * (k - 1 - i)))) := by
      apply List.map_congr_left
      intro i hi
      rw [List.mem_range] at hi
      rw [Nat.div_div_eq_div_mul, ← pow_add]
      congr 4; omega
    rw [h1, ih]
    · simp; omega
    · rw [Nat.div_lt_iff_lt_mul (by positivity), ← pow_add]
      convert h using 2; ring

end Sys2Proof.Machine
end

