-- ==== Sys2Proof/WellFormed.lean ====
section
/-! DEFINITION. Which commands a link can deliver. -/

namespace Sys2Proof

/-- A transaction has three header words, zero to sixteen data words and one trailer word (R2, R4).
The machine rejects any other length (R5), so it is total on ill-formed frames too. -/
def Frame.bounded (f : Frame) : Bool := decide (4 ≤ f.length) && decide (f.length ≤ 20)

/-- The words a command brings in from a link, for the rows that bring any. -/
def Instr.frame? : Instr → Option Frame
  | .agentArrival f | .grantReceived _ f | .helloReceived _ f | .haltReceived _ f | .returnReceived _ f
  | .fenceDoneReceived _ f | .boardTransactionRejected _ f => some f
  | .powerOnReset | .resetLineAssert | .resetLineRelease | .startingComplete | .agentLinkLost | .agentLinkUp
  | .upstreamSend | .storeTaken | .fillStep | .fetchTaken | .fenceTaken | .slotPresenceActive _
  | .slotPresenceLost _ | .slotLinkUp _ | .slotLinkLost _ | .helloTimerExpiry _ | .settleTimerExpiry _
  | .replyTimerExpiry _ _ | .slotSend _ | .walkFetchIssue | .zeroFillIssue | .paceTimerExpiry _
  | .writeClaimTaken _ _ | .verifyClaimTaken _ _ | .cutoverClaimTaken _ | .unknownRequest | .readStateBridge
  | .readStateSlot | .readStateSteer | .readStateLayout | .readStateRegion | .readStateContext
  | .readStateSegments | .readStateRevisit | .readStateGaps | .readStateSpares | .readStateNotices
  | .readStateCounters | .softReset | .countersClear | .slotRetry | .slotHalt | .steerSet | .steerClear
  | .twinSet | .twinClear | .swap | .layoutSet | .regionLoad | .regionClear | .ctxOpen | .segAppend | .ctxStart
  | .ctxPause | .ctxResume | .stopPoint | .ctxAbort | .ctxClose | .ctxCutover | .gapWaive | .spareDrop
  | .noticeLevel | .noticeFloor | .maskSet | .maskClear | .collect => none

/-- Every other bound of an operand (slot, context, record, entry) is in its type. -/
def Instr.wellFormed (i : Instr) : Bool := i.frame?.all Frame.bounded

end Sys2Proof
end

