-- ==== Sys2Proof/Tests/Slice0.lean ====
section
/-! SUPPORT. The model's own tests: the well-formedness check, small steps, and for every statement with hypotheses a state that meets them. -/

namespace Sys2Proof.Tests

open Sys2Proof.Machine

-- Each proof is checked before the next is begun: a hundred waiting checks would each hold a thread.
set_option Elab.async false

/-! ### States to test on -/

/-- RUNNING, with nothing else done. -/
def up : State := { State.reset with startup := .running, agentCredits := 64 }

def readyPort : SlotPort := { presence := true, state := .ready, credits := 4, arrival := some ⟨7, .powerUp⟩ }

/-- A region of COPY, in layout set 0, whose views differ in pitch. -/
def copyRegion : Region :=
  ⟨0, 3, 8, ⟨0x1000, 4, 0x2000, 2⟩, ⟨0x5000, 3, 0x6000, 2⟩, .copy, some 1, 0xDEAD⟩

def zeroRegion : Region :=
  ⟨0, 4, 8, ⟨0x3000, 4, 0x3800, 0⟩, ⟨0x7000, 4, 0x7800, 0⟩, .zero, none, 0⟩

/-- Slots 1 and 2 READY, logical board 4 on slot 1 with slot 2 as its STALE twin, regions 5 and 6 loaded. -/
def pair : State :=
  (((((up.setSlot 1 readyPort).setSlot 2 readyPort).setEntry 4
    { primary := some 1, twin := some 2, twinState := .stale }).setRegion 5 (some copyRegion)).setRegion 6 (some zeroRegion))

def openCtx : Ctx := { state := .opened, board := 4, src := 1, dst := 2, priority := 2, pace := some 20 }
def walkCtx : Ctx := { openCtx with state := .walking, segs := [⟨0, 5, 0, 8⟩, ⟨1, 6, 0, 8⟩], cur := some 0, frontier := 2 }

def buildingEntry : SteerEntry := { primary := some 1, twin := some 2, twinState := .building, bound := some 3 }

/-- The pair with context 3 bound to it. -/
def bound (x : Ctx) : State := (pair.setEntry 4 buildingEntry).setCtx 3 x

def twinned (auto : Bool) : State :=
  pair.setEntry 4 { primary := some 1, twin := some 2, twinState := .twinned, autoSwap := auto }

/-- A management request, alone at the head of intake. -/
def mgmt (r : Request) (ps : List Nat) : Txn :=
  { kind := .mgmt, board := 15, tag := 9, count := ps.length, addr := r.code.zeroExtend 32, data := ps.map (BitVec.ofNat 32) }
def asked (s : State) (r : Request) (ps : List Nat) : State := { s with agentCredits := 63, intake := [mgmt r ps] }
def offered (s : State) (t : Txn) : State := { s with agentCredits := 63, intake := [t] }

/-- The state after a command, for the tests. -/
def after (c : Instr) (s : State) : State :=
  match exec c s with
  | .next t => t
  | .fault _ | .refused _ => s

/-- The last transaction upstream: its status, MORE and data. -/
def answer (c : Instr) (s : State) : Option (BitVec 4 × Bool × List Word) :=
  (after c s).upstream.getLast?.map (fun t => (t.status, t.more, t.data))

/-- A request stands at the head and carries its parameters. -/
def Meets (s : State) (r : Request) (ps : List Nat) : Prop :=
  (asked s r ps).Requested r (mgmt r ps) [] ∧ (mgmt r ps).params = ps

theorem meets {s : State} {r : Request} {ps : List Nat} (hs : s.startup ≠ .held) (hp : (mgmt r ps).params = ps) : Meets s r ps :=
  ⟨⟨hs, rfl, rfl, by cases r <;> rfl⟩, hp⟩

theorem heads {s : State} {t : Txn} {b : BoardId} (hs : s.startup ≠ .held) (hb : t.boardId = some b) :
    (offered s t).Heads t.kind t b [] := ⟨hs, rfl, rfl, hb⟩

/-! ### Well-formed commands -/

theorem test_wellFormed_refuses_three_words : (Instr.agentArrival [0, 0, 0]).wellFormed = false := by decide
theorem test_wellFormed_refuses_21_words : (Instr.returnReceived 3 (List.replicate 21 0)).wellFormed = false := by decide
theorem test_wellFormed_admits_4_and_20_words :
    (Instr.grantReceived 0 (List.replicate 4 0)).wellFormed = true ∧
    (Instr.agentArrival (List.replicate 20 0)).wellFormed = true := by decide
theorem test_wellFormed_admits_events : Instr.swap.wellFormed = true ∧ (Instr.slotLinkUp 7).wellFormed = true := by decide

/-! ### Words on the links -/

/-- The register of R5 started at all ones, over no word and over the bytes 00 and 31 to 38; the values were worked out with
a byte-wise register of the same generator outside Lean. -/
theorem test_check_values : checkOf [] = 0xFFFF#16 ∧ checkOf [0] = 0x84C0#16 ∧
    checkOf [0x31323334, 0x35363738] = 0xA12B#16 := by decide +kernel

/-- A STORE of one word to address 1000 of board 4, written out from Tables 1-1 and 1-2. -/
def storeFrame : Frame :=
  let body : Frame := [0x01400500, 0x00000001, 0x00001000, 0xCAFE]
  body ++ [(checkOf body).zeroExtend 32]

theorem test_store_is_read : acceptAgent storeFrame =
    some { kind := .store, board := 4, tag := 5, count := 1, addr := 0x1000, data := [0xCAFE] } := by decide +kernel
theorem test_store_with_a_wrong_bit_is_rejected : acceptAgent (storeFrame.set 3 0xCAFF) = none := by decide +kernel
theorem test_store_with_a_word_missing_is_rejected : acceptAgent (storeFrame.eraseIdx 3) = none := by decide +kernel
theorem test_store_is_no_board_transaction : acceptBoard storeFrame = none := by decide +kernel

/-- A HELLO of class 7 with cause RETRAIN. -/
def helloFrame : Frame :=
  let body : Frame := [0x0C000000, 0x00000001, 0, 0x00070002]
  body ++ [(checkOf body).zeroExtend 32]

theorem test_hello_is_read : acceptBoard helloFrame = some { kind := .hello, count := 1, data := [0x00070002] } := by
  decide +kernel

/-! ### Witnesses and small steps, statement by statement: the queue, resets, the agent link -/

theorem witness_StepRunsTheFrontCommand :
    ({ up with pending := [.swap, .collect] } : State).pending = .swap :: [.collect] ∧ up.pending = [] := ⟨rfl, rfl⟩

def held : State := after .resetLineAssert (pair)

theorem witness_ResetsAndStartUp : held.startup = .held ∧ pair.startup ≠ .held ∧ after .swap held = held ∧
    (after .resetLineRelease held).startRecord.cause = .line ∧ (after .powerOnReset held).startup = .held ∧
    (after .powerOnReset pair).slots = held.slots ∧ State.reset.startup = .starting ∧
    after .startingComplete State.reset = { up with upstream := [Txn.grantOf 64] } := by decide +kernel

def noCredit : State := { pair with agentCredits := 0 }

theorem witness_AgentArrivalByCreditAndCheck :
    (noCredit.startup ≠ .held ∧ noCredit.agentLinkUp = true ∧ noCredit.agentCredits = 0) ∧
    (pair.startup ≠ .held ∧ pair.agentLinkUp = true ∧ 0 < pair.agentCredits) ∧
    acceptAgent [] = none ∧ (acceptAgent storeFrame).isSome = true := by decide +kernel

/-- A FILL as the only transaction in intake, not yet cut; behind a STORE; and cut before. -/
def fillWaits : State := { pair with intake := [{ kind := .fill, board := 4, count := 5, addr := 0x1000, data := [7] }] }

theorem test_cutHead : fillWaits.fill = none ∧ fillWaits.cutHead.fill = some ⟨pair.cut 0 .A 0x1000 5, none⟩ ∧
    fillWaits.cutHead = { fillWaits with fill := fillWaits.cutHead.fill } ∧ fillWaits.cutHead.cutHead = fillWaits.cutHead ∧
    pair.cutHead = pair ∧ (offered pair { kind := .store, board := 4, count := 1, data := [1] }).cutHead.fill = none := by
  decide +kernel

theorem test_agentArrival : (after (.agentArrival storeFrame) pair).intake.length = 1 ∧
    (after (.agentArrival storeFrame) pair).agentCredits = 63 ∧
    (after (.agentArrival []) pair).globals.agentCheckErrors = 1 ∧ (after (.agentArrival []) pair).agentCredits = 64 ∧
    (after (.agentArrival storeFrame) noCredit).globals.agentOverruns = 1 := by decide +kernel

def sending : State := { up with upstream := [Txn.grantOf 1, Txn.grantOf 2] }
def cutOff : State := { sending with agentLinkUp := false }

theorem witness_AgentLinkAndUpstreamSend : cutOff.agentLinkUp = false ∧
    (sending.startup = .running ∧ sending.agentLinkUp = true ∧ sending.upstream = Txn.grantOf 1 :: [Txn.grantOf 2]) ∧
    ({ sending with startup := .starting } : State).startup ≠ .running ∧ up.upstream = [] := by decide +kernel

theorem test_upstreamSend : (after .upstreamSend sending).agentTx = some (Txn.grantOf 1).frame ∧
    after .upstreamSend cutOff = cutOff ∧ (after .agentLinkLost up).agentLinkUp = false ∧
    (after .agentLinkUp cutOff).agentLinkUp = true := by decide +kernel

def fullStore : Txn := { kind := .store, board := 4, tag := 5, count := 16, addr := 0xFFFFFFFF, data := List.replicate 16 1 }
def fullReturn : Txn := { kind := .ret, status := 1, tag := 63, count := 16, data := List.replicate 16 1 }

theorem witness_TransactionsRoundTrip : (fullStore.countOk = true ∧ fullStore.agentOk = true) ∧
    (fullReturn.countOk = true ∧ fullReturn.boardOk = true) := by decide +kernel

def returnOf (tag : BitVec 8) (st : BitVec 4) (d : List Word) : Txn := { kind := .ret, status := st, tag := tag, count := 2, data := d }
def fenceDone (tag : BitVec 8) : Txn := { kind := .fenceDone, tag := tag }
def shortStore : Txn := { kind := .store, board := 4, count := 1, data := [7] }

/-- The agent's STORE, and the same of another board or count; other kinds, and a kind of no code. -/
theorem test_agent_acceptance : (acceptAgent shortStore.frame).isSome = true ∧
    acceptAgent ({ shortStore with board := 15 } : Txn).frame = none ∧
    acceptAgent ({ shortStore with count := 2 } : Txn).frame = none ∧
    acceptAgent (Txn.grantOf 1).frame = none ∧ acceptAgent ({ kind := .mgmt, board := 4 } : Txn).frame = none ∧
    acceptAgent [0x05400500, 0, 0, (checkOf [0x05400500, 0, 0]).zeroExtend 32] = none := by decide +kernel

/-- A board's RETURN, and the same of another status; a HELLO of no start cause, and a kind of the agent's. -/
theorem test_board_acceptance : (acceptBoard (returnOf 63 0 [1, 2]).frame).isSome = true ∧
    acceptBoard (returnOf 63 4 []).frame = none ∧ acceptBoard (returnOf 63 2 [1, 2]).frame = none ∧
    acceptBoard ({ kind := .hello, count := 1, data := [3] } : Txn).frame = none ∧
    acceptBoard shortStore.frame = none := by decide +kernel

/-! ### Slots -/

def seated : State := up.setSlot 3 { presence := true }
def training (ph : HelloPhase) : State := up.setSlot 3 { presence := true, state := .awaitHello ph }
def listening (n : Nat) : State :=
  up.setSlot 3 { presence := true, state := .awaitHello .listening, helloTimer := some 500, helloFailures := n }
def settling : State := up.setSlot 3 { presence := true, state := .settling, settleTimer := some 40, credits := 2 }
def halted : State := up.setSlot 3 { presence := true, state := .halted, halt := some ⟨.agent, 0⟩ }
def disabled : State := up.setSlot 3 { presence := true, state := .disabled, helloFailures := 3 }

theorem witness_PresenceAndTraining : (up.slot 3).state = .down ∧ (up.slot 3).presence = false ∧ up.startup ≠ .held ∧
    ((seated.slot 3).state = .down ∧ (seated.slot 3).presence = true) ∧
    ((training .retraining).slot 3).state = .awaitHello .retraining := by decide +kernel

theorem test_slotLinkUp : ((after (.slotLinkUp 3) seated).slot 3).helloTimer = some 500 ∧
    after (.slotPresenceActive 3) up = seated ∧ after (.slotPresenceLost 3) seated = up ∧ after (.slotLinkUp 3) up = up := by
  decide +kernel

theorem witness_LossTakesTheSlotDown : settling.startup ≠ .held ∧ (settling.slot 3).state ≠ .down ∧
    settling.isReady 3 = false ∧ pair.startup ≠ .held ∧ (pair.slot 1).state ≠ .down ∧ pair.isReady 1 = true := by decide +kernel

theorem test_loss_swaps_the_pair : (after (.slotLinkLost 1) (twinned true)).entry 4 =
      { primary := some 2, twin := some 1, twinState := .stale, view := .B, autoSwap := true } ∧
    ((after (.slotPresenceLost 2) (twinned true)).entry 4).twinState = .stale ∧
    ((after (.slotLinkLost 1) (twinned true)).notice .slotDown).pending = true := by decide +kernel

theorem witness_HelloAndSettleTimers : (listening 1).startup ≠ .held ∧
    ((listening 1).slot 3).state = .awaitHello .listening ∧ ((listening 1).slot 3).helloFailures + 1 < 3 ∧
    ((listening 2).slot 3).state = .awaitHello .listening ∧ 3 ≤ ((listening 2).slot 3).helloFailures + 1 ∧
    settling.startup ≠ .held ∧ (settling.slot 3).state = .settling := by decide +kernel

theorem test_timers : ((after (.helloTimerExpiry 3) (listening 1)).slot 3).state = .awaitHello .retraining ∧
    ((after (.helloTimerExpiry 3) (listening 2)).slot 3).state = .disabled ∧
    (after (.settleTimerExpiry 3) settling).isReady 3 = true := by decide +kernel

def fetchEntry (o : Origin) : PendEntry := ⟨.sent, .fetch, 2, o⟩

/-- A slot with one pending entry in use, SENT. -/
def awaiting (s : State) (k : SlotId) (i : PendIdx) (e : PendEntry) : State :=
  s.setSlot k { s.slot k with pend := (s.slot k).pend.set i (some e), sentOrder := [i] }

def waitsFetch : State := awaiting pair 1 63 (fetchEntry (.agent 8 4 1 1 none))

theorem witness_ReplyTimerExpiry : waitsFetch.startup ≠ .held ∧ waitsFetch.isReady 1 = true ∧
    (waitsFetch.slot 1).pend[63] = some (fetchEntry (.agent 8 4 1 1 none)) ∧
    (fetchEntry (.agent 8 4 1 1 none)).phase = .sent := by decide +kernel

theorem test_replyTimerExpiry : ((after (.replyTimerExpiry 1 63) waitsFetch).slot 1).state = .halted ∧
    Txn.noBoardReturn 8 4 2 ∈ (after (.replyTimerExpiry 1 63) waitsFetch).upstream := by decide +kernel

/-! ### Transactions from a board -/

def grantFrame (n : Nat) : Frame := ({ kind := .grant, count := n } : Txn).frame
def haltFrame : Frame := ({ kind := .halt, count := 1, data := [0x42] } : Txn).frame

theorem brings {s : State} {k : SlotId} {t : Txn} (h : s.startup ≠ .held ∧ (s.slot k).state.receives = true ∧
    acceptBoard t.frame = some t) : SlotBrings s k t.frame t t.kind := ⟨h.1, h.2.1, h.2.2, rfl⟩

theorem witness_GrantAddsCredits :
    SlotBrings pair 1 (grantFrame 60) { kind := .grant, count := 60 } .grant ∧ (pair.slot 1).credits + 60 ≤ 64 ∧
    SlotBrings pair 1 (grantFrame 61) { kind := .grant, count := 61 } .grant ∧ 64 < (pair.slot 1).credits + 61 := by
  refine ⟨brings ?_, ?_, brings ?_, ?_⟩ <;> decide +kernel

theorem test_grant : ((after (.grantReceived 1 (grantFrame 60)) pair).slot 1).credits = 64 ∧
    ((after (.grantReceived 1 (grantFrame 61)) pair).notice .grantExcess).pending = true := by decide +kernel

theorem witness_HelloByState : ∀ s ∈ [listening 2, settling, halted, up.setSlot 3 readyPort],
    SlotBrings s 3 helloFrame { kind := .hello, count := 1, data := [0x00070002] } .hello := by
  intro s hs; simp only [List.mem_cons, List.not_mem_nil, or_false] at hs
  rcases hs with rfl | rfl | rfl | rfl <;> exact ⟨by decide +kernel, by decide +kernel, test_hello_is_read, rfl⟩

theorem witness_HelloByState_states : ({ kind := .hello, count := 1, data := [0x00070002] } : Txn).startCause = some .retrain ∧
    ((listening 2).slot 3).state = .awaitHello .listening ∧ (settling.slot 3).state = .settling ∧
    (halted.slot 3).state = .halted ∧ ((up.setSlot 3 readyPort).slot 3).state = .ready := by decide +kernel

theorem test_hello : ((after (.helloReceived 3 helloFrame) (listening 2)).slot 3).settleTimer = some 2 ∧
    ((after (.helloReceived 3 helloFrame) (up.setSlot 3 readyPort)).slot 3).credits = 0 := by decide +kernel

theorem witness_HaltByState : ∀ s ∈ [listening 2, settling, halted, up.setSlot 3 readyPort],
    SlotBrings s 3 haltFrame { kind := .halt, count := 1, data := [0x42] } .halt := by
  intro s hs; simp only [List.mem_cons, List.not_mem_nil, or_false] at hs
  rcases hs with rfl | rfl | rfl | rfl <;> exact brings (by decide +kernel)

theorem test_halt : ((after (.haltReceived 3 haltFrame) settling).slot 3).halt = some ⟨.board, 0x42⟩ ∧
    after (.haltReceived 3 haltFrame) (listening 2) = listening 2 := by decide +kernel

theorem witness_RejectedAndUnmatchedAreCounted : (pair.startup ≠ .held ∧ (pair.slot 1).state.receives = true ∧
      acceptBoard [] = none) ∧
    (SlotBrings pair 1 (returnOf 63 0 [1, 2]).frame (returnOf 63 0 [1, 2]) .ret ∧ pair.isReady 1 = true ∧
      (∀ i : PendIdx, (pair.slot 1).pend[i] = none)) ∧
    SlotBrings pair 1 (fenceDone 64).frame (fenceDone 64) .fenceDone ∧ settling.isReady 3 = false := by
  refine ⟨?_, ⟨brings ?_, ?_⟩, brings ?_, ?_⟩ <;> decide +kernel

theorem test_rejected : ((after (.boardTransactionRejected 1 []) pair).slot 1).counters.checkErrors = 1 ∧
    ((after (.returnReceived 1 (returnOf 63 0 [1, 2]).frame) pair).slot 1).counters.checkErrors = 1 ∧
    ((after (.fenceDoneReceived 1 (fenceDone 64).frame) pair).notice .slotCheck).pending = true := by decide +kernel

theorem witness_MatchedReturnReachesTheAgent :
    SlotBrings waitsFetch 1 (returnOf 63 0 [1, 2]).frame (returnOf 63 0 [1, 2]) .ret ∧ waitsFetch.isReady 1 = true ∧
    (63 : PendIdx).val = (returnOf 63 0 [1, 2]).tag.toNat ∧
    (waitsFetch.slot 1).pend[63] = some (fetchEntry (.agent 8 4 1 1 none)) ∧
    (fetchEntry (.agent 8 4 1 1 none)).count = (returnOf 63 0 [1, 2]).count := by
  refine ⟨brings ?_, ?_⟩ <;> decide +kernel

def orphaned (kind : PendKind) : State := awaiting pair 1 63 ⟨.sent, kind, if kind = .fetch then 2 else 0, .orphan⟩

theorem witness_MatchedReturnReachesTheAgent_orphan :
    SlotBrings (orphaned .fetch) 1 (returnOf 63 0 [1, 2]).frame (returnOf 63 0 [1, 2]) .ret ∧
    SlotBrings (orphaned .fence) 1 (fenceDone 63).frame (fenceDone 63) .fenceDone ∧
    (63 : PendIdx).val = (fenceDone 63).tag.toNat ∧ ∀ kind ∈ [PendKind.fetch, .fence], (orphaned kind).isReady 1 = true ∧
      ((orphaned kind).slot 1).pend[(63 : PendIdx)] = some ⟨.sent, kind, if kind = .fetch then 2 else 0, .orphan⟩ := by
  refine ⟨brings ?_, brings ?_, ?_⟩ <;> decide +kernel

theorem test_orphan_is_discarded :
    after (.returnReceived 1 (returnOf 63 0 [1, 2]).frame) (orphaned .fetch) = pair ∧
    after (.fenceDoneReceived 1 (fenceDone 63).frame) (orphaned .fence) = pair := by decide +kernel

theorem test_return : (after (.returnReceived 1 (returnOf 63 0 [1, 2]).frame) waitsFetch).upstream =
    [{ kind := .ret, board := 4, tag := 8, count := 2, data := [1, 2] }] := by decide +kernel

def waitsFence (p w : PartOutcome) : State :=
  { awaiting pair 1 0 ⟨.sent, .fence, 0, .fenceGroup 6 false⟩ with fences := [⟨6, 8, 4, p, w⟩] }

theorem witness_FenceDoneResolvesItsGroup : ∀ w ∈ [PartOutcome.sent, .ok, .failed, .absent],
    SlotBrings (waitsFence .sent w) 1 (fenceDone 0).frame (fenceDone 0) .fenceDone ∧
    (waitsFence .sent w).isReady 1 = true ∧ (0 : PendIdx).val = (fenceDone 0).tag.toNat ∧
    ((waitsFence .sent w).slot 1).pend[0] = some ⟨.sent, .fence, 0, .fenceGroup 6 false⟩ ∧
    (waitsFence .sent w).fences.find? (fun x => x.num == 6) = some ⟨6, 8, 4, .sent, w⟩ := by
  intro w hw; simp only [List.mem_cons, List.not_mem_nil, or_false] at hw
  rcases hw with rfl | rfl | rfl | rfl <;> refine ⟨brings ?_, ?_⟩ <;> decide +kernel

theorem test_fenceDone : (after (.fenceDoneReceived 1 (fenceDone 0).frame) (waitsFence .sent .failed)).upstream =
      [Txn.fenceDoneOf 8 4 5] ∧
    (after (.fenceDoneReceived 1 (fenceDone 0).frame) (waitsFence .sent .sent)).fences = [⟨6, 8, 4, .ok, .sent⟩] := by
  decide +kernel

def qStore : QTxn := ⟨{ kind := .store, count := 1, addr := 7, data := [1] }, .agentDerived⟩
def qFetch : QTxn := ⟨{ kind := .fetch, tag := 63, count := 2 }, .agentDerived⟩
def queuedStore : State := pair.setSlot 1 { readyPort with queue := [qStore, qStore], credits := 1 }
def queuedFetch : State := pair.setSlot 1 { readyPort with
  queue := [qFetch], pend := readyPort.pend.set 63 (some ⟨.queued, .fetch, 2, .agent 8 4 1 1 none⟩) }

theorem witness_SlotSendsForACredit : (queuedStore.startup ≠ .held ∧ queuedStore.isReady 1 = true ∧
      1 ≤ (queuedStore.slot 1).credits ∧ (queuedStore.slot 1).queue = qStore :: [qStore] ∧ qStore.txn.kind = .store) ∧
    (queuedFetch.isReady 1 = true ∧ 1 ≤ (queuedFetch.slot 1).credits ∧ (queuedFetch.slot 1).queue = qFetch :: [] ∧
      qFetch.txn.kind = .fetch ∧ (63 : PendIdx).val = qFetch.txn.tag.toNat ∧
      (queuedFetch.slot 1).pend[63] = some ⟨.queued, .fetch, 2, .agent 8 4 1 1 none⟩) ∧
    settling.isReady 3 = false ∧ (pair.slot 1).queue = [] := by decide +kernel

theorem test_slotSend : (after (.slotSend 1) queuedStore).slot 1 = { readyPort with
      queue := [qStore], credits := 0, tx := some qStore.txn.frame, counters := ⟨1, 0, 0, 0⟩ } ∧
    ((after (.slotSend 1) queuedFetch).slot 1).sentOrder = [63] := by decide +kernel

/-! ### Steering -/

/-- A STORE, FILL, FETCH or FENCE of board 4; outside every region of the tests at address 16. -/
def store (a : Word) (d : List Word) : Txn := { kind := .store, board := 4, tag := 5, count := d.length, addr := a, data := d }
def fill (a : Word) (n : Nat) : Txn := { kind := .fill, board := 4, tag := 5, count := n, addr := a, data := [7] }
def fetch (a : Word) (n : Nat) : Txn := { kind := .fetch, board := 4, tag := 5, count := n, addr := a }
def fence : Txn := { kind := .fence, board := 4, tag := 5 }

/-- The pair on a layout set without regions; the address space ends with the span. -/
def plain : State := pair.setEntry 4 { primary := some 1, twin := some 2, twinState := .stale, layoutSet := 1 }
def plainFill : State := (offered plain (fill 0xFFFFFFC0 64)).cutHead

theorem plain_span (s : State) (b : BoardId) (k : SlotId) (a : Word) (n : Nat) (hm : s.spareMap k = [])
    (h : a.toNat + n ≤ 4294967296) : PlainSpan s b k a n :=
  ⟨h, fun _ _ _ _ _ _ _ _ hx => by rw [hm] at hx; cases hx⟩

/-- The pair with slot 1's entry 1 of region 5 remapped, and slot 2's entries 1 and 2 to spares that follow each other. -/
def remapped : State := (pair.setSpareMap 1 [.remap 5 1 .A 0 none 0]).setSpareMap 2 [.remap 5 1 .B 0 none 0, .remap 5 2 .B 1 none 0]

theorem oneBoard_plain : OneBoard plain 4 1 := by refine ⟨?_, ?_, ?_, .inr ?_⟩ <;> decide +kernel

theorem oneBoard_pair : OneBoard pair 4 1 := by refine ⟨?_, ?_, ?_, .inr ?_⟩ <;> decide +kernel

theorem witness_OneBoardTraffic : PlainSpan (offered plain (store 0xFFFFFFFE [1, 2])) 4 1 0xFFFFFFFE 2 ∧
    PlainSpan plainFill 4 1 0xFFFFFFC0 64 ∧ PlainSpan (offered plain (fetch 16 16)) 4 1 16 16 ∧
    PlainSpan (offered pair (fetch 0xFFE 8)) 4 1 0xFFE 8 ∧
    (plain.slot 1).queue.length < 48 ∧ (store 0xFFFFFFFE [1, 2]).countOk = true ∧ (fill 0xFFFFFFC0 64).countOk = true ∧
    (fetch 16 16).countOk = true ∧ plainFill.startup ≠ .held ∧ plainFill.intake = [fill 0xFFFFFFC0 64] ∧
    plainFill.fill = some ⟨plainFill.cut (plainFill.entry 4).layoutSet (plainFill.entry 4).view 0xFFFFFFC0 64, none⟩ := by
  refine ⟨plain_span _ _ _ _ _ ?_ ?_, plain_span _ _ _ _ _ ?_ ?_, plain_span _ _ _ _ _ ?_ ?_, plain_span _ _ _ _ _ ?_ ?_, ?_⟩ <;>
    decide +kernel

/-- A span beside a redirected entry: entry 0 of region 5, up to its pad word. -/
theorem witness_OneBoardTraffic_beside : ∀ p ∈ remapped.cut 0 .A 0x1000 4, p.region = some 5 ∧ p.entry = 0 ∧
    SpareRec.remap 5 1 .A 0 none 0 ∈ remapped.spareMap 1 := by decide +kernel

theorem witness_OneBoardTraffic_entry : Lowest (fun j => (plain.slot 1).pend[j] = none) 0 :=
  ⟨by decide +kernel, fun j hj => absurd hj (by simp)⟩

theorem test_plain_store : ((after .storeTaken (offered plain (store 0xFFFFFFFE [1, 2]))).slot 1).queue =
    [⟨{ kind := .store, count := 2, addr := 0xFFFFFFFE, data := [1, 2] }, .agentDerived⟩] := by decide +kernel
theorem test_one_run_across_regions : ((after .fetchTaken (offered pair (fetch 0xFFE 8))).slot 1).queue =
    [⟨{ kind := .fetch, tag := 0, count := 8, addr := 0xFFE }, .agentDerived⟩] := by decide +kernel
theorem test_plain_fill : ((after .fillStep plainFill).slot 1).queue =
    [⟨{ kind := .fill, count := 64, addr := 0xFFFFFFC0, data := [7] }, .agentDerived⟩] := by decide +kernel

/-- Board 4 TWINNED; slot 1 full but for `room`. -/
def crowded (n : Nat) : State := (twinned false).setSlot 1 { readyPort with queue := List.replicate n qStore }

theorem entry_legal : ((crowded 48).entry 4).Legal ∧ ((twinned false).entry 4).Legal ∧ (up.entry 4).Legal ∧
    ((bound walkCtx).entry 4).Legal := by
  unfold SteerEntry.Legal; decide +kernel

/-- Words 2 to 5 of the region's view A: a data word, a pad word, two data words of the next entry. -/
def across : Txn := store 0x1002 [1, 2, 3, 4]

theorem witness_StoreIsTakenWithRoom : (offered (crowded 48) across).startup ≠ .held ∧ across.boardId = some 4 ∧
    across.countOk = true ∧ (crowded 48).entry 4 = (twinned false).entry 4 ∧
    storesFor (offered (crowded 48) across) across 4 1 ≠ [] ∧
    48 < ((crowded 48).slot 1).queue.length + (storesFor (offered (crowded 48) across) across 4 1).length ∧
    (∀ k, storesFor (offered (crowded 47) across) across 4 k ≠ [] →
      ((crowded 47).slot k).queue.length + (storesFor (offered (crowded 47) across) across 4 k).length ≤ 48) := by decide +kernel

/-- A STORE whose side effects are of every kind: over an entry in flight, one walked and one uncovered of a BUILDING pair. -/
def mixing : State := { bound { walkCtx with segs := [⟨0, 5, 0, 2⟩], flights := [⟨0, 5, 1, .fetch, 0, false, false, false⟩] } with
  gaps := [⟨3, 5, 0⟩] }

theorem test_store_side_effects :
    let t := after .storeTaken (offered mixing (store 0x1000 [1, 2, 3, 4, 5, 6, 7, 8, 9]))
    t.gaps = [] ∧ t.globals.padWrites = 2 ∧ t.globals.uncoveredStores = 1 ∧ (t.ctx 3).revisit = [⟨0, 5, 1, 1⟩] ∧
    (t.slot 2).queue = [⟨{ kind := .store, count := 3, addr := 0x5000, data := [1, 2, 3] }, .agentDerived⟩] ∧
    t.entry 4 = mixing.entry 4 := by decide +kernel

theorem test_store_on_a_pair : storesFor (offered (crowded 32) across) across 4 1 =
      [⟨{ kind := .store, count := 4, addr := 0x1002, data := [1, 2, 3, 4] }, .agentDerived⟩] ∧
    storesFor (offered (crowded 32) across) across 4 2 =
      [⟨{ kind := .store, count := 3, addr := 0x5002, data := [1, 3, 4] }, .agentDerived⟩] ∧
    ((after .storeTaken (offered (crowded 32) across)).slot 2).queue =
      [⟨{ kind := .store, count := 3, addr := 0x5002, data := [1, 3, 4] }, .agentDerived⟩] ∧
    (after .storeTaken (offered (crowded 32) across)).globals.padWrites = 1 := by decide +kernel

/-- The primary of board 4 is named and not READY; its STALE twin is READY. -/
def staleTwin : State := pair.setSlot 1 {}

/-- Board 4 TWINNED with neither slot READY. -/
def bothGone : State := ((twinned false).setSlot 1 {}).setSlot 2 {}

theorem witness_TrafficWithoutABoard : up.startup ≠ .held ∧ (store 16 [1]).boardId = some 4 ∧ (store 16 [1]).countOk = true ∧
    NoBoard up 4 ∧ NoBoard staleTwin 4 ∧ NoBoard bothGone 4 ∧ (up.entry 4).primary = none ∧
    (staleTwin.entry 4).primary = some 1 ∧ staleTwin.isReady 1 = false ∧ staleTwin.isReady 2 = true ∧
    (staleTwin.entry 4).twin = some 2 := by
  unfold NoBoard; decide +kernel

theorem test_no_board : (after .storeTaken (offered up (store 16 [1]))).globals.noBoardDiscards = 1 ∧
    ((after .storeTaken (offered up (store 16 [1]))).notice .noBoardTraffic).detail = 255 ∧
    (after .fetchTaken (offered up (fetch 16 2))).upstream = [Txn.grantOf 1, Txn.noBoardReturn 5 4 2] ∧
    (after .fenceTaken (offered up fence)).upstream = [Txn.grantOf 1, Txn.fenceDoneOf 5 4 4] := by decide +kernel

theorem test_no_ready_board : ((after .storeTaken (offered staleTwin (store 16 [1]))).notice .noBoardTraffic).detail = 1 ∧
    (after .fenceTaken (offered staleTwin fence)).upstream = [Txn.grantOf 1, Txn.fenceDoneOf 5 4 4] ∧
    (after .storeTaken (offered bothGone (store 0x1000 [1, 2, 3, 4]))).globals =
      { noBoardDiscards := 2, padWrites := 1 } := by decide +kernel

/-- A FILL across two entries of the BUILDING pair: its first piece is on the way. -/
def fillBuilding : State := (offered (bound walkCtx) (fill 0x1000 7)).cutHead
def fillLater : State := after .fillStep fillBuilding

/-- The same FILL of the pair TWINNED: the primary receives it whole, the twin piece by piece. -/
def fillTwinned : State := (offered (twinned false) (fill 0x1000 7)).cutHead
def fillRest : State := after .fillStep fillTwinned

theorem witness_FillAdvancesByOnePiece : fillLater.startup ≠ .held ∧ fillLater.intake = [fill 0x1000 7] ∧
    (fillLater.fill.map (fun x => (x.pieces.length, x.whole))) = some (2, some []) ∧
    (fillRest.fill.map (fun x => (x.pieces.length, x.whole))) = some (3, some [1]) ∧
    (∀ k, (fillLater.entry 4).primary = some k ∨ (fillLater.entry 4).twin = some k →
      (fillLater.slot k).queue.length < 48) := by decide +kernel

/-- Which slots take the FILL whole: none of the BUILDING pair, the primary of the TWINNED one, the one board of `plain`. -/
theorem witness_FillAdvancesByOnePiece_whole :
    (∀ k, ¬ TakesWhole fillBuilding 4 (fillBuilding.cut 0 .A 0x1000 7) k) ∧
    (∀ k, k ∈ [(1 : SlotId)] ↔ TakesWhole fillTwinned 4 (fillTwinned.cut 0 .A 0x1000 7) k) ∧
    (∀ k, k ∈ [(1 : SlotId)] ↔ TakesWhole plainFill 4 (plainFill.cut 1 .A 0xFFFFFFC0 64) k) ∧
    (fillTwinned.cut 0 .A 0x1000 7).any (fillTwinned.reachesTwin (fillTwinned.entry 4)) = true ∧
    (plainFill.cut 1 .A 0xFFFFFFC0 64).any (plainFill.reachesTwin (plainFill.entry 4)) = false := by
  unfold TakesWhole; decide +kernel

theorem test_fill_whole_then_pieces : (fillRest.slot 1).queue =
      [⟨{ kind := .fill, count := 7, addr := 0x1000, data := [7] }, .agentDerived⟩] ∧ (fillRest.slot 2).queue = [] ∧
    let t := after .fillStep (after .fillStep (after .fillStep fillRest))
    (t.slot 1).queue.length = 1 ∧ (t.slot 2).queue.map (fun x => (x.txn.addr, x.txn.count)) = [(0x5000, 3), (0x5003, 3)] ∧
    t.globals.padWrites = 1 ∧ t.globals.noBoardDiscards = 0 ∧ t.intake = [] := by decide +kernel

theorem test_fillStep : (fillBuilding.fill.map (fun x => (x.pieces.length, x.whole))) = some (3, none) ∧
    (fillLater.slot 1).queue.map (·.txn.count) = [3] ∧ (fillLater.slot 2).queue.map (·.txn.addr) = [0x5000] ∧
    (after .fillStep (after .fillStep fillLater)).intake = [] := by decide +kernel

def twoParts : Assembly := ⟨3, 5, 4, 4, [some ⟨1, [1, 2]⟩, none]⟩

/-- A FETCH over a redirected entry of slot 1, whose table has FREE entries 5, 6 and 63 alone. -/
def splitting : State := remapped.setSlot 1 { readyPort with pend := Vector.ofFn (fun i =>
  if i = 5 ∨ i = 6 ∨ i = 63 then none else some ⟨.queued, .fetch, 1, .orphan⟩) }
def overSpare : Txn := fetch 0x1000 8
def split : State := after .fetchTaken (offered splitting overSpare)

/-- The first part of that FETCH as its board answers it, and the state in which it is awaited. -/
def awaitsPart (parts : List (Option PartResult)) : State :=
  { awaiting pair 1 5 ⟨.sent, .fetch, 2, .agent 5 4 2 2 (some 3)⟩ with assemblies := [⟨3, 5, 4, 4, parts⟩] }

theorem witness_SplitFetchIsTakenAndAssembled : (offered splitting overSpare).startup ≠ .held ∧ overSpare.countOk = true ∧
    (splitting.entry 4).primary = some 1 ∧ splitting.isReady 1 = true ∧
    (splitting.runsFor 1 .A (splitting.cut 0 .A 0x1000 8)).length = 3 ∧
    LowestOnes (fun i : PendIdx => (splitting.slot 1).pend[i] = none) [5, 6, 63] ∧
    (List.finRange 64).countP (fun i : PendIdx => ((splitting.setSlot 1 { splitting.slot 1 with
      pend := (splitting.slot 1).pend.set 63 (some ⟨.queued, .fetch, 1, .orphan⟩) }).slot 1).pend[i].isNone) = 2 ∧
    ({ up with assemblies := [twoParts] } : State).assemblies.find? (fun x => x.num == twoParts.num) = some twoParts ∧
    (twoParts.parts.set (2 - 1) (some ⟨0, [3, 4]⟩)) = [(⟨1, [1, 2]⟩ : PartResult), ⟨0, [3, 4]⟩].map some ∧
    none ∈ [none, none].set (2 - 1) (some (⟨0, [3, 4]⟩ : PartResult)) := by
  refine ⟨?_, ?_, ?_, ?_, ?_, ⟨?_, ?_, ?_⟩, ?_⟩ <;> decide +kernel

theorem witness_SplitFetchIsTakenAndAssembled_part :
    SlotBrings (awaitsPart [none, none]) 1 (returnOf 5 0 [3, 4]).frame (returnOf 5 0 [3, 4]) .ret ∧
    (awaitsPart [none, none]).isReady 1 = true ∧ (5 : PendIdx).val = (returnOf 5 0 [3, 4]).tag.toNat ∧
    ((awaitsPart [none, none]).slot 1).pend[(5 : PendIdx)] =
      some ⟨.sent, .fetch, (returnOf 5 0 [3, 4]).count, .agent 5 4 2 2 (some 3)⟩ := by
  refine ⟨brings ?_, ?_⟩ <;> decide +kernel

theorem test_split_fetch : (split.slot 1).queue.map (fun x => (x.txn.tag, x.txn.addr, x.txn.count)) =
      [(5, 0x1000, 4), (6, 0x2000, 3), (63, 0x1007, 1)] ∧
    (split.slot 1).pend[(6 : PendIdx)] = some ⟨.queued, .fetch, 3, .agent 5 4 2 3 (some 0)⟩ ∧
    split.assemblies = [⟨0, 5, 4, 8, [none, none, none]⟩] ∧ split.upstream = [Txn.grantOf 1] := by decide +kernel

theorem test_part_alone : (after (.returnReceived 1 (returnOf 5 0 [3, 4]).frame) (awaitsPart [none, none])).assemblies =
      [⟨3, 5, 4, 4, [none, some ⟨0, [3, 4]⟩]⟩] ∧
    (after (.returnReceived 1 (returnOf 5 0 [3, 4]).frame) (awaitsPart [none, none])).upstream = [] := by decide +kernel

theorem test_assembly : (({ up with assemblies := [twoParts] } : State).resolvePart 3 2 ⟨0, [3, 4]⟩).upstream =
    [{ kind := .ret, board := 4, status := 1, tag := 5, count := 4, data := [1, 2, 3, 4] }] := by decide +kernel

/-- A context that waits for its destination. -/
def waitCtx : Ctx := { walkCtx with state := .waiting }

theorem witness_FenceReachesItsTargets : fence.boardId = some 4 ∧ (plain.slot 1).queue.length < 48 ∧
    plain.startup ≠ .held ∧ ((twinned false).entry 4).primary = some 1 ∧ ((twinned false).entry 4).twin = some 2 ∧
    (twinned false).isReady 1 = true ∧ (twinned false).isReady 2 = true ∧
    ((twinned false).entry 4).twinState = .twinned ∧ ((bound walkCtx).entry 4).twinState = .building ∧
    ((twinned false).slot 1).pend[(0 : PendIdx)] = none ∧ ((twinned false).slot 2).pend[(0 : PendIdx)] = none ∧
    ((twinned false).setSlot 1 {}).isReady 1 = false ∧ ((twinned false).setSlot 1 {}).isReady 2 = true ∧
    ((bound waitCtx).setSlot 2 {}).isReady 1 = true ∧ ((bound waitCtx).setSlot 2 {}).isReady 2 = false ∧
    ((bound waitCtx).entry 4).twinState = .building ∧ ((twinned false).setSlot 2 {}).isReady 2 = false ∧
    48 ≤ ((crowded 48).slot 1).queue.length ∧ (∃ i : PendIdx, (splitting.slot 1).pend[i] ≠ none) := by
  decide +kernel

theorem test_fence : (after .fenceTaken (offered (twinned false) fence)).fences = [⟨0, 5, 4, .sent, .sent⟩] ∧
    ((after .fenceTaken (offered plain fence)).slot 1).queue.length = 1 ∧
    (after .fenceTaken (offered plain fence)).fences = [⟨0, 5, 4, .sent, .absent⟩] ∧
    (after .fenceTaken (offered ((bound waitCtx).setSlot 2 {}) fence)).fences = [⟨0, 5, 4, .sent, .absent⟩] ∧
    (after .fenceTaken (offered ((twinned false).setSlot 1 {}) fence)).fences = [⟨0, 5, 4, .failed, .sent⟩] ∧
    ((after .fenceTaken (offered ((twinned false).setSlot 1 {}) fence)).slot 2).pend[(0 : PendIdx)] =
      some ⟨.queued, .fence, 0, .fenceGroup 0 true⟩ ∧
    after .fenceTaken (offered (crowded 48) fence) = offered (crowded 48) fence := by decide +kernel

/-- The pair, TWINNED, with its twin or its primary out of READY. -/
def lone (k : SlotId) (auto : Bool) : State := (twinned auto).setSlot k {}

theorem steering_legal : (∀ b, ((twinned true).entry b).Legal) ∧
    ∀ a b k, ((twinned true).entry a).Names k → ((twinned true).entry b).Names k → a = b := by
  unfold SteerEntry.Legal SteerEntry.Names; decide +kernel

theorem witness_SteeringReactsToADeparture : (twinned true).SteeringLegal ∧ ((twinned true).entry 4).primary = some 1 ∧
    ((twinned true).entry 4).twinState = .twinned ∧ ((twinned true).entry 4).twin = some 2 ∧
    (twinned true).isReady 2 = true ∧ ((twinned true).entry 4).autoSwap = true ∧ ((twinned false).entry 4).autoSwap = false ∧
    (lone 2 true).isReady 2 = false ∧ (pair.entry 4).twinState ≠ .twinned ∧
    (∀ a, ¬ (((twinned true).entry a).primary = some 5 ∨ ((twinned true).entry a).twin = some 5)) :=
  ⟨steering_legal, by decide +kernel⟩

/-- Each of the six commands takes slot 2 out of READY, where a record may be pending, and the twin becomes STALE. -/
theorem witness_SteeringReactsToADeparture_commands :
    let s := awaiting (twinned true) 2 7 ⟨.sent, .fetch, 3, .orphan⟩
    s.startup ≠ .held ∧ s.isReady 2 = true ∧
    (∀ c ∈ [Instr.slotPresenceLost 2, .slotLinkLost 2, .replyTimerExpiry 2 7, .helloReceived 2 helloFrame, .haltReceived 2 haltFrame],
      (after c s).isReady 2 = false ∧ ((after c s).entry 4).twinState = .stale ∧ ((after c s).notice .twinStale).pending = true) ∧
    (after .slotHalt (asked s .slotHalt [2])).isReady 2 = false ∧
    ((after .slotHalt (asked s .slotHalt [2])).entry 4).twinState = .stale ∧ (∀ c, (s.ctx c).state = .idle) := by decide +kernel

theorem test_auto_swap_at_a_departure : ((after (.slotLinkLost 1) (twinned true)).entry 4).primary = some 2 ∧
    ((after (.slotLinkLost 1) (twinned true)).entry 4).view = .B ∧
    ((after (.slotLinkLost 1) (twinned true)).notice .autoSwap).pending = true ∧
    (after (.slotLinkLost 1) (twinned false)).entry 4 = (twinned false).entry 4 := by decide +kernel

/-- The engine at a departure: a walk with its FETCH outstanding on the source, and an end reached, with and without gaps. -/
def fetchingBound : State := awaiting (bound { walkCtx with
  deferred := some 0x77, flights := [⟨0, 5, 2, .fetch, 0, false, false, false⟩] }) 1 7 ⟨.sent, .fetch, 3, .walk 3 0⟩
def syncedBound : State := bound { walkCtx with state := .synced }

theorem witness_EngineReactsToADeparture : (∀ s ∈ [fetchingBound, syncedBound], s.startup ≠ .held ∧
      ∀ k ∈ [(1 : SlotId), 2], s.isReady k = true ∧ (after (.slotPresenceLost k) s).isReady k = false ∧
        (after (.slotLinkLost k) s).isReady k = false ∧ (after (.helloReceived k helloFrame) s).isReady k = false ∧
        (after (.haltReceived k haltFrame) s).isReady k = false) ∧
    (after (.replyTimerExpiry 1 7) fetchingBound).isReady 1 = false ∧
    (after .slotHalt (asked syncedBound .slotHalt [1])).isReady 1 = false ∧
    fetchingBound.lossReason 1 3 = some .sourceLost ∧ fetchingBound.lossReason 2 3 = some .destLost ∧
    syncedBound.lossReason 1 3 = none ∧ syncedBound.lossReason 2 3 = some .destLost ∧
    ({ syncedBound with gaps := [⟨3, 5, 7⟩] } : State).lossReason 1 3 = some .sourceLost ∧
    (syncedBound.setSlot 2 {}).lossReason 1 3 = some .destLost ∧
    (fetchingBound.entry 4).twinState = .building ∧ (fetchingBound.entry 4).bound = some 3 := by decide +kernel

theorem test_engine_at_a_departure : ((after (.slotLinkLost 1) syncedBound).ctx 3).state = .cutting ∧
    ((after (.slotLinkLost 1) syncedBound).ctx 3).cutClaim = true ∧
    ((after (.slotLinkLost 1) fetchingBound).ctx 3).failReason = some .sourceLost ∧
    ((after (.slotLinkLost 2) fetchingBound).slot 1).pend[(7 : PendIdx)] = some ⟨.sent, .fetch, 3, .orphan⟩ ∧
    ((after (.slotLinkLost 2) fetchingBound).upstream.map (fun t => (t.kind, t.tag, t.status))).head? =
      some (.mgmtReply, 0x77, 6) := by decide +kernel

/-! ### The Region Map, spares and the classification -/

theorem test_cut : (pair.cut 0 .A 0x0FFE 8).map (fun p => (p.kind, p.entry, p.offset, p.len, p.trans)) =
    [(.outside, 0, 0, 2, 0), (.entry, 0, 0, 3, 0x5000), (.pad, 0, 3, 1, 0), (.entry, 1, 0, 2, 0x5003)] := by decide +kernel

theorem test_cut_wraps : (pair.cut 0 .A 0xFFFFFFFF 2).map (fun p => (p.addr, p.len)) = [(0xFFFFFFFF, 1), (0, 1)] := by
  decide +kernel

def spared : State := (bound { walkCtx with state := .synced }).setSpareMap 2
  [.remap 5 1 .B 0 (some 3) 1, .retired 5 .B 1]

def windowed (n : Nat) : State := { spared with layouts := spared.layouts.set 0 ⟨0, 0, 0x9000, n⟩ }

theorem witness_SpareMapsRedirectAndAreWrittenOut : SpareRec.remap 5 1 .B 0 (some 3) 1 ∈ spared.spareMap 2 ∧
    ((windowed 0).windowFits 3 = false ∧ (windowed 1).windowFits 3 = true) ∧
    spared.slotAddr 2 .B 5 copyRegion 1 2 = 0x6002 ∧ spared.slotAddr 2 .B 5 copyRegion 2 2 = 0x5008 ∧
    ((windowed 2).writeOutStores 3).map (fun t => (t.addr, t.data)) = [(0x9000, [0x5003, 0x6000, 0, 0])] ∧
    ((windowed 1).writeOutStores 3).map (fun t => (t.addr, t.data)) = [(0x9000, [0x5003, 0x6000])] := by decide +kernel

theorem witness_TargetsAndClassification :
    (bound walkCtx).classify 3 5 .copy 1 = .walked ∧ (bound walkCtx).classify 3 5 .copy 2 = .ahead ∧
    (bound walkCtx).classify 3 5 .mirror 1 = .mirrorMode ∧ (bound walkCtx).classify 3 7 .copy 0 = .uncovered ∧
    (bound { walkCtx with flights := [⟨0, 5, 1, .fetch, 0, false, false, false⟩] }).classify 3 5 .copy 1 = .inFlight := by
  decide +kernel

def revisiting (l : List Range) : State := bound { walkCtx with revisit := l }

/-- Every record of the revisit pool in use, by context 3. -/
def exhausted (n : Nat) : State := bound { walkCtx with
  rewalkCount := n, revisit := (List.finRange 128).map (fun m => ⟨m, 5, 2 * m.val, 2 * m.val⟩) }

/-- Redirected neighbours stay apart though their spares follow each other, and apart from what follows them. -/
theorem test_redirected_runs_stay_apart : (remapped.runsFor 2 .B (remapped.cut 0 .B 0x5000 12)).map (fun r => (r.addr, r.len)) =
      [(0x5000, 3), (0x6000, 3), (0x6003, 3), (0x5009, 3)] ∧
    (pair.runsFor 2 .B (pair.cut 0 .B 0x5000 12)).map (fun r => (r.addr, r.len)) = [(0x5000, 12)] := by decide +kernel

/-- Two regions, one at the top of view A and one at its bottom, that follow each other in view B. -/
def wrapping : State := ((twinned false).setRegion 5
    (some ⟨0, 4, 1, ⟨0xFFFFFFFC, 4, 0x2000, 0⟩, ⟨100, 4, 0x6000, 0⟩, .copy, none, 0⟩)).setRegion 6
    (some ⟨0, 4, 1, ⟨0, 4, 0x3000, 0⟩, ⟨104, 4, 0x7000, 0⟩, .copy, none, 0⟩)

theorem test_no_run_joins_the_wrap : (wrapping.runsFor 2 .A (wrapping.cut 0 .A 0xFFFFFFFC 8)).map (fun r => (r.addr, r.len)) =
      [(0xFFFFFFFC, 4), (0, 4)] ∧
    (wrapping.runsFor 2 .B (wrapping.cut 0 .A 0xFFFFFFFC 8)).map (fun r => (r.addr, r.len)) = [(100, 4), (104, 4)] := by
  decide +kernel

theorem witness_RevisitAdditions :
    ((revisiting []).addRevisit 3 5 3).1.ctx 3 =
      { walkCtx with revisit := [⟨0, 5, 3, 3⟩], counters := ⟨0, 0, 1, 0, 0, 0, 0⟩ } ∧
    ((revisiting [⟨0, 5, 2, 4⟩]).addRevisit 3 5 4).1 = revisiting [⟨0, 5, 2, 4⟩] ∧
    (((revisiting [⟨0, 5, 2, 4⟩]).addRevisit 3 5 5).1.ctx 3).revisit = [⟨0, 5, 2, 5⟩] ∧
    (((revisiting [⟨0, 5, 2, 4⟩]).addRevisit 3 5 1).1.ctx 3).revisit = [⟨0, 5, 1, 4⟩] ∧
    (((revisiting [⟨0, 5, 1, 2⟩, ⟨1, 5, 4, 5⟩]).addRevisit 3 5 3).1.ctx 3).revisit = [⟨0, 5, 1, 5⟩] := by decide +kernel

theorem witness_RevisitAdditions_full : (∀ m : RangeId, ∃ g ∈ ((exhausted 1).ctx 3).revisit, g.num = m) ∧
    (¬ ∃ g ∈ ((exhausted 1).ctx 3).revisit, g.region = 6 ∧ g.first ≤ 3 ∧ 3 ≤ g.last) ∧
    ((exhausted 1).ctx 3).rewalkCount < ((exhausted 1).ctx 3).rewalkLimit ∧
    ((exhausted 2).ctx 3).rewalkLimit ≤ ((exhausted 2).ctx 3).rewalkCount ∧
    (((exhausted 1).addRevisit 3 6 3).1.ctx 3).rewalkCount = 2 ∧
    (((exhausted 2).addRevisit 3 6 3).1.ctx 3).failReason = some .churn := by decide +kernel

/-! ### Notices -/

def quiet : State := { up with floor := 15 }
def raised : State := after .fenceTaken (offered up fence)

theorem witness_OccurrenceRecordsAndSends :
    ((up.notice .slotUp).sent = false ∧ (up.notice .slotUp).mask = false ∧ up.floor < up.levelOf .slotUp) ∧
    ¬ quiet.floor < quiet.levelOf .slotUp ∧
    (up.raise .slotUp 3).upstream = [{ kind := .notice, board := 15, count := 2, data := [0x01080003, 1] }] ∧
    ((up.raise .slotUp 3).raise .slotUp 4).upstream.length = 1 ∧ (quiet.raise .slotUp 3).upstream = [] := by decide +kernel

def full (k : NoticeKind) (n : BitVec 16) : State := quiet.setNotice k ⟨false, true, n, 2, false⟩

theorem test_notice_count_saturates : (((full .rewalk 65534).raise .rewalk 1).notice .rewalk).count = 65535 ∧
    (((full .rewalk 65535).raise .rewalk 1).notice .rewalk).count = 65535 := by decide +kernel

theorem witness_NoticeConfiguration : Meets up .noticeLevel [5, 15] ∧ Meets up .noticeLevel [6, 0] ∧
    Meets up .noticeFloor [15] ∧ Meets up .noticeFloor [16] ∧ Meets up .maskSet [1, 20] ∧ Meets up .maskSet [] ∧
    Meets up .maskClear [20] ∧ Meets up .maskClear [0] := by
  refine ⟨?_, ?_, ?_, ?_, ?_, ?_, ?_, ?_⟩ <;> exact meets (by decide +kernel) (by decide +kernel)

theorem witness_NoticeConfiguration_operands : (∀ (g : GroupId) (l : Level), [6, 0] ≠ [g.val, l.val]) ∧
    (∀ l : Level, [16] ≠ [l.val]) ∧ [1, 20] = [NoticeKind.slotUp, .spareUsed].map (fun k => k.index.val + 1) := by
  decide +kernel

theorem test_notice_requests : answer .noticeLevel (asked up .noticeLevel [5, 15]) = some (0, false, []) ∧
    answer .noticeLevel (asked up .noticeLevel [6, 0]) = some (1, false, []) ∧
    (after .noticeFloor (asked (full .rewalk 1) .noticeFloor [1])).upstream.length = 3 ∧
    answer .maskSet (asked up .maskSet []) = some (1, false, []) ∧
    ((after .maskClear (asked (after .maskSet (asked up .maskSet [20])) .maskClear [20])).notice .spareUsed).mask = false := by
  decide +kernel

/-- Nine kinds pending. -/
def nine : State := [NoticeKind.slotUp, .slotDown, .agentCheck, .autoSwap, .ctxDone, .rewalk, .gapAdded, .spareUsed,
  .twinStale].foldl (fun s k => s.raise k 1) quiet

theorem witness_CollectReturnsPendingKinds : Meets nine .collect [] ∧ Meets nine .collect [1] ∧
    nine.pendingKinds = [.autoSwap, .twinStale, .ctxDone, .slotUp, .slotDown, .gapAdded, .spareUsed, .agentCheck, .rewalk] :=
  ⟨meets (by decide +kernel) rfl, meets (by decide +kernel) rfl, by decide +kernel⟩

theorem test_collect : ((after .collect (asked nine .collect [])).upstream.getLast?.map (fun t => (t.more, t.count))) =
      some (true, 16) ∧
    (after .collect (asked nine .collect [])).pendingKinds = [.rewalk] := by decide +kernel

/-! ### Management -/

def strange : Txn := { mgmt .collect [] with addr := 4 }

theorem witness_RequestsThatNameNothing : (offered up strange).startup ≠ .held ∧ strange.kind = .mgmt ∧
    strange.asRequest = none ∧ Meets up .readState [12, 0, 0] ∧ Meets up .readState [4, 64, 0] ∧
    Meets up .readState [4, 63, 256] ∧ Meets up .readState [11, 25, 0] ∧ Meets up .readState [4, 63, 255] := by
  refine ⟨by decide +kernel, rfl, by decide +kernel, ?_, ?_, ?_, ?_, ?_⟩ <;> exact meets (by decide +kernel) (by decide +kernel)

theorem test_unknown_request : (after .unknownRequest (offered up strange)).upstream =
      [Txn.grantOf 1, { kind := .mgmtReply, board := 15, status := 5, tag := 9, addr := 4 }] ∧
    answer .readStateBridge (asked up .readState [12, 0, 0]) = some (1, false, []) ∧
    answer .readStateRegion (asked up .readState [4, 64, 0]) = some (1, false, []) ∧
    after .readStateSlot (asked up .readState [4, 63, 255]) = asked up .readState [4, 63, 255] := by decide +kernel

theorem witness_ReadStateRecords : (∀ x ∈ [(0, 0), (1, 7), (2, 14), (3, 3), (4, 63), (4, 5), (5, 15)],
      Meets spared .readState [x.1, x.2, 255]) ∧ spared.region 63 = none ∧ spared.region 5 = some copyRegion ∧
    255 % 2 = 1 ∧ Meets spared .readState [5, 15, 0] := by
  refine ⟨fun x hx => ?_, by decide +kernel, by decide +kernel, rfl, meets (by decide +kernel) (by decide +kernel)⟩
  simp only [List.mem_cons, List.not_mem_nil, or_false] at hx
  rcases hx with rfl | rfl | rfl | rfl | rfl | rfl | rfl <;> exact meets (by decide +kernel) (by decide +kernel)

theorem test_read_records : answer .readStateBridge (asked up .readState [0, 0, 0]) = some (0, false, [2460, 3, 0, 0]) ∧
    answer .readStateSlot (asked pair .readState [1, 1, 0]) = some (0, false, [1, 3, 3, 4, 0, 0, 1, 7, 0, 0, 0, 0, 0]) ∧
    answer .readStateSteer (asked spared .readState [2, 4, 0]) = some (0, false, [4, 1, 2, 2, 0, 0, 0, 3]) ∧
    answer .readStateLayout (asked (windowed 9) .readState [3, 0, 0]) = some (0, false, [0, 0, 0, 0x9000, 9, 2, 1, 1]) := by
  decide +kernel

theorem test_read_region_and_context : answer .readStateRegion (asked spared .readState [4, 5, 0]) =
      some (0, false, [5, 0, 3, 8, 0x1000, 4, 0x5000, 3, 0, 1, 0xDEAD, 0x2000, 2, 0x6000, 2, 1]) ∧
    answer .readStateContext (asked spared .readState [5, 3, 0]) =
      some (0, true, [3, 5, 4, 1, 1, 2, 0, 2, 20, 1, 2, 0, 0]) ∧
    answer .readStateContext (asked spared .readState [5, 3, 1]) =
      some (0, false, [3, 5, 2, 1, 2, 0, 0, 0, 0, 0, 0, 0, 0, 0, 254]) := by decide +kernel

theorem witness_ReadStateLists : ∀ x ∈ [(6, 15), (7, 15), (8, 15), (8, 16), (9, 7), (10, 0), (11, 0), (11, 8), (11, 24)],
    Meets spared .readState [x.1, x.2, 255] := by
  intro x hx
  simp only [List.mem_cons, List.not_mem_nil, or_false] at hx
  rcases hx with rfl | rfl | rfl | rfl | rfl | rfl | rfl | rfl | rfl <;> exact meets (by decide +kernel) (by decide +kernel)

/-- Two segments: 14 bits of head and twice 62 bits, worked out outside Lean, most significant bit first. -/
theorem test_read_lists : answer .readStateSegments (asked spared .readState [6, 3, 0]) =
      some (0, false, [0x01000050, 0x00000000, 0x00701180, 0x00000000, 0x01C00000]) ∧
    (answer .readStateRevisit (asked spared .readState [7, 3, 0])) = some (0, false, [0]) ∧
    answer .readStateGaps (asked { up with gaps := [⟨3, 5, 1⟩] } .readState [8, 16, 0]) = some (0, false, [0x0080C500, 0x00010000]) ∧
    (answer .readStateSpares (asked spared .readState [9, 2, 0])).map (·.2.1) = some false ∧
    (answer .readStateNotices (asked up .readState [10, 0, 1])).map (·.2.1) = some true ∧
    (answer .readStateCounters (asked up .readState [11, 24, 0])).map (·.2.2.length) = some 9 := by decide +kernel

/-- Context 3 CUTTING with a deferred reply, its claims and reply waiting; slot 2's queue holds one of each mark. -/
def cutting : State :=
  let q : QTxn := ⟨{ kind := .fence, tag := 1 }, .bridgeGenerated⟩
  ((bound { walkCtx with state := .cutting, deferred := some 0x77 }).setSlot 2 { readyPort with
    queue := [qStore, q], pend := readyPort.pend.set 1 (some ⟨.queued, .fence, 0, .cutover 3⟩) })

theorem cutting_wired : cutting.Wired := by
  refine ⟨⟨?_, ?_⟩, ?_⟩
  · unfold SteerEntry.Legal; decide +kernel
  · unfold SteerEntry.Names; decide +kernel
  · unfold State.BindingLegal; decide +kernel

theorem witness_SoftResetClearsTheMigrationState : Meets cutting .softReset [] ∧ Meets cutting .softReset [0] ∧
    (asked cutting .softReset []).Wired :=
  ⟨meets (by decide +kernel) rfl, meets (by decide +kernel) rfl, cutting_wired⟩

theorem test_softReset : (after .softReset (asked cutting .softReset [])).upstream.map (fun t => (t.kind, t.tag, t.status, t.data)) =
      [(.grant, 0, 0, []), (.mgmtReply, 0x77, 6, [9]), (.mgmtReply, 9, 0, [])] ∧
    ((after .softReset (asked cutting .softReset [])).slot 2).queue = [qStore] ∧
    (after .softReset (asked cutting .softReset [])).entry 4 = { primary := some 1, twin := some 2, twinState := .stale } := by
  decide +kernel

def counted : State := { up with globals := ⟨1, 2, 3, 4, 5, 6⟩ }

theorem witness_CountersClearByScope : (∀ x ∈ [(0, 0), (1, 0), (2, 7), (3, 15), (0, 1), (2, 8), (4, 0)],
      Meets counted .countersClear [x.1, x.2]) ∧
    [0, 1] ≠ [0, 0] ∧ (∀ k : SlotId, [2, 8] ≠ [2, k.val]) ∧ ∀ c : CtxId, [3, 16] ≠ [3, c.val] := by
  refine ⟨fun x hx => ?_, by decide, by decide, by decide⟩
  simp only [List.mem_cons, List.not_mem_nil, or_false] at hx
  rcases hx with rfl | rfl | rfl | rfl | rfl | rfl | rfl <;> exact meets (by decide +kernel) (by decide +kernel)

theorem test_countersClear : (after .countersClear (asked counted .countersClear [1, 0])).globals = {} ∧
    (after .countersClear (asked counted .countersClear [2, 7])).globals = counted.globals ∧
    answer .countersClear (asked counted .countersClear [2, 8]) = some (1, false, []) := by decide +kernel

theorem witness_SlotRetryAndHalt : Meets halted .slotRetry [3] ∧ Meets disabled .slotRetry [3] ∧ Meets up .slotRetry [8] ∧
    Meets settling .slotRetry [3] ∧ Meets pair .slotHalt [1] ∧ Meets settling .slotHalt [3] ∧
    (halted.slot 3).state = .halted ∧ (disabled.slot 3).state = .disabled ∧ (∀ k : SlotId, [8] ≠ [k.val]) ∧
    (settling.slot 3).state ≠ .disabled ∧ (settling.slot 3).state ≠ .halted ∧ pair.isReady 1 = true ∧
    settling.isReady 3 = false := by
  refine ⟨?_, ?_, ?_, ?_, ?_, ?_, by decide +kernel⟩ <;> exact meets (by decide +kernel) (by decide +kernel)

theorem test_slot_requests : ((after .slotRetry (asked disabled .slotRetry [3])).slot 3).state = .awaitHello .retraining ∧
    ((after .slotHalt (asked pair .slotHalt [1])).slot 1).halt = some ⟨.agent, 0⟩ ∧
    answer .slotHalt (asked settling .slotHalt [3]) = some (3, false, []) := by decide +kernel

/-! ### Steering requests -/

theorem witness_SteerSet : Meets up .steerSet [14, 7, 3, 1, 1] ∧ Meets up .steerSet [15, 0, 0, 0, 0] ∧
    Meets (twinned true) .steerSet [4, 2, 0, 0, 0] ∧ Meets (twinned true) .steerSet [4, 1, 1, 0, 0] ∧
    (∀ b : BoardId, 15 ≠ b.val) ∧ (∀ x, (up.entry x).primary ≠ some 7 ∧ (up.entry x).twin ≠ some 7) ∧
    (up.entry 14).twinState = .none ∧ ((twinned true).entry 4).twin = some 2 ∧
    (((twinned true).entry 4).twinState = .twinned ∧ ((twinned true).entry 4).layoutSet ≠ 1) := by
  refine ⟨?_, ?_, ?_, ?_, by decide +kernel⟩ <;> exact meets (by decide +kernel) (by decide +kernel)

theorem test_steerSet : (after .steerSet (asked up .steerSet [14, 7, 3, 1, 1])).entry 14 =
      { primary := some 7, layoutSet := 3, view := .B, autoSwap := true } ∧
    answer .steerSet (asked (twinned true) .steerSet [4, 2, 0, 0, 0]) = some (3, false, []) ∧
    answer .steerSet (asked (twinned true) .steerSet [4, 1, 0, 0, 0]) = some (0, false, []) := by decide +kernel

/-- Board 4 on slot 1 alone. -/
def lonely : State := pair.setEntry 4 { primary := some 1 }

theorem witness_SteerClearAndTwin : Meets pair .steerClear [4] ∧ Meets pair .steerClear [15] ∧ Meets up .steerClear [4] ∧
    Meets (twinned true) .steerClear [4] ∧ Meets lonely .twinSet [4, 3] ∧ Meets lonely .twinSet [4, 8] ∧
    Meets up .twinSet [4, 3] ∧ Meets pair .twinSet [4, 3] ∧ Meets pair .twinClear [4] ∧ Meets pair .twinClear [15] ∧
    Meets up .twinClear [4] ∧ Meets (twinned true) .twinClear [4] := by
  refine ⟨?_, ?_, ?_, ?_, ?_, ?_, ?_, ?_, ?_, ?_, ?_, ?_⟩ <;> exact meets (by decide +kernel) (by decide +kernel)

theorem witness_SteerClearAndTwin_states : (pair.entry 4).primary ≠ none ∧ (pair.entry 4).twinState = .stale ∧
    (up.entry 4).primary = none ∧ ((twinned true).entry 4).twinState = .twinned ∧ (lonely.entry 4).primary ≠ none ∧
    (lonely.entry 4).twinState = .none ∧ (∀ x, (lonely.entry x).primary ≠ some 3 ∧ (lonely.entry x).twin ≠ some 3) ∧
    (lonely.entry 4).primary = some 1 := by decide +kernel

theorem test_steering_requests : (after .steerClear (asked pair .steerClear [4])).entry 4 = {} ∧
    (after .twinSet (asked lonely .twinSet [4, 3])).entry 4 = { primary := some 1, twin := some 3, twinState := .stale } ∧
    answer .twinSet (asked lonely .twinSet [4, 1]) = some (3, false, []) ∧
    (after .twinClear (asked pair .twinClear [4])).entry 4 = { primary := some 1 } := by decide +kernel

theorem witness_SwapExchangesThePair : Meets (twinned true) .swap [4] ∧ Meets up .swap [15] ∧ Meets up .swap [4] ∧
    Meets pair .swap [4] ∧ ((twinned true).entry 4).primary = some 1 ∧ ((twinned true).entry 4).twinState = .twinned ∧
    (twinned true).isReady 1 = true ∧ (lone 1 true).isReady 1 = false ∧ (pair.entry 4).twinState ≠ .twinned := by
  refine ⟨?_, ?_, ?_, ?_, by decide +kernel⟩ <;> exact meets (by decide +kernel) (by decide +kernel)

theorem test_swap : (after .swap (asked (twinned false) .swap [4])).entry 4 =
      { primary := some 2, twin := some 1, twinState := .twinned, view := .B } ∧
    ((after .swap (asked (lone 1 false) .swap [4])).entry 4).twinState = .stale := by decide +kernel

/-! ### The Region Map by request -/

/-- Not in use, not held: the pair's entry is STALE. Windows at the top of the address space. -/
def topWindow : List Nat := [3, 0xFFFFFF80, 64, 0, 0]

theorem witness_LayoutSetAndRegionClear : Meets up .layoutSet topWindow ∧ Meets up .layoutSet [3, 0xFFFFFF81, 64, 0, 0] ∧
    Meets up .layoutSet [3, 0, 65, 0, 0] ∧ Meets (twinned true) .layoutSet [0, 0x9000, 1, 0, 0] ∧
    Meets pair .layoutSet [0, 0x0FFF, 1, 0, 0] ∧ Meets pair .layoutSet [0, 0x0FFE, 1, 0, 0] ∧
    Meets pair .regionClear [5] ∧ Meets pair .regionClear [64] ∧ Meets pair .regionClear [7] ∧
    Meets (twinned true) .regionClear [5] := by
  refine ⟨?_, ?_, ?_, ?_, ?_, ?_, ?_, ?_, ?_, ?_⟩ <;> exact meets (by decide +kernel) (by decide +kernel)

theorem witness_LayoutSetAndRegionClear_states : ((twinned true).InUse 0 ∧ ¬ pair.InUse 0) ∧
    ((twinned true).Held 5 ∧ ¬ pair.Held 5 ∧ ¬ pair.Held 6) ∧ pair.region 7 = none ∧
    0xFFFFFF80 + 2 * 64 ≤ 4294967296 ∧
    (∃ a, ((⟨0x0FFF, 1, 0, 0⟩ : LayoutSet).Window .A a ∧ copyRegion.Extent .A a)) := by
  refine ⟨⟨?_, ?_⟩, ⟨?_, ?_, ?_⟩, by decide +kernel, by decide, 0x1000, ?_, ?_⟩
  · unfold State.InUse; decide +kernel
  · unfold State.InUse; decide +kernel
  · exact .inl ⟨copyRegion, by decide +kernel, by unfold State.InUse; decide +kernel⟩
  · rw [← regionHeld_iff]; decide +kernel
  · rw [← regionHeld_iff]; decide +kernel
  · unfold LayoutSet.Window; decide
  · unfold Region.Extent; decide

theorem test_layoutSet : answer .layoutSet (asked up .layoutSet topWindow) = some (0, false, []) ∧
    answer .layoutSet (asked up .layoutSet [3, 0xFFFFFF81, 64, 0, 0]) = some (1, false, []) ∧
    answer .layoutSet (asked (twinned true) .layoutSet [0, 0x9000, 1, 0, 0]) = some (3, false, []) ∧
    answer .layoutSet (asked pair .layoutSet [0, 0x0FFF, 1, 0, 0]) = some (1, false, []) ∧
    answer .layoutSet (asked pair .layoutSet [0, 0x0FFE, 1, 0, 0]) = some (0, false, []) := by decide +kernel

theorem test_regionClear : (after .regionClear (asked pair .regionClear [5])).region 5 = none ∧
    answer .regionClear (asked pair .regionClear [7]) = some (2, false, []) ∧
    answer .regionClear (asked (twinned true) .regionClear [5]) = some (3, false, []) := by decide +kernel

/-- The words of a load of region 7 in set 0, and the record they load. -/
def loadWords (baseA width : Nat) : List Nat :=
  [7, 0, width, 2, baseA, 16, 0x8000, 16, 0, 255, 1, 0x2100, 1, 0x6100, 16]
def loaded (baseA : Word) (width : Nat) : Region :=
  ⟨0, width, 2, ⟨baseA, 16, 0x2100, 1⟩, ⟨0x8000, 16, 0x6100, 16⟩, .copy, some 255, 1⟩

theorem witness_RegionLoadInThreeStages : Meets pair .regionLoad (loadWords 0x1020 16) ∧
    Meets pair .regionLoad (loadWords 0x101F 16) ∧ Meets pair .regionLoad (loadWords 0x1020 17) ∧
    Meets (twinned true) .regionLoad (loadWords 0x1020 16) ∧ (twinned true).InUse 0 ∧ ¬ pair.InUse 0 ∧
    pair.region 7 = none ∧ (copyRegion.Extent .A 0x101F ∧ (loaded 0x101F 16).Extent .A 0x101F) := by
  refine ⟨?_, ?_, ?_, ?_, ?_, ?_, by decide +kernel, ?_⟩
  iterate 4 exact meets (by decide +kernel) (by decide +kernel)
  · unfold State.InUse; decide +kernel
  · unfold State.InUse; decide +kernel
  · unfold Region.Extent; decide

theorem test_regionLoad : (after .regionLoad (asked pair .regionLoad (loadWords 0x1020 16))).region 7 = some (loaded 0x1020 16) ∧
    answer .regionLoad (asked pair .regionLoad (loadWords 0x101F 16)) = some (1, false, []) ∧
    answer .regionLoad (asked pair .regionLoad (loadWords 0x1020 17)) = some (1, false, []) ∧
    answer .regionLoad (asked (twinned true) .regionLoad (loadWords 0x1020 17)) = some (1, false, []) ∧
    answer .regionLoad (asked (twinned true) .regionLoad (loadWords 0x1020 16)) = some (3, false, []) := by decide +kernel

/-! ### Contexts by request -/

theorem witness_ContextIsOpenedAndListed : Meets pair .ctxOpen [15, 4, 3, 65535, 4, 1, 7] ∧
    Meets pair .ctxOpen [3, 4, 0, 0, 1, 0] ∧ Meets pair .ctxOpen [3, 4, 0, 0, 5, 0, 7] ∧ Meets (bound openCtx) .ctxOpen [3, 4, 0, 0, 1, 0] ∧
    Meets up .ctxOpen [3, 4, 0, 0, 1, 0] ∧ Meets (twinned true) .ctxOpen [3, 4, 0, 0, 1, 0] ∧
    Meets (bound openCtx) .segAppend [3, 5, 0, 8] ∧ Meets (bound openCtx) .segAppend [3, 5, 0, 0] ∧
    Meets (bound openCtx) .segAppend [3, 5, 1, 8] ∧ Meets (bound walkCtx) .segAppend [3, 5, 0, 8] := by
  refine ⟨?_, ?_, ?_, ?_, ?_, ?_, ?_, ?_, ?_, ?_⟩ <;> exact meets (by decide +kernel) (by decide +kernel)

/-- Every record of the descriptor pool in use, one entry each of region 6. -/
def noSegment : State := bound { openCtx with segs := (List.finRange 256).map (fun m => ⟨m, 6, m.val, 1⟩) }

theorem witness_ContextIsOpenedAndListed_states : (pair.ctx 3).state = .idle ∧ (pair.entry 4).primary = some 1 ∧
    (pair.entry 4).twin = some 2 ∧ (pair.entry 4).twinState = .stale ∧ (up.entry 4).primary = none ∧
    ((twinned true).entry 4).twinState ≠ .stale ∧ ((bound openCtx).ctx 3).state ≠ .idle ∧
    ((bound walkCtx).ctx 3).state ≠ .opened ∧ 0 + 8 ≤ copyRegion.entries ∧ ¬ 1 + 8 ≤ copyRegion.entries ∧
    (∀ m : SegmentId, ∃ g ∈ (noSegment.ctx 3).segs, g.num = m) ∧
    ∀ g ∈ (noSegment.ctx 3).segs, 1 ≤ g.count ∧ g.region ≠ 5 := by decide +kernel

theorem test_ctxOpen : (after .ctxOpen (asked pair .ctxOpen [3, 4, 2, 20, 1, 0])).ctx 3 = openCtx ∧
    (after .ctxOpen (asked pair .ctxOpen [3, 4, 2, 20, 1, 0])).entry 4 = buildingEntry ∧
    answer .ctxOpen (asked pair .ctxOpen [3, 4, 0, 0, 5, 0, 7]) = some (1, false, []) ∧
    answer .ctxOpen (asked (bound openCtx) .ctxOpen [3, 4, 0, 0, 1, 0]) = some (3, false, []) := by decide +kernel

theorem test_segAppend : answer .segAppend (asked (bound openCtx) .segAppend [3, 5, 0, 8]) = some (0, false, [0]) ∧
    answer .segAppend (asked (bound openCtx) .segAppend [3, 5, 1, 8]) = some (1, false, []) ∧
    answer .segAppend (asked noSegment .segAppend [3, 5, 0, 8]) = some (4, false, []) := by decide +kernel

def listed : Ctx := { openCtx with segs := walkCtx.segs }
def atRest : Ctx := { walkCtx with phase := .revisit, cur := some 1, frontier := 8 }

theorem witness_ContextIsStartedAndPaused : Meets (bound listed) .ctxStart [3] ∧ Meets up .ctxStart [16] ∧
    Meets (bound walkCtx) .ctxPause [3] ∧ Meets up .ctxPause [16] ∧ Meets (bound { walkCtx with state := .paused }) .ctxResume [3] ∧
    Meets up .ctxResume [16] ∧ Meets (bound walkCtx) .stopPoint [3, 255, 16777215, 16777215, 2] ∧
    Meets (bound walkCtx) .stopPoint [3, 63, 0, 0, 0] ∧ Meets (bound walkCtx) .stopPoint [3, 64, 0, 0, 1] := by
  refine ⟨?_, ?_, ?_, ?_, ?_, ?_, ?_, ?_, ?_⟩ <;> exact meets (by decide +kernel) (by decide +kernel)

theorem witness_ContextIsStartedAndPaused_states : (bound listed).isReady 1 = true ∧
    ((bound listed).setSlot 1 {}).isReady 1 = false ∧ ((bound listed).ctx 3).segs = ⟨0, 5, 0, 8⟩ :: [⟨1, 6, 0, 8⟩] ∧
    ((bound openCtx).ctx 3).segs = [] ∧ ((bound walkCtx).ctx 3).state = .walking ∧ (up.ctx 3).state = .idle ∧
    (atRest.phase = .revisit ∧ atRest.revisit = [] ∧ atRest.flights = []) ∧ walkCtx.phase ≠ .revisit ∧
    (∀ c : CtxId, [16] ≠ [c.val]) := by decide +kernel

theorem test_start_and_pause : (after .ctxStart (asked (bound listed) .ctxStart [3])).ctx 3 = { walkCtx with frontier := 0 } ∧
    answer .ctxStart (asked (bound openCtx) .ctxStart [3]) = some (2, false, []) ∧
    (after .ctxPause (asked (bound walkCtx) .ctxPause [3])).ctx 3 = { walkCtx with state := .paused, pauseReason := some .agent } ∧
    ((after .ctxResume (asked (bound { atRest with state := .paused }) .ctxResume [3])).ctx 3).state = .synced := by decide +kernel

theorem test_stopPoint : ((after .stopPoint (asked (bound walkCtx) .stopPoint [3, 255, 16777215, 16777215, 2])).ctx 3).stop =
      some ⟨none, 16777215, 16777215, true⟩ ∧
    ((after .stopPoint (asked (bound { walkCtx with stop := some ⟨none, 0, 0, true⟩ }) .stopPoint [3, 63, 0, 0, 0])).ctx 3).stop = none ∧
    answer .stopPoint (asked (bound walkCtx) .stopPoint [3, 64, 0, 0, 1]) = some (1, false, []) := by decide +kernel

def failed : Ctx := { walkCtx with state := .failed, failReason := some .churn, segs := [], cur := none }

theorem witness_EndOfAContext : Meets cutting .ctxAbort [3] ∧ Meets up .ctxAbort [16] ∧ Meets up .ctxAbort [15] ∧
    Meets (bound openCtx) .ctxClose [3] ∧ Meets (bound walkCtx) .ctxClose [3] ∧ Meets up .ctxClose [16] ∧
    (cutting.ctx 3).state ≠ .idle ∧ (cutting.ctx 3).state ≠ .failed ∧ (up.ctx 15).state = .idle ∧
    ((bound openCtx).ctx 3).state = .opened ∧ ((bound failed).ctx 3).state = .failed := by
  refine ⟨?_, ?_, ?_, ?_, ?_, ?_, by decide +kernel⟩ <;> exact meets (by decide +kernel) (by decide +kernel)

theorem test_ctxAbort : ((after .ctxAbort (asked cutting .ctxAbort [3])).upstream.map (fun t => (t.kind, t.tag, t.status, t.data))) =
      [(.grant, 0, 0, []), (.mgmtReply, 0x77, 6, [8]), (.mgmtReply, 9, 0, [])] ∧
    ((after .ctxAbort (asked cutting .ctxAbort [3])).slot 2).pend[(1 : PendIdx)] = some ⟨.queued, .fence, 0, .orphan⟩ ∧
    ((after .ctxAbort (asked cutting .ctxAbort [3])).ctx 3).outcome = some .aborted := by decide +kernel

theorem test_ctxClose : ((after .ctxClose (asked (bound openCtx) .ctxClose [3])).ctx 3).outcome = some .closed ∧
    ((after .ctxClose (asked (bound openCtx) .ctxClose [3])).entry 4).twinState = .stale ∧
    answer .ctxClose (asked (bound walkCtx) .ctxClose [3]) = some (3, false, []) := by decide +kernel

theorem witness_SyncedAndCutover : Meets (windowed 1) .ctxCutover [3] ∧ Meets (windowed 0) .ctxCutover [3] ∧
    Meets up .ctxCutover [16] ∧ Meets (bound walkCtx) .ctxCutover [3] ∧ ((windowed 1).ctx 3).state = .synced ∧
    (∀ g ∈ (windowed 1).gaps, g.ctx ≠ 3) ∧ (windowed 1).windowFits 3 = true ∧ (windowed 0).windowFits 3 = false ∧
    (windowed 1).isReady ((windowed 1).ctx 3).dst = true ∧
    (atRest.state = .walking ∧ atRest.phase = .revisit ∧ atRest.revisit = [] ∧ atRest.flights = []) ∧
    atRest.autoCutover = false ∧ walkCtx.phase ≠ .revisit := by
  refine ⟨?_, ?_, ?_, ?_, by decide +kernel⟩ <;> exact meets (by decide +kernel) (by decide +kernel)

def gapped : State := { bound { atRest with autoCutover := true } with gaps := [⟨3, 5, 7⟩, ⟨4, 5, 7⟩] }

theorem test_ctxCutover : (after .ctxCutover (asked (windowed 1) .ctxCutover [3])).ctx 3 =
      { walkCtx with state := .cutting, deferred := some 9, cutClaim := true } ∧
    answer .ctxCutover (asked (windowed 0) .ctxCutover [3]) = some (4, false, []) := by decide +kernel

/-- SYNCED with gap records, at its destination's loss, and at the end of its walk with either. -/
theorem witness_SyncedAndCutover_refused :
    let gaps : State := { windowed 1 with gaps := [⟨3, 5, 7⟩] }
    let lost : State := (windowed 1).setSlot 2 {}
    let ends : State := (windowed 1).setCtx 3 { atRest with autoCutover := true }
    Meets gaps .ctxCutover [3] ∧ (gaps.ctx 3).state = .synced ∧ (∃ g ∈ gaps.gaps, g.ctx = 3) ∧
    Meets lost .ctxCutover [3] ∧ lost.isReady (lost.ctx 3).dst = false ∧ lost.windowFits 3 = true ∧
    ends.isReady 2 = true ∧ (ends.setSlot 2 {}).isReady 2 = false ∧ ends.windowFits 3 = true ∧
    ((windowed 0).setCtx 3 { atRest with autoCutover := true }).windowFits 3 = false ∧
    answer .ctxCutover (asked gaps .ctxCutover [3]) = some (3, false, []) := by
  refine ⟨meets (by decide +kernel) rfl, ?_, ?_, meets (by decide +kernel) rfl, ?_⟩ <;> decide +kernel

theorem test_testSynced : ((bound atRest).testSynced 3).ctx 3 = { atRest with state := .synced } ∧
    ((gapped.testSynced 3).notice .gapsPending).pending = true ∧ (gapped.testSynced 3).ctx 3 = { atRest with state := .synced, autoCutover := true } ∧
    (((bound { atRest with autoCutover := true }).testSynced 3).ctx 3).state = .cutting := by decide +kernel

theorem witness_WaiveAndDrop : Meets gapped .gapWaive [3, 255, 0] ∧ Meets gapped .gapWaive [3, 5, 7] ∧
    Meets gapped .gapWaive [3, 63, 16777215] ∧ Meets gapped .gapWaive [3, 64, 0] ∧ Meets up .gapWaive [3, 255, 0] ∧
    Meets spared .spareDrop [7] ∧ Meets spared .spareDrop [8] ∧ Meets spared .spareDrop [2] ∧
    (gapped.ctx 3).state ≠ .idle ∧ (up.ctx 3).state = .idle ∧ (⟨3, 5, 7⟩ : Gap) ∈ gapped.gaps ∧
    (⟨3, 63, 16777215⟩ : Gap) ∉ gapped.gaps ∧ (spared.entry 4).twin = some 2 ∧ (spared.entry 4).twinState = .building ∧
    (∀ b, (spared.entry b).primary ≠ some 7 ∧ (spared.entry b).twin ≠ some 7) := by
  refine ⟨?_, ?_, ?_, ?_, ?_, ?_, ?_, ?_, by decide +kernel⟩ <;> exact meets (by decide +kernel) (by decide +kernel)

theorem test_gapWaive : answer .gapWaive (asked gapped .gapWaive [3, 255, 0]) = some (0, false, [1]) ∧
    (after .gapWaive (asked gapped .gapWaive [3, 255, 0])).gaps = [⟨4, 5, 7⟩] ∧
    answer .gapWaive (asked gapped .gapWaive [3, 5, 7]) = some (0, false, [1]) ∧
    answer .gapWaive (asked gapped .gapWaive [3, 63, 16777215]) = some (2, false, []) := by decide +kernel

theorem test_spareDrop : answer .spareDrop (asked spared .spareDrop [7]) = some (0, false, [0]) ∧
    answer .spareDrop (asked spared .spareDrop [2]) = some (3, false, []) ∧
    (after .spareDrop (asked (spared.setEntry 4 {}) .spareDrop [2])).spareMap 2 = [] := by decide +kernel

/-! ### The walk -/

theorem witness_ArbiterChoosesByPriority : (bound walkCtx).arbiter = some 3 ∧ (bound listed).arbiter = none ∧
    ((bound walkCtx).setCtx 9 { walkCtx with priority := 3 }).arbiter = some 9 ∧
    ((bound walkCtx).setCtx 9 walkCtx).arbiter = some 3 ∧
    ({ (bound walkCtx).setCtx 9 walkCtx with lastServed := up.lastServed.set 2 3 } : State).arbiter = some 9 := by decide +kernel

theorem next_fetch : (bound walkCtx).NextFetch 3 5 copyRegion 2 :=
  ⟨by decide +kernel, .inl ⟨rfl, rfl, rfl, 0, ⟨0, 5, 0, 8⟩, rfl, rfl, rfl⟩⟩

def stopped : Ctx := { walkCtx with stop := some ⟨some 5, 2, 0xFFFFFF, false⟩ }
def revisitCtx : Ctx := { atRest with revisit := [⟨0, 5, 2, 3⟩] }
def zeroCtx : Ctx := { walkCtx with cur := some 1, frontier := 2 }

theorem witness_WalkGrants : (bound walkCtx).startup ≠ .held ∧ (bound walkCtx).arbiter = some 3 ∧
    (bound listed).arbiter = none ∧ ((bound walkCtx).slot 1).pend[(0 : PendIdx)] = none ∧
    (bound walkCtx).staging[(0 : StagingId)] = none ∧ ((bound walkCtx).ctx 3).flights = [] ∧
    (bound stopped).arbiter = some 3 ∧ stopped.phase = .walk ∧ stopped.held ≠ some (5, 2) ∧
    BitVec.ofNat 24 2 &&& 0xFFFFFF#24 = 2#24 &&& 0xFFFFFF#24 ∧ (bound revisitCtx).arbiter = some 3 ∧ (bound zeroCtx).arbiter = some 3 ∧
    1 ≤ zeroRegion.width ∧ zeroRegion.width ≤ 16 := by decide +kernel

theorem witness_WalkGrants_work : (bound walkCtx).NextFetch 3 5 copyRegion 2 ∧ (bound stopped).NextFetch 3 5 copyRegion 2 ∧
    (bound revisitCtx).NextFetch 3 5 copyRegion 2 ∧ (bound zeroCtx).NextZero 3 6 zeroRegion 2 :=
  ⟨next_fetch, ⟨by decide +kernel, .inl ⟨rfl, rfl, rfl, 0, ⟨0, 5, 0, 8⟩, rfl, rfl, rfl⟩⟩,
    ⟨by decide +kernel, .inr ⟨rfl, ⟨0, 5, 2, 3⟩, [], rfl, rfl, rfl⟩⟩,
    by decide +kernel, rfl, rfl, rfl, 1, ⟨1, 6, 0, 8⟩, rfl, rfl, rfl⟩

theorem witness_WalkGrants_segment : (∀ m g, zeroCtx.cur = some m → zeroCtx.segs[m]? = some g → 2 < g.first + g.count) ∧
    Lowest (fun g : StagingId => (bound walkCtx).staging[g] = none) 0 ∧
    Lowest (fun n : FlightNum => ∀ f ∈ ((bound walkCtx).ctx 3).flights, f.num ≠ n) 0 :=
  ⟨fun m g h1 h2 => by
      have h3 : m = 1 := (Option.some.inj h1).symm
      subst h3
      have h4 : (⟨1, 6, 0, 8⟩ : Segment) = g := Option.some.inj h2
      subst h4; decide,
    ⟨by decide +kernel, fun j hj => absurd hj (by simp)⟩, ⟨by decide +kernel, fun j hj => absurd hj (by simp)⟩⟩

theorem test_walkFetchIssue : (after .walkFetchIssue (bound walkCtx)).ctx 3 = { walkCtx with
      frontier := 3, paceRunning := true, flights := [⟨0, 5, 2, .fetch, 0, false, false, false⟩] } ∧
    ((after .walkFetchIssue (bound walkCtx)).slot 1).queue = [⟨{ kind := .fetch, count := 3, addr := 0x1008 }, .bridgeGenerated⟩] ∧
    ((after .walkFetchIssue (bound stopped)).ctx 3).held = some (5, 2) ∧
    ((after .walkFetchIssue (bound revisitCtx)).ctx 3).revisit = [⟨0, 5, 3, 3⟩] := by decide +kernel

theorem test_zeroFillIssue : ((after .zeroFillIssue (bound zeroCtx)).slot 2).queue =
      [⟨{ kind := .fill, count := 24, addr := 0x7008, data := [0] }, .bridgeGenerated⟩] ∧
    ((after .zeroFillIssue (bound zeroCtx)).ctx 3).phase = .revisit ∧
    (after (.paceTimerExpiry 3) (bound { walkCtx with paceRunning := true })) = bound walkCtx := by decide +kernel

def inFlight (f : Flight) (st : Option (List Word)) : State :=
  let s := bound { walkCtx with flights := [f], frontier := 3 }
  { s with staging := s.staging.set 0 st }

def staged : State := inFlight ⟨0, 5, 2, .staged, 0, false, false, true⟩ (some [1, 2, 3])
def poisoned : State := inFlight ⟨0, 5, 2, .staged, 0, false, true, true⟩ (some [1, 2, 3])
def verifying : State := inFlight ⟨0, 5, 2, .verify, 0, false, false, true⟩ (some [1, 2, 3])
def crowd (s : State) : State := s.setSlot 2 { readyPort with queue := List.replicate 48 qStore }
def claiming : State := (windowed 1).setCtx 3 { walkCtx with state := .cutting, cutClaim := true }

theorem witness_EngineClaimsAreTaken : (∀ s ∈ [staged, poisoned, verifying, crowd staged, crowd verifying],
      s.startup ≠ .held ∧ s.isReady (s.ctx 3).dst = true ∧ s.region 5 = some copyRegion) ∧
    (staged.ctx 3).flights.find? (fun g => g.num == 0) = some ⟨0, 5, 2, .staged, 0, false, false, true⟩ ∧
    (verifying.ctx 3).flights.find? (fun g => g.num == 0) = some ⟨0, 5, 2, .verify, 0, false, false, true⟩ ∧
    (staged.slot 2).queue.length < 48 ∧ 48 ≤ ((crowd staged).slot 2).queue.length ∧
    (verifying.slot 2).pend[(0 : PendIdx)] = none ∧
    ((claiming.ctx 3).state = .cutting ∧ (claiming.ctx 3).cutClaim = true ∧ claiming.isReady (claiming.ctx 3).dst = true ∧
      (claiming.slot 2).queue.length + (claiming.writeOutStores 3).length + 1 ≤ 48 ∧
      48 < ((crowd claiming).slot 2).queue.length + ((crowd claiming).writeOutStores 3).length + 1) := by decide +kernel

theorem test_writeClaim : ((after (.writeClaimTaken 3 0) staged).slot 2).queue =
      [⟨{ kind := .store, count := 3, addr := 0x5006, data := [1, 2, 3] }, .bridgeGenerated⟩] ∧
    ((after (.writeClaimTaken 3 0) staged).ctx 3).flights = [⟨0, 5, 2, .verify, 0, false, false, true⟩] ∧
    ((after (.writeClaimTaken 3 0) poisoned).ctx 3).flights = [] ∧
    after (.writeClaimTaken 3 0) (crowd staged) = crowd staged := by decide +kernel

theorem test_verify_and_cutover_claims : ((after (.verifyClaimTaken 3 0) verifying).slot 2).pend[(0 : PendIdx)] =
      some ⟨.queued, .fetch, 3, .verify 3 0⟩ ∧
    ((after (.cutoverClaimTaken 3) claiming).slot 2).queue.map (·.txn.kind) = [.store, .fence] ∧
    after (.cutoverClaimTaken 3) (crowd claiming) = crowd claiming := by decide +kernel

/-! ### Replies to the engine -/

def walkReply (st : BitVec 4) (d : List Word) : Txn := { kind := .ret, status := st, tag := 7, count := 3, data := d }
def fetching : State := awaiting (inFlight ⟨0, 5, 2, .fetch, 0, false, false, false⟩ (some [])) 1 7 ⟨.sent, .fetch, 3, .walk 3 0⟩
def fullGaps : State := { fetching with gaps := (List.range 64).map (fun n => ⟨4, 5, n⟩) }

theorem answers_walk (s : State) (hs : s.startup ≠ .held ∧ (s.slot 1).state = .ready)
    (hp : (s.slot 1).pend[(7 : PendIdx)] = some ⟨.sent, .fetch, 3, .walk 3 0⟩) (t : Txn)
    (ht : acceptBoard t.frame = some t ∧ t.kind = .ret ∧ t.tag = 7 ∧ t.count = 3) :
    Answers s 1 t.frame t 7 (.walk 3 0) .ret :=
  ⟨⟨hs.1, by rw [hs.2]; rfl, ht.1, ht.2.1⟩, by unfold State.isReady; rw [hs.2]; rfl, by rw [ht.2.2.1]; rfl,
    .inl ⟨rfl, by rw [ht.2.2.2]; exact hp⟩⟩

theorem witness_WalkReturnByStatus : (∀ t ∈ [walkReply 0 [1, 2, 3], walkReply 1 [1, 2, 3], walkReply 2 [], walkReply 3 []],
      Answers fetching 1 t.frame t 7 (.walk 3 0) .ret ∧ Answers fullGaps 1 t.frame t 7 (.walk 3 0) .ret) ∧
    (fetching.ctx 3).flights.find? (fun g => g.num == 0) = some ⟨0, 5, 2, .fetch, 0, false, false, false⟩ ∧
    fetching.region 5 = some copyRegion ∧ (⟨3, 5, 2⟩ : Gap) ∉ fetching.gaps ∧ fetching.gaps.length < 64 ∧
    (⟨3, 5, 2⟩ : Gap) ∉ fullGaps.gaps ∧ 64 ≤ fullGaps.gaps.length := by
  refine ⟨fun t ht => ?_, by decide +kernel⟩
  simp only [List.mem_cons, List.not_mem_nil, or_false] at ht
  rcases ht with rfl | rfl | rfl | rfl <;>
    exact ⟨answers_walk _ (by decide +kernel) (by decide +kernel) _ (by decide +kernel),
      answers_walk _ (by decide +kernel) (by decide +kernel) _ (by decide +kernel)⟩

theorem test_walkReturn : ((after (.returnReceived 1 (walkReply 0 [1, 2, 3]).frame) fetching).ctx 3).flights =
      [⟨0, 5, 2, .staged, 0, false, false, true⟩] ∧
    (after (.returnReceived 1 (walkReply 2 []).frame) fetching).staging[(0 : StagingId)] = some [0xDEAD, 0xDEAD, 0xDEAD] ∧
    ((after (.returnReceived 1 (walkReply 2 []).frame) fullGaps).ctx 3).failReason = some .gapsFull ∧
    ((after (.returnReceived 1 (walkReply 3 []).frame) fetching).ctx 3).failReason = some .addressRefused := by decide +kernel

def reading (m : List SpareRec) : State :=
  (awaiting (inFlight ⟨0, 5, 2, .verify, 0, false, false, false⟩ (some [1, 2, 3])) 2 7 ⟨.sent, .fetch, 3, .verify 3 0⟩).setSpareMap 2 m

theorem answers_verify (m : List SpareRec) (t : Txn) (hs : (reading m).startup ≠ .held ∧ ((reading m).slot 2).state = .ready)
    (hp : ((reading m).slot 2).pend[(7 : PendIdx)] = some ⟨.sent, .fetch, 3, .verify 3 0⟩)
    (ht : acceptBoard t.frame = some t ∧ t.kind = .ret ∧ t.tag = 7 ∧ t.count = 3) :
    Answers (reading m) 2 t.frame t 7 (.verify 3 0) .ret :=
  ⟨⟨hs.1, by rw [hs.2]; rfl, ht.1, ht.2.1⟩, by unfold State.isReady; rw [hs.2]; rfl, by rw [ht.2.2.1]; rfl,
    .inl ⟨rfl, by rw [ht.2.2.2]; exact hp⟩⟩

def oneSpare (tally : Nat) : List SpareRec := [.remap 5 2 .B 0 (some 3) tally]

theorem witness_ReadBackMatchesOrTakesASpare :
    (∀ t ∈ [walkReply 0 [1, 2, 3], walkReply 1 [9, 2, 3], walkReply 2 [], walkReply 3 []],
      ∀ m ∈ [[], oneSpare 1, oneSpare 2, [.retired 5 .B 0, .retired 5 .B 1]], Answers (reading m) 2 t.frame t 7 (.verify 3 0) .ret) ∧
    ((reading []).ctx 3).flights.find? (fun g => g.num == 0) = some ⟨0, 5, 2, .verify, 0, false, false, false⟩ ∧
    (reading []).staging[(0 : StagingId)] = some [1, 2, 3] ∧ (reading []).region 5 = some copyRegion ∧
    (reading (oneSpare 2)).spareMap 2 = oneSpare 2 := by
  refine ⟨fun t ht m hm => ?_, by decide +kernel⟩
  simp only [List.mem_cons, List.not_mem_nil, or_false] at ht hm
  rcases ht with rfl | rfl | rfl | rfl <;> rcases hm with rfl | rfl | rfl | rfl <;>
    exact answers_verify _ _ (by decide +kernel) (by decide +kernel) (by decide +kernel)

theorem test_readBack : ((after (.returnReceived 2 (walkReply 0 [1, 2, 3]).frame) (reading [])).ctx 3).flights = [] ∧
    (after (.returnReceived 2 (walkReply 1 [9, 2, 3]).frame) (reading [])).spareMap 2 = [.remap 5 2 .B 0 (some 3) 1] ∧
    (after (.returnReceived 2 (walkReply 2 []).frame) (reading (oneSpare 1))).spareMap 2 =
      [.retired 5 .B 0, .remap 5 2 .B 1 (some 3) 2] ∧
    ((after (.returnReceived 2 (walkReply 2 []).frame) (reading (oneSpare 2))).ctx 3).failReason = some .verifyFailed ∧
    ((after (.returnReceived 2 (walkReply 2 []).frame) (reading [.retired 5 .B 0, .retired 5 .B 1])).ctx 3).failReason =
      some .sparesExhausted := by decide +kernel

def closing : State :=
  awaiting (bound { walkCtx with state := .cutting, deferred := some 0x77 }) 2 63 ⟨.sent, .fence, 0, .cutover 3⟩

theorem witness_CutoverCompletes : (∀ s ∈ [closing, closing.setSlot 1 {}],
      Answers s 2 (fenceDone 63).frame (fenceDone 63) 63 (.cutover 3) .fenceDone ∧ (s.ctx 3).state = .cutting ∧
      s.entry (s.ctx 3).board = buildingEntry) ∧
    closing.isReady 1 = true ∧ (closing.setSlot 1 {}).isReady 1 = false ∧ closing.isReady 2 = true := by
  refine ⟨fun s hs => ?_, by decide +kernel⟩
  simp only [List.mem_cons, List.not_mem_nil, or_false] at hs
  rcases hs with rfl | rfl <;>
    exact ⟨⟨brings (by decide +kernel), by decide +kernel, rfl, .inr ⟨rfl, by decide +kernel⟩⟩, by decide +kernel⟩

theorem test_cutover : ((after (.fenceDoneReceived 2 (fenceDone 63).frame) closing).entry 4).twinState = .twinned ∧
    ((after (.fenceDoneReceived 2 (fenceDone 63).frame) closing).ctx 3).outcome = some .done ∧
    (after (.fenceDoneReceived 2 (fenceDone 63).frame) closing).upstream.map (fun t => (t.kind, t.tag, t.status)) =
      [(.mgmtReply, 0x77, 0), (.notice, 0, 0)] := by decide +kernel

/-! ### The invariants, in a state with work to do -/

def busy : State := { cutting with pending := [.slotSend 2] }

/-- With a record in flight and its staging entry occupied, entries to revisit, a spare in use and a gap recorded. -/
def flying : State :=
  { (verifying.modCtx 3 (fun x => { x with revisit := [⟨0, 5, 0, 0⟩, ⟨1, 5, 2, 3⟩] })).setSpareMap 2
      [.remap 5 1 .B 0 (some 3) 1, .retired 5 .B 1] with
    gaps := [⟨3, 5, 7⟩], pending := [.verifyClaimTaken 3 0] }

theorem busy_steps : ∃ t, step busy = .next t := ⟨_, rfl⟩

theorem witness_StepConservesAgentCredits : busy.CreditsConserved := by
  show busy.agentCredits + busy.intake.length = Config.agentCredits; decide +kernel

theorem flying_dests : flying.DestsReady := by unfold State.DestsReady; decide +kernel

theorem witness_StepKeepsSlotsAndTables : (busy.SlotsBounded ∧ busy.SlotsAgree ∧ busy.TablesSound) ∧
    flying.TablesSound ∧ flying.DownMapsEmpty := by
  refine ⟨⟨?_, ?_, ?_⟩, ?_, ?_⟩
  · unfold State.SlotsBounded SlotPort.Bounded; decide +kernel
  · unfold State.SlotsAgree SlotPort.Agrees; decide +kernel
  · unfold State.TablesSound SparesApart; decide +kernel
  · unfold State.TablesSound SparesApart; decide +kernel
  · unfold State.DownMapsEmpty; decide +kernel

theorem flying_ctx (d : CtxId) (h : d ≠ 3) : flying.ctx d = {} := by revert d; decide +kernel

theorem flying_once {α : Type} (f : Ctx → List α) (h0 : f {} = []) (h : (f (flying.ctx 3)).Nodup) :
    UsedOnce (fun c => f (flying.ctx c)) := by
  refine ⟨fun c => ?_, fun c d hcd n hn => ?_⟩
  · by_cases hc : c = 3
    · subst hc; exact h
    · show (f (flying.ctx c)).Nodup
      rw [flying_ctx c hc, h0]; exact List.nodup_nil
  · by_cases hc : c = 3
    · show n ∉ f (flying.ctx d)
      rw [flying_ctx d (fun e => hcd (hc.trans e.symm)), h0]; exact List.not_mem_nil
    · have : n ∈ f (flying.ctx c) := hn
      rw [flying_ctx c hc, h0] at this; cases this

theorem flying_apart (c : CtxId) : RangesApart (flying.ctx c).revisit := by
  unfold RangesApart Range.Clear; revert c; decide +kernel

theorem witness_StepKeepsFlightsAndPools : flying.FlightsSound ∧ flying.PoolsSound ∧ (flying.DestsReady ∧ flying.GapsOwned) ∧
    ∃ t, step flying = .next t := by
  refine ⟨⟨by decide +kernel, flying_once (fun x => x.flights.map (·.staging)) rfl (by decide +kernel), fun g => ?_⟩,
    ⟨flying_once (fun x => x.segs.map (·.num)) rfl (by decide +kernel),
      flying_once (fun x => x.revisit.map (·.num)) rfl (by decide +kernel), flying_apart⟩,
    ⟨flying_dests, by unfold State.GapsOwned; decide +kernel⟩, _, rfl⟩
  have h : flying.staging[g] ≠ none ↔ g = 0 := by revert g; decide +kernel
  rw [h]
  refine ⟨fun e => ⟨3, ⟨0, 5, 2, .verify, 0, false, false, true⟩, by decide +kernel, e.symm⟩, ?_⟩
  rintro ⟨c, f, hf, rfl⟩
  by_cases hc : c = 3
  · subst hc
    have : (flying.ctx 3).flights = [⟨0, 5, 2, .verify, 0, false, false, true⟩] := by decide +kernel
    rw [this, List.mem_singleton] at hf
    rw [hf]
  · rw [flying_ctx c hc] at hf; cases hf

theorem witness_StepKeepsSteeringWired : busy.Wired := cutting_wired

theorem busy_regions : ∀ i : RegionId, (busy.region i).all (fun r => ([View.A, .B] : List View).all (fun v =>
    decide (1 ≤ r.width ∧ r.width ≤ (r.geom v).pitch ∧ (r.geom v).base.toNat + r.extentLen v ≤ Config.addressTop ∧
      r.hitsSelf v = false ∧ (busy.layout r.set).hits v r = false) &&
    (List.finRange 64).all (fun j => j == i || (busy.region j).all (fun o => !(o.set == r.set) || r.hits o v == false)))) = true := by
  decide +kernel

theorem witness_StepKeepsLayoutSound : busy.LayoutSound := by
  intro i r hi v
  have h := busy_regions i
  rw [hi] at h
  have hv := (List.all_eq_true.1 h) v (by cases v <;> simp)
  simp only [Bool.and_eq_true, decide_eq_true_eq] at hv
  obtain ⟨⟨a, b, c, d, e⟩, f⟩ := hv
  refine ⟨a, b, c, d, e, fun j o hj ho hs => ?_⟩
  have := List.all_eq_true.1 f j (by simp)
  rw [ho] at this
  simp [hj, hs] at this
  exact this

end Sys2Proof.Tests
end

section

namespace Sys2Proof.Machine

/-! ### Words from a board that the part discards (R11, R12, R18) -/

/-- R12: a rejection is one more check error of the slot's port, and the notice. -/
theorem rejectBoard_eq (s : State) (k : SlotId) :
    s.rejectBoard k = (s.setSlot k (s.slot k).checkError).raise .slotCheck (BitVec.ofNat 8 k) := rfl

theorem badWordsArrive_of_rejected {s : State} {k : SlotId} {f : Frame} (hr : (s.slot k).state.receives = true)
    (hf : acceptBoard f = none) : s.badWordsArrive k f = s.rejectBoard k := if_pos ⟨hr, hf⟩

theorem boardBrings_of_slotBrings {s : State} {k : SlotId} {f : Frame} {t : Txn} {kind : TxnKind}
    (h : SlotBrings s k f t kind) : s.boardBrings k kind f = some t := by
  obtain ⟨-, hr, hf, hk⟩ := h
  simp [State.boardBrings, hr, hf, hk]

theorem unlessHeld_of_fixed {s : State} {g : State → State} (h : g s = s) : s.unlessHeld g = s := by
  unfold State.unlessHeld
  rw [h, ite_self]

/-- R18: a reply is matched by the entry its tag names, if that entry is SENT, of the reply's kind and, for a RETURN, of its
count; by no other. -/
theorem matched_eq_some_iff {p : SlotPort} {kind : PendKind} {t : Txn} {i : PendIdx} {e : PendEntry} :
    p.matched kind t = some (i, e) ↔
      i.val = t.tag.toNat ∧ p.pend[i] = some e ∧ e.phase = .sent ∧ e.kind = kind ∧ (kind = .fetch → e.count = t.count) := by
  unfold SlotPort.matched
  cases hj : toIndex 64 t.tag.toNat with
  | none =>
    have hi : ¬ i.val = t.tag.toNat := fun h => by simp [toIndex_some.2 h.symm] at hj
    simp [hi]
  | some j =>
    have hi : i.val = t.tag.toNat ↔ j = i := by rw [toIndex_some.1 hj, Fin.ext_iff, eq_comm]
    rw [hi]
    dsimp only
    cases hp : p.pend[j] with
    | none =>
      simp only [reduceCtorEq, false_iff]
      rintro ⟨rfl, he, -⟩
      simp [hp] at he
    | some d =>
      simp only [Option.ite_none_right_eq_some, Option.some.injEq, Prod.mk.injEq]
      constructor
      · rintro ⟨⟨hs, hk, hc⟩, rfl, rfl⟩
        exact ⟨rfl, hp, hs, hk, fun h => (hc h).symm⟩
      · rintro ⟨rfl, he, hs, hk, hc⟩
        obtain rfl : d = e := Option.some.inj (hp.symm.trans he)
        exact ⟨⟨hs, hk, fun h => (hc h).symm⟩, rfl, rfl⟩

theorem matched_eq_none {p : SlotPort} {kind : PendKind} {t : Txn}
    (h : ∀ (i : PendIdx) (e : PendEntry), i.val = t.tag.toNat → p.pend[i] = some e →
      ¬ (e.phase = .sent ∧ e.kind = kind ∧ (kind = .fetch → e.count = t.count))) : p.matched kind t = none := by
  refine Option.eq_none_iff_forall_ne_some.2 fun ⟨i, e⟩ hm => ?_
  obtain ⟨hi, he, hrest⟩ := matched_eq_some_iff.1 hm
  exact h i e hi he hrest

/-- R11, R18: in READY a reply that matches no entry is rejected. -/
theorem replyAccepted_unmatched {s : State} {k : SlotId} {kind : PendKind} {t : Txn} (hr : s.isReady k = true)
    (hm : (s.slot k).matched kind t = none) : s.replyAccepted k kind t = s.rejectBoard k := by
  unfold State.replyAccepted
  rw [if_pos hr, hm]

/-- R11: outside READY a reply is discarded uncounted. -/
theorem replyAccepted_not_ready {s : State} {k : SlotId} (hr : s.isReady k = false) (kind : PendKind) (t : Txn) :
    s.replyAccepted k kind t = s := by
  simp [State.replyAccepted, hr]

theorem returnArrives_of {s : State} {k : SlotId} {f : Frame} {t : Txn} (h : SlotBrings s k f t .ret) :
    s.returnArrives k f = s.replyAccepted k .fetch t := by
  simp only [State.returnArrives, boardBrings_of_slotBrings h]

theorem fenceDoneArrives_of {s : State} {k : SlotId} {f : Frame} {t : Txn} (h : SlotBrings s k f t .fenceDone) :
    s.fenceDoneArrives k f = s.replyAccepted k .fence t := by
  simp only [State.fenceDoneArrives, boardBrings_of_slotBrings h]

theorem returnArrives_not_ready {s : State} {k : SlotId} (hr : s.isReady k = false) (f : Frame) :
    s.returnArrives k f = s := by
  unfold State.returnArrives
  split
  · exact replyAccepted_not_ready hr _ _
  · rfl

theorem fenceDoneArrives_not_ready {s : State} {k : SlotId} (hr : s.isReady k = false) (f : Frame) :
    s.fenceDoneArrives k f = s := by
  unfold State.fenceDoneArrives
  split
  · exact replyAccepted_not_ready hr _ _
  · rfl

/-! What each of the three rows does, by its operation on the state. -/

theorem exec_boardTransactionRejected (k : SlotId) (f : Frame) (s : State) :
    exec (.boardTransactionRejected k f) s = .next (s.unlessHeld (fun s => s.badWordsArrive k f)) := rfl

theorem exec_returnReceived (k : SlotId) (f : Frame) (s : State) :
    exec (.returnReceived k f) s = .next (s.unlessHeld (fun s => s.returnArrives k f)) := rfl

theorem exec_fenceDoneReceived (k : SlotId) (f : Frame) (s : State) :
    exec (.fenceDoneReceived k f) s = .next (s.unlessHeld (fun s => s.fenceDoneArrives k f)) := rfl

/-- Settles O15: rejected words and unmatched replies both come to `State.rejectBoard`, and outside READY a reply leaves the
state as it is, held or not. -/
theorem rejectedAndUnmatchedAreCounted : Obligations.RejectedAndUnmatchedAreCounted := by
  unfold Obligations.RejectedAndUnmatchedAreCounted
  refine ⟨fun k f s hs hr hf => ?_, fun k f t s => ⟨fun hb hr hno => ?_, fun hb hr hno => ?_, fun hr => ⟨?_, ?_⟩⟩⟩
  · rw [exec_boardTransactionRejected, unlessHeld_of hs, badWordsArrive_of_rejected hr hf, rejectBoard_eq]
  · have hm : (s.slot k).matched .fetch t = none :=
      matched_eq_none fun i e hi he ⟨hs, hk, hc⟩ => hno i e hi he ⟨hs, hk, hc rfl⟩
    rw [exec_returnReceived, unlessHeld_of hb.1, returnArrives_of hb, replyAccepted_unmatched hr hm, rejectBoard_eq]
  · have hm : (s.slot k).matched .fence t = none :=
      matched_eq_none fun i e hi he ⟨hs, hk, _⟩ => hno i e hi he ⟨hs, hk⟩
    rw [exec_fenceDoneReceived, unlessHeld_of hb.1, fenceDoneArrives_of hb, replyAccepted_unmatched hr hm, rejectBoard_eq]
  · rw [exec_returnReceived, unlessHeld_of_fixed (returnArrives_not_ready hr f)]
  · rw [exec_fenceDoneReceived, unlessHeld_of_fixed (fenceDoneArrives_not_ready hr f)]

end Sys2Proof.Machine
end

section

namespace Sys2Proof.Machine

/-! ### The slot ports' own operations, state by state (R25 to R34) -/

/-- A notice leaves every slot port alone. -/
@[simp] theorem slot_raise (s : State) (n : NoticeKind) (d : BitVec 8) (k : SlotId) : (s.raise n d).slot k = s.slot k := by
  rw [raise_eq]
  rfl

@[simp] theorem setSlot_setSlot (s : State) (k : SlotId) (p q : SlotPort) : (s.setSlot k p).setSlot k q = s.setSlot k q := by
  simp [State.setSlot]

theorem isReady_iff {s : State} {k : SlotId} : s.isReady k = true ↔ (s.slot k).state = .ready := beq_iff_eq

/-- R37: outside READY there is nothing to leave, and the new state alone is set. -/
theorem depart_not_ready {s : State} {k : SlotId} (h : (s.slot k).state ≠ .ready) (st : SlotState) :
    s.depart k st = s.setSlot k { s.slot k with state := st } := if_neg (mt isReady_iff.1 h)

theorem depart_ready {s : State} {k : SlotId} (h : (s.slot k).state = .ready) (st : SlotState) :
    s.depart k st = s.leaveReady k st := if_pos (isReady_iff.2 h)

/-- R37, R38: a write of the departed slot's own registers that leaves its queue and its pending entries alone keeps the effects
of leaving READY. -/
theorem State.LeftReady.modSlot {s u : State} {k : SlotId} (h : State.LeftReady k s u) {g : SlotPort → SlotPort}
    (hq : ∀ p, (g p).queue = p.queue) (hp : ∀ p, (g p).pend = p.pend) : State.LeftReady k s (u.modSlot k g) := by
  refine h.after (quietBut_modSlot u k g) (.of_tables rfl rfl rfl) ?_ fun i hi => ?_
  · obtain ⟨hempty, -⟩ := h
    rw [modSlot_eq, slot_setSlot_same, hq, hempty]
  · rw [modSlot_eq, slot_setSlot_same, hp, hi]

/-- The port of a slot that has left READY. -/
theorem slot_leaveReady (s : State) (k : SlotId) (st : SlotState) :
    (s.leaveReady k st).slot k = { s.slot k with
      state := st, queue := [], credits := 0, pend := ((s.leaveReady k st).slot k).pend
      sentOrder := ((s.leaveReady k st).slot k).sentOrder } := (leaveReady_spec s k st).2.1

/-! The HELLO timer (R28). -/

theorem helloExpires_below {s : State} {k : SlotId} (h : (s.slot k).state = .awaitHello .listening)
    (hn : (s.slot k).helloFailures + 1 < Config.helloLimit) :
    s.helloExpires k = (s.helloMissed k).setSlot k ((s.helloMissed k).slot k).retrain := by
  have hm : ((s.helloMissed k).slot k).helloFailures < Config.helloLimit := by simpa [State.helloMissed] using hn
  simp only [State.helloExpires, if_pos h, if_pos hm, modSlot_eq]

theorem helloExpires_atLimit {s : State} {k : SlotId} (h : (s.slot k).state = .awaitHello .listening)
    (hn : Config.helloLimit ≤ (s.slot k).helloFailures + 1) :
    s.helloExpires k =
      ((s.helloMissed k).setSlot k ((s.helloMissed k).slot k).disable).raise .slotDisabled (detailOf k) := by
  have hm : ¬ ((s.helloMissed k).slot k).helloFailures < Config.helloLimit := by simpa [State.helloMissed] using hn
  simp only [State.helloExpires, if_pos h, if_neg hm, modSlot_eq]

/-- The port that an expiry of the HELLO timer leaves, HELLO_MISSING raised. -/
theorem slot_helloMissed (s : State) (k : SlotId) : (s.helloMissed k).slot k = { s.slot k with
    counters := (s.slot k).counters.addHelloTimeout, helloFailures := (s.slot k).helloFailures + 1 } := by
  simp [State.helloMissed]

/-- R28: a DISABLED slot is not trained again. -/
theorem linkUp_disabled {s : State} {k : SlotId} (h : (s.slot k).state = .disabled) : s.linkUp k = s := by
  simp only [State.linkUp, h]

/-- R33, R86: the settle timer's expiry. -/
theorem settleExpires_settling {s : State} {k : SlotId} (h : (s.slot k).state = .settling) :
    s.settleExpires k =
      ((s.setSlot k { s.slot k with state := .ready, settleTimer := none }).raise .slotUp (detailOf k)).engineEntered k :=
  if_pos h

/-! An accepted HELLO (R30 to R32). -/

theorem helloAccepted_listening {s : State} {k : SlotId} (h : (s.slot k).state = .awaitHello .listening) (a : Arrival) :
    s.helloAccepted k a = s.setSlot k { (s.slot k).settle a with helloFailures := 0 } := by
  simp only [State.helloAccepted, h, modSlot_eq]

theorem helloAccepted_settling {s : State} {k : SlotId} (h : (s.slot k).state = .settling) (a : Arrival) :
    s.helloAccepted k a = s.setSlot k { (s.slot k).settle a with credits := 0 } := by
  simp only [State.helloAccepted, h, modSlot_eq]

theorem helloAccepted_halted {s : State} {k : SlotId} (h : (s.slot k).state = .halted) (a : Arrival) :
    s.helloAccepted k a = s.setSlot k { (s.slot k).settle a with credits := 0 } := by
  have hr : (s.slot k).state ≠ .ready := by simp [h]
  simp only [State.helloAccepted, h, depart_not_ready hr, modSlot_eq, slot_setSlot_same, setSlot_setSlot]
  rfl

theorem helloAccepted_ready {s : State} {k : SlotId} (h : (s.slot k).state = .ready) (a : Arrival) :
    ∃ u, s.helloAccepted k a = u ∧ State.LeftReady k s u ∧
      u.slot k = { (s.slot k).settle a with
        credits := 0, queue := [], pend := (u.slot k).pend, sentOrder := (u.slot k).sentOrder } := by
  refine ⟨(s.leaveReady k .settling).modSlot k (fun p => { p.settle a with credits := 0 }),
    by simp only [State.helloAccepted, h, depart_ready h],
    (leaveReady_left s k .settling).modSlot (fun _ => rfl) (fun _ => rfl), ?_⟩
  have hport := slot_leaveReady s k .settling
  generalize s.leaveReady k .settling = u at hport ⊢
  rw [modSlot_eq, slot_setSlot_same, hport]
  rfl

theorem helloArrives_of {s : State} {k : SlotId} {f : Frame} {t : Txn} {c : StartCause} (h : SlotBrings s k f t .hello)
    (hc : t.startCause = some c) : s.helloArrives k f = s.helloAccepted k ⟨t.boardClass, c⟩ := by
  simp only [State.helloArrives, boardBrings_of_slotBrings h, hc]

/-! An accepted HALT (R34). -/

/-- The port of a halted board: its halt record written, its settle timer stopped. -/
def SlotPort.haltedBy (source : HaltSource) (reason : BitVec 8) (p : SlotPort) : SlotPort :=
  { p with state := .halted, settleTimer := none, halt := some ⟨source, reason⟩ }

theorem goHalted_not_ready {s : State} {k : SlotId} (h : (s.slot k).state ≠ .ready) (source : HaltSource)
    (reason : BitVec 8) :
    s.goHalted k source reason =
      (s.setSlot k ((s.slot k).haltedBy source reason)).raise .slotHalted (detailOf k) := by
  simp only [State.goHalted, depart_not_ready h, modSlot_eq, slot_setSlot_same, setSlot_setSlot, SlotPort.haltedBy]

theorem goHalted_ready {s : State} {k : SlotId} (h : (s.slot k).state = .ready) (source : HaltSource)
    (reason : BitVec 8) :
    ∃ u, s.goHalted k source reason = u.raise .slotHalted (detailOf k) ∧ State.LeftReady k s u ∧
      u.slot k = { (s.slot k).haltedBy source reason with
        credits := 0, queue := [], pend := (u.slot k).pend, sentOrder := (u.slot k).sentOrder } := by
  refine ⟨(s.leaveReady k .halted).modSlot k (fun p => { p with settleTimer := none, halt := some ⟨source, reason⟩ }),
    by rw [State.goHalted, depart_ready h], (leaveReady_left s k .halted).modSlot (fun _ => rfl) (fun _ => rfl), ?_⟩
  have hport := slot_leaveReady s k .halted
  generalize s.leaveReady k .halted = u at hport ⊢
  rw [modSlot_eq, slot_setSlot_same, hport]
  rfl

theorem haltAccepted_live {s : State} {k : SlotId}
    (h : (s.slot k).state = .ready ∨ (s.slot k).state = .settling ∨ (s.slot k).state = .halted) (reason : BitVec 8) :
    s.haltAccepted k reason = s.goHalted k .board reason := by
  rcases h with h | h | h <;> simp only [State.haltAccepted, h]

theorem haltAccepted_awaitHello {s : State} {k : SlotId} {ph : HelloPhase} (h : (s.slot k).state = .awaitHello ph)
    (reason : BitVec 8) : s.haltAccepted k reason = s := by
  simp only [State.haltAccepted, h]

theorem haltArrives_of {s : State} {k : SlotId} {f : Frame} {t : Txn} (h : SlotBrings s k f t .halt) :
    s.haltArrives k f = s.haltAccepted k t.haltReason := by
  simp only [State.haltArrives, boardBrings_of_slotBrings h]

/-! The rows of the events above, by their operations on the state. -/

theorem exec_slotLinkUp (k : SlotId) (s : State) :
    exec (.slotLinkUp k) s = .next (s.unlessHeld (fun s => s.linkUp k)) := rfl

theorem exec_helloTimerExpiry (k : SlotId) (s : State) :
    exec (.helloTimerExpiry k) s = .next (s.unlessHeld (fun s => s.helloExpires k)) := rfl

theorem exec_settleTimerExpiry (k : SlotId) (s : State) :
    exec (.settleTimerExpiry k) s = .next (s.unlessHeld (fun s => s.settleExpires k)) := rfl

theorem exec_helloReceived (k : SlotId) (f : Frame) (s : State) :
    exec (.helloReceived k f) s = .next (s.unlessHeld (fun s => s.helloArrives k f)) := rfl

theorem exec_haltReceived (k : SlotId) (f : Frame) (s : State) :
    exec (.haltReceived k f) s = .next (s.unlessHeld (fun s => s.haltArrives k f)) := rfl

/-- The row of an accepted HELLO. -/
theorem exec_helloReceived_of {s : State} {k : SlotId} {f : Frame} {t : Txn} {c : StartCause}
    (h : SlotBrings s k f t .hello) (hc : t.startCause = some c) :
    exec (.helloReceived k f) s = .next (s.helloAccepted k ⟨t.boardClass, c⟩) := by
  rw [exec_helloReceived, unlessHeld_of h.1, helloArrives_of h hc]

/-- The row of an accepted HALT. -/
theorem exec_haltReceived_of {s : State} {k : SlotId} {f : Frame} {t : Txn} (h : SlotBrings s k f t .halt) :
    exec (.haltReceived k f) s = .next (s.haltAccepted k t.haltReason) := by
  rw [exec_haltReceived, unlessHeld_of h.1, haltArrives_of h]

/-- Settles O10: the HELLO timer's expiry by whether the failure count stays below the limit, the DISABLED slot's link, and the
settle timer's expiry. -/
theorem helloAndSettleTimers : Obligations.HelloAndSettleTimers := by
  unfold Obligations.HelloAndSettleTimers
  refine ⟨fun k s hs h => ⟨fun hn => ?_, fun hn => ?_⟩, fun k s h => ?_, fun k s hs h => ?_⟩
  · rw [exec_helloTimerExpiry, unlessHeld_of hs, helloExpires_below h hn, slot_helloMissed]
    rfl
  · rw [exec_helloTimerExpiry, unlessHeld_of hs, helloExpires_atLimit h hn, slot_helloMissed]
    rfl
  · rw [exec_slotLinkUp, unlessHeld_of_fixed (linkUp_disabled h)]
  · rw [exec_settleTimerExpiry, unlessHeld_of hs, settleExpires_settling h]
    rfl

/-- Settles O13: the HELLO by the slot's state; from READY the settle registers are written after the departure, whose effects
they leave as they are. -/
theorem helloByState : Obligations.HelloByState := by
  unfold Obligations.HelloByState
  intro k f t c s hb hc
  rw [exec_helloReceived_of hb hc]
  refine ⟨fun h => ?_, fun h => ?_, fun h => ?_⟩
  · rw [helloAccepted_listening h]
    rfl
  · rcases h with h | h
    · rw [helloAccepted_settling h]
      rfl
    · rw [helloAccepted_halted h]
      rfl
  · obtain ⟨u, hu, hleft, hport⟩ := helloAccepted_ready h ⟨t.boardClass, c⟩
    exact ⟨u, congrArg _ hu, hleft, hport⟩

/-- Settles O14: the HALT by the slot's state; READY, SETTLING and HALTED slots go to HALTED, an awaited HELLO stays awaited. -/
theorem haltByState : Obligations.HaltByState := by
  unfold Obligations.HaltByState
  intro k f t s hb
  rw [exec_haltReceived_of hb]
  refine ⟨fun h => ?_, fun h => ?_, fun h => ?_⟩
  · rw [haltAccepted_live (.inl h)]
    obtain ⟨u, hu, hleft, hport⟩ := goHalted_ready h .board t.haltReason
    exact ⟨u, congrArg _ hu, hleft, hport⟩
  · have hr : (s.slot k).state ≠ .ready := by rcases h with h | h <;> simp [h]
    rw [haltAccepted_live (.inr h), goHalted_not_ready hr]
    rfl
  · rw [haltAccepted_awaitHello h]

end Sys2Proof.Machine
end

section

namespace Sys2Proof.Machine

/-! ### The departure that each of the six commands brings (R22, R26, R32, R34, R35) -/

/-- Two states that differ at most in the agent's side and in pins and counters of slot ports: a departure from READY is the same
event in both. -/
structure State.Alike (s t : State) : Prop where
  rest : t = { s with intake := t.intake, agentCredits := t.agentCredits, upstream := t.upstream, slots := t.slots }
  slot : ∀ j, t.slot j = { s.slot j with presence := (t.slot j).presence, counters := (t.slot j).counters }

theorem State.Alike.refl (s : State) : s.Alike s := ⟨rfl, fun _ => rfl⟩

theorem alike_taken (s : State) (rest : List Txn) : s.Alike (s.taken rest) := ⟨rfl, fun _ => rfl⟩

theorem alike_setSlot (s : State) (k : SlotId) (p : SlotPort)
    (hp : p = { s.slot k with presence := p.presence, counters := p.counters }) : s.Alike (s.setSlot k p) := by
  refine ⟨rfl, fun j => ?_⟩
  rw [slot_setSlot]
  split
  · rename_i hj
    subst hj
    exact hp
  · rfl

theorem State.Alike.isReady {s t : State} (h : s.Alike t) (j : SlotId) : t.isReady j = s.isReady j := by
  unfold State.isReady
  rw [h.slot j]

theorem State.Alike.ctx {s t : State} (h : s.Alike t) (c : CtxId) : t.ctx c = s.ctx c := by
  rw [h.rest]; rfl

theorem State.Alike.entry {s t : State} (h : s.Alike t) (b : BoardId) : t.entry b = s.entry b := by
  rw [h.rest]; rfl

theorem State.Alike.gaps {s t : State} (h : s.Alike t) : t.gaps = s.gaps := by
  rw [h.rest]

theorem State.Alike.windowFits {s t : State} (h : s.Alike t) (c : CtxId) : t.windowFits c = s.windowFits c := by
  rw [h.rest]; rfl

theorem State.Alike.lossReason {s t : State} (h : s.Alike t) (k : SlotId) (c : CtxId) :
    t.lossReason k c = s.lossReason k c := by
  have hpend : (t.slot k).pend = (s.slot k).pend := by rw [h.slot k]
  have horder : (t.slot k).closeOrder = (s.slot k).closeOrder := by rw [h.slot k]; rfl
  simp only [State.lossReason, h.ctx, h.gaps, h.windowFits, h.isReady, hpend, horder]

/-- What the row that took a slot out of READY still does: DOWN, settling, HALTED, and the answer to a SLOT-HALT. -/
inductive State.Concludes (k : SlotId) (v : State) : State → Prop
  | down : Concludes k v ((v.enterDown k).raise .slotDown (detailOf k))
  | settling (a : Arrival) : Concludes k v (v.modSlot k (fun p => { p.settle a with credits := 0 }))
  | halted (source : HaltSource) (reason : BitVec 8) :
      Concludes k v ((v.modSlot k (SlotPort.haltedBy source reason)).raise .slotHalted (detailOf k))
  | answered (source : HaltSource) (reason : BitVec 8) (t : Txn) :
      Concludes k v (((v.modSlot k (SlotPort.haltedBy source reason)).raise .slotHalted (detailOf k)).replied t .done)

theorem goDown_concludes {s : State} {k : SlotId} (h : s.isReady k = true) :
    (s.leaveReady k .down).Concludes k (s.goDown k) := by
  have hs := isReady_iff.1 h
  have hd : (s.slot k).state ≠ .down := by simp [hs]
  rw [State.goDown, if_neg hd, depart_ready hs]
  exact .down

theorem goHalted_eq {s : State} {k : SlotId} (h : s.isReady k = true) (source : HaltSource) (reason : BitVec 8) :
    s.goHalted k source reason =
      ((s.leaveReady k .halted).modSlot k (SlotPort.haltedBy source reason)).raise .slotHalted (detailOf k) := by
  have hport : ((s.leaveReady k .halted).slot k).state = .halted := by rw [slot_leaveReady]
  simp only [State.goHalted, depart_ready (isReady_iff.1 h), modSlot_eq, SlotPort.haltedBy]
  generalize s.leaveReady k .halted = v at hport ⊢
  rw [← hport]

theorem goHalted_concludes {s : State} {k : SlotId} (h : s.isReady k = true) (source : HaltSource) (reason : BitVec 8) :
    (s.leaveReady k .halted).Concludes k (s.goHalted k source reason) := by
  rw [goHalted_eq h]
  exact .halted source reason

/-- Words that bring no HELLO, or one of no start cause, leave the state as it is. -/
theorem helloArrives_cases (s : State) (k : SlotId) (f : Frame) :
    s.helloArrives k f = s ∨ ∃ a, s.helloArrives k f = s.helloAccepted k a := by
  unfold State.helloArrives
  split
  · split
    · exact .inr ⟨_, rfl⟩
    · exact .inl rfl
  · exact .inl rfl

theorem haltArrives_cases (s : State) (k : SlotId) (f : Frame) :
    s.haltArrives k f = s ∨ ∃ reason, s.haltArrives k f = s.haltAccepted k reason := by
  unfold State.haltArrives
  split
  · exact .inr ⟨_, rfl⟩
  · exact .inl rfl

theorem helloAccepted_concludes {s : State} {k : SlotId} (h : s.isReady k = true) (a : Arrival) :
    (s.leaveReady k .settling).Concludes k (s.helloAccepted k a) := by
  have hs := isReady_iff.1 h
  simp only [State.helloAccepted, hs, depart_ready hs]
  exact .settling a

/-- A request that does not stand at the head of intake is not served. -/
theorem serve_not_requested {s : State} {r : Request} (hs : s.startup ≠ .held) (h : ∀ t rest, ¬ s.Requested r t rest)
    (body : List Nat → State → State × Answer) : s.serve r body = s := by
  unfold State.serve State.decode
  split
  · rfl
  · rename_i t rest hi
    exact if_neg fun ⟨hk, hr⟩ => h t rest ⟨hs, hi, hk, beq_iff_eq.1 hr⟩

/-- R69: a new head of intake changes at most the FILL in expansion. -/
theorem cutHead_eq (s : State) : s.cutHead = { s with fill := s.cutHead.fill } := by
  unfold State.cutHead
  repeat' split
  all_goals rfl

/-- An answer changes the upstream queue and at most the FILL in expansion. -/
theorem replied_eq (s : State) (t : Txn) (st : ReplyStatus) (words : List Word) (more : Bool) :
    s.replied t st words more = { s with
      upstream := s.upstream ++ [t.replyTo st words more], fill := (s.replied t st words more).fill } :=
  cutHead_eq { s with upstream := s.upstream ++ [t.replyTo st words more] }

theorem isReady_replied (s : State) (t : Txn) (st : ReplyStatus) (words : List Word) (more : Bool) (k : SlotId) :
    (s.replied t st words more).isReady k = s.isReady k := by
  rw [replied_eq]; rfl

/-- R35: a SLOT-HALT that takes a slot out of READY names that slot; its row takes the request, halts the slot and answers. -/
theorem slotHalt_departs {s : State} {k : SlotId} (hs : s.startup ≠ .held) (h : s.isReady k = true)
    (hu : (s.unlessHeld (fun s => s.serve .slotHalt reqSlotHalt)).isReady k = false) :
    ∃ t rest, s.unlessHeld (fun s => s.serve .slotHalt reqSlotHalt) =
      ((s.taken rest).goHalted k .agent 0).replied t .done := by
  by_cases hreq : ∃ t rest, s.Requested .slotHalt t rest
  · obtain ⟨t, rest, hreq⟩ := hreq
    have hstay : ∀ j, (s.taken rest).isReady j = s.isReady j := fun _ => rfl
    refine ⟨t, rest, ?_⟩
    rw [serve_of hreq, isReady_replied] at hu
    rw [serve_of hreq]
    unfold reqSlotHalt at hu ⊢
    cases hp : parseIndex 8 t.params with
    | none => simp [hp, hstay, h] at hu
    | some j =>
      simp only [hp, State.haltSlot, hstay] at hu ⊢
      cases hj : s.isReady j with
      | false => simp [hj, hstay, h] at hu
      | true =>
        simp only [hj, if_true] at hu ⊢
        obtain rfl : j = k := by
          by_contra hne
          have hk := ((goHalted_spec (s.taken rest) j .agent 0).1.slot k hne).state
          rw [State.isReady, hk] at hu
          exact Bool.noConfusion (h.symm.trans hu)
        rfl
  · rw [unlessHeld_of hs, serve_not_requested hs (fun t rest hr => hreq ⟨t, rest, hr⟩), h] at hu
    exact Bool.noConfusion hu

theorem exec_slotPresenceLost (k : SlotId) (s : State) : exec (.slotPresenceLost k) s =
    .next ((s.modSlot k (fun p => { p with presence := false })).unlessHeld (fun t => t.goDown k)) := rfl

theorem exec_slotLinkLost (k : SlotId) (s : State) :
    exec (.slotLinkLost k) s = .next (s.unlessHeld (fun s => s.goDown k)) := rfl

theorem exec_replyTimerExpiry (k : SlotId) (i : PendIdx) (s : State) :
    exec (.replyTimerExpiry k i) s = .next (s.unlessHeld (fun s => s.replyExpires k i)) := rfl

theorem exec_slotHalt (s : State) :
    exec .slotHalt s = .next (s.unlessHeld (fun s => s.serve .slotHalt reqSlotHalt)) := rfl

/-- Whichever command takes a slot out of READY, it does so by the effects of leaving READY on a state alike, and then writes the
slot's own registers, raises a notice of the slot, or answers. -/
theorem departs_leaveReady {k : SlotId} {cmd : Instr} {s u : State} (h : Departs k cmd s u) :
    ∃ (a : State) (st : SlotState), s.Alike a ∧ st ≠ .ready ∧ (a.leaveReady k st).Concludes k u := by
  obtain ⟨hs, hr, hex, hleft, hcmd⟩ := h
  have hmoved : u ≠ s := by
    rintro rfl
    exact Bool.noConfusion (hr.symm.trans hleft)
  obtain rfl | rfl | ⟨i, rfl⟩ | ⟨f, rfl⟩ | ⟨f, rfl⟩ | rfl := hcmd
  · have ha : s.Alike (s.modSlot k (fun p => { p with presence := false })) := alike_setSlot s k _ rfl
    rw [exec_slotPresenceLost, unlessHeld_of (by exact hs), Host.Outcome.next.injEq] at hex
    exact hex ▸ ⟨_, .down, ha, by simp, goDown_concludes ((ha.isReady k).trans hr)⟩
  · rw [exec_slotLinkLost, unlessHeld_of hs, Host.Outcome.next.injEq] at hex
    exact hex ▸ ⟨s, .down, .refl s, by simp, goDown_concludes hr⟩
  · rw [exec_replyTimerExpiry, unlessHeld_of hs, Host.Outcome.next.injEq, State.replyExpires] at hex
    split at hex
    · have ha : s.Alike (s.modSlot k (fun p => { p with counters := p.counters.addReplyTimeout })) := alike_setSlot s k _ rfl
      exact hex ▸ ⟨_, .halted, ha, by simp, goHalted_concludes ((ha.isReady k).trans hr) _ _⟩
    · exact absurd hex.symm hmoved
  · rw [exec_helloReceived, unlessHeld_of hs, Host.Outcome.next.injEq] at hex
    obtain he | ⟨a, he⟩ := helloArrives_cases s k f
    · exact absurd (hex.symm.trans he) hmoved
    · exact hex ▸ he ▸ ⟨s, .settling, .refl s, by simp, helloAccepted_concludes hr a⟩
  · rw [exec_haltReceived, unlessHeld_of hs, Host.Outcome.next.injEq] at hex
    obtain he | ⟨reason, he⟩ := haltArrives_cases s k f
    · exact absurd (hex.symm.trans he) hmoved
    · rw [he, haltAccepted_live (.inl (isReady_iff.1 hr))] at hex
      exact hex ▸ ⟨s, .halted, .refl s, by simp, goHalted_concludes hr _ _⟩
  · rw [exec_slotHalt, Host.Outcome.next.injEq] at hex
    obtain ⟨t, rest, he⟩ := slotHalt_departs hs hr (hex ▸ hleft)
    have ha : s.Alike (s.taken rest) := alike_taken s rest
    rw [he, goHalted_eq ((ha.isReady k).trans hr)] at hex
    exact hex ▸ ⟨_, .halted, ha, by simp, .answered _ _ t⟩

/-! ### The Steering Unit's reaction after any of them (R58, R59) -/

theorem raise_steering (s : State) {n : NoticeKind} (hn : ¬ n.Steers) (d : BitVec 8) :
    (∀ b, (s.raise n d).entry b = s.entry b) ∧ ∀ m : NoticeKind, m.Steers → (s.raise n d).notice m = s.notice m :=
  ⟨fun b => by rw [raise_eq]; rfl, (sheds_raise s hn d).notice⟩

/-- What follows a departure in its step moves no entry, and raises neither kind of the Steering Unit's reaction. -/
theorem State.Concludes.steering {k : SlotId} {v u : State} (h : v.Concludes k u) :
    (∀ b, u.entry b = v.entry b) ∧ ∀ n : NoticeKind, n.Steers → u.notice n = v.notice n := by
  have hdown : ¬ NoticeKind.slotDown.Steers := by simp [NoticeKind.Steers]
  have hhalted : ¬ NoticeKind.slotHalted.Steers := by simp [NoticeKind.Steers]
  cases h with
  | down => exact raise_steering (v.enterDown k) hdown _
  | settling a => exact ⟨fun _ => rfl, fun _ _ => rfl⟩
  | halted source reason => exact raise_steering (v.modSlot k _) hhalted _
  | answered source reason t =>
    rw [replied_eq]
    exact raise_steering (v.modSlot k _) hhalted _

/-- On states alike the Steering Unit reacts alike. -/
theorem State.Alike.steeringLeft {s a : State} (h : s.Alike a) (k : SlotId) :
    let w := (s.setSlot k { s.slot k with state := .halted }).steeringLeft k
    let v := (a.setSlot k { a.slot k with state := .halted }).steeringLeft k
    (∀ b, v.entry b = w.entry b) ∧ ∀ n : NoticeKind, n.Steers → v.notice n = w.notice n := by
  intro w v
  have hsheds : (s.setSlot k { s.slot k with state := .halted }).Sheds (a.setSlot k { a.slot k with state := .halted }) :=
    { entry := fun b => .inl (h.entry b)
      ctx := fun c => by rw [ctx_setSlot, ctx_setSlot, h.ctx]; exact ⟨rfl, id⟩
      notice := fun n _ => by rw [notice_setSlot, notice_setSlot, h.rest]; rfl
      level := by rw [levels_setSlot, levels_setSlot, floor_setSlot, floor_setSlot, h.rest]; exact ⟨rfl, rfl⟩
      ready := fun j => by rw [isReady_setSlot, isReady_setSlot, h.isReady] }
  have hreact := sheds_steeringLeft hsheds k
  refine ⟨fun b => ?_, hreact.notice⟩
  obtain he | ⟨c, -, -, -, hlive, hfailed, -⟩ := hreact.entry b
  · exact he
  · rw [(steeringLeft_leaves _ k).1, ctx_setSlot, h.ctx] at hfailed
    rw [(steeringLeft_leaves _ k).1, ctx_setSlot] at hlive
    exact absurd hfailed hlive

/-- The reaction is carried out by every command that takes a slot out of READY. -/
theorem departs_steeringLeft {k : SlotId} {cmd : Instr} {s u : State} (h : Departs k cmd s u) :
    let w := (s.setSlot k { s.slot k with state := .halted }).steeringLeft k
    (∀ b, ¬ (∃ c, (s.lossReason k c).isSome = true ∧ (s.ctx c).board = b ∧ (s.entry b).twinState = .building ∧
      (s.entry b).bound = some c) → u.entry b = w.entry b) ∧
    ∀ n : NoticeKind, n.Steers → u.notice n = w.notice n := by
  intro w
  obtain ⟨a, st, ha, hst, hu⟩ := departs_leaveReady h
  obtain ⟨hue, hun⟩ := hu.steering
  obtain ⟨hle, hln⟩ := steered_leaveReady a k hst
  obtain ⟨hwe, hwn⟩ := ha.steeringLeft k
  simp only [ha.lossReason, ha.ctx, ha.entry] at hle
  exact ⟨fun b hb => ((hue b).trans (hle b hb)).trans (hwe b), fun n hn => ((hun n hn).trans (hln n hn)).trans (hwn n hn)⟩

/-! ### The reaction in a legal steering table, by role and twin state (R42, R58, R59) -/

theorem names_of_boardNaming {s : State} {b : BoardId} {k : SlotId} (h : s.boardNaming k = some b) : (s.entry b).Names k := by
  simpa [SteerEntry.Names] using List.find?_some h

/-- R42: the entry that names a slot is the one the Steering Unit finds. -/
theorem boardNaming_of_names {s : State} (hl : s.SteeringLegal) {b : BoardId} {k : SlotId} (h : (s.entry b).Names k) :
    s.boardNaming k = some b := by
  obtain ⟨-, hunique⟩ := hl
  cases hf : s.boardNaming k with
  | none => exact absurd h (boardNaming_none hf b)
  | some a => rw [hunique a b k (names_of_boardNaming hf) h]

theorem steeringLeft_primary {s : State} (hl : s.SteeringLegal) {b : BoardId} {k : SlotId}
    (h : (s.entry b).primary = some k) : s.steeringLeft k = s.primaryLoss b := by
  simp only [State.steeringLeft, boardNaming_of_names hl (.inl h), if_pos h]

theorem steeringLeft_twin {s : State} (hl : s.SteeringLegal) {b : BoardId} {k : SlotId}
    (h : (s.entry b).twin = some k) : s.steeringLeft k = s.twinLoss b k := by
  have hp : (s.entry b).primary ≠ some k := fun hp => by
    obtain ⟨-, -, -, hdiffer⟩ := hl.1 b
    exact hdiffer (by simp [hp]) (hp.trans h.symm)
  simp only [State.steeringLeft, boardNaming_of_names hl (.inr h), if_neg hp]

theorem steeringLeft_unnamed {s : State} {k : SlotId} (h : ∀ a, ¬ (s.entry a).Names k) : s.steeringLeft k = s := by
  cases hf : s.boardNaming k with
  | none => simp only [State.steeringLeft, hf]
  | some a => exact absurd (names_of_boardNaming hf) (h a)

theorem primaryLoss_not_twinned {s : State} {b : BoardId} (h : (s.entry b).twinState ≠ .twinned) : s.primaryLoss b = s := by
  unfold State.primaryLoss
  dsimp only
  split
  · rename_i ht _ _
    exact absurd ht h
  · rfl

/-- R58: what the loss of the primary of a TWINNED entry does. -/
theorem primaryLoss_twinned {s : State} {b : BoardId} {k t : SlotId} (hst : (s.entry b).twinState = .twinned)
    (hp : (s.entry b).primary = some k) (ht : (s.entry b).twin = some t) :
    s.primaryLoss b =
      if s.isReady t then
        if (s.entry b).autoSwap then
          (s.setEntry b { s.entry b with
            primary := some t, twin := some k, view := (s.entry b).view.other, twinState := .stale }).raise .autoSwap (detailOf k)
        else s
      else (s.setEntry b { s.entry b with twinState := .stale }).raise .twinStale (detailOf t) := by
  simp only [State.primaryLoss, SteerEntry.swapped, hst, hp, ht]

/-- Settles O25: a departure comes to `State.leaveReady` on a state alike, whose steering part is the reaction; the reaction goes
by the one entry that names the slot, and by the slot's role there. -/
theorem steeringReactsToADeparture : Obligations.SteeringReactsToADeparture := by
  unfold Obligations.SteeringReactsToADeparture
  refine ⟨fun k cmd s u h => ?_, fun s b k hl => ⟨fun hp => ⟨fun hn => ?_, fun t hst ht => ?_⟩,
    fun ht => ⟨fun hn => ?_, fun hst => ?_⟩, steeringLeft_unnamed⟩⟩
  · obtain ⟨hentry, hnotice⟩ := departs_steeringLeft h
    exact ⟨hentry, hnotice .autoSwap (.inl rfl), hnotice .twinStale (.inr rfl)⟩
  · rw [steeringLeft_primary hl hp, primaryLoss_not_twinned hn]
  · rw [steeringLeft_primary hl hp, primaryLoss_twinned hst hp ht]
    refine ⟨fun hr ha => ?_, fun hr ha => ?_, fun hr => ?_⟩
    · rw [if_pos hr, if_pos ha]
      rfl
    · rw [if_pos hr, if_neg (by simp [ha])]
    · rw [if_neg (by simp [hr])]
      rfl
  · rw [steeringLeft_twin hl ht, State.twinLoss, if_neg hn]
  · rw [steeringLeft_twin hl ht, State.twinLoss, if_pos hst]
    rfl

end Sys2Proof.Machine
end

section

namespace Sys2Proof.Machine

/-! ### A context's next work, in the words of the statements (R100) -/

theorem curSeg_eq_some_iff {x : Ctx} {g : Segment} : x.curSeg = some g ↔ ∃ n, x.cur = some n ∧ x.segs[n]? = some g := by
  unfold Ctx.curSeg
  cases x.cur <;> simp

/-- Work stands on an entry of a region that is walked, and is a zero fill exactly for a ZERO region (R64, R100). -/
theorem workAt_eq_some_iff {s : State} {j : RegionId} {a : Nat} {w : Work} :
    s.workAt j a = some w ↔
      s.region w.id = some w.region ∧ w.region.mode = (if w.zero then .zero else .copy) ∧ j = w.id ∧ a = w.entry := by
  obtain ⟨z, i, r, e⟩ := w
  unfold State.workAt
  cases hj : s.region j with
  | none => grind
  | some q => cases hm : q.mode <;> grind

theorem nextWork_walk_iff {s : State} {c : CtxId} {w : Work} (hp : (s.ctx c).phase = .walk) :
    s.nextWork c = some w ↔
      ∃ n g, (s.ctx c).cur = some n ∧ (s.ctx c).segs[n]? = some g ∧ s.workAt g.region (s.ctx c).frontier = some w := by
  have hcur : s.nextWork c = (s.ctx c).curSeg.bind (fun g => s.workAt g.region (s.ctx c).frontier) := by
    simp only [State.nextWork, hp]
    cases (s.ctx c).curSeg <;> rfl
  simp only [hcur, Option.bind_eq_some_iff, curSeg_eq_some_iff]
  grind

theorem nextWork_revisit_iff {s : State} {c : CtxId} {w : Work} (hp : (s.ctx c).phase = .revisit) :
    s.nextWork c = some w ↔ w.zero = false ∧ s.region w.id = some w.region ∧
      ∃ g gs, (s.ctx c).revisit = g :: gs ∧ g.region = w.id ∧ g.first = w.entry := by
  obtain ⟨z, i, r, e⟩ := w
  simp only [State.nextWork, hp]
  cases (s.ctx c).revisit with
  | nil => simp
  | cons g gs =>
    simp only [Option.map_eq_some_iff, Work.mk.injEq, List.cons.injEq]
    constructor
    · rintro ⟨q, hq, rfl, rfl, rfl, rfl⟩
      exact ⟨rfl, hq, g, gs, ⟨rfl, rfl⟩, rfl, rfl⟩
    · rintro ⟨rfl, hr, _, _, ⟨rfl, rfl⟩, rfl, rfl⟩
      exact ⟨r, hr, rfl, rfl, rfl, rfl⟩

theorem nextWork_fetch_iff {s : State} {c : CtxId} {i : RegionId} {r : Region} {e : Nat} :
    s.nextWork c = some ⟨false, i, r, e⟩ ↔ s.NextFetch c i r e := by
  unfold State.NextFetch
  cases hp : (s.ctx c).phase with
  | walk => grind [nextWork_walk_iff hp, workAt_eq_some_iff]
  | revisit => grind [nextWork_revisit_iff hp]

theorem nextWork_zero_iff {s : State} {c : CtxId} {i : RegionId} {r : Region} {e : Nat} :
    s.nextWork c = some ⟨true, i, r, e⟩ ↔ s.NextZero c i r e := by
  unfold State.NextZero
  cases hp : (s.ctx c).phase with
  | walk => grind [nextWork_walk_iff hp, workAt_eq_some_iff]
  | revisit => grind [nextWork_revisit_iff hp]

/-! ### Eligibility, column by column (R101) -/

theorem inFlight_eq_false_iff {x : Ctx} {i : RegionId} {e : Nat} :
    x.inFlight i e = false ↔ ∀ f ∈ x.flights, ¬ (f.region = i ∧ f.entry = e) := by
  simp [Ctx.inFlight]

theorem hasRoom_iff {s : State} {k : SlotId} : s.hasRoom k = true ↔ s.isReady k = true ∧ (s.slot k).queue.length < 48 := by
  simp only [State.hasRoom, Bool.and_eq_true, decide_eq_true_eq]
  rfl

theorem freeStaging_isSome_iff {s : State} : s.freeStaging?.isSome = true ↔ ∃ g : StagingId, s.staging[g] = none := by
  simp [State.freeStaging?, List.find?_isSome]

theorem freeEntry_isSome_iff {p : SlotPort} : p.freeEntry?.isSome = true ↔ ∃ j : PendIdx, p.pend[j] = none := by
  simp [SlotPort.freeEntry?, List.find?_isSome]

theorem workEligible_fetch_iff {s : State} {c : CtxId} {i : RegionId} {r : Region} {e : Nat} :
    s.workEligible c ⟨false, i, r, e⟩ = true ↔
      (∀ f ∈ (s.ctx c).flights, ¬ (f.region = i ∧ f.entry = e)) ∧
      (s.ctx c).flights.length < (s.ctx c).window ∧ (∃ g : StagingId, s.staging[g] = none) ∧
      s.isReady (s.ctx c).src = true ∧ (s.slot (s.ctx c).src).queue.length < 48 ∧
      ∃ j : PendIdx, (s.slot (s.ctx c).src).pend[j] = none := by
  simp only [State.workEligible, Bool.false_eq_true, if_false, Bool.and_eq_true, Bool.not_eq_true', decide_eq_true_eq,
    inFlight_eq_false_iff, freeStaging_isSome_iff, hasRoom_iff, freeEntry_isSome_iff, and_assoc]

theorem workEligible_zero_iff {s : State} {c : CtxId} {i : RegionId} {r : Region} {e : Nat} :
    s.workEligible c ⟨true, i, r, e⟩ = true ↔
      (∀ f ∈ (s.ctx c).flights, ¬ (f.region = i ∧ f.entry = e)) ∧
      s.isReady (s.ctx c).dst = true ∧ (s.slot (s.ctx c).dst).queue.length < 48 := by
  simp only [State.workEligible, if_true, Bool.and_eq_true, Bool.not_eq_true', inFlight_eq_false_iff, hasRoom_iff]

theorem eligible_iff_nextWork {s : State} {c : CtxId} :
    s.eligible c = true ↔ (s.ctx c).state = .walking ∧ (s.ctx c).paceRunning = false ∧
      ∃ w, s.nextWork c = some w ∧ s.workEligible c w = true := by
  unfold State.eligible
  cases s.nextWork c <;> simp [and_assoc]

/-- The model's test for eligibility is R101: the work's flag picks the column. -/
theorem eligible_iff {s : State} {c : CtxId} : s.eligible c = true ↔ s.Eligible c := by
  rw [eligible_iff_nextWork]
  unfold State.Eligible
  refine and_congr_right fun _ => and_congr_right fun _ => ⟨?_, ?_⟩
  · rintro ⟨⟨z, i, r, e⟩, hn, he⟩
    cases z with
    | false =>
      obtain ⟨hfree, hrest⟩ := workEligible_fetch_iff.1 he
      exact ⟨i, r, e, hfree, .inl ⟨nextWork_fetch_iff.1 hn, hrest⟩⟩
    | true =>
      obtain ⟨hfree, hrest⟩ := workEligible_zero_iff.1 he
      exact ⟨i, r, e, hfree, .inr ⟨nextWork_zero_iff.1 hn, hrest⟩⟩
  · rintro ⟨i, r, e, hfree, ⟨hn, hrest⟩ | ⟨hn, hrest⟩⟩
    · exact ⟨_, nextWork_fetch_iff.2 hn, workEligible_fetch_iff.2 ⟨hfree, hrest⟩⟩
    · exact ⟨_, nextWork_zero_iff.2 hn, workEligible_zero_iff.2 ⟨hfree, hrest⟩⟩

/-! ### The arbiter's search (R102) -/

theorem mem_searchOrder (last c : CtxId) : c ∈ searchOrder last :=
  List.mem_map.2 ⟨c - last - 1, mem_allCtxs _, by abel⟩

/-- The search visits the contexts by their distance from the one after the last served, counted with the wrap. -/
theorem searchOrder_pairwise (last : CtxId) :
    (searchOrder last).Pairwise (fun c d => (c - last - 1).val < (d - last - 1).val) := by
  have hasc : allCtxs.Pairwise (fun i j => i.val < j.val) := by decide
  have hdist : ∀ i : CtxId, last + 1 + i - last - 1 = i := fun i => by abel
  simpa only [searchOrder, List.pairwise_map, hdist] using hasc

/-- In a list that is ordered by `R`, a member outside the part before `b` is `b` or stands after it. -/
theorem related_of_not_before {α : Type} {R : α → α → Prop} {as bs : List α} {b x : α} (h : (as ++ b :: bs).Pairwise R)
    (hx : x ∈ as ++ b :: bs) (hn : x ∉ as) (hb : x ≠ b) : R b x := by
  obtain ⟨-, hpair, -⟩ := List.pairwise_append.1 h
  exact List.rel_of_pairwise_cons hpair (((List.mem_append.1 hx).resolve_left hn |> List.mem_cons.1).resolve_left hb)

/-- The search at one priority: nothing found there means that no context of it is eligible. -/
def State.pick (s : State) (p : Fin 4) : Option CtxId :=
  (searchOrder s.lastServed[p]).find? (fun c => (s.ctx c).priority == p && s.eligible c)

theorem arbiter_eq_pick (s : State) : s.arbiter = ([3, 2, 1, 0] : List (Fin 4)).findSome? s.pick := rfl

theorem mem_priorities (p : Fin 4) : p ∈ ([3, 2, 1, 0] : List (Fin 4)) := by revert p; decide

theorem pick_eq_none_iff {s : State} {p : Fin 4} :
    s.pick p = none ↔ ∀ c, s.eligible c = true → (s.ctx c).priority ≠ p := by
  simp only [State.pick, List.find?_eq_none, mem_searchOrder, true_imp_iff, Bool.and_eq_true, beq_iff_eq]
  grind

/-- What is found at a priority is eligible there, and nearest after the last one served. -/
theorem pick_eq_some {s : State} {p : Fin 4} {c : CtxId} (h : s.pick p = some c) :
    (s.ctx c).priority = p ∧ s.eligible c = true ∧ ∀ d, (s.ctx d).priority = p → s.eligible d = true → d ≠ c →
      (c - s.lastServed[p] - 1).val < (d - s.lastServed[p] - 1).val := by
  obtain ⟨hc, as, bs, hl, hbefore⟩ := List.find?_eq_some_iff_append.1 h
  obtain ⟨hp, he⟩ : (s.ctx c).priority = p ∧ s.eligible c = true := by simpa using hc
  refine ⟨hp, he, fun d hdp hd hne => ?_⟩
  have hmem := mem_searchOrder s.lastServed[p] d
  have hpair := searchOrder_pairwise s.lastServed[p]
  rw [hl] at hmem hpair
  exact (related_of_not_before hpair hmem (fun hin => by simpa [hdp, hd] using hbefore d hin) hne :)

theorem arbiter_eq_none_iff {s : State} : s.arbiter = none ↔ ∀ c, ¬ s.eligible c = true := by
  simp only [arbiter_eq_pick, List.findSome?_eq_none_iff, mem_priorities, true_imp_iff, pick_eq_none_iff]
  exact ⟨fun h c hc => h _ c hc rfl, fun h _ c hc => absurd hc (h c)⟩

/-- The arbiter's choice is what the search finds at its own priority, and no priority above has an eligible context. -/
theorem arbiter_eq_some {s : State} {c : CtxId} (h : s.arbiter = some c) :
    s.pick (s.ctx c).priority = some c ∧ ∀ d, s.eligible d = true → (s.ctx d).priority ≤ (s.ctx c).priority := by
  rw [arbiter_eq_pick] at h
  obtain ⟨as, p, bs, hl, hpick, hnone⟩ := List.findSome?_eq_some_iff.1 h
  obtain ⟨rfl, -, -⟩ := pick_eq_some hpick
  refine ⟨hpick, fun d hd => ?_⟩
  by_cases heq : (s.ctx d).priority = (s.ctx c).priority
  · exact heq.le
  have hpair : (as ++ (s.ctx c).priority :: bs).Pairwise (· > ·) := hl ▸ (by decide)
  have hmem : (s.ctx d).priority ∈ as ++ (s.ctx c).priority :: bs := hl ▸ mem_priorities _
  exact (related_of_not_before hpair hmem (fun hin => pick_eq_none_iff.1 (hnone _ hin) d hd rfl) heq).le

/-- Settles O50: the search goes down the priorities, each list of candidates is ordered by the distance after the last one
served, and what it tests is R101. -/
theorem arbiterChoosesByPriority : Obligations.ArbiterChoosesByPriority := by
  unfold Obligations.ArbiterChoosesByPriority
  refine fun s => ⟨by simp only [arbiter_eq_none_iff, eligible_iff], fun c h => ?_⟩
  obtain ⟨hpick, hhighest⟩ := arbiter_eq_some h
  obtain ⟨-, hc, hnearest⟩ := pick_eq_some hpick
  refine ⟨eligible_iff.1 hc, fun d hd hne => ?_⟩
  have hde := eligible_iff.2 hd
  exact (hhighest d hde).lt_or_eq.imp_right fun hp => ⟨hp, hnearest d hp hde hne⟩

end Sys2Proof.Machine
end

section

namespace Sys2Proof.Machine

/-! ### What every command keeps: the nine invariants of `Kept` -/

section

variable {W : Invariant → Prop} {s t u : State}

/-- A command whose meaning is a state that keeps the invariants. -/
theorem Kept.next (h : Kept W u) (he : (.next u : Host.Outcome State Fault Refusal) = .next t) : Kept W t := next_inj he ▸ h

/-- A command that does nothing while the part is held. -/
theorem Kept.unless {f : State → State} (h : Kept W s) (hf : Kept W (f s))
    (he : (.next (s.unlessHeld f) : Host.Outcome State Fault Refusal) = .next t) : Kept W t := (kept_unlessHeld h f hf).next he

/-- R6: the end of STARTING grants the agent its 64 credits, with nothing in intake. -/
theorem Kept.startingComplete (h : Kept W s) (hs : s.startup = .starting) :
    Kept W ({ s with startup := .running, agentCredits := 0 }.pushGrant Config.agentCredits) := by
  refine h.beside (fun hc => ?_) rfl rfl rfl rfl rfl rfl rfl
  unfold State.CreditsConserved at hc ⊢
  rw [hs] at hc
  obtain ⟨-, hi⟩ := hc
  simp [hi]

/-- A request on the levels, the floor or the masks moves nothing that an invariant reads. -/
theorem Kept.configured (h : Kept W s) (levels : Vector Level 6) (floor : Level) (notices : Vector NoticeRec 20) :
    Kept W { s with levels := levels, floor := floor, notices := notices }.sendOpened :=
  Kept.sendOpened (h.same rfl rfl rfl rfl rfl rfl rfl rfl rfl rfl)

theorem foldl_setMask_eq (m : Bool) (ks : List NoticeKind) (s : State) :
    ks.foldl (State.setMask m) s = { s with notices := (ks.foldl (State.setMask m) s).notices } := by
  obtain ⟨u, hu, he, -⟩ := foldl_setMask_spec m ks s
  rw [hu, ← he]

theorem Kept.reqMask (h : Kept W s) (m : Bool) (ps : List Nat) : Kept W (reqMask m ps s).1 := by
  unfold Sys2Proof.Machine.reqMask
  split
  · unfold State.setMasks
    rw [foldl_setMask_eq]
    exact h.configured _ _ _
  · exact h

theorem Kept.reqNoticeLevel (h : Kept W s) (ps : List Nat) : Kept W (reqNoticeLevel ps s).1 := by
  unfold Sys2Proof.Machine.reqNoticeLevel
  split
  · exact h.configured _ _ _
  · exact h

theorem Kept.reqNoticeFloor (h : Kept W s) (ps : List Nat) : Kept W (reqNoticeFloor ps s).1 := by
  unfold Sys2Proof.Machine.reqNoticeFloor
  split
  · exact h.configured _ _ _
  · exact h

theorem foldl_endEpisode_eq (ks : List NoticeKind) (s : State) :
    ks.foldl State.endEpisode s = { s with notices := (ks.foldl State.endEpisode s).notices } := by
  obtain ⟨u, hu, he, -⟩ := foldl_endEpisode_spec ks s
  rw [hu, ← he]

theorem Kept.reqCollect (h : Kept W s) (ps : List Nat) : Kept W (reqCollect ps s).1 := by
  unfold Sys2Proof.Machine.reqCollect
  split
  · unfold State.collect
    dsimp only
    rw [foldl_endEpisode_eq]
    exact h.same rfl rfl rfl rfl rfl rfl rfl rfl rfl rfl
  · exact h

theorem Kept.reqSoftReset (h : Kept W s) (ps : List Nat) : Kept W (reqSoftReset ps s).1 := by
  unfold Sys2Proof.Machine.reqSoftReset
  split
  · exact h.softReset
  · exact h

theorem Kept.reqCountersClear (h : Kept W s) (ps : List Nat) : Kept W (reqCountersClear ps s).1 := by
  unfold Sys2Proof.Machine.reqCountersClear
  split
  · exact h.clearScope _
  · exact h

/-- A request whose effect on the state keeps the invariants, whatever its parameter words. -/
theorem Kept.requested (h : Kept W s) (r : Request) {body : List Nat → State → State × Answer}
    (hb : ∀ ps {s : State}, Kept W s → Kept W (body ps s).1) : Kept W (s.serve r body) :=
  h.serve r body (fun ps _ hs _ => hb ps hs)

/-- What flight records have to do with the gap list and the spare maps: only a context that walks has any, and it walks
only towards a READY destination. -/
def State.WalkersOnly (s : State) (W : Invariant → Prop) : Prop :=
  (W .owners ∨ W .maps → ∀ c, (s.ctx c).flights ≠ [] → (s.ctx c).state = .walking ∨ (s.ctx c).state = .paused) ∧
    (W .maps → s.DestsReady)

theorem Kept.returnArrives (h : Kept W s) (hw : s.WalkersOnly W) (k : SlotId) (f : Frame) : Kept W (s.returnArrives k f) := by
  unfold State.returnArrives
  split
  · exact h.replyAccepted _ _ _ hw.1 hw.2
  · exact h

theorem Kept.fenceDoneArrives (h : Kept W s) (hw : s.WalkersOnly W) (k : SlotId) (f : Frame) :
    Kept W (s.fenceDoneArrives k f) := by
  unfold State.fenceDoneArrives
  split
  · exact h.replyAccepted _ _ _ hw.1 hw.2
  · exact h

theorem Kept.badWordsArrive (h : Kept W s) (k : SlotId) (f : Frame) : Kept W (s.badWordsArrive k f) := by
  unfold State.badWordsArrive
  split
  · exact h.rejectBoard k
  · exact h

theorem Kept.sendUpstream (h : Kept W s) : Kept W s.sendUpstream := by
  unfold State.sendUpstream
  split
  · exact h
  · split
    · exact h.same rfl rfl rfl rfl rfl rfl rfl rfl rfl rfl
    · exact h

/-- A change of a presence line. -/
theorem Kept.setPresence (h : Kept W s) (k : SlotId) (b : Bool) : Kept W (s.modSlot k (fun p => { p with presence := b })) :=
  h.modSame k _ rfl rfl rfl id (fun a => receives_keep a rfl rfl) (.inl (Nat.le_refl _))

/-- Every command keeps each of the nine invariants by itself, but for the owners of gap records and the maps of slots in DOWN,
which need the rules of the flight tables. -/
theorem Kept.exec (h : Kept W s) (hw : s.WalkersOnly W) (i : Instr) (he : exec i s = .next t) : Kept W t := by
  cases i with
  | powerOnReset => exact (Kept.resetPart s _ _ (by split <;> simp)).next he
  | resetLineAssert => exact (Kept.resetPart s _ _ (by simp)).next he
  | resetLineRelease =>
    refine Kept.next ?_ he
    split
    · exact Kept.resetPart s _ _ (by simp)
    · exact h
  | startingComplete =>
    refine Kept.next ?_ he
    split
    · rename_i hs; exact h.startingComplete hs
    · exact h
  | agentArrival f =>
    refine h.unless ?_ he
    split
    · exact h.agentArrives f
    · exact h
  | agentLinkLost =>
    refine Kept.next ?_ he
    exact h.same rfl rfl rfl rfl rfl rfl rfl rfl rfl rfl
  | agentLinkUp =>
    refine Kept.next ?_ he
    exact h.same rfl rfl rfl rfl rfl rfl rfl rfl rfl rfl
  | upstreamSend => exact h.unless h.sendUpstream he
  | storeTaken => exact h.unless (h.withHead _ _ fun t b rest hi => h.takeStore t b rest hi) he
  | fillStep => exact h.unless (h.withHead _ _ fun t b rest hi => h.stepFill t b rest hi) he
  | fetchTaken => exact h.unless (h.withHead _ _ fun t b rest hi => h.takeFetch t b rest hi) he
  | fenceTaken => exact h.unless (h.withHead _ _ fun t b rest hi => h.takeFence t b rest hi) he
  | slotPresenceActive k => exact (h.setPresence k true).next he
  | slotPresenceLost k => exact (h.setPresence k false).unless ((h.setPresence k false).goDown k) he
  | slotLinkUp k => exact h.unless (h.linkUp k) he
  | slotLinkLost k => exact h.unless (h.goDown k) he
  | helloTimerExpiry k => exact h.unless (h.helloExpires k) he
  | settleTimerExpiry k => exact h.unless (h.settleExpires k) he
  | replyTimerExpiry k n => exact h.unless (h.replyExpires k n) he
  | grantReceived k f => exact h.unless (h.grantArrives k f) he
  | helloReceived k f => exact h.unless (h.helloArrives k f) he
  | haltReceived k f => exact h.unless (h.haltArrives k f) he
  | returnReceived k f => exact h.unless (h.returnArrives hw k f) he
  | fenceDoneReceived k f => exact h.unless (h.fenceDoneArrives hw k f) he
  | boardTransactionRejected k f => exact h.unless (h.badWordsArrive k f) he
  | slotSend k => exact h.unless (h.sendSlot k) he
  | walkFetchIssue => exact h.unless (h.grantIf _ _ fun c w hc => h.grantFetch c w hc) he
  | zeroFillIssue => exact h.unless (h.grantIf _ _ fun c w _ => h.grantZero c w) he
  | paceTimerExpiry c =>
    refine h.unless ?_ he
    exact h.setCtx c _ rfl rfl (.same rfl rfl)
  | writeClaimTaken c n => exact h.unless (h.takeWrite c n) he
  | verifyClaimTaken c n => exact h.unless (h.takeVerify c n) he
  | cutoverClaimTaken c => exact h.unless (h.takeCutover c) he
  | unknownRequest => exact h.unless (h.decode _ _ fun _ _ hs => hs) he
  | readStateBridge => exact h.unless (h.read _ _) he
  | readStateSlot => exact h.unless (h.read _ _) he
  | readStateSteer => exact h.unless (h.read _ _) he
  | readStateLayout => exact h.unless (h.read _ _) he
  | readStateRegion => exact h.unless (h.read _ _) he
  | readStateContext => exact h.unless (h.read _ _) he
  | readStateSegments => exact h.unless (h.read _ _) he
  | readStateRevisit => exact h.unless (h.read _ _) he
  | readStateGaps => exact h.unless (h.read _ _) he
  | readStateSpares => exact h.unless (h.read _ _) he
  | readStateNotices => exact h.unless (h.read _ _) he
  | readStateCounters => exact h.unless (h.read _ _) he
  | softReset => exact h.unless (h.requested _ fun ps _ hs => hs.reqSoftReset ps) he
  | countersClear => exact h.unless (h.requested _ fun ps _ hs => hs.reqCountersClear ps) he
  | slotRetry => exact h.unless (h.requested _ fun ps _ hs => hs.slotReq ps) he
  | slotHalt => exact h.unless (h.requested _ fun ps _ hs => hs.haltReq ps) he
  | steerSet => exact h.unless (h.requested _ fun ps _ hs => hs.reqSteerSet ps) he
  | steerClear => exact h.unless (h.requested _ fun ps _ hs => hs.reqSteerClear ps) he
  | twinSet => exact h.unless (h.requested _ fun ps _ hs => hs.reqTwinSet ps) he
  | twinClear => exact h.unless (h.requested _ fun ps _ hs => hs.reqTwinClear ps) he
  | swap => exact h.unless (h.requested _ fun ps _ hs => hs.reqSwap ps) he
  | layoutSet => exact h.unless (h.requested _ fun ps _ hs => hs.reqLayoutSet ps) he
  | regionLoad => exact h.unless (h.serve _ _ fun ps _ hs hlt => hs.reqRegionLoad ps hlt) he
  | regionClear => exact h.unless (h.requested _ fun ps _ hs => hs.reqRegionClear ps) he
  | ctxOpen => exact h.unless (h.requested _ fun ps _ hs => hs.reqCtxOpen ps) he
  | segAppend => exact h.unless (h.requested _ fun ps _ hs => hs.reqSegAppend ps) he
  | ctxStart => exact h.unless (h.requested _ fun ps _ hs => hs.reqCtxStart ps) he
  | ctxPause => exact h.unless (h.requested _ fun ps _ hs => hs.reqCtxPause ps) he
  | ctxResume => exact h.unless (h.requested _ fun ps _ hs => hs.reqCtxResume ps) he
  | stopPoint => exact h.unless (h.requested _ fun ps _ hs => hs.reqStopPoint ps) he
  | ctxAbort => exact h.unless (h.requested _ fun ps _ hs => hs.reqCtxAbort ps) he
  | ctxClose => exact h.unless (h.requested _ fun ps _ hs => hs.reqCtxClose ps) he
  | ctxCutover => exact h.unless (h.decode _ _ fun x _ hs => hs.reqCtxCutover x) he
  | gapWaive => exact h.unless (h.requested _ fun ps _ hs => hs.reqGapWaive ps) he
  | spareDrop => exact h.unless (h.requested _ fun ps _ hs => hs.reqSpareDrop ps) he
  | noticeLevel => exact h.unless (h.requested _ fun ps _ hs => hs.reqNoticeLevel ps) he
  | noticeFloor => exact h.unless (h.requested _ fun ps _ hs => hs.reqNoticeFloor ps) he
  | maskSet => exact h.unless (h.requested _ fun ps _ hs => hs.reqMask true ps) he
  | maskClear => exact h.unless (h.requested _ fun ps _ hs => hs.reqMask false ps) he
  | collect => exact h.unless (h.requested _ fun ps _ hs => hs.reqCollect ps) he

/-- A step idles, or runs a command on the state without it. -/
theorem step_cases (h : step s = .next t) : t = s ∨ ∃ i rest, exec i { s with pending := rest } = .next t := by
  unfold step at h
  split at h
  · exact .inl (next_inj h).symm
  · exact .inr ⟨_, _, h⟩

theorem Kept.step (h : Kept W s) (hw : s.WalkersOnly W) (he : step s = .next t) : Kept W t := by
  obtain rfl | ⟨i, rest, he⟩ := step_cases he
  · exact h
  · have hq : Kept W { s with pending := rest } := h.same rfl rfl rfl rfl rfl rfl rfl rfl rfl rfl
    exact hq.exec hw i he

/-- The invariant that a name stands for. -/
def State.Meets (s : State) : Invariant → Prop
  | .credits => s.CreditsConserved
  | .bounds => s.SlotsBounded
  | .agreement => s.SlotsAgree
  | .tables => s.TablesSound
  | .wiring => s.Wired
  | .layout => s.LayoutSound
  | .owners => s.GapsOwned
  | .dests => s.DestsReady
  | .maps => s.DownMapsEmpty

theorem kept_iff_meets : Kept W s ↔ ∀ i, W i → s.Meets i :=
  ⟨fun h i => match i with
    | .credits => h.cr | .bounds => h.sb | .agreement => h.ag | .tables => h.tb | .wiring => h.w | .layout => h.lo
    | .owners => h.ow | .dests => h.ds | .maps => h.dm,
    fun h => ⟨h .credits, h .bounds, h .agreement, h .tables, h .wiring, h .layout, h .owners, h .dests, h .maps⟩⟩

/-- One invariant, kept by a step by itself. -/
theorem step_meets (i : Invariant) (h : s.Meets i)
    (hw : i = .owners ∨ i = .maps → ∀ c, (s.ctx c).flights ≠ [] → (s.ctx c).state = .walking ∨ (s.ctx c).state = .paused)
    (hd : i = .maps → s.DestsReady) (he : step s = .next t) : t.Meets i :=
  kept_iff_meets.1 ((kept_iff_meets.2 (by rintro j rfl; exact h) : Kept (fun j => i = j) s).step ⟨hw, hd⟩ he) i rfl

end

/-- Settles O56: R6 is one of the nine invariants that every command keeps. -/
theorem stepConservesAgentCredits : Obligations.StepConservesAgentCredits := by
  unfold Obligations.StepConservesAgentCredits
  exact fun s t h => step_meets .credits h (by simp) (by simp)

/-- Settles O58: so is the agreement of the steering table and the contexts. -/
theorem stepKeepsSteeringWired : Obligations.StepKeepsSteeringWired := by
  unfold Obligations.StepKeepsSteeringWired
  exact fun s t h => step_meets .wiring h (by simp) (by simp)

/-- Settles O59: so is the soundness of the layout. -/
theorem stepKeepsLayoutSound : Obligations.StepKeepsLayoutSound := by
  unfold Obligations.StepKeepsLayoutSound
  exact fun s t h => step_meets .layout h (by simp) (by simp)

/-- The last clause of the flight rules: only a context that walks has flight records (R98). -/
theorem State.FlightsSound.walks {s : State} (h : s.FlightsSound) (c : CtxId) :
    (s.ctx c).flights ≠ [] → (s.ctx c).state = .walking ∨ (s.ctx c).state = .paused :=
  ((h.1 c).2.2.2.2.2 :)

/-- Settles O57: the three by themselves, and the maps of slots in DOWN with the rules of the flight tables. -/
theorem stepKeepsSlotsAndTables : Obligations.StepKeepsSlotsAndTables := by
  unfold Obligations.StepKeepsSlotsAndTables
  exact fun s t he => ⟨fun h => step_meets .bounds h (by simp) (by simp) he, fun h => step_meets .agreement h (by simp) (by simp) he,
    fun h => step_meets .tables h (by simp) (by simp) he, fun hf hd h => step_meets .maps h (fun _ => hf.walks) (fun _ => hd) he⟩

end Sys2Proof.Machine
end

section

namespace Sys2Proof.Machine

/-! ### What every command keeps: the flight tables and the pools -/

section

variable {P Q : Prop} {s t u : State}

/-- With every context at its reset record and every staging entry free there is no record at all. -/
theorem sound_of_reset (hc : ∀ c, s.ctx c = {}) (hg : ∀ g : StagingId, s.staging[g] = none) : Sound P Q s := by
  refine ⟨fun _ => ⟨fun c => ?_, ⟨fun c => ?_, fun c d _ n hn => ?_⟩, fun g => ?_⟩,
    fun _ => ⟨⟨fun c => ?_, fun c d _ n hn => ?_⟩, ⟨fun c => ?_, fun c d _ n hn => ?_⟩, fun c => ?_⟩⟩
  all_goals simp_all [rangesApart_nil]

theorem Sound.next (h : Sound P Q u) (he : (.next u : Host.Outcome State Fault Refusal) = .next t) : Sound P Q t :=
  next_inj he ▸ h

theorem Sound.unless {f : State → State} (h : Sound P Q s) (hf : Sound P Q (f s))
    (he : (.next (s.unlessHeld f) : Host.Outcome State Fault Refusal) = .next t) : Sound P Q t := by
  refine Sound.next ?_ he
  unfold State.unlessHeld
  split
  · exact h
  · exact hf

theorem sound_resetPart (s : State) (st : Startup) (r : StartRecord) : Sound P Q (s.resetPart st r) :=
  sound_of_reset (fun c => by simp [State.ctx, State.resetPart]) (fun g => by simp [State.resetPart])

theorem Sound.setSlot (h : Sound P Q s) (k : SlotId) (p : SlotPort) : Sound P Q (s.setSlot k p) := h.same rfl rfl

theorem Sound.modSlot (h : Sound P Q s) (k : SlotId) (f : SlotPort → SlotPort) : Sound P Q (s.modSlot k f) := h.same rfl rfl

/-! The agent's side and the requests' envelope. -/

theorem Sound.agentArrives (h : Sound P Q s) (f : Frame) : Sound P Q (s.agentArrives f) := by
  unfold State.agentArrives State.agentOverrun State.agentReject State.agentAccept
  split
  · refine Sound.raise ?_ _ _
    exact h.same rfl rfl
  · split
    · refine Sound.raise ?_ _ _
      exact h.same rfl rfl
    · refine Sound.cutHead ?_
      exact h.same rfl rfl

theorem Sound.sendUpstream (h : Sound P Q s) : Sound P Q s.sendUpstream := by
  unfold State.sendUpstream
  split
  · exact h
  · split
    · exact h.same rfl rfl
    · exact h

theorem Sound.takeHead (h : Sound P Q s) : Sound P Q s.takeHead := h.same rfl rfl

theorem Sound.decode (h : Sound P Q s) (mine : Txn → Bool) {body : Txn → State → State × Option Answer}
    (hb : ∀ x {s : State}, Sound P Q s → Sound P Q (body x s).1) : Sound P Q (s.decode mine body) := by
  unfold State.decode
  split
  · exact h
  case _ x _ _ =>
    split
    · refine Sound.cutHead ?_
      have hbody := hb x h.takeHead
      unfold State.answer
      split
      · exact hbody.same rfl rfl
      · exact hbody
    · exact h

theorem Sound.requested (h : Sound P Q s) (r : Request) {body : List Nat → State → State × Answer}
    (hb : ∀ ps {s : State}, Sound P Q s → Sound P Q (body ps s).1) : Sound P Q (s.serve r body) :=
  h.decode _ fun x _ hs => hb x.params hs

theorem Sound.read (h : Sound P Q s) (o : Object) (view : State → Nat → Nat → Option Answer) : Sound P Q (s.read o view) :=
  h.decode _ fun _ _ hs => hs

/-! The slot ports. -/

theorem Sound.linkUp (h : Sound P Q s) (k : SlotId) : Sound P Q (s.linkUp k) := by
  unfold State.linkUp
  split
  · split
    · exact h.modSlot _ _
    · exact h
  · exact h.modSlot _ _
  all_goals exact h

theorem Sound.helloExpires (h : Sound P Q s) (k : SlotId) : Sound P Q (s.helloExpires k) := by
  have hm : Sound P Q (s.helloMissed k) := (h.modSlot k _).raise _ _
  unfold State.helloExpires
  split
  · dsimp only
    split
    · exact hm.modSlot _ _
    · exact (hm.modSlot k _).raise _ _
  · exact h

theorem Sound.settleExpires (h : Sound P Q s) (k : SlotId) : Sound P Q (s.settleExpires k) := by
  unfold State.settleExpires
  split
  · exact ((h.modSlot k _).raise _ _).engineEntered k
  · exact h

theorem Sound.replyExpires (h : Sound P Q s) (k : SlotId) (i : PendIdx) : Sound P Q (s.replyExpires k i) := by
  unfold State.replyExpires
  split
  · exact (h.modSlot k _).goHalted k _ _
  · exact h

theorem Sound.grantArrives (h : Sound P Q s) (k : SlotId) (f : Frame) : Sound P Q (s.grantArrives k f) := by
  unfold State.grantArrives State.addCredits
  split
  · dsimp only
    split
    · exact (h.modSlot k _).raise _ _
    · exact h.modSlot _ _
  · exact h

theorem Sound.helloArrives (h : Sound P Q s) (k : SlotId) (f : Frame) : Sound P Q (s.helloArrives k f) := by
  obtain he | ⟨a, he⟩ := helloArrives_cases s k f
  · rwa [he]
  · rw [he]
    unfold State.helloAccepted
    split
    · exact h.modSlot _ _
    · exact h.modSlot _ _
    · exact (h.depart k _).modSlot _ _
    · exact (h.depart k _).modSlot _ _
    all_goals exact h

theorem Sound.haltArrives (h : Sound P Q s) (k : SlotId) (f : Frame) : Sound P Q (s.haltArrives k f) := by
  obtain he | ⟨reason, he⟩ := haltArrives_cases s k f
  · rwa [he]
  · rw [he]
    unfold State.haltAccepted
    split
    · exact h.goHalted _ _ _
    · exact h.goHalted _ _ _
    · exact h.goHalted _ _ _
    all_goals exact h

theorem Sound.rejectBoard (h : Sound P Q s) (k : SlotId) : Sound P Q (s.rejectBoard k) := (h.modSlot k _).raise _ _

theorem Sound.replyAccepted (h : Sound P Q s) (k : SlotId) (kind : PendKind) (t : Txn) : Sound P Q (s.replyAccepted k kind t) := by
  unfold State.replyAccepted State.freePend
  split
  · split
    · exact h.rejectBoard k
    · cases kind with
      | fetch => exact (h.modSlot k _).deliverReturn _ _
      | fence => exact (h.modSlot k _).deliverFence _
  · exact h

theorem Sound.returnArrives (h : Sound P Q s) (k : SlotId) (f : Frame) : Sound P Q (s.returnArrives k f) := by
  unfold State.returnArrives
  split
  · exact h.replyAccepted _ _ _
  · exact h

theorem Sound.fenceDoneArrives (h : Sound P Q s) (k : SlotId) (f : Frame) : Sound P Q (s.fenceDoneArrives k f) := by
  unfold State.fenceDoneArrives
  split
  · exact h.replyAccepted _ _ _
  · exact h

theorem Sound.badWordsArrive (h : Sound P Q s) (k : SlotId) (f : Frame) : Sound P Q (s.badWordsArrive k f) := by
  unfold State.badWordsArrive
  split
  · exact h.rejectBoard k
  · exact h

theorem Sound.sendSlot (h : Sound P Q s) (k : SlotId) : Sound P Q (s.sendSlot k) := by
  unfold State.sendSlot
  split
  · exact h
  · split
    · exact h.modSlot _ _
    · exact h

/-! The Steering Unit at the head of intake. -/

theorem Sound.withHead (h : Sound P Q s) (kind : TxnKind) {f : State → Txn → BoardId → State}
    (hf : ∀ t b, Sound P Q (f s t b)) : Sound P Q (s.withHead kind f) := by
  unfold State.withHead
  split
  · exact h
  · split
    · split
      · exact hf _ _
      · exact h
    · exact h

theorem Sound.takeStore (h : Sound P Q s) (t : Txn) (b : BoardId) : Sound P Q (s.takeStore t b) := by
  unfold State.takeStore
  split
  · exact h
  · rename_i u hu
    exact ((h.claimAll hu).settlePieces _ _).takeHead.cutHead

theorem Sound.endFill (h : Sound P Q s) : Sound P Q s.endFill := by
  refine Sound.cutHead ?_
  exact h.same rfl rfl

theorem Sound.fillWhole (h : Sound P Q s) (t : Txn) (e : SteerEntry) (w : List SlotId) (ps : List Piece) (vs : List Verdict) :
    Sound P Q (s.fillWhole t e w ps vs) := by
  unfold State.fillWhole
  split
  · exact h
  · rename_i u hu
    split
    · exact ((h.claimAll hu).settlePieces e vs).endFill
    · exact (h.claimAll hu).same rfl rfl

theorem Sound.fillPiece (h : Sound P Q s) (t : Txn) (e : SteerEntry) (w : List SlotId) (p : Piece) (ps : List Piece) :
    Sound P Q (s.fillPiece t e w p ps) := by
  unfold State.fillPiece
  dsimp only
  split
  · exact h
  · rename_i u hu
    have hsettled := (h.claimAll hu).settlePieces e [s.judge e p]
    split
    · exact hsettled.endFill
    · exact hsettled.same rfl rfl

theorem Sound.stepFill (h : Sound P Q s) (t : Txn) (b : BoardId) : Sound P Q (s.stepFill t b) := by
  unfold State.stepFill
  split
  · exact h
  · dsimp only
    split
    · exact h.endFill
    · exact h.fillPiece _ _ _ _ _
    · split
      · exact h.fillPiece _ _ _ _ _
      · exact h.fillWhole _ _ _ _ _

theorem Sound.openAssembly (h : Sound P Q s) (n : Nat) (t : Txn) (b : BoardId) (parts : Nat) :
    Sound P Q (s.openAssembly n t b parts) := by
  unfold State.openAssembly
  split
  · exact h
  · exact h.same rfl rfl

theorem Sound.takeFetch (h : Sound P Q s) (t : Txn) (b : BoardId) : Sound P Q (s.takeFetch t b) := by
  have hno : Sound P Q (s.takeHead.pushReturn t.tag b retNoBoard t.count []).cutHead := by
    refine Sound.cutHead ?_
    exact h.same rfl rfl
  unfold State.takeFetch
  split
  · exact hno
  · split
    · split
      · exact h
      · rename_i u hu
        exact ((h.claim hu).openAssembly _ _ _ _).takeHead.cutHead
    · exact hno

theorem Sound.takeFence (h : Sound P Q s) (t : Txn) (b : BoardId) : Sound P Q (s.takeFence t b) := by
  unfold State.takeFence
  split
  · refine Sound.cutHead ?_
    exact h.same rfl rfl
  · split
    · exact h
    · rename_i u hu
      refine Sound.cutHead ?_
      exact (h.claimAll hu).same rfl rfl

/-! The walk. -/

theorem Sound.walkFetchIssue (h : Sound P Q s) : Sound P Q (s.grantIf false State.grantFetch) := by
  unfold State.grantIf
  split
  · exact h
  · rename_i c hc
    split
    · exact h
    · rename_i w hw
      split
      · rename_i hz
        obtain ⟨hs, -, v, hv, hv'⟩ := eligible_iff_nextWork.1 (arbiter_eligible hc)
        obtain rfl : w = v := Option.some.inj (hw.symm.trans hv)
        exact h.grantFetch c w hz hs hv'
      · exact h

theorem Sound.zeroFillIssue (h : Sound P Q s) : Sound P Q (s.grantIf true State.grantZero) := by
  unfold State.grantIf
  repeat' split
  exacts [h, h, h.grantZero _ _, h]

theorem Sound.stopPace (h : Sound P Q s) (c : CtxId) : Sound P Q (s.modCtx c (fun x => { x with paceRunning := false })) :=
  h.modCtx c _ (.of_flights rfl rfl (fun _ hs => hs) (.of_eq rfl) (.of_eq rfl) (.refl _))

/-! The requests. -/

theorem Sound.reqSoftReset (h : Sound P Q s) (ps : List Nat) : Sound P Q (reqSoftReset ps s).1 := by
  unfold Sys2Proof.Machine.reqSoftReset
  split
  · exact h.softReset
  · exact h

theorem Sound.reqCountersClear (h : Sound P Q s) (ps : List Nat) : Sound P Q (reqCountersClear ps s).1 := by
  unfold Sys2Proof.Machine.reqCountersClear
  split
  · exact h.clearScope _
  · exact h

theorem Sound.reqSlotRetry (h : Sound P Q s) (ps : List Nat) : Sound P Q (reqSlotRetry ps s).1 := by
  unfold Sys2Proof.Machine.reqSlotRetry State.retrySlot
  repeat' split
  exacts [h.modSlot _ _, h.modSlot _ _, h, h, h, h, h]

theorem Sound.reqSlotHalt (h : Sound P Q s) (ps : List Nat) : Sound P Q (reqSlotHalt ps s).1 := by
  unfold Sys2Proof.Machine.reqSlotHalt State.haltSlot
  repeat' split
  exacts [h.goHalted _ _ _, h, h]

theorem Sound.reqSteerSet (h : Sound P Q s) (ps : List Nat) : Sound P Q (reqSteerSet ps s).1 := by
  unfold Sys2Proof.Machine.reqSteerSet State.setSteer
  repeat' split
  exacts [h, h, h, h.setEntry _ _]

theorem Sound.reqSteerClear (h : Sound P Q s) (ps : List Nat) : Sound P Q (reqSteerClear ps s).1 := by
  unfold Sys2Proof.Machine.reqSteerClear State.clearSteer
  repeat' split
  exacts [h, h, h.setEntry _ _, h]

theorem Sound.reqTwinSet (h : Sound P Q s) (ps : List Nat) : Sound P Q (reqTwinSet ps s).1 := by
  unfold Sys2Proof.Machine.reqTwinSet State.setTwin
  repeat' split
  exacts [h, h, h.setEntry _ _, h, h, h, h]

theorem Sound.reqTwinClear (h : Sound P Q s) (ps : List Nat) : Sound P Q (reqTwinClear ps s).1 := by
  unfold Sys2Proof.Machine.reqTwinClear State.clearTwin
  repeat' split
  exacts [h, h.setEntry _ _, h, h, h, h]

theorem Sound.reqSwap (h : Sound P Q s) (ps : List Nat) : Sound P Q (reqSwap ps s).1 := by
  unfold Sys2Proof.Machine.reqSwap State.swap
  repeat' split
  exacts [h, h.setEntry _ _, h, h]

theorem Sound.reqLayoutSet (h : Sound P Q s) (ps : List Nat) : Sound P Q (reqLayoutSet ps s).1 := by
  unfold Sys2Proof.Machine.reqLayoutSet State.setLayout
  repeat' split
  exacts [h, h, h.same rfl rfl, h]

theorem Sound.reqRegionLoad (h : Sound P Q s) (ps : List Nat) : Sound P Q (reqRegionLoad ps s).1 := by
  unfold Sys2Proof.Machine.reqRegionLoad State.loadRegion
  repeat' split
  exacts [h, h, h.same rfl rfl, h]

theorem Sound.reqRegionClear (h : Sound P Q s) (ps : List Nat) : Sound P Q (reqRegionClear ps s).1 := by
  unfold Sys2Proof.Machine.reqRegionClear State.clearRegion
  repeat' split
  exacts [h, h, h.same rfl rfl, h]

theorem Sound.reqCtxOpen (h : Sound P Q s) (ps : List Nat) : Sound P Q (reqCtxOpen ps s).1 := by
  unfold Sys2Proof.Machine.reqCtxOpen
  split
  · rename_i q hq
    obtain ⟨-, -, -, -, hw, -⟩ := parseOpen_some.1 hq
    exact h.openCtx q hw
  · exact h

theorem Sound.reqSegAppend (h : Sound P Q s) (ps : List Nat) : Sound P Q (reqSegAppend ps s).1 := by
  unfold Sys2Proof.Machine.reqSegAppend
  split
  · exact h.appendSeg _
  · exact h

theorem Sound.reqCtxStart (h : Sound P Q s) (ps : List Nat) : Sound P Q (reqCtxStart ps s).1 := by
  unfold Sys2Proof.Machine.reqCtxStart
  split
  · exact h.startCtx _
  · exact h

theorem Sound.reqCtxPause (h : Sound P Q s) (ps : List Nat) : Sound P Q (reqCtxPause ps s).1 := by
  unfold Sys2Proof.Machine.reqCtxPause
  split
  · exact h.pauseCtx _
  · exact h

theorem Sound.reqCtxResume (h : Sound P Q s) (ps : List Nat) : Sound P Q (reqCtxResume ps s).1 := by
  unfold Sys2Proof.Machine.reqCtxResume
  split
  · exact h.resumeCtx _
  · exact h

theorem Sound.reqStopPoint (h : Sound P Q s) (ps : List Nat) : Sound P Q (reqStopPoint ps s).1 := by
  unfold Sys2Proof.Machine.reqStopPoint
  split
  · exact h.setStop _ _
  · exact h

theorem Sound.reqCtxAbort (h : Sound P Q s) (ps : List Nat) : Sound P Q (reqCtxAbort ps s).1 := by
  unfold Sys2Proof.Machine.reqCtxAbort
  split
  · exact h.abortCtx _
  · exact h

theorem Sound.reqCtxClose (h : Sound P Q s) (ps : List Nat) : Sound P Q (reqCtxClose ps s).1 := by
  unfold Sys2Proof.Machine.reqCtxClose
  split
  · exact h.closeCtx _
  · exact h

theorem Sound.reqCtxCutover (h : Sound P Q s) (t : Txn) : Sound P Q (reqCtxCutover t s).1 := by
  unfold Sys2Proof.Machine.reqCtxCutover
  split
  · exact h.cutover _ _
  · exact h

theorem Sound.reqGapWaive (h : Sound P Q s) (ps : List Nat) : Sound P Q (reqGapWaive ps s).1 := by
  unfold Sys2Proof.Machine.reqGapWaive State.waive
  repeat' split
  exacts [h, h.same rfl rfl, h.same rfl rfl, h, h]

theorem Sound.reqSpareDrop (h : Sound P Q s) (ps : List Nat) : Sound P Q (reqSpareDrop ps s).1 := by
  unfold Sys2Proof.Machine.reqSpareDrop State.dropMap
  repeat' split
  exacts [h, h.same rfl rfl, h]

theorem Sound.configured (h : Sound P Q s) (levels : Vector Level 6) (floor : Level) (notices : Vector NoticeRec 20) :
    Sound P Q { s with levels := levels, floor := floor, notices := notices }.sendOpened := by
  refine Sound.sendOpened ?_
  exact h.same rfl rfl

theorem Sound.reqNoticeLevel (h : Sound P Q s) (ps : List Nat) : Sound P Q (reqNoticeLevel ps s).1 := by
  unfold Sys2Proof.Machine.reqNoticeLevel
  split
  · exact h.configured _ _ _
  · exact h

theorem Sound.reqNoticeFloor (h : Sound P Q s) (ps : List Nat) : Sound P Q (reqNoticeFloor ps s).1 := by
  unfold Sys2Proof.Machine.reqNoticeFloor
  split
  · exact h.configured _ _ _
  · exact h

theorem Sound.reqMask (h : Sound P Q s) (m : Bool) (ps : List Nat) : Sound P Q (reqMask m ps s).1 := by
  unfold Sys2Proof.Machine.reqMask
  split
  · unfold State.setMasks
    rw [foldl_setMask_eq]
    exact h.configured _ _ _
  · exact h

theorem Sound.reqCollect (h : Sound P Q s) (ps : List Nat) : Sound P Q (reqCollect ps s).1 := by
  unfold Sys2Proof.Machine.reqCollect
  split
  · unfold State.collect
    dsimp only
    rw [foldl_endEpisode_eq]
    exact h.same rfl rfl
  · exact h

/-- Every command keeps the rules of the flight tables and those of the pools, each by itself. -/
theorem Sound.exec (h : Sound P Q s) (i : Instr) (he : exec i s = .next t) : Sound P Q t := by
  cases i with
  | powerOnReset => exact (sound_resetPart s _ _).next he
  | resetLineAssert => exact (sound_resetPart s _ _).next he
  | resetLineRelease =>
    refine Sound.next ?_ he
    split
    · exact sound_resetPart s _ _
    · exact h
  | startingComplete =>
    refine Sound.next ?_ he
    split
    · exact h.same rfl rfl
    · exact h
  | agentArrival f =>
    refine h.unless ?_ he
    split
    · exact h.agentArrives f
    · exact h
  | agentLinkLost =>
    refine Sound.next ?_ he
    exact h.same rfl rfl
  | agentLinkUp =>
    refine Sound.next ?_ he
    exact h.same rfl rfl
  | upstreamSend => exact h.unless h.sendUpstream he
  | storeTaken => exact h.unless (h.withHead _ fun t b => h.takeStore t b) he
  | fillStep => exact h.unless (h.withHead _ fun t b => h.stepFill t b) he
  | fetchTaken => exact h.unless (h.withHead _ fun t b => h.takeFetch t b) he
  | fenceTaken => exact h.unless (h.withHead _ fun t b => h.takeFence t b) he
  | slotPresenceActive k => exact (h.modSlot k _).next he
  | slotPresenceLost k => exact (h.modSlot k _).unless ((h.modSlot k _).goDown k) he
  | slotLinkUp k => exact h.unless (h.linkUp k) he
  | slotLinkLost k => exact h.unless (h.goDown k) he
  | helloTimerExpiry k => exact h.unless (h.helloExpires k) he
  | settleTimerExpiry k => exact h.unless (h.settleExpires k) he
  | replyTimerExpiry k n => exact h.unless (h.replyExpires k n) he
  | grantReceived k f => exact h.unless (h.grantArrives k f) he
  | helloReceived k f => exact h.unless (h.helloArrives k f) he
  | haltReceived k f => exact h.unless (h.haltArrives k f) he
  | returnReceived k f => exact h.unless (h.returnArrives k f) he
  | fenceDoneReceived k f => exact h.unless (h.fenceDoneArrives k f) he
  | boardTransactionRejected k f => exact h.unless (h.badWordsArrive k f) he
  | slotSend k => exact h.unless (h.sendSlot k) he
  | walkFetchIssue => exact h.unless h.walkFetchIssue he
  | zeroFillIssue => exact h.unless h.zeroFillIssue he
  | paceTimerExpiry c => exact h.unless (h.stopPace c) he
  | writeClaimTaken c n => exact h.unless (h.takeWrite c n) he
  | verifyClaimTaken c n => exact h.unless (h.takeVerify c n) he
  | cutoverClaimTaken c => exact h.unless (h.takeCutover c) he
  | unknownRequest => exact h.unless (h.decode _ fun _ _ hs => hs) he
  | readStateBridge => exact h.unless (h.read _ _) he
  | readStateSlot => exact h.unless (h.read _ _) he
  | readStateSteer => exact h.unless (h.read _ _) he
  | readStateLayout => exact h.unless (h.read _ _) he
  | readStateRegion => exact h.unless (h.read _ _) he
  | readStateContext => exact h.unless (h.read _ _) he
  | readStateSegments => exact h.unless (h.read _ _) he
  | readStateRevisit => exact h.unless (h.read _ _) he
  | readStateGaps => exact h.unless (h.read _ _) he
  | readStateSpares => exact h.unless (h.read _ _) he
  | readStateNotices => exact h.unless (h.read _ _) he
  | readStateCounters => exact h.unless (h.read _ _) he
  | softReset => exact h.unless (h.requested _ fun ps _ hs => hs.reqSoftReset ps) he
  | countersClear => exact h.unless (h.requested _ fun ps _ hs => hs.reqCountersClear ps) he
  | slotRetry => exact h.unless (h.requested _ fun ps _ hs => hs.reqSlotRetry ps) he
  | slotHalt => exact h.unless (h.requested _ fun ps _ hs => hs.reqSlotHalt ps) he
  | steerSet => exact h.unless (h.requested _ fun ps _ hs => hs.reqSteerSet ps) he
  | steerClear => exact h.unless (h.requested _ fun ps _ hs => hs.reqSteerClear ps) he
  | twinSet => exact h.unless (h.requested _ fun ps _ hs => hs.reqTwinSet ps) he
  | twinClear => exact h.unless (h.requested _ fun ps _ hs => hs.reqTwinClear ps) he
  | swap => exact h.unless (h.requested _ fun ps _ hs => hs.reqSwap ps) he
  | layoutSet => exact h.unless (h.requested _ fun ps _ hs => hs.reqLayoutSet ps) he
  | regionLoad => exact h.unless (h.requested _ fun ps _ hs => hs.reqRegionLoad ps) he
  | regionClear => exact h.unless (h.requested _ fun ps _ hs => hs.reqRegionClear ps) he
  | ctxOpen => exact h.unless (h.requested _ fun ps _ hs => hs.reqCtxOpen ps) he
  | segAppend => exact h.unless (h.requested _ fun ps _ hs => hs.reqSegAppend ps) he
  | ctxStart => exact h.unless (h.requested _ fun ps _ hs => hs.reqCtxStart ps) he
  | ctxPause => exact h.unless (h.requested _ fun ps _ hs => hs.reqCtxPause ps) he
  | ctxResume => exact h.unless (h.requested _ fun ps _ hs => hs.reqCtxResume ps) he
  | stopPoint => exact h.unless (h.requested _ fun ps _ hs => hs.reqStopPoint ps) he
  | ctxAbort => exact h.unless (h.requested _ fun ps _ hs => hs.reqCtxAbort ps) he
  | ctxClose => exact h.unless (h.requested _ fun ps _ hs => hs.reqCtxClose ps) he
  | ctxCutover => exact h.unless (h.decode _ fun x _ hs => hs.reqCtxCutover x) he
  | gapWaive => exact h.unless (h.requested _ fun ps _ hs => hs.reqGapWaive ps) he
  | spareDrop => exact h.unless (h.requested _ fun ps _ hs => hs.reqSpareDrop ps) he
  | noticeLevel => exact h.unless (h.requested _ fun ps _ hs => hs.reqNoticeLevel ps) he
  | noticeFloor => exact h.unless (h.requested _ fun ps _ hs => hs.reqNoticeFloor ps) he
  | maskSet => exact h.unless (h.requested _ fun ps _ hs => hs.reqMask true ps) he
  | maskClear => exact h.unless (h.requested _ fun ps _ hs => hs.reqMask false ps) he
  | collect => exact h.unless (h.requested _ fun ps _ hs => hs.reqCollect ps) he

theorem Sound.step (h : Sound P Q s) (he : step s = .next t) : Sound P Q t := by
  obtain rfl | ⟨i, rest, he⟩ := step_cases he
  · exact h
  · have hq : Sound P Q { s with pending := rest } := h.same rfl rfl
    exact hq.exec i he

end

/-- Settles O60: the flight tables and the pools by `Sound`, the destinations and, with the flight rules, the owners of gap
records by the invariants of `Kept`. -/
theorem stepKeepsFlightsAndPools : Obligations.StepKeepsFlightsAndPools := by
  unfold Obligations.StepKeepsFlightsAndPools
  refine fun s t he => ⟨fun h => ?_, fun h => ?_, fun h => step_meets .dests h (by simp) (by simp) he,
    fun hf h => step_meets .owners h (fun _ => hf.walks) (by simp) he⟩
  · have hs : Sound True False s := ⟨fun _ => h, False.elim⟩
    exact (hs.step he).fl trivial
  · have hs : Sound False True s := ⟨False.elim, fun _ => h⟩
    exact (hs.step he).po trivial

/-! ### The queue of commands, and the state after power-on -/

/-- Settles O1: both are the two branches of `step`. -/
theorem stepRunsTheFrontCommand : Obligations.StepRunsTheFrontCommand := by
  unfold Obligations.StepRunsTheFrontCommand
  exact ⟨fun c rest s h => by simp only [step, h], fun s h => by simp only [step, h]⟩

/-- The state after power-on is that of a power-on reset of itself, so it meets the invariants. -/
theorem kept_reset (W : Invariant → Prop) : Kept W State.reset := by
  have h : State.reset.resetPart .starting {} = State.reset := by
    unfold State.resetPart State.reset
    congr 1
    simp [SlotPort.reset]
  rw [← h]
  exact Kept.resetPart _ _ _ (by simp)

/-- Settles O2: every block at its reset value, and the invariants by the lemma on reset states. -/
theorem resetState : Obligations.ResetState := by
  unfold Obligations.ResetState
  intro s
  have hk : Kept (fun _ => True) s := kept_reset _
  have hs : Sound True True s := sound_of_reset (fun c => by simp [s, State.ctx, State.reset]) (fun g => by simp [s, State.reset])
  refine ⟨rfl, rfl, rfl, rfl, rfl, rfl, rfl, rfl, rfl, rfl, rfl, rfl, rfl, fun k => ?_, fun b => ?_, fun l => ?_, fun i => ?_,
    fun c => ?_, fun g => ?_, fun p => ?_, rfl, rfl, fun n => ?_, hk.cr trivial, hk.sb trivial, hk.ag trivial, hk.tb trivial,
    hk.dm trivial, hk.w trivial, hk.lo trivial, hs.fl trivial, hs.po trivial, hk.ow trivial, hk.ds trivial⟩
  · simp [s, State.reset, State.slot, State.spareMap]
  · simp [s, State.reset, State.entry]
  · simp [s, State.reset, State.layout]
  · simp [s, State.reset, State.region]
  · simp [s, State.reset, State.ctx]
  · simp [s, State.reset]
  · simp [s, State.reset]
  · simp [s, State.reset, State.notice]

end Sys2Proof.Machine
end

section

namespace Sys2Proof.Machine

/-! ### Resets, start-up and the agent link (R4 to R10, R169, R172) -/

/-- R172: the RESET line stops every row that is a step of the part. -/
theorem unlessHeld_of_held {s : State} (h : s.startup = .held) (f : State → State) : s.unlessHeld f = s := if_pos h

theorem exec_powerOnReset (s : State) : exec .powerOnReset s =
    .next (s.resetPart (if s.startup = .held then .held else .starting) { cause := .power }) := rfl

theorem exec_resetLineAssert (s : State) : exec .resetLineAssert s = .next (s.resetPart .held s.startRecord) := rfl

theorem exec_resetLineRelease (s : State) : exec .resetLineRelease s =
    .next (if s.startup = .held then s.resetPart .starting { cause := .line } else s) := rfl

theorem exec_startingComplete (s : State) : exec .startingComplete s =
    .next (if s.startup = .starting then { s with startup := .running, agentCredits := 0 }.pushGrant Config.agentCredits
      else s) := rfl

theorem exec_agentArrival (f : Frame) (s : State) : exec (.agentArrival f) s =
    .next (s.unlessHeld fun s => if s.agentLinkUp then s.agentArrives f else s) := rfl

theorem exec_upstreamSend (s : State) : exec .upstreamSend s = .next (s.unlessHeld State.sendUpstream) := rfl

/-- Settles O3: a held part runs no row but a reset's or a pin's, and each reset's values are those of `State.resetPart`. -/
theorem resetsAndStartUp : Obligations.ResetsAndStartUp := by
  unfold Obligations.ResetsAndStartUp
  refine ⟨fun c s h => ?_, fun s h => ?_, fun s => ⟨fun h => ?_, fun h => ?_, rfl, fun h => ?_, fun h => ?_⟩⟩
  · cases c
    case startingComplete => exact congrArg Host.Outcome.next (if_neg (by simp [h]))
    case powerOnReset => trivial
    case resetLineAssert => trivial
    case resetLineRelease => trivial
    case agentLinkLost => trivial
    case agentLinkUp => trivial
    case slotPresenceActive => trivial
    case slotPresenceLost => trivial
    all_goals exact congrArg Host.Outcome.next (unlessHeld_of_held h _)
  · rw [exec_startingComplete, if_pos h]
    rfl
  · rw [exec_powerOnReset, if_neg h]
    rfl
  · rw [exec_powerOnReset, if_pos h]
    rfl
  · rw [exec_resetLineRelease, if_pos h]
    rfl
  · rw [exec_resetLineRelease, if_neg h]

/-- R7: the credit is spent and returned at once, so that the count stands. -/
theorem agentReject_eq {s : State} (h : 0 < s.agentCredits) : s.agentReject = ({ s with
    globals := { s.globals with agentCheckErrors := satAdd s.globals.agentCheckErrors 1 }
    upstream := s.upstream ++ [Txn.grantOf 1] }).raise .agentCheck 0 := by
  have hcredits : s.agentCredits - 1 + 1 = s.agentCredits := Nat.sub_add_cancel h
  simp only [State.agentReject, State.pushGrant, hcredits]
  rfl

theorem agentArrives_overrun {s : State} (h : s.agentCredits = 0) (f : Frame) : s.agentArrives f = s.agentOverrun := if_pos h

theorem agentArrives_rejected {s : State} {f : Frame} (h : 0 < s.agentCredits) (hf : acceptAgent f = none) :
    s.agentArrives f = s.agentReject := by
  simp only [State.agentArrives, if_neg (Nat.ne_of_gt h), hf]

theorem agentArrives_accepted {s : State} {f : Frame} {t : Txn} (h : 0 < s.agentCredits) (hf : acceptAgent f = some t) :
    s.agentArrives f = s.agentAccept t := by
  simp only [State.agentArrives, if_neg (Nat.ne_of_gt h), hf]

/-- The row of an arrival with the link up. -/
theorem exec_agentArrival_up {s : State} (hs : s.startup ≠ .held) (hl : s.agentLinkUp = true) (f : Frame) :
    exec (.agentArrival f) s = .next (s.agentArrives f) := by
  rw [exec_agentArrival, unlessHeld_of hs, if_pos hl]

/-- Settles O4: the cut of a new head of intake, and an arrival by its credit and its check. -/
theorem agentArrivalByCreditAndCheck : Obligations.AgentArrivalByCreditAndCheck := by
  unfold Obligations.AgentArrivalByCreditAndCheck
  refine ⟨fun s => ⟨fun t b rest hf hi hk hb => cutHead_fill hf hi hk hb, fun h => cutHead_stands ?_⟩, fun f s hs hl => ?_⟩
  · exact h.imp_right fun h t rest hi ⟨hk, b, hb⟩ => h t b rest hi ⟨hk, hb⟩
  · rw [exec_agentArrival_up hs hl]
    refine ⟨fun h => ?_, fun h hf => ?_, fun t h hf => ?_⟩
    · rw [agentArrives_overrun h]
      rfl
    · rw [agentArrives_rejected h hf, agentReject_eq h]
    · rw [agentArrives_accepted h hf]
      rfl

theorem sendUpstream_running {s : State} {t : Txn} {rest : List Txn} (hs : s.startup = .running) (hl : s.agentLinkUp = true)
    (hu : s.upstream = t :: rest) : s.sendUpstream = { s with upstream := rest, agentTx := some t.frame } := by
  simp only [State.sendUpstream, hu]
  exact if_pos ⟨hs, hl⟩

theorem sendUpstream_stands {s : State} (h : s.startup ≠ .running ∨ s.agentLinkUp = false ∨ s.upstream = []) :
    s.sendUpstream = s := by
  unfold State.sendUpstream
  split
  · rfl
  case _ t rest hu =>
    refine if_neg fun ⟨hs, hl⟩ => ?_
    rcases h with h | h | h
    · exact h hs
    · simp [h] at hl
    · simp [h] at hu

/-- Settles O5: the link's loss and return, an arrival without a link, and the upstream queue's head. -/
theorem agentLinkAndUpstreamSend : Obligations.AgentLinkAndUpstreamSend := by
  unfold Obligations.AgentLinkAndUpstreamSend
  refine fun s => ⟨rfl, rfl, fun f hl => ?_, fun t rest hs hl hu => ?_, fun h => ?_⟩
  · rw [exec_agentArrival, unlessHeld_of_fixed (by simp [hl])]
  · rw [exec_upstreamSend, unlessHeld_of (by simp [hs]), sendUpstream_running hs hl hu]
  · rw [exec_upstreamSend, unlessHeld_of_fixed (sendUpstream_stands h)]

end Sys2Proof.Machine
end

section

namespace Sys2Proof.Machine

/-! ### The slot ports: presence, loss, and what a board's words do (R11 to R22, R25 to R29) -/

/-- R25, R29: training that completes starts the wait for a HELLO. -/
theorem linkUp_down {s : State} {k : SlotId} (h : (s.slot k).state = .down) :
    s.linkUp k = if (s.slot k).presence then s.setSlot k (s.slot k).listen else s := by
  simp only [State.linkUp, h, modSlot_eq]

theorem linkUp_retraining {s : State} {k : SlotId} (h : (s.slot k).state = .awaitHello .retraining) :
    s.linkUp k = s.setSlot k (s.slot k).listen := by
  simp only [State.linkUp, h, modSlot_eq]

/-- R25: a slot in DOWN stays as it is. -/
theorem goDown_down {s : State} {k : SlotId} (h : (s.slot k).state = .down) : s.goDown k = s := if_pos h

theorem goDown_not_ready {s : State} {k : SlotId} (hd : (s.slot k).state ≠ .down) (hr : (s.slot k).state ≠ .ready) :
    s.goDown k = ((s.setSlot k (s.slot k).toDown).setSpareMap k []).raise .slotDown (detailOf k) := by
  simp only [State.goDown, if_neg hd, depart_not_ready hr, State.enterDown, modSlot_eq, slot_setSlot_same, setSlot_setSlot,
    SlotPort.toDown]

/-- R27: what entering DOWN does to the port and its spare map keeps the effects of leaving READY. -/
theorem State.LeftReady.enterDown {s u : State} {k : SlotId} (h : State.LeftReady k s u) :
    State.LeftReady k s (u.enterDown k) := by
  have hport : State.LeftReady k s (u.modSlot k SlotPort.toDown) := h.modSlot (fun _ => rfl) (fun _ => rfl)
  exact hport.after (quietBut_setSpareMap _ k k []) (.of_tables rfl rfl rfl) hport.1 fun _ hi => hi

/-- R26, R27, R37: from READY, the effects of leaving READY stand before those of entering DOWN. -/
theorem goDown_ready {s : State} {k : SlotId} (h : (s.slot k).state = .ready) :
    ∃ u, s.goDown k = u.raise .slotDown (detailOf k) ∧ State.LeftReady k s u ∧ u.spareMap k = [] ∧
      u.slot k = { (s.slot k).toDown with
        queue := [], pend := (u.slot k).pend, sentOrder := (u.slot k).sentOrder } := by
  have hd : (s.slot k).state ≠ .down := by simp [h]
  refine ⟨(s.leaveReady k .down).enterDown k, by rw [State.goDown, if_neg hd, depart_ready h],
    (leaveReady_left s k .down).enterDown, ?_, ?_⟩
  · simp [State.enterDown]
  · have hport := slot_leaveReady s k .down
    unfold State.enterDown
    generalize s.leaveReady k .down = u at hport ⊢
    rw [slot_setSpareMap, modSlot_eq, slot_setSlot_same, hport]
    rfl

theorem exec_slotPresenceActive (k : SlotId) (s : State) :
    exec (.slotPresenceActive k) s = .next (s.setSlot k { s.slot k with presence := true }) := rfl

/-- Settles O8: a slot in DOWN follows its presence line, and training that completes in DOWN or retraining begins to listen. -/
theorem presenceAndTraining : Obligations.PresenceAndTraining := by
  unfold Obligations.PresenceAndTraining
  refine fun k s => ⟨rfl, fun h => ?_, fun h => ?_, fun hs h hp => ?_, fun hs h => ?_, fun h hp => ?_⟩
  · rw [exec_slotPresenceLost, unlessHeld_of_fixed (goDown_down (by simpa using h)), modSlot_eq]
  · rw [exec_slotLinkLost, unlessHeld_of_fixed (goDown_down h)]
  · rw [exec_slotLinkUp, unlessHeld_of hs, linkUp_down h, if_pos hp]
    rfl
  · rw [exec_slotLinkUp, unlessHeld_of hs, linkUp_retraining h]
    rfl
  · rw [exec_slotLinkUp, unlessHeld_of_fixed (by rw [linkUp_down h, if_neg (by simp [hp])])]

/-- Settles O9: a loss outside READY sets the port alone; from READY the departure comes first. A lost presence line is the same
loss on the port with its pin down. -/
theorem lossTakesTheSlotDown : Obligations.LossTakesTheSlotDown := by
  unfold Obligations.LossTakesTheSlotDown
  intro k s hs hd
  let p : SlotPort := { s.slot k with presence := false }
  have hport : (s.setSlot k p).slot k = p := slot_setSlot_same s k p
  rw [exec_slotLinkLost, exec_slotPresenceLost, modSlot_eq, unlessHeld_of hs, unlessHeld_of (s := s.setSlot k p) hs]
  refine ⟨fun hr => ?_, fun hr => ⟨?_, ?_⟩⟩
  · have hr : (s.slot k).state ≠ .ready := fun h => by simp [isReady_iff.2 h] at hr
    refine ⟨congrArg _ (goDown_not_ready hd hr), ?_⟩
    rw [goDown_not_ready (by rw [hport]; exact hd) (by rw [hport]; exact hr), hport, setSlot_setSlot]
    rfl
  · obtain ⟨u, hu, hrest⟩ := goDown_ready (isReady_iff.1 hr)
    exact ⟨u, congrArg _ hu, hrest⟩
  · obtain ⟨u, hu, hleft, hmap, hafter⟩ := goDown_ready (s := s.setSlot k p) (k := k) (by rw [hport]; exact isReady_iff.1 hr)
    rw [hport] at hafter
    exact ⟨u, congrArg _ hu, State.LeftReady.before p rfl rfl rfl hleft, hmap, hafter⟩

/-- Settles O11: the expiry counts itself on the port, and the port then halts from READY. -/
theorem replyTimerExpiry : Obligations.ReplyTimerExpiry := by
  unfold Obligations.ReplyTimerExpiry
  intro k i e s hs hr he hsent
  let p : SlotPort := { s.slot k with counters := (s.slot k).counters.addReplyTimeout }
  have hport : (s.setSlot k p).slot k = p := slot_setSlot_same s k p
  have hexp : s.replyExpires k i = (s.setSlot k p).goHalted k .replyTimeout 0 :=
    if_pos ⟨hr, by simp [SlotPort.isSent, he, hsent]⟩
  obtain ⟨u, hu, hleft, hafter⟩ :=
    goHalted_ready (s := s.setSlot k p) (k := k) (by rw [hport]; exact isReady_iff.1 hr) .replyTimeout 0
  rw [hport] at hafter
  refine ⟨u, ?_, State.LeftReady.before p rfl rfl rfl hleft, hafter⟩
  rw [exec_replyTimerExpiry, unlessHeld_of hs, hexp, hu]
  rfl

/-- R13: the credits of a GRANT, up to 64. -/
theorem addCredits_within {s : State} {k : SlotId} {n : Nat} (h : (s.slot k).credits + n ≤ Config.boardCredits) :
    s.addCredits k n = s.setSlot k { s.slot k with credits := (s.slot k).credits + n } := by
  simp only [State.addCredits, if_neg (Nat.not_lt.2 h), modSlot_eq]

theorem addCredits_excess {s : State} {k : SlotId} {n : Nat} (h : Config.boardCredits < (s.slot k).credits + n) :
    s.addCredits k n =
      (s.setSlot k { s.slot k with credits := Config.boardCredits }).raise .grantExcess (detailOf k) := by
  simp only [State.addCredits, if_pos h, modSlot_eq]

theorem exec_grantReceived (k : SlotId) (f : Frame) (s : State) :
    exec (.grantReceived k f) s = .next (s.unlessHeld fun s => s.grantArrives k f) := rfl

theorem grantArrives_of {s : State} {k : SlotId} {f : Frame} {t : Txn} (h : SlotBrings s k f t .grant) :
    s.grantArrives k f = s.addCredits k t.count := by
  simp only [State.grantArrives, boardBrings_of_slotBrings h]

/-- Settles O12: a GRANT's count is added, and the excess over 64 is noticed. -/
theorem grantAddsCredits : Obligations.GrantAddsCredits := by
  unfold Obligations.GrantAddsCredits
  intro k f t s hb
  rw [exec_grantReceived, unlessHeld_of hb.1, grantArrives_of hb]
  refine ⟨fun h => ?_, fun h => ?_⟩
  · rw [addCredits_within h]
  · rw [addCredits_excess h]
    rfl

/-! Matched replies (R18, R19). -/

theorem replyAccepted_fetch {s : State} {k : SlotId} {t : Txn} {i : PendIdx} {e : PendEntry} (hr : s.isReady k = true)
    (hm : (s.slot k).matched .fetch t = some (i, e)) :
    s.replyAccepted k .fetch t = (s.freePend k i).deliverReturn e.origin t := by
  simp only [State.replyAccepted, hr, if_true, hm]

theorem replyAccepted_fence {s : State} {k : SlotId} {t : Txn} {i : PendIdx} {e : PendEntry} (hr : s.isReady k = true)
    (hm : (s.slot k).matched .fence t = some (i, e)) :
    s.replyAccepted k .fence t = (s.freePend k i).deliverFence e.origin := by
  simp only [State.replyAccepted, hr, if_true, hm]

/-- The row of a RETURN that matches a SENT entry: the entry is FREE, and its owner is told. -/
theorem exec_returnReceived_matched {s : State} {k : SlotId} {f : Frame} {t : Txn} {i : PendIdx} {e : PendEntry}
    (hb : SlotBrings s k f t .ret) (hr : s.isReady k = true) (hi : i.val = t.tag.toNat) (he : (s.slot k).pend[i] = some e)
    (hs : e.phase = .sent) (hk : e.kind = .fetch) (hc : e.count = t.count) :
    exec (.returnReceived k f) s = .next ((s.freePend k i).deliverReturn e.origin t) := by
  rw [exec_returnReceived, unlessHeld_of hb.1, returnArrives_of hb,
    replyAccepted_fetch hr (matched_eq_some_iff.2 ⟨hi, he, hs, hk, fun _ => hc⟩)]

/-- The row of a FENCE-DONE that matches a SENT entry. -/
theorem exec_fenceDoneReceived_matched {s : State} {k : SlotId} {f : Frame} {t : Txn} {i : PendIdx} {e : PendEntry}
    (hb : SlotBrings s k f t .fenceDone) (hr : s.isReady k = true) (hi : i.val = t.tag.toNat)
    (he : (s.slot k).pend[i] = some e) (hs : e.phase = .sent) (hk : e.kind = .fence) :
    exec (.fenceDoneReceived k f) s = .next ((s.freePend k i).deliverFence e.origin) := by
  have hcount : PendKind.fence = .fetch → e.count = t.count := fun h => by cases h
  rw [exec_fenceDoneReceived, unlessHeld_of hb.1, fenceDoneArrives_of hb,
    replyAccepted_fence hr (matched_eq_some_iff.2 ⟨hi, he, hs, hk, hcount⟩)]

/-- Settles O16: the matched entry is FREE, and its origin says who is told. -/
theorem matchedReturnReachesTheAgent : Obligations.MatchedReturnReachesTheAgent := by
  unfold Obligations.MatchedReturnReachesTheAgent
  refine fun k f t i e s hr hi he hs => ⟨fun tag b part parts hb hk hc ho => ?_, fun hb hk hc ho => ?_, fun hb hk ho => ?_⟩
  · rw [exec_returnReceived_matched hb hr hi he hs hk hc, ho]
    rfl
  · rw [exec_returnReceived_matched hb hr hi he hs hk hc, ho]
    rfl
  · rw [exec_fenceDoneReceived_matched hb hr hi he hs hk, ho]
    rfl

/-! Fence groups (R56, R57). -/

/-- A fence group with the outcome of one of its parts. -/
def FenceGroup.withPart (g : FenceGroup) (twin : Bool) (o : PartOutcome) : FenceGroup :=
  { g with primary := if twin then g.primary else o, twin := if twin then o else g.twin }

/-- R57: the table of a group's outcome. -/
theorem FenceGroup.status_eq (g : FenceGroup) : g.status = groupStatus g.primary g.twin := by
  obtain ⟨_, _, _, primary, twin⟩ := g
  cases primary <;> cases twin <;> rfl

theorem resolveFence_none {s : State} {n : Nat} (h : s.fences.find? (fun x => x.num == n) = none) (twin : Bool)
    (o : PartOutcome) : s.resolveFence n twin o = s := by
  simp only [State.resolveFence, h]

/-- R57: a part of a group that stands takes its outcome; with no part SENT the group ends. -/
theorem resolveFence_some {s : State} {n : Nat} {g : FenceGroup} (h : s.fences.find? (fun x => x.num == n) = some g)
    (twin : Bool) (o : PartOutcome) :
    s.resolveFence n twin o =
      if (g.withPart twin o).primary = .sent ∨ (g.withPart twin o).twin = .sent then
        { s with fences := s.fences.map fun x => if x.num = n then g.withPart twin o else x }
      else { s with
        fences := s.fences.filter fun x => x.num ≠ n
        upstream := s.upstream ++ [Txn.fenceDoneOf g.tag g.board
          (groupStatus (g.withPart twin o).primary (g.withPart twin o).twin)] } := by
  rw [← FenceGroup.status_eq]
  simp only [State.resolveFence, h]
  cases twin <;> rfl

theorem resolveFence_outstanding {s : State} {n : Nat} {g : FenceGroup} (h : s.fences.find? (fun x => x.num == n) = some g)
    (twin : Bool) (o : PartOutcome)
    (hw : (g.withPart twin o).primary = .sent ∨ (g.withPart twin o).twin = .sent) :
    s.resolveFence n twin o =
      { s with fences := s.fences.map fun x => if x.num = n then g.withPart twin o else x } := by
  rw [resolveFence_some h, if_pos hw]

theorem resolveFence_last {s : State} {n : Nat} {g : FenceGroup} (h : s.fences.find? (fun x => x.num == n) = some g)
    (twin : Bool) (o : PartOutcome)
    (hp : (g.withPart twin o).primary ≠ .sent) (ht : (g.withPart twin o).twin ≠ .sent) :
    s.resolveFence n twin o = { s with
      fences := s.fences.filter fun x => x.num ≠ n
      upstream := s.upstream ++ [Txn.fenceDoneOf g.tag g.board
        (groupStatus (g.withPart twin o).primary (g.withPart twin o).twin)] } := by
  rw [resolveFence_some h, if_neg (not_or.2 ⟨hp, ht⟩)]

/-- Settles O17: a part's outcome is recorded or ends its group; the FENCE-DONE that matches a group's entry is the outcome OK. -/
theorem fenceDoneResolvesItsGroup : Obligations.FenceDoneResolvesItsGroup := by
  unfold Obligations.FenceDoneResolvesItsGroup
  refine ⟨fun n twin o s => ⟨fun h => resolveFence_none h twin o, fun g h => ⟨fun hw => ?_, fun hp ht => ?_⟩⟩,
    fun k f t i e n twin g s hb hr hi he hs hk ho h => ⟨fun hw => ?_, fun hp ht => ?_⟩⟩
  · exact resolveFence_outstanding h twin o hw
  · exact resolveFence_last h twin o hp ht
  · rw [exec_fenceDoneReceived_matched hb hr hi he hs hk, ho]
    exact congrArg _ (resolveFence_outstanding (s := s.freePend k i) h twin .ok hw)
  · rw [exec_fenceDoneReceived_matched hb hr hi he hs hk, ho]
    exact congrArg _ (resolveFence_last (s := s.freePend k i) h twin .ok hp ht)

/-! Sending (R15). -/

theorem queuedEntries_of_data {x : QTxn} (h : x.txn.kind = .store ∨ x.txn.kind = .fill) : queuedEntries [x] = [] := by
  rcases h with h | h <;> simp [queuedEntries, h]

theorem queuedEntries_of_pend {x : QTxn} {i : PendIdx} (h : x.txn.kind = .fetch ∨ x.txn.kind = .fence)
    (hi : i.val = x.txn.tag.toNat) : queuedEntries [x] = [i] := by
  rcases h with h | h <;> simp [queuedEntries, h, toIndex_some.2 hi.symm]

theorem sendSlot_head {s : State} {k : SlotId} {x : QTxn} {rest : List QTxn} (hr : s.isReady k = true)
    (hc : 1 ≤ (s.slot k).credits) (hq : (s.slot k).queue = x :: rest) :
    s.sendSlot k = s.setSlot k ((s.slot k).sendHead x rest) := by
  simp only [State.sendSlot, hq, hr, hc, and_self, if_true, modSlot_eq]

theorem sendSlot_stands {s : State} {k : SlotId} (h : s.isReady k = false ∨ (s.slot k).credits = 0 ∨ (s.slot k).queue = []) :
    s.sendSlot k = s := by
  unfold State.sendSlot
  split
  · rfl
  case _ x rest hq =>
    refine if_neg fun ⟨hr, hc⟩ => ?_
    rcases h with h | h | h
    · simp [h] at hr
    · omega
    · simp [h] at hq

theorem exec_slotSend (k : SlotId) (s : State) : exec (.slotSend k) s = .next (s.unlessHeld fun s => s.sendSlot k) := rfl

/-- Settles O18: the head of the queue by whether it has a pending entry, and the three states in which nothing is sent. -/
theorem slotSendsForACredit : Obligations.SlotSendsForACredit := by
  unfold Obligations.SlotSendsForACredit
  intro k s hs
  rw [exec_slotSend, unlessHeld_of hs]
  refine ⟨fun x rest hr hc hq => ?_, fun h => by rw [sendSlot_stands h]⟩
  rw [sendSlot_head hr hc hq]
  refine ⟨fun hk => ?_, fun i e hk hi he => ?_⟩
  · simp only [SlotPort.sendHead, queuedEntries_of_data hk, List.head?_nil]
    rfl
  · simp only [SlotPort.sendHead, queuedEntries_of_pend hk hi, List.head?_cons, he]
    rfl

end Sys2Proof.Machine
end

section

namespace Sys2Proof.Machine

/-! ### A row that serves a request (R164, R165) -/

/-- The row of a request: the head of intake is taken, the request's body carried out, its answer sent. -/
def Serves (c : Instr) (r : Request) (body : List Nat → State → State × Answer) : Prop :=
  ∀ s, exec c s = .next (s.unlessHeld fun s => s.serve r body)

section

variable {c : Instr} {r : Request} {body : List Nat → State → State × Answer} {s u : State} {t : Txn} {rest : List Txn}

theorem Serves.answers (hc : Serves c r body) (h : s.Requested r t rest) {a : Answer}
    (hb : body t.params (s.taken rest) = (u, a)) : exec c s = .next (u.replied t a.status a.words a.more) := by
  rw [hc, serve_of h, hb]

theorem Serves.done (hc : Serves c r body) (h : s.Requested r t rest) (hb : body t.params (s.taken rest) = (u, .done)) :
    exec c s = .next (u.replied t .done) := hc.answers h hb

/-- A body that changes nothing refuses the request. -/
theorem Serves.refuses (hc : Serves c r body) (h : s.Requested r t rest) {st : ReplyStatus}
    (hb : body t.params (s.taken rest) = (s.taken rest, { status := st })) : Refuses c s t rest st := hc.answers h hb

end

theorem serves_noticeLevel : Serves .noticeLevel .noticeLevel reqNoticeLevel := fun _ => rfl
theorem serves_noticeFloor : Serves .noticeFloor .noticeFloor reqNoticeFloor := fun _ => rfl
theorem serves_maskSet : Serves .maskSet .maskSet (reqMask true) := fun _ => rfl
theorem serves_maskClear : Serves .maskClear .maskClear (reqMask false) := fun _ => rfl
theorem serves_collect : Serves .collect .collect reqCollect := fun _ => rfl
theorem serves_countersClear : Serves .countersClear .countersClear reqCountersClear := fun _ => rfl
theorem serves_slotRetry : Serves .slotRetry .slotRetry reqSlotRetry := fun _ => rfl
theorem serves_slotHalt : Serves .slotHalt .slotHalt reqSlotHalt := fun _ => rfl
theorem serves_steerSet : Serves .steerSet .steerSet reqSteerSet := fun _ => rfl
theorem serves_steerClear : Serves .steerClear .steerClear reqSteerClear := fun _ => rfl
theorem serves_twinSet : Serves .twinSet .twinSet reqTwinSet := fun _ => rfl
theorem serves_twinClear : Serves .twinClear .twinClear reqTwinClear := fun _ => rfl
theorem serves_swap : Serves .swap .swap reqSwap := fun _ => rfl
theorem serves_layoutSet : Serves .layoutSet .layoutSet reqLayoutSet := fun _ => rfl
theorem serves_regionLoad : Serves .regionLoad .regionLoad reqRegionLoad := fun _ => rfl
theorem serves_regionClear : Serves .regionClear .regionClear reqRegionClear := fun _ => rfl

/-- A parameter list that spells no index is read as none. -/
theorem parseIndex_eq_none {n : Nat} {ps : List Nat} (h : ∀ i : Fin n, ps ≠ [i.val]) : parseIndex n ps = none :=
  Option.eq_none_iff_forall_ne_some.2 fun i hi => h i (parseIndex_some.1 hi)

end Sys2Proof.Machine
end

section

namespace Sys2Proof.Machine

/-! ### The Notice Unit (R173 to R178) -/

/-- The record of a kind after an occurrence is the kind's record in the state in which the NOTICE is sent. -/
theorem sendDue_occur (s : State) (k : NoticeKind) (d : BitVec 8) :
    (s.setNotice k ((s.notice k).occur d)).sendDue k = true ↔
      (s.notice k).sent = false ∧ (s.notice k).mask = false ∧ s.floor < s.levelOf k := by
  simp [State.sendDue, State.isOpen, NoticeRec.occur]

theorem setNotice_setNotice (s : State) (k : NoticeKind) (r q : NoticeRec) :
    (s.setNotice k r).setNotice k q = s.setNotice k q := by
  simp [State.setNotice]

/-- R177: an occurrence of an open kind, the first of its episode that finds it so. -/
theorem raise_sent {s : State} {k : NoticeKind} {d : BitVec 8} (h : (s.setNotice k ((s.notice k).occur d)).sendDue k = true) :
    s.raise k d = (s.pushUp ((s.setNotice k ((s.notice k).occur d)).noticeTxn k)).setNotice k
      { (s.notice k).occur d with sent := true } := by
  simp only [State.raise, State.trySend, if_pos h, State.sendNotice, notice_setNotice_same]
  exact setNotice_setNotice (s.pushUp _) k _ _

theorem raise_unsent {s : State} {k : NoticeKind} {d : BitVec 8}
    (h : ¬ (s.setNotice k ((s.notice k).occur d)).sendDue k = true) :
    s.raise k d = s.setNotice k ((s.notice k).occur d) := by
  simp only [State.raise, State.trySend, if_neg h]

/-- Table 1-1: the fields of a NOTICE's data words. -/
theorem notice_words_fields (n l : Nat) (d : BitVec 8) (c : BitVec 16) :
    let v : Word := BitVec.ofNat 8 n ++ 0#4 ++ BitVec.ofNat 4 l ++ 0#8 ++ d
    let w : Word := 0#16 ++ c
    v.extractLsb' 24 8 = BitVec.ofNat 8 n ∧ v.extractLsb' 20 4 = 0 ∧ v.extractLsb' 16 4 = BitVec.ofNat 4 l ∧
      v.extractLsb' 8 8 = 0 ∧ v.extractLsb' 0 8 = d ∧ w.extractLsb' 16 16 = 0 ∧ w.extractLsb' 0 16 = c := by
  refine ⟨?_, ?_, ?_, ?_, ?_, ?_, ?_⟩ <;> ext i hi <;> grind

/-- Settles O31: an occurrence by whether its kind is due to be sent, and the layout of the NOTICE. -/
theorem occurrenceRecordsAndSends : Obligations.OccurrenceRecordsAndSends := by
  unfold Obligations.OccurrenceRecordsAndSends
  refine fun s k d => ⟨fun hs ho => ?_, fun h => ?_, _, _, rfl, notice_words_fields _ _ _ _⟩
  · rw [raise_sent ((sendDue_occur s k d).2 ⟨hs, ho⟩)]
    rfl
  · rw [raise_unsent (mt (sendDue_occur s k d).1 h)]
    rfl

theorem reqNoticeLevel_of {ps : List Nat} {g : GroupId} {l : Level} (h : ps = [g.val, l.val]) (s : State) :
    reqNoticeLevel ps s = (s.setLevel g l, .done) := by
  simp only [reqNoticeLevel, parseLevel_some.2 h]

theorem reqNoticeLevel_bad {ps : List Nat} (h : ∀ (g : GroupId) (l : Level), ps ≠ [g.val, l.val]) (s : State) :
    reqNoticeLevel ps s = (s, .badArgument) := by
  have hp : parseLevel ps = none := Option.eq_none_iff_forall_ne_some.2 fun x hx => h x.1 x.2 (parseLevel_some.1 hx)
  simp only [reqNoticeLevel, hp]

theorem reqNoticeFloor_of {ps : List Nat} {l : Level} (h : ps = [l.val]) (s : State) :
    reqNoticeFloor ps s = (s.setFloor l, .done) := by
  simp only [reqNoticeFloor, parseIndex_some.2 h]

theorem reqNoticeFloor_bad {ps : List Nat} (h : ∀ l : Level, ps ≠ [l.val]) (s : State) :
    reqNoticeFloor ps s = (s, .badArgument) := by
  simp only [reqNoticeFloor, parseIndex_eq_none h]

theorem reqMask_of {ps : List Nat} {ks : List NoticeKind} (h : ps = ks.map fun k => k.index.val + 1) (h1 : 1 ≤ ks.length)
    (h2 : ks.length ≤ 16) (m : Bool) (s : State) : reqMask m ps s = (s.setMasks m ks, .done) := by
  simp only [reqMask, parseKinds_some.2 ⟨h, h1, h2⟩]

theorem reqMask_bad {ps : List Nat}
    (h : ∀ ks : List NoticeKind, ks.length ≤ 16 → 1 ≤ ks.length → ps ≠ ks.map fun k => k.index.val + 1) (m : Bool)
    (s : State) : reqMask m ps s = (s, .badArgument) := by
  have hp : parseKinds ps = none := Option.eq_none_iff_forall_ne_some.2 fun ks hk => by
    obtain ⟨h0, h1, h2⟩ := parseKinds_some.1 hk
    exact h ks h2 h1 h0
  simp only [reqMask, hp]

theorem serves_mask {c : Instr} {r : Request} {m : Bool}
    (h : (c = .maskSet ∧ r = .maskSet ∧ m = true) ∨ (c = .maskClear ∧ r = .maskClear ∧ m = false)) :
    Serves c r (reqMask m) := by
  obtain ⟨rfl, rfl, rfl⟩ | ⟨rfl, rfl, rfl⟩ := h
  · exact serves_maskSet
  · exact serves_maskClear

/-- R175: what a configuration change opens is sent in COLLECT order. -/
theorem sendOpened_spec (s : State) : ∃ ks, s.InCollectOrder s.sendDue ks ∧
    ∃ u, s.sendOpened = u ∧ u = { s with upstream := s.upstream ++ ks.map s.noticeTxn, notices := u.notices } ∧
      ∀ k, u.notice k = if k ∈ ks then { s.notice k with sent := true } else s.notice k := by
  have horder := inCollectOrder_collectOrder s s.sendDue
  obtain ⟨hnodup, hmem, -⟩ := id horder
  exact ⟨_, horder, foldl_trySend_spec _ hnodup s fun k hk => (hmem k).1 hk⟩

/-- Settles O32: the four requests by what their parameter words name, and the NOTICEs that a change opens. -/
theorem noticeConfiguration : Obligations.NoticeConfiguration := by
  unfold Obligations.NoticeConfiguration
  refine ⟨fun t rest s => ⟨fun h => ⟨fun g l hp => ?_, fun hno => ?_⟩, fun h => ⟨fun l hp => ?_, fun hno => ?_⟩,
    fun c r m hc h => ⟨fun ks hp h1 h2 => ?_, fun hno => ?_⟩⟩, fun s => ?_⟩
  · exact serves_noticeLevel.done h (reqNoticeLevel_of hp _)
  · exact serves_noticeLevel.refuses h (reqNoticeLevel_bad hno _)
  · exact serves_noticeFloor.done h (reqNoticeFloor_of hp _)
  · exact serves_noticeFloor.refuses h (reqNoticeFloor_bad hno _)
  · obtain ⟨u, hu, hrest, hnotice⟩ := foldl_setMask_spec m ks (s.taken rest)
    refine ⟨u, ?_, hrest, hnotice⟩
    rw [← hu]
    exact (serves_mask hc).done h (reqMask_of hp h1 h2 m _)
  · exact (serves_mask hc).refuses h (reqMask_bad hno m _)
  · rw [← sendDue_eq]
    exact sendOpened_spec s

theorem reqCollect_bad {ps : List Nat} (h : ps ≠ []) (s : State) : reqCollect ps s = (s, .badArgument) := by
  cases ps with
  | nil => exact absurd rfl h
  | cons p ps => rfl

/-- Settles O33: the pending kinds in COLLECT order, of which the first eight are answered and ended. -/
theorem collectReturnsPendingKinds : Obligations.CollectReturnsPendingKinds := by
  unfold Obligations.CollectReturnsPendingKinds
  refine fun t rest s h => ⟨fun hp => serves_collect.refuses h (reqCollect_bad hp _), fun hp => ?_⟩
  obtain ⟨u, hu, hrest, hnotice⟩ := foldl_endEpisode_spec (s.pendingKinds.take 8) (s.taken rest)
  refine ⟨s.pendingKinds, u, inCollectOrder_collectOrder s _, ?_, hrest, hnotice⟩
  have hbody : reqCollect t.params (s.taken rest) =
      (u, ⟨.done, (s.pendingKinds.take 8).flatMap s.noticeWords, decide (8 < s.pendingKinds.length)⟩) := by
    rw [hp, ← hu]
    rfl
  exact serves_collect.answers h hbody

end Sys2Proof.Machine
end

section

namespace Sys2Proof.Machine

/-! ### Counters and slots by request (R35, R36, R171) -/

theorem reqCountersClear_of {ps : List Nat} {x : Scope} (h : parseScope ps = some x) (s : State) :
    reqCountersClear ps s = (s.clearScope x, .done) := by
  simp only [reqCountersClear, h]

/-- Settles O38: one scope per form of the parameter words, and a refusal of any other. -/
theorem countersClearByScope : Obligations.CountersClearByScope := by
  unfold Obligations.CountersClearByScope
  intro t rest s h
  have hclear : ∀ x, parseScope t.params = some x →
      exec .countersClear s = .next (((s.taken rest).clearScope x).replied t .done) :=
    fun x hx => serves_countersClear.done h (reqCountersClear_of hx _)
  refine ⟨fun hp => hclear .all (parseScope_some.2 hp), fun hp => hclear .global (parseScope_some.2 hp),
    fun k hp => hclear (.slot k) (parseScope_some.2 hp), fun c hp => hclear (.ctx c) (parseScope_some.2 hp),
    fun hall hglobal hslot hctx => serves_countersClear.refuses h ?_⟩
  have hnone : parseScope t.params = none := Option.eq_none_iff_forall_ne_some.2 fun x hx => by
    have hp := parseScope_some.1 hx
    cases x with
    | all => exact hall hp
    | global => exact hglobal hp
    | slot k => exact hslot k hp
    | ctx c => exact hctx c hp
  simp only [reqCountersClear, hnone]
  rfl

theorem reqSlotRetry_of {ps : List Nat} {k : SlotId} (h : ps = [k.val]) (s : State) :
    reqSlotRetry ps s = s.retrySlot k := by
  simp only [reqSlotRetry, parseIndex_some.2 h]

theorem retrySlot_retrains {s : State} {k : SlotId} (h : (s.slot k).state = .disabled ∨ (s.slot k).state = .halted) :
    s.retrySlot k = (s.setSlot k (s.slot k).retry, .done) := by
  rcases h with h | h <;> simp only [State.retrySlot, h, modSlot_eq]

theorem retrySlot_refused {s : State} {k : SlotId} (hd : (s.slot k).state ≠ .disabled) (hh : (s.slot k).state ≠ .halted) :
    s.retrySlot k = (s, .refusedState) := by
  unfold State.retrySlot
  split
  · exact absurd ‹_› hd
  · exact absurd ‹_› hh
  all_goals rfl

theorem reqSlotHalt_of {ps : List Nat} {k : SlotId} (h : ps = [k.val]) (s : State) : reqSlotHalt ps s = s.haltSlot k := by
  simp only [reqSlotHalt, parseIndex_some.2 h]

theorem reqSlotRetry_bad {ps : List Nat} (h : ∀ k : SlotId, ps ≠ [k.val]) (s : State) :
    reqSlotRetry ps s = (s, .badArgument) := by
  simp only [reqSlotRetry, parseIndex_eq_none h]

theorem reqSlotHalt_bad {ps : List Nat} (h : ∀ k : SlotId, ps ≠ [k.val]) (s : State) :
    reqSlotHalt ps s = (s, .badArgument) := by
  simp only [reqSlotHalt, parseIndex_eq_none h]

/-- Settles O39: both requests by the slot they name and its state. -/
theorem slotRetryAndHalt : Obligations.SlotRetryAndHalt := by
  unfold Obligations.SlotRetryAndHalt
  refine fun t rest s => ⟨fun h => ⟨fun hno => ?_, fun k hp => ⟨fun hs => ?_, fun hd hh => ?_⟩⟩,
    fun h => ⟨fun hno => ?_, fun k hp => ⟨fun hr => ?_, fun hr => ?_⟩⟩⟩
  · exact serves_slotRetry.refuses h (reqSlotRetry_bad hno _)
  · exact serves_slotRetry.done h ((reqSlotRetry_of hp _).trans (retrySlot_retrains (s := s.taken rest) hs))
  · exact serves_slotRetry.refuses h ((reqSlotRetry_of hp _).trans (retrySlot_refused (s := s.taken rest) hd hh))
  · exact serves_slotHalt.refuses h (reqSlotHalt_bad hno _)
  · obtain ⟨u, hu, hleft, hport⟩ := goHalted_ready (s := s.taken rest) (k := k) (isReady_iff.1 hr) .agent 0
    refine ⟨u, serves_slotHalt.done h ?_, hleft, hport⟩
    rw [reqSlotHalt_of hp, State.haltSlot, if_pos (show (s.taken rest).isReady k = true from hr), hu]
    rfl
  · refine serves_slotHalt.refuses h ?_
    rw [reqSlotHalt_of hp, State.haltSlot, if_neg (show ¬ (s.taken rest).isReady k = true from by
      rw [show (s.taken rest).isReady k = s.isReady k from rfl, hr]; decide)]
    rfl

end Sys2Proof.Machine
end

section

namespace Sys2Proof.Machine

/-! ### The steering requests (R43 to R46) -/

theorem slotFreeFor_iff {s : State} {b : BoardId} {k : SlotId} :
    s.slotFreeFor b k = true ↔ (∀ x, x ≠ b → ¬ (s.entry x).Names k) ∧ (s.entry b).twin ≠ some k := by
  have hentry : ∀ x, (x == b || ((s.entry x).primary != some k && (s.entry x).twin != some k)) = true ↔
      (x ≠ b → ¬ (s.entry x).Names k) := fun x => by
    simp only [SteerEntry.Names, Bool.or_eq_true, beq_iff_eq, Bool.and_eq_true, bne_iff_ne]
    tauto
  simp only [State.slotFreeFor, Bool.and_eq_true, bne_iff_ne, List.all_eq_true, hentry]
  exact ⟨fun ⟨ht, ha⟩ => ⟨fun x => ha x (mem_allBoards x), ht⟩, fun ⟨ha, ht⟩ => ⟨ht, fun x _ => ha x⟩⟩

theorem paired_iff {e : SteerEntry} : e.paired = true ↔ e.twinState = .building ∨ e.twinState = .twinned := by
  simp only [SteerEntry.paired, Bool.or_eq_true, beq_iff_eq]

theorem sameGeometry_iff {e : SteerEntry} {p : SteerParams} :
    e.sameGeometry p = true ↔ e.primary = some p.slot ∧ e.layoutSet = p.set ∧ e.view = p.view := by
  simp only [SteerEntry.sameGeometry, Bool.and_eq_true, beq_iff_eq, and_assoc]

/-- R43: the entry may take the setting: the slot is no other entry's and not its own twin's, and a pair keeps its geometry. -/
def State.SteerFits (s : State) (p : SteerParams) : Prop :=
  s.slotFreeFor p.board p.slot = true ∧ ((s.entry p.board).paired = true → (s.entry p.board).sameGeometry p = true)

theorem steerFits_iff {s : State} {p : SteerParams} : s.SteerFits p ↔
    (∀ x, x ≠ p.board → ¬ (s.entry x).Names p.slot) ∧ (s.entry p.board).twin ≠ some p.slot ∧
      ((s.entry p.board).twinState = .building ∨ (s.entry p.board).twinState = .twinned →
        (s.entry p.board).primary = some p.slot ∧ (s.entry p.board).layoutSet = p.set ∧
          (s.entry p.board).view = p.view) := by
  simp only [State.SteerFits, slotFreeFor_iff, paired_iff, sameGeometry_iff, and_assoc]

theorem reqSteerSet_bad {ps : List Nat} (h : ∀ (b : BoardId) (k : SlotId) (l : SetId) (v : View) (a : Bool),
    ps ≠ [b.val, k.val, l.val, v.code, a.toNat]) (s : State) : reqSteerSet ps s = (s, .badArgument) := by
  have hp : parseSteer ps = none := Option.eq_none_iff_forall_ne_some.2 fun p hp =>
    h p.board p.slot p.set p.view p.autoSwap (parseSteer_some.1 hp)
  simp only [reqSteerSet, hp]

theorem reqSteerSet_fits {ps : List Nat} {p : SteerParams} {s : State} (hp : parseSteer ps = some p) (h : s.SteerFits p) :
    reqSteerSet ps s = (s.setSteer p, .done) := by
  obtain ⟨hfree, hgeom⟩ := h
  have hg : ¬ ((s.entry p.board).paired = true ∧ (s.entry p.board).sameGeometry p = false) := fun ⟨h1, h2⟩ => by
    simp [hgeom h1] at h2
  simp only [reqSteerSet, hp, hfree, if_neg hg, Bool.true_eq_false, if_false]

theorem reqSteerSet_refused {ps : List Nat} {p : SteerParams} {s : State} (hp : parseSteer ps = some p)
    (h : ¬ s.SteerFits p) : reqSteerSet ps s = (s, .refusedState) := by
  simp only [reqSteerSet, hp]
  by_cases hfree : s.slotFreeFor p.board p.slot = false
  · rw [if_pos hfree]
  · rw [if_neg hfree, if_pos]
    by_contra hn
    exact h ⟨by simpa using hfree, fun h1 => by simpa using not_and.1 hn h1⟩

/-- Settles O40: a setting that fits the entry is taken, any other refused. -/
theorem steerSet : Obligations.SteerSet := by
  unfold Obligations.SteerSet
  intro t rest s h
  refine ⟨fun hno => serves_steerSet.refuses h (reqSteerSet_bad hno _), fun b k l v a hp => ?_⟩
  have hparse : parseSteer t.params = some ⟨b, k, l, v, a⟩ := parseSteer_some.2 hp
  have hfits := steerFits_iff (s := s.taken rest) (p := ⟨b, k, l, v, a⟩)
  exact ⟨fun hn => serves_steerSet.refuses h (reqSteerSet_refused hparse (mt hfits.1 hn)),
    fun hf => serves_steerSet.done h (reqSteerSet_fits hparse (hfits.2 hf))⟩

theorem boardNaming_isSome_iff {s : State} {k : SlotId} : (s.boardNaming k).isSome = true ↔ ∃ x, (s.entry x).Names k := by
  constructor
  · intro h
    obtain ⟨b, hb⟩ := Option.isSome_iff_exists.1 h
    exact ⟨b, names_of_boardNaming hb⟩
  · rintro ⟨x, hx⟩
    cases hf : s.boardNaming k with
    | none => exact absurd hx (boardNaming_none hf x)
    | some b => rfl

theorem reqSteerClear_of {ps : List Nat} {b : BoardId} (h : ps = [b.val]) (s : State) :
    reqSteerClear ps s = s.clearSteer b := by
  simp only [reqSteerClear, parseIndex_some.2 h]

theorem reqSteerClear_bad {ps : List Nat} (h : ∀ b : BoardId, ps ≠ [b.val]) (s : State) :
    reqSteerClear ps s = (s, .badArgument) := by
  simp only [reqSteerClear, parseIndex_eq_none h]

theorem clearSteer_unset {s : State} {b : BoardId} (h : (s.entry b).primary = none) : s.clearSteer b = (s, .noSuch) :=
  if_pos h

theorem clearSteer_paired {s : State} {b : BoardId} (hn : (s.entry b).primary ≠ none)
    (h : (s.entry b).twinState = .building ∨ (s.entry b).twinState = .twinned) : s.clearSteer b = (s, .refusedState) := by
  simp only [State.clearSteer, if_neg hn, if_pos (paired_iff.2 h)]

theorem clearSteer_unpaired {s : State} {b : BoardId} (hn : (s.entry b).primary ≠ none)
    (h : (s.entry b).twinState = .none ∨ (s.entry b).twinState = .stale) : s.clearSteer b = (s.setEntry b {}, .done) := by
  have hp : ¬ (s.entry b).paired = true := fun hp => by
    rcases h with h | h <;> simp [SteerEntry.paired, h] at hp
  simp only [State.clearSteer, if_neg hn, if_neg hp]

theorem reqTwinSet_of {ps : List Nat} {b : BoardId} {k : SlotId} (h : ps = [b.val, k.val]) (s : State) :
    reqTwinSet ps s = s.setTwin b k := by
  simp only [reqTwinSet, parseTwin_some.2 h]

theorem reqTwinSet_bad {ps : List Nat} (h : ∀ (b : BoardId) (k : SlotId), ps ≠ [b.val, k.val]) (s : State) :
    reqTwinSet ps s = (s, .badArgument) := by
  have hp : parseTwin ps = none := Option.eq_none_iff_forall_ne_some.2 fun x hx => h x.1 x.2 (parseTwin_some.1 hx)
  simp only [reqTwinSet, hp]

theorem setTwin_unset {s : State} {b : BoardId} (h : (s.entry b).primary = none) (k : SlotId) :
    s.setTwin b k = (s, .noSuch) := if_pos h

theorem setTwin_refused {s : State} {b : BoardId} {k : SlotId} (hn : (s.entry b).primary ≠ none)
    (h : (s.entry b).twinState ≠ .none ∨ ∃ x, (s.entry x).Names k) : s.setTwin b k = (s, .refusedState) := by
  unfold State.setTwin
  rw [if_neg hn]
  split
  case h_1 hs => rw [if_pos (boardNaming_isSome_iff.2 (h.resolve_left fun hx => hx hs))]
  all_goals rfl

theorem setTwin_free {s : State} {b : BoardId} {k : SlotId} (hn : (s.entry b).primary ≠ none)
    (hs : (s.entry b).twinState = .none) (h : ∀ x, ¬ (s.entry x).Names k) :
    s.setTwin b k = (s.setEntry b { s.entry b with twin := some k, twinState := .stale }, .done) := by
  have hb : ¬ (s.boardNaming k).isSome = true := fun hb => by
    obtain ⟨x, hx⟩ := boardNaming_isSome_iff.1 hb
    exact h x hx
  simp only [State.setTwin, if_neg hn, hs, if_neg hb]

theorem reqTwinClear_of {ps : List Nat} {b : BoardId} (h : ps = [b.val]) (s : State) :
    reqTwinClear ps s = s.clearTwin b := by
  simp only [reqTwinClear, parseIndex_some.2 h]

theorem reqTwinClear_bad {ps : List Nat} (h : ∀ b : BoardId, ps ≠ [b.val]) (s : State) :
    reqTwinClear ps s = (s, .badArgument) := by
  simp only [reqTwinClear, parseIndex_eq_none h]

theorem clearTwin_unset {s : State} {b : BoardId} (h : (s.entry b).primary = none) : s.clearTwin b = (s, .noSuch) :=
  if_pos h

theorem clearTwin_refused {s : State} {b : BoardId} (hn : (s.entry b).primary ≠ none) (h : (s.entry b).twinState ≠ .stale) :
    s.clearTwin b = (s, .refusedState) := by
  unfold State.clearTwin
  rw [if_neg hn]
  split
  · exact absurd ‹_› h
  all_goals rfl

theorem clearTwin_stale {s : State} {b : BoardId} (hn : (s.entry b).primary ≠ none) (h : (s.entry b).twinState = .stale) :
    s.clearTwin b = (s.setEntry b { s.entry b with twin := none, twinState := .none }, .done) := by
  simp only [State.clearTwin, if_neg hn, h]

/-- Settles O41: the three requests by the entry they name and its twin state. -/
theorem steerClearAndTwin : Obligations.SteerClearAndTwin := by
  unfold Obligations.SteerClearAndTwin
  refine fun t rest s => ⟨fun h => ⟨fun hno => ?_, fun b hp => ⟨fun hu => ?_, fun hn hs => ?_, fun hn hs => ?_⟩⟩,
    fun h => ⟨fun hno => ?_, fun b k hp => ⟨fun hu => ?_, fun hn hs => ?_, fun hn hs hk => ?_⟩⟩,
    fun h => ⟨fun hno => ?_, fun b hp => ⟨fun hu => ?_, fun hn hs => ?_, fun hn hs => ?_⟩⟩⟩
  · exact serves_steerClear.refuses h (reqSteerClear_bad hno _)
  · exact serves_steerClear.refuses h ((reqSteerClear_of hp _).trans (clearSteer_unset (s := s.taken rest) hu))
  · exact serves_steerClear.refuses h ((reqSteerClear_of hp _).trans (clearSteer_paired (s := s.taken rest) hn hs))
  · exact serves_steerClear.done h ((reqSteerClear_of hp _).trans (clearSteer_unpaired (s := s.taken rest) hn hs))
  · exact serves_twinSet.refuses h (reqTwinSet_bad hno _)
  · exact serves_twinSet.refuses h ((reqTwinSet_of hp _).trans (setTwin_unset (s := s.taken rest) hu k))
  · exact serves_twinSet.refuses h ((reqTwinSet_of hp _).trans (setTwin_refused (s := s.taken rest) hn hs))
  · exact serves_twinSet.done h ((reqTwinSet_of hp _).trans (setTwin_free (s := s.taken rest) hn hs hk))
  · exact serves_twinClear.refuses h (reqTwinClear_bad hno _)
  · exact serves_twinClear.refuses h ((reqTwinClear_of hp _).trans (clearTwin_unset (s := s.taken rest) hu))
  · exact serves_twinClear.refuses h ((reqTwinClear_of hp _).trans (clearTwin_refused (s := s.taken rest) hn hs))
  · exact serves_twinClear.done h ((reqTwinClear_of hp _).trans (clearTwin_stale (s := s.taken rest) hn hs))

theorem reqSwap_of {ps : List Nat} {b : BoardId} (h : ps = [b.val]) (s : State) : reqSwap ps s = s.swap b := by
  simp only [reqSwap, parseIndex_some.2 h]

theorem reqSwap_bad {ps : List Nat} (h : ∀ b : BoardId, ps ≠ [b.val]) (s : State) : reqSwap ps s = (s, .badArgument) := by
  simp only [reqSwap, parseIndex_eq_none h]

theorem swap_unset {s : State} {b : BoardId} (h : (s.entry b).primary = none) : s.swap b = (s, .noSuch) := if_pos h

theorem swap_refused {s : State} {b : BoardId} (hn : (s.entry b).primary ≠ none) (h : (s.entry b).twinState ≠ .twinned) :
    s.swap b = (s, .refusedState) := by
  simp only [State.swap, if_neg hn, if_neg h]

/-- R46: the slots and the view change places; whether the former primary is READY decides the twin state. -/
theorem swap_twinned {s : State} {b : BoardId} {k : SlotId} (hk : (s.entry b).primary = some k)
    (h : (s.entry b).twinState = .twinned) :
    s.swap b = (s.setEntry b { s.entry b with
      primary := (s.entry b).twin, twin := some k, view := (s.entry b).view.other
      twinState := if s.isReady k then .twinned else .stale }, .done) := by
  have hn : (s.entry b).primary ≠ none := by simp [hk]
  rw [State.swap, if_neg hn, if_pos h]
  simp only [State.swapEntry, SteerEntry.swapped, hk, State.readyOpt]

/-- Settles O42: SWAP by the entry it names. -/
theorem swapExchangesThePair : Obligations.SwapExchangesThePair := by
  unfold Obligations.SwapExchangesThePair
  refine fun t rest s h => ⟨fun hno => ?_, fun b hp => ⟨fun hu => ?_, fun hn hs => ?_, fun k hk hs => ?_⟩⟩
  · exact serves_swap.refuses h (reqSwap_bad hno _)
  · exact serves_swap.refuses h ((reqSwap_of hp _).trans (swap_unset (s := s.taken rest) hu))
  · exact serves_swap.refuses h ((reqSwap_of hp _).trans (swap_refused (s := s.taken rest) hn hs))
  · exact serves_swap.done h ((reqSwap_of hp _).trans (swap_twinned (s := s.taken rest) hk hs))

end Sys2Proof.Machine
end

section

namespace Sys2Proof.Machine

/-! ### The Region Map requests (R72 to R76) -/

/-- R73: a window of the set shares a word with a region of it. -/
theorem windowClash_either_iff {s : State} {l : SetId} {x : LayoutSet} :
    (s.windowClash l x .A || s.windowClash l x .B) = true ↔
      ∃ v i r a, s.region i = some r ∧ r.set = l ∧ x.Window v a ∧ (r.Extent v a ∨ r.SpareArea v a) := by
  simp only [Bool.or_eq_true, windowClash_iff, windowHits_iff]
  constructor
  · rintro (⟨i, r, hr, hl, a, ha⟩ | ⟨i, r, hr, hl, a, ha⟩)
    · exact ⟨.A, i, r, a, hr, hl, ha⟩
    · exact ⟨.B, i, r, a, hr, hl, ha⟩
  · rintro ⟨v, i, r, a, hr, hl, ha⟩
    cases v with
    | A => exact .inl ⟨i, r, hr, hl, a, ha⟩
    | B => exact .inr ⟨i, r, hr, hl, a, ha⟩

theorem setLayout_locked {s : State} {l : SetId} (h : s.layoutLocked l = true) (x : LayoutSet) :
    s.setLayout l x = (s, .refusedState) := if_pos h

theorem setLayout_clash {s : State} {l : SetId} {x : LayoutSet} (hl : ¬ s.layoutLocked l = true)
    (h : (s.windowClash l x .A || s.windowClash l x .B) = true) : s.setLayout l x = (s, .badArgument) := by
  simp only [State.setLayout, if_neg hl, if_pos h]

theorem setLayout_free {s : State} {l : SetId} {x : LayoutSet} (hl : ¬ s.layoutLocked l = true)
    (h : ¬ (s.windowClash l x .A || s.windowClash l x .B) = true) :
    s.setLayout l x = ({ s with layouts := s.layouts.set l x }, .done) := by
  simp only [State.setLayout, if_neg hl, if_neg h]

theorem reqLayoutSet_of {ps : List Nat} {l : SetId} {x : LayoutSet} (h : parseLayout ps = some (l, x)) (s : State) :
    reqLayoutSet ps s = s.setLayout l x := by
  simp only [reqLayoutSet, h]

theorem reqLayoutSet_bad {ps : List Nat} (h : parseLayout ps = none) (s : State) :
    reqLayoutSet ps s = (s, .badArgument) := by
  simp only [reqLayoutSet, h]

theorem reqRegionClear_of {ps : List Nat} {i : RegionId} (h : ps = [i.val]) (s : State) :
    reqRegionClear ps s = s.clearRegion i := by
  simp only [reqRegionClear, parseIndex_some.2 h]

theorem reqRegionClear_bad {ps : List Nat} (h : ∀ i : RegionId, ps ≠ [i.val]) (s : State) :
    reqRegionClear ps s = (s, .badArgument) := by
  simp only [reqRegionClear, parseIndex_eq_none h]

theorem clearRegion_unloaded {s : State} {i : RegionId} (h : s.region i = none) : s.clearRegion i = (s, .noSuch) := if_pos h

theorem clearRegion_held {s : State} {i : RegionId} (hn : s.region i ≠ none) (h : s.Held i) :
    s.clearRegion i = (s, .refusedState) := by
  simp only [State.clearRegion, if_neg hn, if_pos (regionHeld_iff.2 h)]

theorem clearRegion_free {s : State} {i : RegionId} (hn : s.region i ≠ none) (h : ¬ s.Held i) :
    s.clearRegion i = (s.setRegion i none, .done) := by
  simp only [State.clearRegion, if_neg hn, if_neg (mt regionHeld_iff.1 h)]

/-- Settles O43: LAYOUT-SET by its range, state and geometry stages, and REGION-CLEAR by the record it names. -/
theorem layoutSetAndRegionClear : Obligations.LayoutSetAndRegionClear := by
  unfold Obligations.LayoutSetAndRegionClear
  refine fun t rest s => ⟨fun h => ⟨fun hno => ?_, fun l ba ca bb cb hp hrange => ?_⟩,
    fun h => ⟨fun hno => ?_, fun i hp => ⟨fun hu => ?_, fun hn hh => ?_, fun hn hh => ?_⟩⟩⟩
  · refine serves_layoutSet.refuses h (reqLayoutSet_bad (Option.eq_none_iff_forall_ne_some.2 fun x hx => ?_) _)
    obtain ⟨hwords, hrange⟩ := (parseLayout_some (params_lt t)).1 hx
    exact hno x.1 _ _ _ _ hwords hrange
  · have hba : (BitVec.ofNat 32 ba).toNat = ba := by simpa using params_lt t ba (by simp [hp])
    have hbb : (BitVec.ofNat 32 bb).toNat = bb := by simpa using params_lt t bb (by simp [hp])
    have hparse : parseLayout t.params = some (l, ⟨BitVec.ofNat 32 ba, ca, BitVec.ofNat 32 bb, cb⟩) :=
      (parseLayout_some (params_lt t)).2 (by simpa only [hba, hbb] using ⟨hp, hrange⟩)
    have hlocked := layoutLocked_iff (s := s.taken rest) (l := l)
    have hclash := windowClash_either_iff (s := s.taken rest) (l := l)
      (x := ⟨BitVec.ofNat 32 ba, ca, BitVec.ofNat 32 bb, cb⟩)
    refine ⟨fun hl => ?_, fun hl hc => ?_, fun hl hc => ?_⟩
    · exact serves_layoutSet.refuses h ((reqLayoutSet_of hparse _).trans (setLayout_locked (hlocked.2 hl) _))
    · exact serves_layoutSet.refuses h
        ((reqLayoutSet_of hparse _).trans (setLayout_clash (mt hlocked.1 hl) (hclash.2 hc)))
    · exact serves_layoutSet.done h
        ((reqLayoutSet_of hparse _).trans (setLayout_free (mt hlocked.1 hl) (mt hclash.1 hc)))
  · exact serves_regionClear.refuses h (reqRegionClear_bad hno _)
  · exact serves_regionClear.refuses h ((reqRegionClear_of hp _).trans (clearRegion_unloaded (s := s.taken rest) hu))
  · exact serves_regionClear.refuses h ((reqRegionClear_of hp _).trans (clearRegion_held (s := s.taken rest) hn hh))
  · exact serves_regionClear.done h ((reqRegionClear_of hp _).trans (clearRegion_free (s := s.taken rest) hn hh))

/-- R75: in some view the record shares a word with itself, with another record of its set, or with its set's window. -/
theorem loadClash_either_iff {s : State} {i : RegionId} {r : Region} :
    (s.loadClash i r .A || s.loadClash i r .B) = true ↔
      ∃ v a, (r.SpareArea v a ∧ r.Extent v a) ∨
        (∃ j o, j ≠ i ∧ s.region j = some o ∧ o.set = r.set ∧ (r.Extent v a ∨ r.SpareArea v a) ∧
          (o.Extent v a ∨ o.SpareArea v a)) ∨
        ((s.layout r.set).Window v a ∧ (r.Extent v a ∨ r.SpareArea v a)) := by
  have hview : ∀ v, s.loadClash i r v = true ↔ ∃ a, (r.SpareArea v a ∧ r.Extent v a) ∨
      (∃ j o, j ≠ i ∧ s.region j = some o ∧ o.set = r.set ∧ (r.Extent v a ∨ r.SpareArea v a) ∧
        (o.Extent v a ∨ o.SpareArea v a)) ∨
      ((s.layout r.set).Window v a ∧ (r.Extent v a ∨ r.SpareArea v a)) := by
    intro v
    simp only [loadClash_iff, hitsSelf_iff, regionHits_iff, windowHits_iff]
    constructor
    · rintro (⟨a, ha⟩ | ⟨j, o, hj, ho, hset, a, ha⟩ | ⟨a, ha⟩)
      · exact ⟨a, .inl ha⟩
      · exact ⟨a, .inr (.inl ⟨j, o, hj, ho, hset, ha⟩)⟩
      · exact ⟨a, .inr (.inr ha)⟩
    · rintro ⟨a, ha | ⟨j, o, hj, ho, hset, ha⟩ | ha⟩
      · exact .inl ⟨a, ha⟩
      · exact .inr (.inl ⟨j, o, hj, ho, hset, a, ha⟩)
      · exact .inr (.inr ⟨a, ha⟩)
  rw [Bool.or_eq_true, hview, hview]
  constructor
  · rintro (h | h)
    · exact ⟨.A, h⟩
    · exact ⟨.B, h⟩
  · rintro ⟨v, h⟩
    cases v with
    | A => exact .inl h
    | B => exact .inr h

theorem reqRegionLoad_of {ps : List Nat} {i : RegionId} {r : Region} (h : parseRegion ps = some (i, r)) (s : State) :
    reqRegionLoad ps s = s.loadRegion i r := by
  simp only [reqRegionLoad, h]

theorem reqRegionLoad_bad {ps : List Nat} (h : parseRegion ps = none) (s : State) :
    reqRegionLoad ps s = (s, .badArgument) := by
  simp only [reqRegionLoad, h]

theorem loadRegion_locked {s : State} {i : RegionId} {r : Region} (h : s.loadLocked i r.set = true) :
    s.loadRegion i r = (s, .refusedState) := if_pos h

theorem loadRegion_clash {s : State} {i : RegionId} {r : Region} (hl : ¬ s.loadLocked i r.set = true)
    (h : (s.loadClash i r .A || s.loadClash i r .B) = true) : s.loadRegion i r = (s, .badArgument) := by
  simp only [State.loadRegion, if_neg hl, if_pos h]

theorem loadRegion_free {s : State} {i : RegionId} {r : Region} (hl : ¬ s.loadLocked i r.set = true)
    (h : ¬ (s.loadClash i r .A || s.loadClash i r .B) = true) :
    s.loadRegion i r = (s.setRegion i (some r), .done) := by
  simp only [State.loadRegion, if_neg hl, if_neg h]

/-- The words of a record in the statement are `Region.params`. -/
theorem regionParams_eq (i : RegionId) (r : Region) :
    r.params i = [i.val, r.set.val, r.width, r.entries, r.geomA.base.toNat, r.geomA.pitch, r.geomB.base.toNat, r.geomB.pitch,
      (match r.mode with | .copy => 0 | .zero => 1 | .mirror => 2 | .localOnly => 3), r.verify.getD 0, r.poison.toNat,
      r.geomA.spareBase.toNat, r.geomA.spareCount, r.geomB.spareBase.toNat, r.geomB.spareCount] := by
  unfold Region.params
  cases r.mode <;> rfl

/-- Settles O44: REGION-LOAD by its range, state and geometry stages. -/
theorem regionLoadInThreeStages : Obligations.RegionLoadInThreeStages := by
  unfold Obligations.RegionLoadInThreeStages
  intro t rest s h
  refine ⟨fun hno => ?_, fun i r hrange hp => ?_⟩
  · refine serves_regionLoad.refuses h (reqRegionLoad_bad (Option.eq_none_iff_forall_ne_some.2 fun x hx => ?_) _)
    obtain ⟨hwords, hrange⟩ := (parseRegion_some (params_lt t)).1 hx
    exact hno x.1 x.2 hrange (hwords.trans (regionParams_eq _ _))
  · have hparse : parseRegion t.params = some (i, r) :=
      (parseRegion_some (params_lt t)).2 ⟨hp.trans (regionParams_eq i r).symm, hrange⟩
    have hlocked := loadLocked_iff (s := s.taken rest) (i := i) (l := r.set)
    have hclash := loadClash_either_iff (s := s.taken rest) (i := i) (r := r)
    refine ⟨fun hl => ?_, fun hl hc => ?_, fun hl hc => ?_⟩
    · exact serves_regionLoad.refuses h ((reqRegionLoad_of hparse _).trans (loadRegion_locked (hlocked.2 hl)))
    · exact serves_regionLoad.refuses h
        ((reqRegionLoad_of hparse _).trans (loadRegion_clash (mt hlocked.1 hl) (hclash.2 hc)))
    · exact serves_regionLoad.done h
        ((reqRegionLoad_of hparse _).trans (loadRegion_free (mt hlocked.1 hl) (mt hclash.1 hc)))

end Sys2Proof.Machine
end

section

namespace Sys2Proof.Machine

/-! ### READ-STATE (R164, R167, R168) -/

/-- The row that reads an object. -/
def Reads (c : Instr) (o : Object) (view : State → Nat → Nat → Option Answer) : Prop :=
  ∀ s, exec c s = .next (s.unlessHeld fun s => s.read o view)

theorem reads_bridge : Reads .readStateBridge .bridge viewBridge := fun _ => rfl
theorem reads_slot : Reads .readStateSlot .slot viewSlot := fun _ => rfl
theorem reads_steer : Reads .readStateSteer .steer viewSteer := fun _ => rfl
theorem reads_layout : Reads .readStateLayout .layout viewLayout := fun _ => rfl
theorem reads_region : Reads .readStateRegion .region viewRegion := fun _ => rfl
theorem reads_context : Reads .readStateContext .context viewContext := fun _ => rfl
theorem reads_segments : Reads .readStateSegments .segments viewSegments := fun _ => rfl
theorem reads_revisit : Reads .readStateRevisit .revisit viewRevisit := fun _ => rfl
theorem reads_gaps : Reads .readStateGaps .gaps viewGaps := fun _ => rfl
theorem reads_spares : Reads .readStateSpares .spares viewSpares := fun _ => rfl
theorem reads_notices : Reads .readStateNotices .notices viewNotices := fun _ => rfl
theorem reads_counters : Reads .readStateCounters .counters viewCounters := fun _ => rfl

theorem Object.code_le (o : Object) : o.code ≤ 11 := by cases o <;> decide

/-- A row takes the READ-STATEs that name its object. -/
theorem Object.takes_own (o : Object) (i p : Nat) : o.takes [o.code, i, p] = true := by simp [Object.takes]

/-- A row takes the READ-STATEs that name no object (assumption 11). -/
theorem Object.takes_nameless (o : Object) {ps : List Nat} (h : ∀ c i p, ps = [c, i, p] → 11 < c) : o.takes ps = true := by
  have hn : namesObject ps = false := by
    unfold namesObject
    split
    · simpa using h _ _ _ rfl
    · rfl
  simp [Object.takes, hn]

/-- A row leaves the READ-STATEs of another object alone. -/
theorem Object.takes_other {o : Object} {c : Nat} (h : c ≤ 11) (hc : c ≠ o.code) (i p : Nat) : o.takes [c, i, p] = false := by
  simp [Object.takes, namesObject, h, hc]

theorem Object.operands_own (o : Object) (i : Nat) {p : Nat} (h : p ≤ 255) : o.operands [o.code, i, p] = some (i, p) :=
  if_pos ⟨rfl, h⟩

theorem Object.operands_page {o : Object} {c i p : Nat} (h : 255 < p) : o.operands [c, i, p] = none :=
  if_neg fun ⟨_, hp⟩ => by omega

theorem Object.operands_nameless (o : Object) {ps : List Nat} (h : ∀ c i p, ps = [c, i, p] → 11 < c) :
    o.operands ps = none := by
  unfold Object.operands
  split
  case _ c i p =>
    have hc := h c i p rfl
    have ho := o.code_le
    exact if_neg fun ⟨he, _⟩ => by omega
  · rfl

section

variable {c : Instr} {o : Object} {view : State → Nat → Nat → Option Answer} {s : State} {t : Txn} {rest : List Txn}

/-- A READ-STATE that names the row's object, an index of it and a page. -/
theorem Reads.answers (hc : Reads c o view) (h : s.Requested .readState t rest) {i p : Nat} (hp : t.params = [o.code, i, p])
    (hpage : p ≤ 255) {a : Answer} (hv : view (s.taken rest) i p = some a) :
    exec c s = .next ((s.taken rest).replied t a.status a.words a.more) := by
  rw [hc, read_of h o (hp ▸ o.takes_own i p) view a]
  rw [hp, o.operands_own i hpage]
  simp only [hv, Option.getD_some]

/-- A READ-STATE of a record object: numbers as result words. -/
theorem Reads.results (hc : Reads c o view) (h : s.Requested .readState t rest) {i p : Nat} (hp : t.params = [o.code, i, p])
    (hpage : p ≤ 255) {ns : List Nat} {more : Bool}
    (hv : view (s.taken rest) i p = some ⟨.done, ns.map (BitVec.ofNat 32), more⟩) :
    exec c s = .next ((s.taken rest).replied t .done (ns.map (BitVec.ofNat 32)) more) := hc.answers h hp hpage hv

/-- A READ-STATE that the row takes and that names no index and page of the object. -/
theorem Reads.refuses (hc : Reads c o view) (h : s.Requested .readState t rest) (ht : o.takes t.params = true)
    (hv : ∀ i p, o.operands t.params = some (i, p) → view (s.taken rest) i p = none) :
    Refuses c s t rest .badArgument := by
  unfold Refuses
  rw [hc, read_of h o ht view .badArgument]
  · rfl
  · split
    · rw [hv _ _ ‹_›]
      rfl
    · rfl

/-- A READ-STATE that the row does not take. -/
theorem Reads.stands (hc : Reads c o view) (h : s.Requested .readState t rest) (ht : o.takes t.params = false) :
    exec c s = .next s := by
  obtain ⟨hs, hi, -, -⟩ := h
  have hread : s.read o view = s := by
    unfold State.read State.decode
    rw [hi]
    exact if_neg fun ⟨_, hm⟩ => by simp [ht] at hm
  rw [hc, unlessHeld_of hs, hread]

/-- What a row does with a READ-STATE that names nothing it can read (R167). -/
theorem Reads.nothing (hc : Reads c o view) (h : s.Requested .readState t rest) {n : Nat}
    (hv : ∀ s i p, n ≤ i → view s i p = none) :
    ((∀ d i p, t.params = [d, i, p] → 11 < d) → Refuses c s t rest .badArgument) ∧
    (∀ i p, t.params = [o.code, i, p] → n ≤ i ∨ 255 < p → Refuses c s t rest .badArgument) ∧
    (∀ d i p, t.params = [d, i, p] → d ≤ 11 → d ≠ o.code → exec c s = .next s) := by
  refine ⟨fun hno => ?_, fun i p hp hout => ?_, fun d i p hp hd hne => ?_⟩
  · refine hc.refuses h (o.takes_nameless hno) fun i p hop => ?_
    simp [o.operands_nameless hno] at hop
  · refine hc.refuses h (hp ▸ o.takes_own i p) fun j q hop => ?_
    rw [hp] at hop
    rcases Nat.lt_or_ge 255 p with hpage | hpage
    · simp [Object.operands_page hpage] at hop
    · rw [o.operands_own i hpage] at hop
      obtain ⟨rfl, rfl⟩ := Prod.mk.inj (Option.some.inj hop)
      exact hv _ _ _ (hout.resolve_right (by omega))
  · exact hc.stands h (hp ▸ Object.takes_other hd hne i p)

end

theorem indexed_of {n : Nat} (i : Fin n) (f : Fin n → Answer) : indexed n i.val f = some (f i) := by
  simp only [indexed, toIndex_some.2 rfl, Option.map_some]

theorem indexed_beyond {n i : Nat} (h : n ≤ i) (f : Fin n → Answer) : indexed n i f = none := by
  simp [indexed, toIndex, Nat.not_lt.2 h]

theorem viewGaps_beyond (s : State) (i p : Nat) (h : 17 ≤ i) : viewGaps s i p = none := by
  rw [viewGaps, if_neg (by omega)]
  exact indexed_beyond (by omega) _

theorem viewCounters_beyond (s : State) (i p : Nat) (h : 25 ≤ i) : viewCounters s i p = none := by
  rw [viewCounters, if_neg (by omega), if_neg (by omega)]
  exact indexed_beyond (by omega) _

theorem exec_unknownRequest (s : State) : exec .unknownRequest s = .next (s.unlessHeld fun s =>
    s.decode (fun t => t.asRequest == none) fun _ s => (s, some { status := .unknownRequest })) := rfl

/-- Table 1-3: the codes of the requests. -/
theorem asRequest_eq_none {t : Txn} : t.asRequest = none ↔ t.request ∉ Request.all.map Request.code := by
  simp only [Txn.asRequest, List.find?_eq_none, List.mem_map, beq_iff_eq, not_exists, not_and]

/-- Settles O34: an unknown kind is answered by its row; each row of READ-STATE refuses what names nothing of its object, and
leaves the other objects' requests alone. -/
theorem requestsThatNameNothing : Obligations.RequestsThatNameNothing := by
  unfold Obligations.RequestsThatNameNothing
  refine ⟨fun t rest s hs hi hk hr => ?_, fun t => asRequest_eq_none, fun t rest s h => ?_⟩
  · unfold Refuses
    rw [exec_unknownRequest, unlessHeld_of hs, decode_of hi hk _ (by simp [hr])]
    rfl
  · simp only [List.forall_mem_cons, List.not_mem_nil, false_implies, implies_true, and_true]
    exact ⟨reads_bridge.nothing h fun _ _ _ hi => indexed_beyond hi _, reads_slot.nothing h fun _ _ _ hi => indexed_beyond hi _,
      reads_steer.nothing h fun _ _ _ hi => indexed_beyond hi _, reads_layout.nothing h fun _ _ _ hi => indexed_beyond hi _,
      reads_region.nothing h fun _ _ _ hi => indexed_beyond hi _, reads_context.nothing h fun _ _ _ hi => indexed_beyond hi _,
      reads_segments.nothing h fun _ _ _ hi => indexed_beyond hi _,
      reads_revisit.nothing h fun _ _ _ hi => indexed_beyond hi _, reads_gaps.nothing h viewGaps_beyond,
      reads_spares.nothing h fun _ _ _ hi => indexed_beyond hi _, reads_notices.nothing h fun _ _ _ hi => indexed_beyond hi _,
      reads_counters.nothing h viewCounters_beyond⟩

/-! The codes of results. -/

theorem flagCode_eq (b : Bool) : flagCode b = b.toNat := by cases b <;> rfl

theorem codeOr0_eq {α : Type} (f : α → Nat) (x : Option α) : codeOr0 f x = (x.map f).getD 0 := by cases x <;> rfl

theorem finCode_eq {n : Nat} (x : Option (Fin n)) : finCode x = (x.map (·.val)).getD 255 := by cases x <;> rfl

theorem stopWords_eq (x : Option StopPoint) : stopWords x =
    [(x.map fun p => if p.again then 2 else 1).getD 0, (x.map fun p => (p.region.map (·.val)).getD 255).getD 0,
     (x.map (·.value.toNat)).getD 0, (x.map (·.mask.toNat)).getD 0] := by
  cases x with
  | none => rfl
  | some p => simp [stopWords, finCode_eq]

/-! Counting over the tables. -/

theorem toList_eq_map_finRange {α : Type} {n : Nat} (v : Vector α n) : v.toList = (List.finRange n).map fun i => v[i] :=
  List.ext_getElem (by simp) fun i h1 h2 => by simp

theorem length_regionsOf (s : State) (l : SetId) :
    (s.regionsOf l).length = s.regions.toList.countP fun r => r.any fun y => y.set == l := by
  rw [State.regionsOf, List.length_filterMap_eq_countP, toList_eq_map_finRange, List.countP_map]
  refine List.countP_congr fun i _ => ?_
  rw [Function.comp_apply, show s.regions[i] = s.region i from rfl]
  cases s.region i with
  | none => simp
  | some r => by_cases hr : r.set = l <;> simp [hr]

theorem countP_entries (s : State) (f : SteerEntry → Bool) :
    allBoards.countP (fun b => f (s.entry b)) = s.steer.toList.countP f := by
  rw [toList_eq_map_finRange, List.countP_map]
  rfl

theorem length_usedSegments (s : State) : s.usedSegments.length = (s.ctxs.toList.map (·.segs.length)).sum := by
  rw [State.usedSegments, List.length_flatMap, toList_eq_map_finRange, List.map_map]
  simp only [List.length_map]
  rfl

/-- Settles O35: each record object's view, word by word. -/
theorem readStateRecords : Obligations.ReadStateRecords := by
  unfold Obligations.ReadStateRecords
  intro t rest page s h hpage
  refine ⟨fun hp => ?_, fun k hp => ?_, fun b hp => ?_, fun l hp => ⟨?_, setInUse_iff⟩,
    fun i hp => ⟨fun hr => ?_, fun r hr => ?_, regionHeld_iff⟩, fun c hp => ⟨fun hpar => ?_, fun hpar => ?_⟩⟩
  · refine reads_bridge.results h hp hpage ?_
    refine (indexed_of (0 : Fin 1) _).trans ?_
    rw [show (s.taken rest).startRecord = s.startRecord from rfl]
    cases s.startRecord.cause <;> rfl
  · refine reads_slot.results h hp hpage ?_
    simp only [viewSlot, indexed_of, Answer.results, slotWords, flagCode_eq, codeOr0_eq]
    rfl
  · refine reads_steer.results h hp hpage ?_
    simp only [viewSteer, indexed_of, Answer.results, steerWords, flagCode_eq, finCode_eq]
    rfl
  · refine reads_layout.results h hp hpage ?_
    simp only [viewLayout, indexed_of, Answer.results, layoutWords, flagCode_eq, length_regionsOf,
      countP_entries (s.taken rest) fun e => e.primary.isSome && e.layoutSet == l]
    rfl
  · have hr : (s.taken rest).region i = none := hr
    refine reads_region.results h hp hpage ?_
    simp only [viewRegion, indexed_of, Answer.results, regionWords, hr]
    rfl
  · have hr : (s.taken rest).region i = some r := hr
    refine reads_region.results h hp hpage ?_
    simp only [viewRegion, indexed_of, Answer.results, regionWords, hr, flagCode_eq]
    rfl
  · refine reads_context.results h hp hpage ?_
    simp only [viewContext, indexed_of, if_pos hpar, Answer.results, ctxWords0, flagCode_eq, codeOr0_eq, beq_eq_decide]
    rfl
  · have hpar : ¬ page % 2 = 0 := by omega
    refine reads_context.results h hp hpage ?_
    simp only [viewContext, indexed_of, if_neg hpar, Answer.results, ctxWords1, codeOr0_eq, stopWords_eq, length_usedSegments]
    rfl

/-! Packing (R168). -/

/-- The number and the width that fields pack to: each field stands above the bits of those behind it. -/
theorem packBits_append (before after : List Field) (w v : Nat) : ∃ p q, q < 2 ^ (after.map (·.1)).sum ∧
    packBits (before ++ (w, v) :: after) = ((p * 2 ^ w + v % 2 ^ w) * 2 ^ (after.map (·.1)).sum + q,
      (before.map (·.1)).sum + w + (after.map (·.1)).sum) := by
  obtain ⟨p, -, hp⟩ := packing_foldl before 0 0
  obtain ⟨q, hlt, hq⟩ := packing_foldl after (p * 2 ^ w + v % 2 ^ w) ((before.map (·.1)).sum + w)
  refine ⟨p, q, hlt, ?_⟩
  rw [packBits, List.foldl_append, List.foldl_cons, hp, Nat.zero_mul, Nat.zero_add, Nat.zero_add, hq]

theorem packBits_spec (fs : List Field) : ∃ q, q < 2 ^ (fs.map (·.1)).sum ∧ packBits fs = (q, (fs.map (·.1)).sum) := by
  obtain ⟨q, hlt, hq⟩ := packing_foldl fs 0 0
  refine ⟨q, hlt, ?_⟩
  rw [packBits, hq, Nat.zero_mul, Nat.zero_add, Nat.zero_add]

theorem length_packWords (fs : List Field) : (packWords fs).length = ((fs.map (·.1)).sum + 31) / 32 := by
  obtain ⟨q, -, hq⟩ := packBits_spec fs
  simp [packWords, hq]

/-- The words of packed fields, read as one number: the fields' number moved up to bit 31 of the first word. -/
theorem number_packWords (fs : List Field) :
    (packWords fs).foldl (fun n w => n * 4294967296 + w.toNat) 0 =
      (packBits fs).1 * 2 ^ (32 * (packWords fs).length - (fs.map (·.1)).sum) := by
  obtain ⟨q, hlt, hq⟩ := packBits_spec fs
  rw [length_packWords]
  simp only [packWords, hq]
  generalize (fs.map (·.1)).sum = m at hlt ⊢
  refine words_digits _ _ ?_
  have hm : 32 * ((m + 31) / 32) = m + (32 * ((m + 31) / 32) - m) := by omega
  rw [hm, pow_add, Nat.add_sub_cancel_left]
  exact Nat.mul_lt_mul_of_pos_right hlt (Nat.two_pow_pos _)

theorem field_packWords (before after : List Field) (w v : Nat) :
    let words := packWords (before ++ (w, v) :: after)
    words.foldl (fun n w => n * 4294967296 + w.toNat) 0 / 2 ^ (32 * words.length - ((before.map (·.1)).sum + w)) % 2 ^ w =
      v % 2 ^ w := by
  obtain ⟨p, q, hlt, hpack⟩ := packBits_append before after w v
  intro words
  rw [number_packWords, hpack]
  have hsum : ((before ++ (w, v) :: after).map (·.1)).sum = (before.map (·.1)).sum + w + (after.map (·.1)).sum := by
    simp only [List.map_append, List.map_cons, List.sum_append, List.sum_cons]
    omega
  have hlen : words.length = ((before.map (·.1)).sum + w + (after.map (·.1)).sum + 31) / 32 :=
    hsum ▸ length_packWords _
  generalize hb : (before.map (·.1)).sum + w = b at hsum hlen
  generalize (after.map (·.1)).sum = a at hsum hlen hlt ⊢
  have hshift : 32 * words.length - b = a + (32 * words.length - (b + a)) := by omega
  rw [hsum, hshift, pow_add, Nat.mul_div_mul_right _ _ (Nat.two_pow_pos _), Nat.mul_comm _ (2 ^ a),
    Nat.mul_add_div (Nat.two_pow_pos a), Nat.div_eq_of_lt hlt, Nat.add_zero, Nat.mul_comm p, Nat.mul_add_mod, Nat.mod_mod]

/-- A READ-STATE of a list object: the page of its records (R168). -/
theorem Reads.list {c : Instr} {o : Object} {view : State → Nat → Nat → Option Answer} {s : State} {t : Txn}
    {rest : List Txn} (hc : Reads c o view) (h : s.Requested .readState t rest) {i p : Nat} (hp : t.params = [o.code, i, p])
    (hpage : p ≤ 255) {recs fields : List (List Field)} (hv : view (s.taken rest) i p = some (readList recs p))
    (he : recs = fields) :
    exec c s = .next ((s.taken rest).replied t .done
      (packWords ([(9, fields.length), (5, p % max 1 ((fields.length + 7) / 8))] ++
        ((fields.drop (8 * (p % max 1 ((fields.length + 7) / 8)))).take 8).flatten))
      (decide (p % max 1 ((fields.length + 7) / 8) + 1 < max 1 ((fields.length + 7) / 8)))) := by
  subst he
  exact hc.answers h hp hpage hv

theorem viewGaps_of (s : State) (c : CtxId) (page : Nat) :
    viewGaps s c.val page = some (readList ((s.gapsOf c).map Gap.fields) page) := by
  rw [viewGaps, if_neg (by omega)]
  exact indexed_of c _

theorem viewCounters_slot (s : State) (k : SlotId) (page : Nat) :
    viewCounters s (k.val + 1) page = some (readList (counterRecords 7 (s.slot k).counters.list) page) := by
  rw [viewCounters, if_neg (by omega), if_pos (by omega), Nat.add_sub_cancel]
  exact indexed_of k _

theorem viewCounters_ctx (s : State) (c : CtxId) (page : Nat) :
    viewCounters s (c.val + 9) page = some (readList (counterRecords 11 (s.ctx c).counters.list) page) := by
  rw [viewCounters, if_neg (by omega), if_neg (by omega), Nat.add_sub_cancel]
  exact indexed_of c _

/-- Settles O36: each list object's records in fields and pages, and the packing of fields into words. -/
theorem readStateLists : Obligations.ReadStateLists := by
  unfold Obligations.ReadStateLists
  refine ⟨fun t rest page s h hpage => ⟨fun c hp => ?_, fun c hp => ?_, fun c hp => ?_, fun hp => ?_, fun k hp => ?_,
    fun hp => ?_, fun hp => ?_, fun k hp => ?_, fun c hp => ?_⟩, fun fs => ⟨length_packWords fs, ?_, fun before w v after hfs => ?_⟩⟩
  · exact reads_segments.list h hp hpage (indexed_of c _) rfl
  · exact reads_revisit.list h hp hpage (indexed_of c _) rfl
  · exact reads_gaps.list h hp hpage (viewGaps_of _ c page) rfl
  · exact reads_gaps.list h hp hpage (if_pos rfl) rfl
  · refine reads_spares.list h hp hpage (indexed_of k _) (List.map_congr_left fun x _ => ?_)
    cases x with
    | remap r e v i o n => simp only [SpareRec.fields, finCode_eq]
    | retired r v i => rfl
  · refine reads_notices.list h hp hpage (indexed_of (0 : Fin 1) _) (List.map_congr_left fun k _ => ?_)
    simp only [noticeFields, flagCode_eq]
    rfl
  · exact reads_counters.list h hp hpage (if_pos rfl) rfl
  · exact reads_counters.list h hp hpage (viewCounters_slot _ k page) rfl
  · exact reads_counters.list h hp hpage (viewCounters_ctx _ c page) rfl
  · rw [number_packWords]
    exact Nat.mul_mod_left _ _
  · subst hfs
    exact field_packWords before after w v

end Sys2Proof.Machine
end

section

namespace Sys2Proof.Machine

/-! ### SOFT-RESET (R21, R132, R143, R162, R163, R170) -/

/-- Whether a soft reset ends a context: any that is not IDLE (R162). -/
def State.ends (s : State) (c : CtxId) : Bool := decide ((s.ctx c).state ≠ .idle)

/-- The record of a context that a soft reset has ended (R92, R162, R163). -/
def Ctx.aborted (x : Ctx) : Ctx :=
  { x with
    state := .idle, outcome := some .aborted, failReason := none, pauseReason := none, flights := [], cutClaim := false
    revisit := [], segs := [], cur := none, paceRunning := false, stop := none, held := none, deferred := none }

/-- The deferred reply of a context that a soft reset ends (R163). -/
def State.abortReply (s : State) (c : CtxId) : Option Txn :=
  if s.ends c then
    (s.ctx c).deferred.map fun tag =>
      { kind := .mgmtReply, board := 15, status := 6, tag := tag, count := 1, addr := 72, data := [9] }
  else none

/-- A pending entry once the contexts of a set have ended (R21). -/
def PendEntry.orphanAll (D : CtxId → Bool) (e : PendEntry) : PendEntry :=
  if ∃ c, D c = true ∧ e.origin.isOf c = true then { e with origin := .orphan } else e

/-- A spare map record once the contexts of a set have ended (R143). -/
def SpareRec.disownAll (D : CtxId → Bool) : SpareRec → SpareRec
  | .remap r e v i (some c) n => if D c then .remap r e v i none 0 else .remap r e v i (some c) n
  | .remap r e v i none n => .remap r e v i none n
  | .retired r v i => .retired r v i

/-- The steering entry is BUILDING and bound to a context of a set. -/
def State.BuiltBy (s : State) (D : CtxId → Bool) (b : BoardId) : Prop :=
  (s.entry b).twinState = .building ∧ ∃ c, D c = true ∧ (s.ctx c).board = b ∧ (s.entry b).bound = some c

/-- What is left once soft reset has ended the contexts of a set and sent their replies. -/
structure SoftResets (s : State) (D : CtxId → Bool) (replies : List Txn) (v : State) : Prop where
  rest : v = { s with
    ctxs := v.ctxs, steer := v.steer, slots := v.slots, staging := v.staging, spares := v.spares
    upstream := s.upstream ++ replies }
  ended : ∀ c, D c = true → v.ctx c = (s.ctx c).aborted
  kept : ∀ c, D c = false → v.ctx c = s.ctx c
  released : ∀ b, s.BuiltBy D b → v.entry b = { s.entry b with twinState := .stale, bound := none }
  stands : ∀ b, ¬ s.BuiltBy D b → v.entry b = s.entry b
  slot : ∀ k, v.slot k = { s.slot k with pend := (v.slot k).pend }
  pend : ∀ k (i : PendIdx), (v.slot k).pend[i] = (s.slot k).pend[i].map (PendEntry.orphanAll D)
  staging : ∀ g : StagingId, v.staging[g] =
    if ∃ c, D c = true ∧ ∃ f ∈ (s.ctx c).flights, f.staging = g then none else s.staging[g]
  spares : ∀ k, v.spareMap k = (s.spareMap k).map (SpareRec.disownAll D)

section

variable {s v w : State} {D E : CtxId → Bool} {l m : List Txn}

theorem orphanAll_none (e : PendEntry) : e.orphanAll (fun _ => false) = e := by simp [PendEntry.orphanAll]

theorem disownAll_none (x : SpareRec) : x.disownAll (fun _ => false) = x := by
  cases x with
  | remap r e v i o n => cases o <;> simp [SpareRec.disownAll]
  | retired r v i => rfl

theorem SoftResets.refl (s : State) : SoftResets s (fun _ => false) [] s where
  rest := by rw [List.append_nil]
  ended := fun c h => by cases h
  kept := fun _ _ => rfl
  released := fun b ⟨_, c, h, _⟩ => by cases h
  stands := fun _ _ => rfl
  slot := fun _ => rfl
  pend := fun k i => by
    rw [show PendEntry.orphanAll (fun _ => false) = id from funext orphanAll_none, Option.map_id]
    rfl
  staging := fun g => by simp
  spares := fun k => by
    rw [show SpareRec.disownAll (fun _ => false) = id from funext disownAll_none, List.map_id]

theorem orphanAll_orphanAll (e : PendEntry) : (e.orphanAll D).orphanAll E = e.orphanAll fun c => D c || E c := by
  by_cases hD : ∃ c, D c = true ∧ e.origin.isOf c = true
  · have hDE : ∃ c, (D c || E c) = true ∧ e.origin.isOf c = true := by
      obtain ⟨c, hc, ho⟩ := hD
      exact ⟨c, by simp [hc], ho⟩
    have hE : ¬ ∃ c, E c = true ∧ Origin.orphan.isOf c = true := fun ⟨_, _, h⟩ => by cases h
    rw [PendEntry.orphanAll, PendEntry.orphanAll, PendEntry.orphanAll, if_pos hD, if_neg hE, if_pos hDE]
  · have hiff : (∃ c, E c = true ∧ e.origin.isOf c = true) ↔ ∃ c, (D c || E c) = true ∧ e.origin.isOf c = true := by
      refine exists_congr fun c => ⟨fun ⟨h, ho⟩ => ⟨by simp [h], ho⟩, fun ⟨h, ho⟩ => ⟨?_, ho⟩⟩
      exact (Bool.or_eq_true_iff.1 h).resolve_left fun hd => hD ⟨c, hd, ho⟩
    simp only [PendEntry.orphanAll, if_neg hD, hiff]

theorem disownAll_disownAll (x : SpareRec) : (x.disownAll D).disownAll E = x.disownAll fun c => D c || E c := by
  cases x with
  | retired r v i => rfl
  | remap r e v i o n =>
    cases o with
    | none => rfl
    | some c =>
      cases hD : D c with
      | true => simp [SpareRec.disownAll, hD]
      | false => simp [SpareRec.disownAll, hD]

/-- Two sets of contexts that end one after the other end together. -/
theorem SoftResets.trans (h : SoftResets s D l v) (g : SoftResets v E m w) (hd : ∀ c, D c = true → E c = false) :
    SoftResets s (fun c => D c || E c) (l ++ m) w := by
  have hkept : ∀ c, E c = true → v.ctx c = s.ctx c := fun c hE => h.kept c <| by
    cases hD : D c with
    | false => rfl
    | true => rw [hd c hD] at hE; cases hE
  have hbuilt : ∀ b, s.BuiltBy (fun c => D c || E c) b ↔ s.BuiltBy D b ∨ v.BuiltBy E b := by
    intro b
    by_cases hD : s.BuiltBy D b
    · obtain ⟨ht, c, hc, hrest⟩ := hD
      exact ⟨fun _ => .inl ⟨ht, c, hc, hrest⟩, fun _ => ⟨ht, c, by simp [hc], hrest⟩⟩
    · unfold State.BuiltBy
      rw [h.stands b hD]
      constructor
      · rintro ⟨ht, c, hc, hb, he⟩
        have hE : E c = true := (Bool.or_eq_true_iff.1 hc).resolve_left fun hDc => hD ⟨ht, c, hDc, hb, he⟩
        exact .inr ⟨ht, c, hE, by rw [hkept c hE]; exact hb, he⟩
      · rintro (h1 | ⟨ht, c, hE, hb, he⟩)
        · exact absurd h1 hD
        · exact ⟨ht, c, by simp [hE], by rw [← hkept c hE]; exact hb, he⟩
  have hslot : ∀ k, w.slot k = { s.slot k with pend := (w.slot k).pend } := fun k => by rw [g.slot k, h.slot k]
  refine ⟨?_, fun c hc => ?_, fun c hc => ?_, fun b hb => ?_, fun b hb => ?_, hslot, fun k i => ?_, fun a => ?_, fun k => ?_⟩
  · rw [g.rest, h.rest, List.append_assoc]
  · rcases Bool.or_eq_true_iff.1 hc with hD | hE
    · rw [g.kept c (hd c hD), h.ended c hD]
    · rw [g.ended c hE, hkept c hE]
  · obtain ⟨hD, hE⟩ := Bool.or_eq_false_iff.1 hc
    rw [g.kept c hE, h.kept c hD]
  · by_cases hD : s.BuiltBy D b
    · have hE : ¬ v.BuiltBy E b := fun hE => by
        have ht := hE.1
        rw [h.released b hD] at ht
        cases ht
      rw [g.stands b hE, h.released b hD]
    · rw [g.released b (((hbuilt b).1 hb).resolve_left hD), h.stands b hD]
  · obtain ⟨hD, hE⟩ := not_or.1 (mt (hbuilt b).2 hb)
    rw [g.stands b hE, h.stands b hD]
  · rw [g.pend k i, h.pend k i, Option.map_map]
    exact congrArg (Option.map · _) (funext orphanAll_orphanAll)
  · rw [g.staging a, h.staging a]
    by_cases hD : ∃ c, D c = true ∧ ∃ f ∈ (s.ctx c).flights, f.staging = a
    · have hDE : ∃ c, (D c || E c) = true ∧ ∃ f ∈ (s.ctx c).flights, f.staging = a := by
        obtain ⟨c, hc, hf⟩ := hD
        exact ⟨c, by simp [hc], hf⟩
      rw [if_pos hD, ite_self, if_pos hDE]
    · rw [if_neg hD]
      congr 1
      refine propext (exists_congr fun c => ⟨fun ⟨hE, hf⟩ => ⟨by simp [hE], by rwa [hkept c hE] at hf⟩, fun ⟨hc, hf⟩ => ?_⟩)
      have hE : E c = true := (Bool.or_eq_true_iff.1 hc).resolve_left fun hDc => hD ⟨c, hDc, hf⟩
      exact ⟨hE, by rwa [hkept c hE]⟩
  · rw [g.spares k, h.spares k, List.map_map]
    exact congrArg (List.map · _) (funext disownAll_disownAll)

/-- The record and the reply of a context that ends. -/
theorem softResetCtx_eq {c : CtxId} (h : (s.ctx c).state ≠ .idle) : State.softResetCtx s c =
    { (s.release c).setCtx c (s.ctx c).aborted with upstream := (s.release c).upstream ++ (s.abortReply c).toList } := by
  obtain ⟨-, hctx, -⟩ := released_release c s
  have hrecord : ((s.release c).modCtx c Ctx.softReset).ctx c = { (s.ctx c).aborted with deferred := (s.ctx c).deferred } := by
    rw [modCtx_eq, ctx_setCtx_same, hctx]
    rfl
  have hends : s.ends c = true := by simpa [State.ends] using h
  rw [State.softResetCtx, if_neg h, sendDeferred_eq, State.deferredSent, hrecord, State.abortReply, if_pos hends]
  cases hdef : (s.ctx c).deferred with
  | none =>
    have haborted : Ctx.softReset ((s.release c).ctx c) = (s.ctx c).aborted := by
      rw [hctx, Ctx.softReset, Ctx.aborted, hdef]
    rw [modCtx_eq, haborted, Option.map_none, Option.toList_none, List.append_nil]
    rfl
  | some tag =>
    rw [modCtx_eq, setCtx_twice]
    rfl

theorem orphanAll_one (c : CtxId) (e : PendEntry) : e.orphanAll (fun d => d == c) = e.orphan c := by
  unfold PendEntry.orphanAll PendEntry.orphan
  congr 1
  simp

theorem disownAll_one (c : CtxId) (x : SpareRec) : x.disownAll (fun d => d == c) = x.disown c := by
  cases x with
  | retired r v i => rfl
  | remap r e v i o n => cases o <;> simp [SpareRec.disownAll, SpareRec.disown]

/-- One context's turn: nothing if it is IDLE, else its end. -/
theorem softResets_one (s : State) (c : CtxId) :
    SoftResets s (fun d => d == c && s.ends d) (s.abortReply c).toList (State.softResetCtx s c) := by
  by_cases hidle : (s.ctx c).state = .idle
  · have hends : s.ends c = false := by simp [State.ends, hidle]
    have hnone : (fun d => d == c && s.ends d) = fun _ => false := funext fun d => by
      by_cases hd : d = c
      · simp [hd, hends]
      · simp [hd]
    rw [hnone, State.abortReply, hends, State.softResetCtx, if_pos hidle]
    exact .refl s
  · have hends : s.ends c = true := by simp [State.ends, hidle]
    have hone : (fun d => d == c && s.ends d) = fun d => d == c := funext fun d => by
      by_cases hd : d = c
      · simp [hd, hends]
      · simp [hd]
    obtain ⟨hrest, -, hothers, hentry, hslot, hpend, hstaging, hspares⟩ := released_release c s
    rw [hone, softResetCtx_eq hidle]
    generalize s.release c = r at hrest hothers hentry hslot hpend hstaging hspares
    have hbuilt : ∀ b, s.BuiltBy (fun d => d == c) b ↔
        (b = (s.ctx c).board ∧ (s.entry b).twinState = .building ∧ (s.entry b).bound = some c) := fun b =>
      ⟨fun ⟨ht, d, hd, hb, he⟩ => by obtain rfl := beq_iff_eq.1 hd; exact ⟨hb.symm, ht, he⟩,
        fun ⟨hb, ht, he⟩ => ⟨ht, c, beq_self_eq_true c, hb.symm, he⟩⟩
    refine ⟨?_, fun d hd => ?_, fun d hd => ?_, fun b hb => ?_, fun b hb => ?_, hslot, fun k i => ?_, fun g => ?_, fun k => ?_⟩
    · rw [hrest]
      rfl
    · obtain rfl := beq_iff_eq.1 hd
      exact ctx_setCtx_same r d _
    · have hd : d ≠ c := by simpa using hd
      refine (ctx_setCtx r c d _).trans ?_
      rw [if_neg (Ne.symm hd)]
      exact hothers d hd
    · exact (hentry b).trans (if_pos ((hbuilt b).1 hb))
    · exact (hentry b).trans (if_neg (mt (hbuilt b).2 hb))
    · rw [show PendEntry.orphanAll (fun d => d == c) = PendEntry.orphan c from funext (orphanAll_one c)]
      refine (hpend k i).trans ?_
      cases (s.slot k).pend[i] <;> rfl
    · refine (hstaging g).trans ?_
      congr 1
      simp
    · rw [show SpareRec.disownAll (fun d => d == c) = SpareRec.disown c from funext (disownAll_one c)]
      exact hspares k

/-- R163: the contexts' turns, in order. -/
theorem softResets_foldl : ∀ (cs : List CtxId) (s : State), cs.Nodup →
    SoftResets s (fun c => decide (c ∈ cs) && s.ends c) (cs.filterMap s.abortReply) (cs.foldl State.softResetCtx s)
  | [], s, _ => by simpa using SoftResets.refl s
  | c :: cs, s, hn => by
    obtain ⟨hc, hn⟩ := List.nodup_cons.1 hn
    have hone := softResets_one s c
    have hrest := softResets_foldl cs (State.softResetCtx s c) hn
    have hkept : ∀ d ∈ cs, (State.softResetCtx s c).ctx d = s.ctx d := fun d hd => hone.kept d <| by
      have hne : d ≠ c := fun h => hc (h ▸ hd)
      simp [hne]
    have hends : ∀ d ∈ cs, (State.softResetCtx s c).ends d = s.ends d := fun d hd => by simp only [State.ends, hkept d hd]
    have hreply : cs.filterMap (State.softResetCtx s c).abortReply = cs.filterMap s.abortReply :=
      List.filterMap_congr fun d hd => by simp only [State.abortReply, hends d hd, hkept d hd]
    have hset : (fun d => decide (d ∈ c :: cs) && s.ends d) =
        fun d => (d == c && s.ends d) || (decide (d ∈ cs) && (State.softResetCtx s c).ends d) := funext fun d => by
      by_cases hd : d ∈ cs
      · simp [hd, hends d hd]
      · by_cases hdc : d = c <;> simp [hd, hdc, hc]
    have hreplies : (c :: cs).filterMap s.abortReply = (s.abortReply c).toList ++ cs.filterMap s.abortReply := by
      cases h : s.abortReply c <;> simp [h]
    rw [hset, hreplies, ← hreply]
    refine hone.trans hrest fun d hd => ?_
    have hdc : d = c := by simpa using (Bool.and_eq_true_iff.1 hd).1
    simp [hdc, hc]

end

/-- R21, R132, R162, R163: after the contexts' turns every context that was not IDLE has ended. -/
theorem softResets_all (s : State) :
    SoftResets s s.ends (allCtxs.filterMap s.abortReply) (allCtxs.foldl State.softResetCtx s) := by
  have h := softResets_foldl allCtxs s (by decide)
  rwa [show (fun c => decide (c ∈ allCtxs) && s.ends c) = s.ends from funext fun c => by simp [mem_allCtxs c]] at h

/-- R47: where the contexts and the steering table agree, a BUILDING entry is bound to a context that is not IDLE. -/
theorem builtBy_ends_iff {s : State} (hw : s.Wired) (b : BoardId) :
    s.BuiltBy s.ends b ↔ (s.entry b).twinState = .building := by
  obtain ⟨⟨hlegal, -⟩, hbound⟩ := hw
  refine ⟨fun h => h.1, fun ht => ⟨ht, ?_⟩⟩
  obtain ⟨-, -, hsome, -⟩ := hlegal b
  obtain ⟨c, hc⟩ := Option.isSome_iff_exists.1 (hsome.2 ht)
  obtain ⟨hlive, hboard⟩ := (hbound b c).1 hc
  refine ⟨c, ?_, hboard, hc⟩
  have hidle : (s.ctx c).state ≠ .idle := fun h => by simp [h, CtxState.isLive] at hlive
  simpa [State.ends] using hidle

/-- R21: the entries that a soft reset frees are those of the BRIDGE-GENERATED FETCHes and FENCEs of the queue. -/
theorem mem_queuedEntries {q : List QTxn} {i : PendIdx} : i ∈ queuedEntries q ↔
    ∃ x ∈ q, (x.txn.kind = .fetch ∨ x.txn.kind = .fence) ∧ x.txn.tag.toNat = i.val := by
  unfold queuedEntries
  rw [List.mem_filterMap]
  refine exists_congr fun x => and_congr_right fun _ => ?_
  cases x.txn.kind <;> simp [toIndex_some]

/-- R21: whether a soft reset frees a pending entry. -/
def SlotPort.Removed (p : SlotPort) (i : PendIdx) : Prop :=
  ∃ x ∈ p.queue, x.mark = .bridgeGenerated ∧ (x.txn.kind = .fetch ∨ x.txn.kind = .fence) ∧ x.txn.tag.toNat = i.val

theorem removed_iff {p : SlotPort} {i : PendIdx} :
    i ∈ queuedEntries (p.queue.filter fun x => x.mark == .bridgeGenerated) ↔ p.Removed i := by
  rw [mem_queuedEntries]
  simp only [List.mem_filter, beq_iff_eq, and_assoc, SlotPort.Removed]

theorem SlotPort.softReset_removed {p : SlotPort} {i : PendIdx} (h : p.Removed i) :
    p.softReset.pend[i] = none ∧ i ∉ p.softReset.sentOrder := by
  obtain ⟨-, hpend, horder⟩ := freeEntries_spec (queuedEntries (p.queue.filter fun x => x.mark == .bridgeGenerated)) p
  exact ⟨(hpend i).trans (if_pos (removed_iff.2 h)), fun hi => ((horder i).1 hi).2 (removed_iff.2 h)⟩

theorem SlotPort.softReset_stays {p : SlotPort} {i : PendIdx} (h : ¬ p.Removed i) :
    (i ∈ p.softReset.sentOrder ↔ i ∈ p.sentOrder) ∧ p.softReset.pend[i] = p.pend[i] := by
  obtain ⟨-, hpend, horder⟩ := freeEntries_spec (queuedEntries (p.queue.filter fun x => x.mark == .bridgeGenerated)) p
  exact ⟨(horder i).trans (and_iff_left (mt removed_iff.1 h)), (hpend i).trans (if_neg (mt removed_iff.1 h))⟩

theorem slot_softReset (s : State) (k : SlotId) :
    s.softReset.slot k = ((allCtxs.foldl State.softResetCtx s).slot k).softReset := by
  unfold State.softReset
  generalize allCtxs.foldl State.softResetCtx s = v
  show (Vector.map SlotPort.softReset v.slots)[k] = _
  simp [State.slot]

theorem notice_softReset (s : State) (k : NoticeKind) :
    s.softReset.notice k = ((allCtxs.foldl State.softResetCtx s).notice k).endEpisode := by
  unfold State.softReset
  generalize allCtxs.foldl State.softResetCtx s = v
  show (Vector.map NoticeRec.endEpisode v.notices)[k.index] = _
  simp [State.notice]

/-- What the slots' and the episodes' share of a soft reset leaves alone. -/
theorem softReset_eq (s : State) : s.softReset = { allCtxs.foldl State.softResetCtx s with
    startRecord := (allCtxs.foldl State.softResetCtx s).startRecord.addSoftReset, gaps := []
    slots := s.softReset.slots, notices := s.softReset.notices } := by
  unfold State.softReset
  generalize allCtxs.foldl State.softResetCtx s = v
  rfl

theorem ctx_softReset (s : State) (c : CtxId) : s.softReset.ctx c = (allCtxs.foldl State.softResetCtx s).ctx c := by
  unfold State.softReset
  generalize allCtxs.foldl State.softResetCtx s = v
  rfl

theorem entry_softReset (s : State) (b : BoardId) : s.softReset.entry b = (allCtxs.foldl State.softResetCtx s).entry b := by
  unfold State.softReset
  generalize allCtxs.foldl State.softResetCtx s = v
  rfl

theorem spareMap_softReset (s : State) (k : SlotId) :
    s.softReset.spareMap k = (allCtxs.foldl State.softResetCtx s).spareMap k := by
  unfold State.softReset
  generalize allCtxs.foldl State.softResetCtx s = v
  rfl

theorem staging_softReset (s : State) : s.softReset.staging = (allCtxs.foldl State.softResetCtx s).staging := by
  unfold State.softReset
  generalize allCtxs.foldl State.softResetCtx s = v
  rfl

theorem serves_softReset : Serves .softReset .softReset reqSoftReset := fun _ => rfl

theorem reqSoftReset_bad {ps : List Nat} (h : ps ≠ []) (s : State) : reqSoftReset ps s = (s, .badArgument) := by
  cases ps with
  | nil => exact absurd rfl h
  | cons p ps => rfl

/-- Settles O37: the contexts end in order (`softResets_all`), then the gap list, the slots' own transactions and the episodes. -/
theorem softResetClearsTheMigrationState : Obligations.SoftResetClearsTheMigrationState := by
  unfold Obligations.SoftResetClearsTheMigrationState
  refine fun t rest s h => ⟨fun hp => serves_softReset.refuses h (reqSoftReset_bad hp _), fun hp hw => ?_⟩
  have hv := softResets_all (s.taken rest)
  have hrest := softReset_eq (s.taken rest)
  have hslot := slot_softReset (s.taken rest)
  have hctx := ctx_softReset (s.taken rest)
  have hentry := entry_softReset (s.taken rest)
  have hstaging := staging_softReset (s.taken rest)
  have hspares := spareMap_softReset (s.taken rest)
  have hnotice := notice_softReset (s.taken rest)
  have hexec : exec .softReset s = .next ((s.taken rest).softReset.replied t .done) :=
    serves_softReset.done h (by rw [hp]; rfl)
  refine ⟨(s.taken rest).softReset, hexec, ?_⟩
  generalize allCtxs.foldl State.softResetCtx (s.taken rest) = v at *
  generalize (s.taken rest).softReset = u at *
  have hremoved : ∀ k i, (v.slot k).Removed i ↔ (s.slot k).Removed i := fun k i => by
    rw [hv.slot k]
    rfl
  refine ⟨?_, fun c => ?_, fun b => ?_, fun k => ?_, fun k i hr => ?_, fun k i hr => ?_, fun g => ?_, fun k => ?_, fun k => ?_⟩
  · rw [hrest, hv.rest]
    rfl
  · rw [hctx]
    cases hc : (s.taken rest).ends c with
    | true => exact (hv.ended c hc).trans (if_pos hc).symm
    | false => exact (hv.kept c hc).trans (if_neg (Bool.eq_false_iff.1 hc)).symm
  · have hbuilt := builtBy_ends_iff (s := s.taken rest) hw b
    rw [hentry]
    by_cases ht : (s.entry b).twinState = .building
    · exact (hv.released b (hbuilt.2 ht)).trans (if_pos ht).symm
    · exact (hv.stands b (mt hbuilt.1 ht)).trans (if_neg ht).symm
  · rw [hslot, softReset_spec, hv.slot k]
    rfl
  · rw [hslot]
    exact SlotPort.softReset_removed ((hremoved k i).2 hr)
  · obtain ⟨horder, hpend⟩ := SlotPort.softReset_stays (mt (hremoved k i).1 hr)
    rw [hslot, hpend, hv.pend k i]
    refine ⟨horder.trans ?_, rfl⟩
    rw [hv.slot k]
    rfl
  · rw [hstaging]
    exact hv.staging g
  · rw [hspares, hv.spares k]
    refine List.map_congr_left fun x _ => ?_
    cases x with
    | retired r v i => rfl
    | remap r e v i o n => cases o <;> rfl
  · rw [hnotice, hv.rest]
    rfl

end Sys2Proof.Machine
end

section

namespace Sys2Proof.Machine

/-! ### Transactions as words, and back (R2 to R5) -/

/-- Table 1-1: the fields of the first header word. -/
theorem header_fields (k : BitVec 8) (b s : BitVec 4) (g : BitVec 8) (m : Bool) :
    let w : Word := k ++ b ++ s ++ g ++ 0#7 ++ BitVec.ofBool m
    w.extractLsb' 24 8 = k ∧ w.extractLsb' 20 4 = b ∧ w.extractLsb' 16 4 = s ∧ w.extractLsb' 8 8 = g ∧
      w.extractLsb' 1 7 = 0 ∧ w.extractLsb' 0 1 = BitVec.ofBool m := by
  refine ⟨?_, ?_, ?_, ?_, ?_, ?_⟩ <;> ext i hi <;> grind

theorem header_more (k : BitVec 8) (b s : BitVec 4) (g : BitVec 8) (m : Bool) :
    (k ++ b ++ s ++ g ++ 0#7 ++ BitVec.ofBool m : Word).getLsbD 0 = m := by
  cases m <;> grind

/-- A word of an unused and a used half, as the second header word and the trailer are. -/
theorem half_fields (c : BitVec 16) :
    let w : Word := 0#16 ++ c
    w.extractLsb' 16 16 = 0 ∧ w.extractLsb' 0 16 = c := by
  refine ⟨?_, ?_⟩ <;> ext i hi <;> grind

theorem Txn.length_frame (t : Txn) : t.frame.length = 4 + t.data.length := by
  simp [Txn.frame, Txn.body]
  omega

theorem Txn.length_body (t : Txn) : t.body.length = 3 + t.data.length := by
  simp [Txn.body]
  omega

/-- The words before the trailer. -/
theorem Txn.take_frame (t : Txn) : t.frame.take (3 + t.data.length) = t.body := by
  rw [← t.length_body, Txn.frame, List.take_left']
  rfl

theorem Txn.trailer_frame (t : Txn) : t.frame.getD (3 + t.data.length) 0 = 0#16 ++ checkOf t.body := by
  rw [← t.length_body, Txn.frame]
  simp

theorem Txn.data_frame (t : Txn) : (t.frame.drop 3).take t.data.length = t.data := by
  simp [Txn.frame, Txn.body]

/-- The words of a frame that Table 1-1 places before its data. -/
theorem Txn.header_frame (t : Txn) :
    t.frame.getD 0 0 = t.kind.code ++ t.board ++ t.status ++ t.tag ++ 0#7 ++ BitVec.ofBool t.more ∧
      t.frame.getD 1 0 = 0#16 ++ BitVec.ofNat 16 t.count ∧ t.frame.getD 2 0 = t.addr := ⟨rfl, rfl, rfl⟩

theorem Txn.checked_frame (t : Txn) : Frame.Checked t.frame := by
  have hlast : t.frame.length - 1 = 3 + t.data.length := by rw [t.length_frame]; omega
  refine ⟨by rw [t.length_frame]; omega, ?_⟩
  rw [hlast, t.trailer_frame, t.take_frame]
  exact (half_fields _).2

/-- R2: the counts that the agent's and the boards' transactions carry fit their field. -/
theorem Txn.count_lt {t : Txn} (h : t.countOk = true) : t.count < 65536 := by
  unfold Txn.countOk at h
  split at h <;> simp at h <;> omega

/-- R4: a transaction's words spell it. -/
theorem Txn.spells_frame {t : Txn} (h : t.countOk = true) : Frame.Spells t.frame t := by
  obtain ⟨h0, h1, h2⟩ := t.header_frame
  obtain ⟨hkind, hboard, hstatus, htag, -, -⟩ := header_fields t.kind.code t.board t.status t.tag t.more
  obtain ⟨-, hcount⟩ := half_fields (BitVec.ofNat 16 t.count)
  have hdata : t.frame.length - 4 = t.data.length := by rw [t.length_frame]; omega
  unfold Frame.Spells
  rw [h0, h1, h2, hkind, hboard, hstatus, htag, hcount, hdata, t.data_frame]
  refine ⟨rfl, rfl, rfl, rfl, (header_more _ _ _ _ _).symm, ?_, rfl, rfl⟩
  rw [BitVec.toNat_ofNat, Nat.mod_eq_of_lt (Txn.count_lt h)]

theorem parse_frame {t : Txn} (h : t.countOk = true) : Txn.parse t.frame = some t :=
  parse_eq_some.2 ⟨t.checked_frame, Txn.spells_frame h⟩

/-- The transaction of a kind that words spell. -/
def Frame.txn (f : Frame) (k : TxnKind) : Txn :=
  { kind := k, board := (f.getD 0 0).extractLsb' 20 4, status := (f.getD 0 0).extractLsb' 16 4
    tag := (f.getD 0 0).extractLsb' 8 8, more := (f.getD 0 0).getLsbD 0, count := ((f.getD 1 0).extractLsb' 0 16).toNat
    addr := f.getD 2 0, data := (f.drop 3).take (f.length - 4) }

theorem Frame.spells_iff {f : Frame} {t : Txn} :
    Frame.Spells f t ↔ t.kind.code = (f.getD 0 0).extractLsb' 24 8 ∧ t = Frame.txn f t.kind := by
  unfold Frame.Spells Frame.txn
  refine and_congr_right fun _ => ?_
  cases t
  simp

/-- Which words are read as a transaction with a property: by the kind that their code names. -/
theorem exists_parse_iff {f : Frame} {P : Txn → Prop} :
    (∃ t, Txn.parse f = some t ∧ P t) ↔
      Frame.Checked f ∧ ∃ k : TxnKind, k.code = (f.getD 0 0).extractLsb' 24 8 ∧ P (Frame.txn f k) := by
  simp only [parse_eq_some, Frame.spells_iff]
  constructor
  · rintro ⟨t, ⟨hc, hk, ht⟩, hP⟩
    exact ⟨hc, t.kind, hk, ht ▸ hP⟩
  · rintro ⟨hc, k, hk, hP⟩
    exact ⟨Frame.txn f k, ⟨hc, hk, rfl⟩, hP⟩

theorem exists_acceptAgent_iff {f : Frame} :
    (∃ t, acceptAgent f = some t) ↔ ∃ t, Txn.parse f = some t ∧ t.agentOk = true := by
  simp only [acceptAgent_eq_some]
  exact ⟨fun ⟨_, u, hu, hok, _⟩ => ⟨u, hu, hok⟩, fun ⟨u, hu, hok⟩ => ⟨_, u, hu, hok, rfl⟩⟩

theorem exists_acceptBoard_iff {f : Frame} :
    (∃ t, acceptBoard f = some t) ↔ ∃ t, Txn.parse f = some t ∧ t.boardOk = true := by
  simp only [acceptBoard_eq_some]
  exact ⟨fun ⟨_, u, hu, hok, _⟩ => ⟨u, hu, hok⟩, fun ⟨u, hu, hok⟩ => ⟨_, u, hu, hok, rfl⟩⟩

/-- R2, R3, R5: what the agent may send, by the kind's code. -/
theorem agentOk_iff (t : Txn) : t.agentOk = true ↔
    (t.kind.code = 1 ∧ 1 ≤ t.count ∧ t.count ≤ 16 ∧ t.data.length = t.count ∧ t.board ≠ 15) ∨
    (t.kind.code = 2 ∧ 1 ≤ t.count ∧ t.count ≤ 4096 ∧ t.data.length = 1 ∧ t.board ≠ 15) ∨
    (t.kind.code = 3 ∧ 1 ≤ t.count ∧ t.count ≤ 16 ∧ t.data.length = 0 ∧ t.board ≠ 15) ∨
    (t.kind.code = 4 ∧ t.count = 0 ∧ t.data.length = 0 ∧ t.board ≠ 15) ∨
    (t.kind.code = 16 ∧ t.count ≤ 16 ∧ t.data.length = t.count ∧ t.board = 15) := by
  cases hk : t.kind <;> simp [Txn.agentOk, Txn.countOk, hk, TxnKind.code, and_assoc]

theorem status_le_refused (st : BitVec 4) : st ≤ retRefused ↔ (st = 0 ∨ st = 1) ∨ st = 2 ∨ st = 3 := by
  revert st
  decide

/-- R3: start cause code 3 names none. -/
theorem startCause_isSome (t : Txn) : t.startCause.isSome = true ↔ (t.data.headD 0).extractLsb' 0 2 ≠ 3 := by
  unfold Txn.startCause
  generalize (t.data.headD 0).extractLsb' 0 2 = x
  revert x
  decide

/-- R2, R3: the form of a RETURN. -/
theorem return_form (st : BitVec 4) (n c : Nat) :
    (n = (if st = retOk ∨ st = retCorrected then c else 0) ∧ st ≤ retRefused) ↔
      ((st = 0 ∨ st = 1) ∧ n = c) ∨ ((st = 2 ∨ st = 3) ∧ n = 0) := by
  rw [status_le_refused]
  by_cases h : st = 0 ∨ st = 1
  · have hn : ¬ (st = 2 ∨ st = 3) := by rcases h with rfl | rfl <;> decide
    rw [if_pos (show st = retOk ∨ st = retCorrected from h)]
    tauto
  · rw [if_neg (show ¬ (st = retOk ∨ st = retCorrected) from h)]
    tauto

/-- R2, R3, R5: what a board may send, by the kind's code. -/
theorem boardOk_iff (t : Txn) : t.boardOk = true ↔
    (t.kind.code = 9 ∧ 1 ≤ t.count ∧ t.count ≤ 16 ∧ (((t.status = 0 ∨ t.status = 1) ∧ t.data.length = t.count) ∨
      ((t.status = 2 ∨ t.status = 3) ∧ t.data.length = 0))) ∨
    (t.kind.code = 10 ∧ t.count = 0 ∧ t.data.length = 0 ∧ t.status = 0) ∨
    (t.kind.code = 11 ∧ 1 ≤ t.count ∧ t.count ≤ 64 ∧ t.data.length = 0) ∨
    (t.kind.code = 12 ∧ t.count = 1 ∧ t.data.length = 1 ∧ (t.data.headD 0).extractLsb' 0 2 ≠ 3) ∨
    (t.kind.code = 13 ∧ t.count = 1 ∧ t.data.length = 1) := by
  rw [← startCause_isSome, ← return_form]
  cases hk : t.kind <;> simp [Txn.boardOk, Txn.countOk, hk, TxnKind.code, and_assoc, fenceOk]

theorem Frame.length_data {f : Frame} (h : Frame.Checked f) : ((f.drop 3).take (f.length - 4)).length = f.length - 4 := by
  obtain ⟨hlen, -⟩ := h
  rw [List.length_take, List.length_drop]
  omega

/-- The first data word, where there is one. -/
theorem Frame.head_data {f : Frame} {n : Nat} (h : 0 < n) : ((f.drop 3).take n).headD 0 = f.getD 3 0 := by
  rw [List.headD_eq_head?_getD, List.head?_take, if_neg (by omega), List.head?_drop]
  rfl

/-- R2, R3, R5: the words accepted on the agent link. -/
theorem acceptAgent_words (f : Frame) : (∃ t, acceptAgent f = some t) ↔ Frame.Checked f ∧
    (let kind := (f.getD 0 0).extractLsb' 24 8
     let board := (f.getD 0 0).extractLsb' 20 4
     let count := ((f.getD 1 0).extractLsb' 0 16).toNat
     let words := f.length - 4
     (kind = 1 ∧ 1 ≤ count ∧ count ≤ 16 ∧ words = count ∧ board ≠ 15) ∨
     (kind = 2 ∧ 1 ≤ count ∧ count ≤ 4096 ∧ words = 1 ∧ board ≠ 15) ∨
     (kind = 3 ∧ 1 ≤ count ∧ count ≤ 16 ∧ words = 0 ∧ board ≠ 15) ∨
     (kind = 4 ∧ count = 0 ∧ words = 0 ∧ board ≠ 15) ∨
     (kind = 16 ∧ count ≤ 16 ∧ words = count ∧ board = 15)) := by
  rw [exists_acceptAgent_iff, exists_parse_iff]
  refine and_congr_right fun hc => ?_
  have hok : ∀ k, (Frame.txn f k).agentOk = true ↔ _ := fun k => agentOk_iff (Frame.txn f k)
  simp only [Frame.txn, Frame.length_data hc] at hok
  constructor
  · rintro ⟨k, hk, h⟩
    have := (hok k).1 h
    rwa [hk] at this
  · intro h
    have hkind : ∃ k : TxnKind, k.code = (f.getD 0 0).extractLsb' 24 8 := by
      rcases h with ⟨h, -⟩ | ⟨h, -⟩ | ⟨h, -⟩ | ⟨h, -⟩ | ⟨h, -⟩
      exacts [⟨.store, h.symm⟩, ⟨.fill, h.symm⟩, ⟨.fetch, h.symm⟩, ⟨.fence, h.symm⟩, ⟨.mgmt, h.symm⟩]
    obtain ⟨k, hk⟩ := hkind
    exact ⟨k, hk, (hok k).2 (by rwa [hk])⟩

/-- R2, R3, R5: the words accepted on a slot link. -/
theorem acceptBoard_words (f : Frame) : (∃ t, acceptBoard f = some t) ↔ Frame.Checked f ∧
    (let kind := (f.getD 0 0).extractLsb' 24 8
     let status := (f.getD 0 0).extractLsb' 16 4
     let count := ((f.getD 1 0).extractLsb' 0 16).toNat
     let words := f.length - 4
     (kind = 9 ∧ 1 ≤ count ∧ count ≤ 16 ∧ (((status = 0 ∨ status = 1) ∧ words = count) ∨
        ((status = 2 ∨ status = 3) ∧ words = 0))) ∨
     (kind = 10 ∧ count = 0 ∧ words = 0 ∧ status = 0) ∨
     (kind = 11 ∧ 1 ≤ count ∧ count ≤ 64 ∧ words = 0) ∨
     (kind = 12 ∧ count = 1 ∧ words = 1 ∧ (f.getD 3 0).extractLsb' 0 2 ≠ 3) ∨
     (kind = 13 ∧ count = 1 ∧ words = 1)) := by
  rw [exists_acceptBoard_iff, exists_parse_iff]
  refine and_congr_right fun hc => ?_
  have hok : ∀ k, (Frame.txn f k).boardOk = true ↔ _ := fun k => boardOk_iff (Frame.txn f k)
  simp only [Frame.txn, Frame.length_data hc] at hok
  have hhello : ∀ c : BitVec 8, ∀ count : Nat,
      (c = 12 ∧ count = 1 ∧ f.length - 4 = 1 ∧ (((f.drop 3).take (f.length - 4)).headD 0).extractLsb' 0 2 ≠ 3) ↔
        (c = 12 ∧ count = 1 ∧ f.length - 4 = 1 ∧ (f.getD 3 0).extractLsb' 0 2 ≠ 3) := fun c count =>
    and_congr_right fun _ => and_congr_right fun _ => and_congr_right fun hw => by rw [Frame.head_data (by omega)]
  simp only [hhello] at hok
  constructor
  · rintro ⟨k, hk, h⟩
    have := (hok k).1 h
    rwa [hk] at this
  · intro h
    have hkind : ∃ k : TxnKind, k.code = (f.getD 0 0).extractLsb' 24 8 := by
      rcases h with ⟨h, -⟩ | ⟨h, -⟩ | ⟨h, -⟩ | ⟨h, -⟩ | ⟨h, -⟩
      exacts [⟨.ret, h.symm⟩, ⟨.fenceDone, h.symm⟩, ⟨.grant, h.symm⟩, ⟨.hello, h.symm⟩, ⟨.halt, h.symm⟩]
    obtain ⟨k, hk⟩ := hkind
    exact ⟨k, hk, (hok k).2 (by rwa [hk])⟩

/-- The fields of an accepted transaction that both links take from the words as Table 1-1 places them. -/
theorem Frame.Spells.shared {f : Frame} {u : Txn} (h : Frame.Spells f u) :
    u.kind.code = (f.getD 0 0).extractLsb' 24 8 ∧ u.tag = (f.getD 0 0).extractLsb' 8 8 ∧
      u.count = ((f.getD 1 0).extractLsb' 0 16).toNat ∧ u.addr = f.getD 2 0 ∧ u.data = (f.drop 3).take (f.length - 4) := by
  obtain ⟨hkind, -, -, htag, -, hcount, haddr, hdata⟩ := h
  exact ⟨hkind, htag, hcount, haddr, hdata⟩

/-- Settles O7: a transaction's words spell it and check; which words are accepted, by the code of their kind; and the fields
that are then read. -/
theorem transactionsRoundTrip : Obligations.TransactionsRoundTrip := by
  unfold Obligations.TransactionsRoundTrip
  refine ⟨fun t h => ⟨parse_frame h, fun ha => ?_, fun hb => ?_⟩, fun f => ⟨?_, ?_, fun t => ⟨fun ha => ?_, fun hb => ?_, fun h => ?_⟩⟩⟩
  · exact acceptAgent_eq_some.2 ⟨t, parse_frame h, ha, rfl⟩
  · exact acceptBoard_eq_some.2 ⟨t, parse_frame h, hb, rfl⟩
  · exact acceptAgent_words f
  · exact acceptBoard_words f
  · obtain ⟨u, hu, -, rfl⟩ := acceptAgent_eq_some.1 ha
    obtain ⟨-, -, hboard, -⟩ := parse_eq_some.1 hu
    exact ⟨hboard, rfl⟩
  · obtain ⟨u, hu, -, rfl⟩ := acceptBoard_eq_some.1 hb
    obtain ⟨-, -, -, hstatus, -⟩ := parse_eq_some.1 hu
    exact ⟨rfl, hstatus⟩
  · have hspelt : ∃ u, Frame.Spells f u ∧ t.kind = u.kind ∧ t.tag = u.tag ∧ t.more = false ∧ t.count = u.count ∧
        t.addr = u.addr ∧ t.data = u.data := by
      rcases h with ha | hb
      · obtain ⟨u, hu, -, rfl⟩ := acceptAgent_eq_some.1 ha
        exact ⟨u, (parse_eq_some.1 hu).2, rfl, rfl, rfl, rfl, rfl, rfl⟩
      · obtain ⟨u, hu, -, rfl⟩ := acceptBoard_eq_some.1 hb
        exact ⟨u, (parse_eq_some.1 hu).2, rfl, rfl, rfl, rfl, rfl, rfl⟩
    obtain ⟨u, hu, ek, et, em, ec, ea, ed⟩ := hspelt
    obtain ⟨hkind, htag, hcount, haddr, hdata⟩ := hu.shared
    exact ⟨by rw [ek, hkind], et.trans htag, em, ec.trans hcount, ea.trans haddr, ed.trans hdata⟩

end Sys2Proof.Machine
end

section

namespace Sys2Proof.Machine

/-! ### The check as a remainder of polynomials (R5) -/

/-- The polynomial of a bit. -/
noncomputable def bitPoly (b : Bool) : Polynomial (ZMod 2) := if b then 1 else 0

/-- The generator of R5. -/
noncomputable def checkPoly : Polynomial (ZMod 2) :=
  Polynomial.X ^ 16 + Polynomial.X ^ 12 + Polynomial.X ^ 5 + 1

theorem poly_add_self (p : Polynomial (ZMod 2)) : p + p = 0 := CharTwo.add_self_eq_zero p

theorem bitsPoly_eq {n : Nat} (b : BitVec n) :
    bitsPoly b = ∑ i ∈ Finset.range n, bitPoly (b.getLsbD i) * Polynomial.X ^ i := by
  refine Finset.sum_congr rfl fun i _ => ?_
  cases b.getLsbD i <;> simp [bitPoly]

theorem bitPoly_xor (a b : Bool) : bitPoly (a ^^ b) = bitPoly a + bitPoly b := by
  cases a <;> cases b <;> simp [bitPoly, poly_add_self]

theorem bitsPoly_xor {n : Nat} (a b : BitVec n) : bitsPoly (a ^^^ b) = bitsPoly a + bitsPoly b := by
  simp only [bitsPoly_eq, BitVec.getLsbD_xor, bitPoly_xor, add_mul, Finset.sum_add_distrib]

/-- The register moves up by one place, and its top bit leaves it. -/
theorem bitsPoly_shift (c : BitVec 16) :
    bitsPoly (c <<< 1) + bitPoly c.msb * Polynomial.X ^ 16 = Polynomial.X * bitsPoly c := by
  have hlow : bitsPoly (c <<< 1) = ∑ i ∈ Finset.range 15, bitPoly (c.getLsbD i) * Polynomial.X ^ (i + 1) := by
    rw [bitsPoly_eq, Finset.sum_range_succ']
    have h0 : bitPoly ((c <<< 1).getLsbD 0) * Polynomial.X ^ 0 = 0 := by simp [bitPoly]
    rw [h0, add_zero]
    refine Finset.sum_congr rfl fun i hi => ?_
    have hi : i + 1 < 16 := Nat.succ_lt_succ (by simpa using hi)
    rw [BitVec.getLsbD_shiftLeft, decide_eq_true hi, decide_eq_false (by omega), Nat.add_sub_cancel]
    rfl
  have hhigh : Polynomial.X * bitsPoly c =
      ∑ i ∈ Finset.range 15, bitPoly (c.getLsbD i) * Polynomial.X ^ (i + 1) +
        bitPoly (c.getLsbD 15) * Polynomial.X ^ 16 := by
    rw [bitsPoly_eq, Finset.mul_sum, ← Finset.sum_range_succ (fun i => bitPoly (c.getLsbD i) * Polynomial.X ^ (i + 1)) 15]
    exact Finset.sum_congr rfl fun i _ => by ring
  rw [hlow, hhigh, BitVec.msb_eq_getLsbD_last]

theorem bitsPoly_generator : bitsPoly 0x1021#16 = (Polynomial.X ^ 12 + Polynomial.X ^ 5 + 1 : Polynomial (ZMod 2)) := by
  simp [bitsPoly, Finset.sum_range_succ]
  ring

/-- R5: one bit into the register is a multiplication by X and the addition of the bit at X^16, modulo the generator. -/
theorem bitsPoly_checkBit (c : BitVec 16) (b : Bool) :
    Polynomial.X * bitsPoly c + bitPoly b * Polynomial.X ^ 16 =
      bitPoly (c.msb ^^ b) * checkPoly + bitsPoly (checkBit c b) := by
  have hstep : bitsPoly (checkBit c b) =
      bitsPoly (c <<< 1) + bitPoly (c.msb ^^ b) * (Polynomial.X ^ 12 + Polynomial.X ^ 5 + 1) := by
    unfold checkBit
    cases h : c.msb ^^ b with
    | true => rw [if_pos (by simpa using h), bitsPoly_xor, bitsPoly_generator, bitPoly, if_pos rfl, one_mul]
    | false => rw [if_neg (by simpa using h), bitPoly, if_neg (by decide), zero_mul, add_zero]
  have htwo := poly_add_self (bitPoly c.msb * Polynomial.X ^ 16)
  have htwo' := poly_add_self (bitPoly (c.msb ^^ b) * (Polynomial.X ^ 12 + Polynomial.X ^ 5 + 1))
  rw [hstep, ← bitsPoly_shift, bitPoly_xor, checkPoly] at *
  linear_combination -htwo'

/-- Two polynomials agree modulo the generator. -/
def CheckEq (p q : Polynomial (ZMod 2)) : Prop := ∃ r, p = r * checkPoly + q

theorem CheckEq.trans {p q r : Polynomial (ZMod 2)} (h : CheckEq p q) (g : CheckEq q r) : CheckEq p r := by
  obtain ⟨a, ha⟩ := h
  obtain ⟨b, hb⟩ := g
  exact ⟨a + b, by rw [ha, hb]; ring⟩

theorem CheckEq.mul_add {p q : Polynomial (ZMod 2)} (h : CheckEq p q) (a b : Polynomial (ZMod 2)) :
    CheckEq (a * p + b) (a * q + b) := by
  obtain ⟨r, hr⟩ := h
  exact ⟨a * r, by rw [hr]; ring⟩

/-- The first bits of a word, most significant first, as a polynomial. -/
noncomputable def leadPoly (w : Word) (n : Nat) : Polynomial (ZMod 2) :=
  ∑ i ∈ Finset.range n, bitPoly (w.getMsbD i) * Polynomial.X ^ (n - 1 - i)

theorem leadPoly_succ (w : Word) (n : Nat) : leadPoly w (n + 1) = Polynomial.X * leadPoly w n + bitPoly (w.getMsbD n) := by
  have hfirst : ∑ i ∈ Finset.range n, bitPoly (w.getMsbD i) * Polynomial.X ^ (n + 1 - 1 - i) =
      Polynomial.X * leadPoly w n := by
    rw [leadPoly, Finset.mul_sum]
    refine Finset.sum_congr rfl fun i hi => ?_
    have hi : i < n := by simpa using hi
    rw [show n + 1 - 1 - i = n - 1 - i + 1 by omega]
    ring
  rw [leadPoly, Finset.sum_range_succ, hfirst, Nat.add_sub_cancel, Nat.sub_self, pow_zero, mul_one]

theorem leadPoly_word (w : Word) : leadPoly w 32 = bitsPoly w := by
  rw [leadPoly, bitsPoly_eq, ← Finset.sum_range_reflect]
  refine Finset.sum_congr rfl fun i hi => ?_
  have hi : i < 32 := by simpa using hi
  have hback : 32 - 1 - (32 - 1 - i) = i := by omega
  rw [hback, BitVec.getMsbD_eq_getLsbD, hback, decide_eq_true (by omega), Bool.true_and]

theorem checkEq_bits (c : BitVec 16) (w : Word) : ∀ n,
    CheckEq (Polynomial.X ^ n * bitsPoly c + leadPoly w n * Polynomial.X ^ 16)
      (bitsPoly ((List.range n).foldl (fun c i => checkBit c (w.getMsbD i)) c))
  | 0 => ⟨0, by simp [leadPoly]⟩
  | n + 1 => by
    have hbits := (checkEq_bits c w n).mul_add Polynomial.X (bitPoly (w.getMsbD n) * Polynomial.X ^ 16)
    rw [List.range_succ, List.foldl_append, List.foldl_cons, List.foldl_nil, leadPoly_succ]
    generalize (List.range n).foldl (fun c i => checkBit c (w.getMsbD i)) c = d at hbits ⊢
    refine CheckEq.trans ?_ ⟨_, bitsPoly_checkBit d (w.getMsbD n)⟩
    convert hbits using 1
    ring

/-- R5: one word into the register. -/
theorem checkEq_word (c : BitVec 16) (w : Word) :
    CheckEq (Polynomial.X ^ 32 * bitsPoly c + bitsPoly w * Polynomial.X ^ 16) (bitsPoly (checkWord c w)) := by
  rw [← leadPoly_word, checkWord]
  exact checkEq_bits c w 32

/-- The words sent after some that a polynomial stands for. -/
theorem foldl_wordsPoly (ws : List Word) (p : Polynomial (ZMod 2)) :
    ws.foldl (fun p w => p * Polynomial.X ^ 32 + bitsPoly w) p = p * Polynomial.X ^ (32 * ws.length) + wordsPoly ws := by
  unfold wordsPoly
  induction ws generalizing p with
  | nil => simp
  | cons w ws ih =>
    rw [List.foldl_cons, List.foldl_cons, ih, ih (0 * _ + _), List.length_cons, Nat.mul_succ, pow_add]
    ring

/-- R5: the words of a transaction into the register. -/
theorem checkEq_words : ∀ (ws : List Word) (c : BitVec 16),
    CheckEq (Polynomial.X ^ (32 * ws.length) * bitsPoly c + wordsPoly ws * Polynomial.X ^ 16)
      (bitsPoly (ws.foldl checkWord c))
  | [], c => ⟨0, by simp [wordsPoly]⟩
  | w :: ws, c => by
    have hword := (checkEq_word c w).mul_add (Polynomial.X ^ (32 * ws.length)) (wordsPoly ws * Polynomial.X ^ 16)
    refine CheckEq.trans ?_ (checkEq_words ws (checkWord c w))
    have hsplit : wordsPoly (w :: ws) = bitsPoly w * Polynomial.X ^ (32 * ws.length) + wordsPoly ws := by
      rw [wordsPoly, List.foldl_cons, foldl_wordsPoly, zero_mul, zero_add]
    convert hword using 1
    rw [hsplit, List.length_cons, Nat.mul_succ, pow_add]
    ring

/-- Settles O6: the fields by Table 1-1, the check by one bit, one word and all the words, and the codes. -/
theorem frameLayout : Obligations.FrameLayout := by
  unfold Obligations.FrameLayout
  refine ⟨fun t => ?_, fun ws => ?_, rfl, rfl, rfl, rfl, rfl, rfl, rfl, rfl, rfl, rfl, rfl, rfl⟩
  · obtain ⟨h0, h1, h2⟩ := t.header_frame
    obtain ⟨hkind, hboard, hstatus, htag, hunused, hmore⟩ := header_fields t.kind.code t.board t.status t.tag t.more
    obtain ⟨hzero, hcount⟩ := half_fields (BitVec.ofNat 16 t.count)
    obtain ⟨htail, hcheck⟩ := half_fields (checkOf t.body)
    simp only [h0, h1, h2, t.trailer_frame, t.take_frame]
    exact ⟨t.length_frame, hkind, hboard, hstatus, htag, hunused, hmore, hzero, hcount, trivial, t.data_frame, htail, hcheck⟩
  · obtain ⟨q, hq⟩ := checkEq_words ws 0xFFFF#16
    refine ⟨q, ?_⟩
    rw [mul_comm (bitsPoly _), add_comm]
    exact hq

end Sys2Proof.Machine
end

section

namespace Sys2Proof.Machine

/-! ### What a notice leaves alone, and pools -/

@[simp] theorem gapsOf_raise (s : State) (n : NoticeKind) (d : BitVec 8) (c : CtxId) :
    (s.raise n d).gapsOf c = s.gapsOf c := by
  rw [raise_eq]
  rfl

@[simp] theorem windowFits_raise (s : State) (n : NoticeKind) (d : BitVec 8) (c : CtxId) :
    (s.raise n d).windowFits c = s.windowFits c := by
  rw [raise_eq]
  rfl

@[simp] theorem isReady_raise (s : State) (n : NoticeKind) (d : BitVec 8) (k : SlotId) :
    (s.raise n d).isReady k = s.isReady k := by
  rw [raise_eq]
  rfl

theorem gapsOf_eq_nil_iff {s : State} {c : CtxId} : s.gapsOf c = [] ↔ ∀ g ∈ s.gaps, g.ctx ≠ c := by
  simp [State.gapsOf, List.filter_eq_nil_iff]

/-- The lowest free index is the one that a search finds. -/
theorem find_finRange_of_lowest {n : Nat} {free : Fin n → Prop} {f : Fin n → Bool} {i : Fin n}
    (hf : ∀ j, f j = true ↔ free j) (h : Lowest free i) : (List.finRange n).find? f = some i := by
  obtain ⟨hi, hlow⟩ := h
  rw [List.find?_eq_some_iff_getElem]
  refine ⟨(hf i).2 hi, i.val, by simp, by simp, fun j hj => ?_⟩
  simpa [← hf] using hlow ⟨j, by omega⟩ hj

/-- With nothing free a search finds nothing. -/
theorem find_finRange_of_none {n : Nat} {free : Fin n → Prop} {f : Fin n → Bool} (hf : ∀ j, f j = true ↔ free j)
    (h : ∀ j, ¬ free j) : (List.finRange n).find? f = none :=
  List.find?_eq_none.2 fun j _ => mt (hf j).1 (h j)

theorem segment_free_iff {s : State} (m : SegmentId) :
    (!(s.usedSegments.contains m)) = true ↔ ∀ d, ∀ g ∈ (s.ctx d).segs, g.num ≠ m := by
  simp only [State.usedSegments, Bool.not_eq_true', ← Bool.not_eq_true, List.contains_iff_mem, List.mem_flatMap, List.mem_map,
    not_exists, not_and]
  exact ⟨fun h d g hg hm => h d (mem_allCtxs d) g hg hm, fun h d _ g hg hm => h d g hg hm⟩

theorem freeSegment_of_lowest {s : State} {m : SegmentId}
    (h : Lowest (fun m : SegmentId => ∀ d, ∀ g ∈ (s.ctx d).segs, g.num ≠ m) m) : s.freeSegment? = some m :=
  find_finRange_of_lowest segment_free_iff h

theorem freeSegment_of_full {s : State} (h : ∀ m : SegmentId, ∃ d, ∃ g ∈ (s.ctx d).segs, g.num = m) :
    s.freeSegment? = none :=
  find_finRange_of_none segment_free_iff fun m hm => by
    obtain ⟨d, g, hg, hgm⟩ := h m
    exact hm d g hg hgm

theorem serves_ctxOpen : Serves .ctxOpen .ctxOpen reqCtxOpen := fun _ => rfl
theorem serves_segAppend : Serves .segAppend .segAppend reqSegAppend := fun _ => rfl
theorem serves_ctxStart : Serves .ctxStart .ctxStart reqCtxStart := fun _ => rfl
theorem serves_ctxPause : Serves .ctxPause .ctxPause reqCtxPause := fun _ => rfl
theorem serves_ctxResume : Serves .ctxResume .ctxResume reqCtxResume := fun _ => rfl
theorem serves_stopPoint : Serves .stopPoint .stopPoint reqStopPoint := fun _ => rfl
theorem serves_ctxAbort : Serves .ctxAbort .ctxAbort reqCtxAbort := fun _ => rfl
theorem serves_ctxClose : Serves .ctxClose .ctxClose reqCtxClose := fun _ => rfl
theorem serves_gapWaive : Serves .gapWaive .gapWaive reqGapWaive := fun _ => rfl
theorem serves_spareDrop : Serves .spareDrop .spareDrop reqSpareDrop := fun _ => rfl

end Sys2Proof.Machine
end

section

namespace Sys2Proof.Machine

/-! ### CTX-OPEN and SEG-APPEND (R81 to R83) -/

theorem reqCtxOpen_of {ps : List Nat} {q : OpenParams} (h : parseOpen ps = some q) (s : State) :
    reqCtxOpen ps s = s.openCtx q := by
  simp only [reqCtxOpen, h]

theorem reqCtxOpen_bad {ps : List Nat} (h : parseOpen ps = none) (s : State) : reqCtxOpen ps s = (s, .badArgument) := by
  simp only [reqCtxOpen, h]

theorem openCtx_busy {s : State} {q : OpenParams} (h : (s.ctx q.ctx).state ≠ .idle) : s.openCtx q = (s, .refusedState) :=
  if_pos h

theorem openCtx_unset {s : State} {q : OpenParams} (hi : (s.ctx q.ctx).state = .idle)
    (h : (s.entry q.board).primary = none) : s.openCtx q = (s, .noSuch) := by
  simp only [State.openCtx, hi, h, ne_eq, not_true_eq_false, if_false]

theorem openCtx_not_stale {s : State} {q : OpenParams} (hi : (s.ctx q.ctx).state = .idle)
    (hn : (s.entry q.board).primary ≠ none) (h : (s.entry q.board).twinState ≠ .stale) :
    s.openCtx q = (s, .refusedState) := by
  obtain ⟨p, hp⟩ := Option.ne_none_iff_exists'.1 hn
  cases ht : (s.entry q.board).twin <;>
    simp only [State.openCtx, hi, hp, ht, h, ne_eq, not_true_eq_false, if_false]

theorem openCtx_stale {s : State} {q : OpenParams} {src dst : SlotId} (hi : (s.ctx q.ctx).state = .idle)
    (hp : (s.entry q.board).primary = some src) (ht : (s.entry q.board).twin = some dst)
    (hs : (s.entry q.board).twinState = .stale) :
    s.openCtx q = ((s.setCtx q.ctx ((s.ctx q.ctx).opened q src dst (s.entry q.board).view)).bind q.board q.ctx, .done) := by
  simp only [State.openCtx, hi, hp, ht, hs, ne_eq, not_true_eq_false, if_false, if_true, modCtx_eq]

/-- R81: the words of a CTX-OPEN. -/
theorem parseOpen_of {ps : List Nat} {c : CtxId} {b : BoardId} {p : Fin 4} {i w l : Nat} {a : Bool} (hi : i ≤ 65535)
    (h1 : 1 ≤ w) (h4 : w ≤ 4) (hl : l ≤ 7)
    (hp : ps = [c.val, b.val, p.val, i, w, a.toNat, l] ∨ (l = 2 ∧ ps = [c.val, b.val, p.val, i, w, a.toNat])) :
    parseOpen ps = some ⟨c, b, p, if i = 0 then none else some i, w, a, l⟩ :=
  parseOpen_some.2 ⟨i, hi, rfl, h1, h4, hl, hp⟩

theorem segFits_iff {s : State} {q : SegParams} : s.segFits q = true ↔
    ∃ r, s.region q.region = some r ∧ r.set = (s.entry (s.ctx q.ctx).board).layoutSet ∧ (r.mode = .copy ∨ r.mode = .zero) ∧
      q.first + q.count ≤ r.entries := by
  unfold State.segFits State.ctxSet
  cases s.region q.region with
  | none => simp
  | some r => simp [and_assoc]

/-- R83: two ranges of entries that are not empty share an entry when each begins below the other's end. -/
theorem ranges_disjoint_iff {f n g m : Nat} (hn : 1 ≤ n) (hm : 1 ≤ m) :
    ¬ (g < f + n ∧ f < g + m) ↔ ∀ e, f ≤ e → e < f + n → ¬ (g ≤ e ∧ e < g + m) := by
  refine ⟨fun h e h1 h2 h3 => h ⟨by omega, by omega⟩, fun h h1 => ?_⟩
  exact h (max f g) (by omega) (by omega) ⟨by omega, by omega⟩

theorem segClash_iff {x : Ctx} {q : SegParams} (hn : 1 ≤ q.count) (hx : ∀ g ∈ x.segs, 1 ≤ g.count) :
    x.segClash q = false ↔ ∀ g ∈ x.segs, g.region = q.region → ∀ e, q.first ≤ e → e < q.first + q.count →
      ¬ (g.first ≤ e ∧ e < g.first + g.count) := by
  rw [Ctx.segClash, List.any_eq_false]
  refine forall₂_congr fun g hg => ?_
  rw [← ranges_disjoint_iff hn (hx g hg)]
  simp only [Bool.and_eq_true, beq_iff_eq, decide_eq_true_eq]
  tauto

theorem reqSegAppend_of {ps : List Nat} {q : SegParams} (h : parseSeg ps = some q) (s : State) :
    reqSegAppend ps s = s.appendSeg q := by
  simp only [reqSegAppend, h]

theorem reqSegAppend_bad {ps : List Nat} (h : parseSeg ps = none) (s : State) : reqSegAppend ps s = (s, .badArgument) := by
  simp only [reqSegAppend, h]

/-- R83: the segment may be appended: the region holds it for the context, and no segment of the list shares an entry. -/
def State.SegFits (s : State) (q : SegParams) : Prop := s.segFits q = true ∧ (s.ctx q.ctx).segClash q = false

theorem appendSeg_not_opened {s : State} {q : SegParams} (h : (s.ctx q.ctx).state ≠ .opened) :
    s.appendSeg q = (s, .refusedState) := if_pos h

theorem appendSeg_unfit {s : State} {q : SegParams} (ho : (s.ctx q.ctx).state = .opened) (h : ¬ s.SegFits q) :
    s.appendSeg q = (s, .badArgument) := by
  have hbad : (!s.segFits q || (s.ctx q.ctx).segClash q) = true := by
    by_contra hn
    exact h (by simpa [State.SegFits] using hn)
  simp only [State.appendSeg, ho, hbad, ne_eq, not_true_eq_false, if_false, if_true]

theorem appendSeg_full {s : State} {q : SegParams} (ho : (s.ctx q.ctx).state = .opened) (h : s.SegFits q)
    (hf : s.freeSegment? = none) : s.appendSeg q = (s, .refusedFull) := by
  obtain ⟨hfit, hclash⟩ := h
  simp only [State.appendSeg, ho, hfit, hclash, hf, ne_eq, not_true_eq_false, if_false, Bool.not_true, Bool.or_self,
    Bool.false_eq_true]

theorem appendSeg_free {s : State} {q : SegParams} {m : SegmentId} (ho : (s.ctx q.ctx).state = .opened) (h : s.SegFits q)
    (hf : s.freeSegment? = some m) :
    s.appendSeg q = (s.setCtx q.ctx { s.ctx q.ctx with segs := (s.ctx q.ctx).segs ++ [⟨m, q.region, q.first, q.count⟩] },
      .results [m.val]) := by
  obtain ⟨hfit, hclash⟩ := h
  simp only [State.appendSeg, ho, hfit, hclash, hf, ne_eq, not_true_eq_false, if_false, Bool.not_true, Bool.or_self,
    Bool.false_eq_true, modCtx_eq]

/-- Settles O45: CTX-OPEN by the context's and the entry's state; SEG-APPEND by the context's state, the tests of R83 and the
descriptor pool. -/
theorem contextIsOpenedAndListed : Obligations.ContextIsOpenedAndListed := by
  unfold Obligations.ContextIsOpenedAndListed
  refine fun t rest s => ⟨fun h => ⟨fun hno => ?_, fun c b p i w a l hp => ?_⟩,
    fun h => ⟨fun hno => ?_, fun c i f n hp => ?_⟩⟩
  · refine serves_ctxOpen.refuses h (reqCtxOpen_bad (Option.eq_none_iff_forall_ne_some.2 fun q hq => ?_) _)
    obtain ⟨i, hi, -, h1, h4, hl, hp⟩ := parseOpen_some.1 hq
    exact hno _ _ _ i _ _ _ ⟨hi, h1, h4, hl, hp⟩
  · obtain ⟨hi, h1, h4, hl, hp⟩ := hp
    have hreq := reqCtxOpen_of (parseOpen_of hi h1 h4 hl hp) (s.taken rest)
    refine ⟨fun hb => ?_, fun hidle hu => ?_, fun hidle hn hs => ?_, fun src dst hidle hsrc hdst hs => ?_⟩
    · exact serves_ctxOpen.refuses h (hreq.trans (openCtx_busy (s := s.taken rest) hb))
    · exact serves_ctxOpen.refuses h (hreq.trans (openCtx_unset (s := s.taken rest) hidle hu))
    · exact serves_ctxOpen.refuses h (hreq.trans (openCtx_not_stale (s := s.taken rest) hidle hn hs))
    · exact serves_ctxOpen.done h (hreq.trans (openCtx_stale (s := s.taken rest) hidle hsrc hdst hs))
  · refine serves_segAppend.refuses h (reqSegAppend_bad (Option.eq_none_iff_forall_ne_some.2 fun q hq => ?_) _)
    exact hno _ _ _ _ (parseSeg_some.1 hq)
  · obtain ⟨-, -, hn, -⟩ := id hp
    have hreq := reqSegAppend_of (parseSeg_some (q := ⟨c, i, f, n⟩).2 hp) (s.taken rest)
    have hfits : (∀ g ∈ (s.ctx c).segs, 1 ≤ g.count) → ((s.taken rest).SegFits ⟨c, i, f, n⟩ ↔ _) := fun hx =>
      and_congr (segFits_iff (s := s.taken rest)) (segClash_iff (x := (s.taken rest).ctx c) (q := ⟨c, i, f, n⟩) hn hx)
    refine ⟨fun ho => ?_, fun ho hunfit hx => ?_, fun ho hfit hx => ⟨fun hfull => ?_, fun m hm => ?_⟩⟩
    · exact serves_segAppend.refuses h (hreq.trans (appendSeg_not_opened (s := s.taken rest) ho))
    · exact serves_segAppend.refuses h (hreq.trans (appendSeg_unfit (s := s.taken rest) ho (mt (hfits hx).1 hunfit)))
    · exact serves_segAppend.refuses h
        (hreq.trans (appendSeg_full (s := s.taken rest) ho ((hfits hx).2 hfit) (freeSegment_of_full hfull)))
    · exact serves_segAppend.answers h
        (hreq.trans (appendSeg_free (s := s.taken rest) ho ((hfits hx).2 hfit) (freeSegment_of_lowest hm)))

/-! ### CTX-START, CTX-PAUSE, CTX-RESUME and STOP-POINT (R85, R87 to R89) -/

theorem reqCtxStart_of {ps : List Nat} {c : CtxId} (h : ps = [c.val]) (s : State) : reqCtxStart ps s = s.startCtx c := by
  simp only [reqCtxStart, parseIndex_some.2 h]

theorem reqCtxStart_bad {ps : List Nat} (h : ∀ c : CtxId, ps ≠ [c.val]) (s : State) :
    reqCtxStart ps s = (s, .badArgument) := by
  simp only [reqCtxStart, parseIndex_eq_none h]

theorem startCtx_not_opened {s : State} {c : CtxId} (h : (s.ctx c).state ≠ .opened) : s.startCtx c = (s, .refusedState) :=
  if_pos h

theorem startCtx_empty {s : State} {c : CtxId} (ho : (s.ctx c).state = .opened) (h : (s.ctx c).segs = []) :
    s.startCtx c = (s, .noSuch) := by
  simp only [State.startCtx, ho, h, ne_eq, not_true_eq_false, if_false, if_true]

theorem startCtx_no_source {s : State} {c : CtxId} (ho : (s.ctx c).state = .opened) (hn : (s.ctx c).segs ≠ [])
    (h : s.isReady (s.ctx c).src = false) : s.startCtx c = (s, .refusedState) := by
  simp only [State.startCtx, ho, hn, h, ne_eq, not_true_eq_false, if_false, Bool.false_eq_true]

theorem startCtx_walks {s : State} {c : CtxId} {g : Segment} {gs : List Segment} (ho : (s.ctx c).state = .opened)
    (hg : (s.ctx c).segs = g :: gs) (h : s.isReady (s.ctx c).src = true) :
    s.startCtx c = (s.setCtx c { s.ctx c with
      state := if s.isReady (s.ctx c).dst then .walking else .waiting, cur := some 0, frontier := g.first
      phase := .walk }, .done) := by
  have hn : (s.ctx c).segs ≠ [] := by simp [hg]
  simp only [State.startCtx, ho, hn, h, ne_eq, not_true_eq_false, if_false, if_true, modCtx_eq]
  rw [Ctx.toHead, hg]

theorem reqCtxPause_of {ps : List Nat} {c : CtxId} (h : ps = [c.val]) (s : State) : reqCtxPause ps s = s.pauseCtx c := by
  simp only [reqCtxPause, parseIndex_some.2 h]

theorem reqCtxPause_bad {ps : List Nat} (h : ∀ c : CtxId, ps ≠ [c.val]) (s : State) :
    reqCtxPause ps s = (s, .badArgument) := by
  simp only [reqCtxPause, parseIndex_eq_none h]

theorem pauseCtx_walking {s : State} {c : CtxId} (h : (s.ctx c).state = .walking ∨ (s.ctx c).state = .paused) :
    s.pauseCtx c = (s.setCtx c { s.ctx c with state := .paused, pauseReason := some .agent }, .done) := by
  rcases h with h | h <;> simp only [State.pauseCtx, h, modCtx_eq]

theorem pauseCtx_refused {s : State} {c : CtxId} (hw : (s.ctx c).state ≠ .walking) (hp : (s.ctx c).state ≠ .paused) :
    s.pauseCtx c = (s, .refusedState) := by
  unfold State.pauseCtx
  split
  · exact absurd ‹_› hw
  · exact absurd ‹_› hp
  all_goals rfl

/-- R111: the test for SYNCED. -/
theorem syncDue_iff {x : Ctx} :
    x.syncDue = true ↔ x.state = .walking ∧ x.phase = .revisit ∧ x.revisit = [] ∧ x.flights = [] := by
  simp [Ctx.syncDue, and_assoc]

theorem testSynced_not_due {s : State} {c : CtxId} (h : ¬ (s.ctx c).syncDue = true) : s.testSynced c = s := if_neg h

theorem reqCtxResume_of {ps : List Nat} {c : CtxId} (h : ps = [c.val]) (s : State) : reqCtxResume ps s = s.resumeCtx c := by
  simp only [reqCtxResume, parseIndex_some.2 h]

theorem reqCtxResume_bad {ps : List Nat} (h : ∀ c : CtxId, ps ≠ [c.val]) (s : State) :
    reqCtxResume ps s = (s, .badArgument) := by
  simp only [reqCtxResume, parseIndex_eq_none h]

theorem resumeCtx_refused {s : State} {c : CtxId} (h : (s.ctx c).state ≠ .paused) : s.resumeCtx c = (s, .refusedState) :=
  if_neg h

theorem resumeCtx_paused {s : State} {c : CtxId} (h : (s.ctx c).state = .paused) :
    s.resumeCtx c = ((s.setCtx c { s.ctx c with state := .walking, pauseReason := none }).testSynced c, .done) := if_pos h

/-- R88, R111: a context with work left just walks again. -/
theorem resumeCtx_unfinished {s : State} {c : CtxId} (h : (s.ctx c).state = .paused)
    (hn : ¬ ((s.ctx c).phase = .revisit ∧ (s.ctx c).revisit = [] ∧ (s.ctx c).flights = [])) :
    s.resumeCtx c = (s.setCtx c { s.ctx c with state := .walking, pauseReason := none }, .done) := by
  rw [resumeCtx_paused h, testSynced_not_due]
  rw [ctx_setCtx_same, syncDue_iff]
  exact fun ⟨_, hrest⟩ => hn hrest

theorem reqStopPoint_of {ps : List Nat} {c : CtxId} {p : Option StopPoint} (h : parseStop ps = some (c, p)) (s : State) :
    reqStopPoint ps s = s.setStop c p := by
  simp only [reqStopPoint, h]

theorem reqStopPoint_bad {ps : List Nat} (h : parseStop ps = none) (s : State) : reqStopPoint ps s = (s, .badArgument) := by
  simp only [reqStopPoint, h]

theorem setStop_takes {s : State} {c : CtxId} (h : (s.ctx c).state = .opened ∨ (s.ctx c).state = .waiting ∨
      (s.ctx c).state = .walking ∨ (s.ctx c).state = .paused) (p : Option StopPoint) :
    s.setStop c p = (s.setCtx c { s.ctx c with stop := p }, .done) := by
  rcases h with h | h | h | h <;> simp only [State.setStop, h, modCtx_eq]

theorem setStop_refused {s : State} {c : CtxId} (h : ¬ ((s.ctx c).state = .opened ∨ (s.ctx c).state = .waiting ∨
      (s.ctx c).state = .walking ∨ (s.ctx c).state = .paused)) (p : Option StopPoint) :
    s.setStop c p = (s, .refusedState) := by
  unfold State.setStop
  split
  case h_1 hs => exact absurd (.inl hs) h
  case h_2 hs => exact absurd (.inr (.inl hs)) h
  case h_3 hs => exact absurd (.inr (.inr (.inl hs))) h
  case h_4 hs => exact absurd (.inr (.inr (.inr hs))) h
  all_goals rfl

/-- Settles O46: the four requests by the state of the context they name. -/
theorem contextIsStartedAndPaused : Obligations.ContextIsStartedAndPaused := by
  unfold Obligations.ContextIsStartedAndPaused
  refine fun t rest s => ⟨fun h => ⟨fun hno => ?_, fun c hp => ⟨fun ho => ?_, fun ho he => ?_, fun ho hn hr => ?_,
      fun g gs ho hg hr => ?_⟩⟩,
    fun h => ⟨fun hno => ?_, fun c hp => ⟨fun hs => ?_, fun hw hn => ?_⟩⟩,
    fun h => ⟨fun hno => ?_, fun c hp => ⟨fun hs => ?_, fun hs hn => ?_, fun hs _ => ?_⟩⟩,
    fun h => ⟨fun hno => ?_, fun c i v m mode hp => ⟨fun hs => ?_, fun hs => ?_⟩⟩⟩
  · exact serves_ctxStart.refuses h (reqCtxStart_bad hno _)
  · exact serves_ctxStart.refuses h ((reqCtxStart_of hp _).trans (startCtx_not_opened (s := s.taken rest) ho))
  · exact serves_ctxStart.refuses h ((reqCtxStart_of hp _).trans (startCtx_empty (s := s.taken rest) ho he))
  · exact serves_ctxStart.refuses h ((reqCtxStart_of hp _).trans (startCtx_no_source (s := s.taken rest) ho hn hr))
  · exact serves_ctxStart.done h ((reqCtxStart_of hp _).trans (startCtx_walks (s := s.taken rest) ho hg hr))
  · exact serves_ctxPause.refuses h (reqCtxPause_bad hno _)
  · exact serves_ctxPause.done h ((reqCtxPause_of hp _).trans (pauseCtx_walking (s := s.taken rest) hs))
  · exact serves_ctxPause.refuses h ((reqCtxPause_of hp _).trans (pauseCtx_refused (s := s.taken rest) hw hn))
  · exact serves_ctxResume.refuses h (reqCtxResume_bad hno _)
  · exact serves_ctxResume.refuses h ((reqCtxResume_of hp _).trans (resumeCtx_refused (s := s.taken rest) hs))
  · exact serves_ctxResume.done h ((reqCtxResume_of hp _).trans (resumeCtx_unfinished (s := s.taken rest) hs hn))
  · exact serves_ctxResume.done h ((reqCtxResume_of hp _).trans (resumeCtx_paused (s := s.taken rest) hs))
  · refine serves_stopPoint.refuses h (reqStopPoint_bad (Option.eq_none_iff_forall_ne_some.2 fun x hx => ?_) _)
    obtain ⟨i, v, m, mode, hp, hv, hm, hmode, -⟩ := parseStop_some.1 hx
    exact hno _ i v m mode ⟨hp, hv, hm, hmode⟩
  · obtain ⟨hp, hv, hm, hmode⟩ := hp
    exact serves_stopPoint.refuses h ((reqStopPoint_of (parseStop_some.2 ⟨i, v, m, mode, hp, hv, hm, hmode, rfl⟩) _).trans
      (setStop_refused (s := s.taken rest) hs _))
  · obtain ⟨hp, hv, hm, hmode⟩ := hp
    exact serves_stopPoint.done h ((reqStopPoint_of (parseStop_some.2 ⟨i, v, m, mode, hp, hv, hm, hmode, rfl⟩) _).trans
      (setStop_takes (s := s.taken rest) hs _))

end Sys2Proof.Machine
end

section

namespace Sys2Proof.Machine

/-! ### The end of a context (R92 to R95, R160, R161) -/

theorem reqCtxAbort_of {ps : List Nat} {c : CtxId} (h : ps = [c.val]) (s : State) : reqCtxAbort ps s = s.abortCtx c := by
  simp only [reqCtxAbort, parseIndex_some.2 h]

theorem reqCtxAbort_bad {ps : List Nat} (h : ∀ c : CtxId, ps ≠ [c.val]) (s : State) :
    reqCtxAbort ps s = (s, .badArgument) := by
  simp only [reqCtxAbort, parseIndex_eq_none h]

theorem reqCtxClose_of {ps : List Nat} {c : CtxId} (h : ps = [c.val]) (s : State) : reqCtxClose ps s = s.closeCtx c := by
  simp only [reqCtxClose, parseIndex_some.2 h]

theorem reqCtxClose_bad {ps : List Nat} (h : ∀ c : CtxId, ps ≠ [c.val]) (s : State) :
    reqCtxClose ps s = (s, .badArgument) := by
  simp only [reqCtxClose, parseIndex_eq_none h]

theorem abortCtx_idle {s : State} {c : CtxId} (h : (s.ctx c).state = .idle) : s.abortCtx c = (s, .refusedState) := if_pos h

theorem abortCtx_busy {s : State} {c : CtxId} (h : (s.ctx c).state ≠ .idle) :
    s.abortCtx c = ((s.deferredSent c .failed [8]).endCtx c .aborted, .done) := by
  rw [State.abortCtx, if_neg h, sendDeferred_eq]

theorem closeCtx_ended {s : State} {c : CtxId} (h : (s.ctx c).state = .failed ∨ (s.ctx c).state = .opened) :
    s.closeCtx c = (s.endCtx c .closed, .done) := by
  rcases h with h | h <;> simp only [State.closeCtx, h]

theorem closeCtx_refused {s : State} {c : CtxId} (hf : (s.ctx c).state ≠ .failed) (ho : (s.ctx c).state ≠ .opened) :
    s.closeCtx c = (s, .refusedState) := by
  unfold State.closeCtx
  split
  · exact absurd ‹_› hf
  · exact absurd ‹_› ho
  all_goals rfl

/-- R93, R94: after the release the gap records go, and the record is written. -/
theorem endCtx_eq (s : State) (c : CtxId) (o : LastOutcome) :
    s.endCtx c o = ({ s.release c with gaps := (s.release c).gaps.filter fun g => g.ctx ≠ c } : State).setCtx c
      (((s.release c).ctx c).ended o) := by
  unfold State.endCtx
  generalize s.release c = u
  rfl

theorem isLive_eq_false_iff {st : CtxState} : st.isLive = false ↔ st = .idle ∨ st = .failed := by
  cases st <;> simp [CtxState.isLive]

theorem failCtx_not_live {s : State} {c : CtxId} (h : (s.ctx c).state = .idle ∨ (s.ctx c).state = .failed) (r : FailReason) :
    s.failCtx c r = s := if_neg (Bool.eq_false_iff.1 (isLive_eq_false_iff.2 h))

theorem failCtx_live {s : State} {c : CtxId} (hi : (s.ctx c).state ≠ .idle) (hf : (s.ctx c).state ≠ .failed) (r : FailReason) :
    s.failCtx c r = (((s.release c).setCtx c (((s.release c).ctx c).fail r)).deferredSent c .failed
      [BitVec.ofNat 32 r.code]).raise .ctxFailed (detailOf c) := by
  have hlive : (s.ctx c).state.isLive = true := by
    rw [← Bool.not_eq_false, isLive_eq_false_iff]
    exact fun h => h.elim hi hf
  rw [State.failCtx, if_pos hlive, sendDeferred_eq, modCtx_eq]

/-- Settles O47: abort, close and failure each go through the release of R92. -/
theorem endOfAContext : Obligations.EndOfAContext := by
  unfold Obligations.EndOfAContext
  refine ⟨fun t rest s => ⟨fun h => ⟨fun hno => ?_, fun c hp => ⟨fun hi => ?_, fun hi => ?_⟩⟩,
    fun h => ⟨fun hno => ?_, fun c hp => ⟨fun hf ho => ?_, fun hs => ?_⟩⟩⟩, fun s c r => ⟨fun hs => ?_, fun hi hf => ?_⟩⟩
  · exact serves_ctxAbort.refuses h (reqCtxAbort_bad hno _)
  · exact serves_ctxAbort.refuses h ((reqCtxAbort_of hp _).trans (abortCtx_idle (s := s.taken rest) hi))
  · have hreq := serves_ctxAbort.done h ((reqCtxAbort_of hp _).trans (abortCtx_busy (s := s.taken rest) hi))
    rw [endCtx_eq] at hreq
    have hrel := released_release c ((s.taken rest).deferredSent c .failed [8])
    generalize ((s.taken rest).deferredSent c .failed [8]).release c = u at hreq hrel
    exact ⟨u, hrel, hreq⟩
  · exact serves_ctxClose.refuses h (reqCtxClose_bad hno _)
  · exact serves_ctxClose.refuses h ((reqCtxClose_of hp _).trans (closeCtx_refused (s := s.taken rest) hf ho))
  · have hreq := serves_ctxClose.done h ((reqCtxClose_of hp _).trans (closeCtx_ended (s := s.taken rest) hs))
    rw [endCtx_eq] at hreq
    have hrel := released_release c (s.taken rest)
    generalize (s.taken rest).release c = u at hreq hrel
    exact ⟨u, hrel, hreq⟩
  · exact failCtx_not_live hs r
  · have hfail := failCtx_live hi hf r
    have hrel := released_release c s
    generalize s.release c = u at hfail hrel
    exact ⟨u, hrel, hfail⟩

/-! ### CTX-CUTOVER and the test for SYNCED (R111, R112, R148, R150) -/

theorem exec_ctxCutover (s : State) : exec .ctxCutover s =
    .next (s.unlessHeld fun s => s.decode (fun t => t.asRequest == some .ctxCutover) reqCtxCutover) := rfl

/-- The row of a CTX-CUTOVER: taken, carried out, and answered unless its reply is deferred (R166). -/
theorem exec_ctxCutover_of {s u : State} {t : Txn} {rest : List Txn} {a : Option Answer} (h : s.Requested .ctxCutover t rest)
    (hb : reqCtxCutover t (s.taken rest) = (u, a)) : exec .ctxCutover s = .next ((u.answer t a).cutHead) := by
  obtain ⟨hs, hi, hk, hr⟩ := h
  rw [exec_ctxCutover, unlessHeld_of hs, decode_of hi hk _ (by simp [hr]), hb]

theorem reqCtxCutover_of {t : Txn} {c : CtxId} (h : t.params = [c.val]) (s : State) :
    reqCtxCutover t s = s.cutover c t.tag := by
  simp only [reqCtxCutover, parseIndex_some.2 h]

theorem reqCtxCutover_bad {t : Txn} (h : ∀ c : CtxId, t.params ≠ [c.val]) (s : State) :
    reqCtxCutover t s = (s, some .badArgument) := by
  simp only [reqCtxCutover, parseIndex_eq_none h]

theorem cutover_refused {s : State} {c : CtxId} (h : (s.ctx c).state ≠ .synced ∨ ∃ g ∈ s.gaps, g.ctx = c) (tag : BitVec 8) :
    s.cutover c tag = (s, some .refusedState) := by
  unfold State.cutover
  by_cases hs : (s.ctx c).state = .synced
  · have hgaps : s.gapsOf c ≠ [] := by
      rw [ne_eq, gapsOf_eq_nil_iff]
      push Not
      exact h.resolve_left fun hn => hn hs
    rw [if_neg (not_not.2 hs), if_pos hgaps]
  · rw [if_pos hs]

theorem cutover_synced {s : State} {c : CtxId} (hs : (s.ctx c).state = .synced) (hg : ∀ g ∈ s.gaps, g.ctx ≠ c)
    (tag : BitVec 8) : s.cutover c tag =
      if s.windowFits c then ((s.setCtx c { s.ctx c with deferred := some tag }).enterCutting c, none)
      else (s, some .refusedFull) := by
  rw [State.cutover, if_neg (not_not.2 hs), if_neg (not_not.2 (gapsOf_eq_nil_iff.2 hg)), modCtx_eq]

/-- R14, R150, R156: the claim of a cutover is placed, or refused at once by a destination that is not READY. -/
theorem enterCutting_ready {s : State} {c : CtxId} (h : s.isReady (s.ctx c).dst = true) :
    s.enterCutting c = s.setCtx c (s.ctx c).cut := if_pos h

theorem enterCutting_not_ready {s : State} {c : CtxId} (h : s.isReady (s.ctx c).dst = false) :
    s.enterCutting c = (s.setCtx c (s.ctx c).cut).failCtx c .destLost := if_neg (Bool.eq_false_iff.1 h)

/-- The state of a context that has just entered SYNCED. -/
def State.synced (s : State) (c : CtxId) : State :=
  (s.setCtx c { s.ctx c with state := .synced }).raise .ctxSynced (detailOf c)

theorem ctx_synced (s : State) (c : CtxId) : (s.synced c).ctx c = { s.ctx c with state := .synced } := by
  rw [State.synced, raise_eq]
  exact ctx_setCtx_same s c _

theorem gapsOf_synced (s : State) (c : CtxId) : (s.synced c).gapsOf c = s.gapsOf c := gapsOf_raise _ _ _ _

theorem windowFits_synced (s : State) (c : CtxId) : (s.synced c).windowFits c = s.windowFits c := by
  have hctx : (s.setCtx c { s.ctx c with state := .synced }).ctx c = { s.ctx c with state := .synced } :=
    ctx_setCtx_same s c _
  rw [State.synced, windowFits_raise]
  simp only [State.windowFits, State.windowCount, State.windowCap, State.ctxSet, hctx]
  rfl

theorem testSynced_due {s : State} {c : CtxId} (h : (s.ctx c).syncDue = true) :
    s.testSynced c = (s.synced c).autoCutover c := if_pos h

theorem autoCutover_off {s : State} {c : CtxId} (h : (s.ctx c).autoCutover = false) : s.autoCutover c = s := by
  rw [State.autoCutover, h]
  rfl

theorem autoCutover_gaps {s : State} {c : CtxId} (ha : (s.ctx c).autoCutover = true) (h : s.gapsOf c ≠ []) :
    s.autoCutover c = s.raise .gapsPending (detailOf c) := by
  have hne : ¬ (s.gapsOf c).isEmpty = true := by simpa using h
  rw [State.autoCutover, if_pos ha, if_neg hne]

theorem autoCutover_clear {s : State} {c : CtxId} (ha : (s.ctx c).autoCutover = true) (h : s.gapsOf c = []) :
    s.autoCutover c = if s.windowFits c then s.enterCutting c else s := by
  rw [State.autoCutover, if_pos ha, h]
  rfl

/-- Settles O48: CTX-CUTOVER by its checks and its destination; the test for SYNCED, then the auto-cutover flag, the gap records and
the window. -/
theorem syncedAndCutover : Obligations.SyncedAndCutover := by
  unfold Obligations.SyncedAndCutover
  refine ⟨fun t rest s h => ⟨fun hno => ?_, fun c hp => ⟨fun hr => ?_, fun hs hg hw => ?_, fun hs hg hw hd => ?_,
    fun hs hg hw hd => ?_⟩⟩, fun s c => ⟨fun hn => ?_, fun hd ho => ?_, fun hd ha hg => ?_, fun hd ha hg hw hr => ?_,
    fun hd ha hg hw hr => ?_⟩⟩
  · exact exec_ctxCutover_of h (reqCtxCutover_bad hno _)
  · exact exec_ctxCutover_of h ((reqCtxCutover_of hp _).trans (cutover_refused (s := s.taken rest) hr _))
  · exact exec_ctxCutover_of h ((reqCtxCutover_of hp _).trans
      ((cutover_synced (s := s.taken rest) hs hg _).trans (if_neg (Bool.eq_false_iff.1 hw))))
  · refine (exec_ctxCutover_of h
      ((reqCtxCutover_of hp _).trans ((cutover_synced (s := s.taken rest) hs hg _).trans (if_pos hw)))).trans ?_
    rw [enterCutting_ready (by rw [ctx_setCtx_same]; exact hd), ctx_setCtx_same, setCtx_twice]
    rfl
  · refine (exec_ctxCutover_of h
      ((reqCtxCutover_of hp _).trans ((cutover_synced (s := s.taken rest) hs hg _).trans (if_pos hw)))).trans ?_
    rw [enterCutting_not_ready (by rw [ctx_setCtx_same]; exact hd), ctx_setCtx_same, setCtx_twice]
    rfl
  · exact testSynced_not_due (mt syncDue_iff.1 hn)
  · rw [testSynced_due (syncDue_iff.2 hd)]
    by_cases ha : (s.ctx c).autoCutover = true
    · obtain ⟨hg, hw⟩ := ho.resolve_left fun hn => by simp [ha] at hn
      rw [autoCutover_clear (by rw [ctx_synced]; exact ha) (by rw [gapsOf_synced]; exact gapsOf_eq_nil_iff.2 hg),
        windowFits_synced, if_neg (Bool.eq_false_iff.1 hw)]
      rfl
    · rw [autoCutover_off (by rw [ctx_synced]; exact Bool.eq_false_iff.2 ha)]
      rfl
  · have hgaps : s.gapsOf c ≠ [] := by
      rw [ne_eq, gapsOf_eq_nil_iff]
      push Not
      exact hg
    rw [testSynced_due (syncDue_iff.2 hd)]
    exact autoCutover_gaps (by rw [ctx_synced]; exact ha) (by rw [gapsOf_synced]; exact hgaps)
  · rw [testSynced_due (syncDue_iff.2 hd),
      autoCutover_clear (by rw [ctx_synced]; exact ha) (by rw [gapsOf_synced]; exact gapsOf_eq_nil_iff.2 hg),
      windowFits_synced, if_pos hw, enterCutting_ready (by rw [ctx_synced, State.synced, isReady_raise]; exact hr), ctx_synced]
    rfl
  · rw [testSynced_due (syncDue_iff.2 hd),
      autoCutover_clear (by rw [ctx_synced]; exact ha) (by rw [gapsOf_synced]; exact gapsOf_eq_nil_iff.2 hg),
      windowFits_synced, if_pos hw, enterCutting_not_ready (by rw [ctx_synced, State.synced, isReady_raise]; exact hr),
      ctx_synced]
    rfl

/-! ### GAP-WAIVE and SPARE-DROP (R137, R145) -/

theorem reqGapWaive_of {ps : List Nat} {q : WaiveParams} (h : parseWaive ps = some q) (s : State) :
    reqGapWaive ps s = s.waive q := by
  simp only [reqGapWaive, h]

theorem reqGapWaive_bad {ps : List Nat} (h : parseWaive ps = none) (s : State) : reqGapWaive ps s = (s, .badArgument) := by
  simp only [reqGapWaive, h]

theorem waive_idle {s : State} {q : WaiveParams} (h : (s.ctx q.ctx).state = .idle) : s.waive q = (s, .refusedState) :=
  if_pos h

theorem waive_all {s : State} {q : WaiveParams} (hi : (s.ctx q.ctx).state ≠ .idle) (h : q.region = none) :
    s.waive q = (s.dropGapsOf q.ctx, .results [(s.gapsOf q.ctx).length]) := by
  simp only [State.waive, if_neg hi, h]

theorem waive_one {s : State} {q : WaiveParams} {i : RegionId} (hi : (s.ctx q.ctx).state ≠ .idle) (h : q.region = some i) :
    s.waive q =
      if (⟨q.ctx, i, q.entry⟩ : Gap) ∈ s.gaps then (s.dropGap q.ctx i q.entry, .results [1]) else (s, .noSuch) := by
  simp only [State.waive, if_neg hi, h, List.contains_iff_mem]

theorem reqSpareDrop_of {ps : List Nat} {k : SlotId} (h : ps = [k.val]) (s : State) : reqSpareDrop ps s = s.dropMap k := by
  simp only [reqSpareDrop, parseIndex_some.2 h]

theorem reqSpareDrop_bad {ps : List Nat} (h : ∀ k : SlotId, ps ≠ [k.val]) (s : State) :
    reqSpareDrop ps s = (s, .badArgument) := by
  simp only [reqSpareDrop, parseIndex_eq_none h]

theorem mapLocked_iff {s : State} {k : SlotId} : s.mapLocked k = true ↔
    ∃ b, (s.entry b).primary = some k ∨ ((s.entry b).twin = some k ∧
      ((s.entry b).twinState = .building ∨ (s.entry b).twinState = .twinned)) := by
  simp only [State.mapLocked, List.any_eq_true, Bool.or_eq_true, Bool.and_eq_true, beq_iff_eq]
  exact ⟨fun ⟨b, _, h⟩ => ⟨b, h⟩, fun ⟨b, h⟩ => ⟨b, mem_allBoards b, h⟩⟩

theorem dropMap_locked {s : State} {k : SlotId} (h : s.mapLocked k = true) : s.dropMap k = (s, .refusedState) := if_pos h

theorem dropMap_free {s : State} {k : SlotId} (h : ¬ s.mapLocked k = true) :
    s.dropMap k = (s.setSpareMap k [], .results [(s.spareMap k).length]) := if_neg h

/-- Settles O49: GAP-WAIVE by the context's state and the record named; SPARE-DROP by what holds the map. -/
theorem waiveAndDrop : Obligations.WaiveAndDrop := by
  unfold Obligations.WaiveAndDrop
  refine fun t rest s => ⟨fun h => ⟨fun hno => ?_, fun c i e hp => ?_⟩,
    fun h => ⟨fun hno => ?_, fun k hp => ⟨fun hl => ?_, fun hl => ?_⟩⟩⟩
  · refine serves_gapWaive.refuses h (reqGapWaive_bad (Option.eq_none_iff_forall_ne_some.2 fun q hq => ?_) _)
    exact hno _ _ _ (parseWaive_some.1 hq)
  · have hreq := reqGapWaive_of (parseWaive_some (q := ⟨c, i, e⟩).2 hp) (s.taken rest)
    refine ⟨fun hi => ?_, fun hi => ⟨fun hall => ?_, fun j hj => ⟨fun hg => ?_, fun hg => ?_⟩⟩⟩
    · exact serves_gapWaive.refuses h (hreq.trans (waive_idle (s := s.taken rest) hi))
    · exact serves_gapWaive.answers h (hreq.trans (waive_all (s := s.taken rest) hi hall))
    · exact serves_gapWaive.answers h (hreq.trans ((waive_one (s := s.taken rest) (q := ⟨c, i, e⟩) hi hj).trans (if_pos hg)))
    · exact serves_gapWaive.refuses h (hreq.trans ((waive_one (s := s.taken rest) (q := ⟨c, i, e⟩) hi hj).trans (if_neg hg)))
  · exact serves_spareDrop.refuses h (reqSpareDrop_bad hno _)
  · exact serves_spareDrop.refuses h
      ((reqSpareDrop_of hp _).trans (dropMap_locked (s := s.taken rest) (mapLocked_iff.2 hl)))
  · exact serves_spareDrop.answers h
      ((reqSpareDrop_of hp _).trans (dropMap_free (s := s.taken rest) (mt mapLocked_iff.1 hl)))

end Sys2Proof.Machine
end

section

namespace Sys2Proof.Machine

/-! ### The position of the walk and its pace (R91, R109) -/

/-- R109 on a record whose place on the walk is that of another: where the walk stands decides, the rest is kept. -/
def Ctx.steppedAs (x : Ctx) (f : Nat) (y : Ctx) : Ctx :=
  match x.cur, x.cur.bind (x.segs[·]?) with
  | some n, some g =>
    if f < g.first + g.count then { y with frontier := f }
    else
      match x.segs[n + 1]? with
      | some h => { y with cur := some (n + 1), frontier := h.first }
      | none => { y with frontier := f, phase := .revisit }
  | _, _ => y

theorem advance_eq_steppedAs {x y : Ctx} {n : Nat} {g : Segment} (hn : x.cur = some n) (hg : x.segs[n]? = some g)
    (hc : y.cur = x.cur) (hs : y.segs = x.segs) (f : Nat) : y.advance f = x.steppedAs f y := by
  have hseg : y.curSeg = some g := curSeg_eq_some_iff.2 ⟨n, hc.trans hn, hs ▸ hg⟩
  by_cases hf : f < g.first + g.count
  · simp only [Ctx.advance, Ctx.steppedAs, hseg, hc, hn, hg, Option.bind_some, hf, if_true]
  · cases hnext : x.segs[n + 1]? <;>
      simp only [Ctx.advance, Ctx.steppedAs, hseg, hc, hs, hn, hg, Option.bind_some, hf, if_false, hnext]

/-- The step of the walk and the start of the pace timer touch different fields. -/
theorem startPace_advance (x : Ctx) (f : Nat) : (x.advance f).startPace = x.startPace.advance f := by
  have hcur : x.startPace.curSeg = x.curSeg := rfl
  have hn : x.startPace.cur = x.cur := rfl
  have hs : x.startPace.segs = x.segs := rfl
  unfold Ctx.advance
  rw [hcur, hn, hs]
  cases x.cur with
  | none => rfl
  | some n =>
    cases x.curSeg with
    | none => rfl
    | some g =>
      by_cases hf : f < g.first + g.count
      · simp only [hf, if_true]
        rfl
      · simp only [hf, if_false]
        cases x.segs[n + 1]? <;> rfl

/-! ### The zero run (R104) -/

theorem remapOf_isSome_iff {m : List SpareRec} {i : RegionId} {a : Nat} {v : View} :
    (remapOf m i a v).isSome = true ↔ ∃ y o t, SpareRec.remap i a v y o t ∈ m := by
  rw [remapOf, List.isSome_findSome?, List.any_eq_true]
  constructor
  · rintro ⟨z, hz, h⟩
    cases z with
    | remap r e u y o t =>
      by_cases hm : r = i ∧ e = a ∧ u = v
      · obtain ⟨rfl, rfl, rfl⟩ := hm
        exact ⟨y, o, t, hz⟩
      · simp [hm] at h
    | retired => simp at h
  · rintro ⟨y, o, t, h⟩
    exact ⟨_, h, by simp⟩

/-- A plain run stops at its limit or at the first entry with a REMAP record, and no entry in it has one. -/
theorem plainRun_spec (m : List SpareRec) (i : RegionId) (v : View) (n e : Nat) :
    plainRun m i v n e ≤ n ∧ (∀ a, e ≤ a → a < e + plainRun m i v n e → ¬ (remapOf m i a v).isSome = true) ∧
      (plainRun m i v n e < n → (remapOf m i (e + plainRun m i v n e) v).isSome = true) := by
  induction n generalizing e with
  | zero => exact ⟨le_rfl, fun a h1 h2 => absurd h2 (by simp only [plainRun]; omega), fun h => absurd h (Nat.not_lt_zero _)⟩
  | succ n ih =>
    by_cases h : (remapOf m i e v).isSome = true
    · simp only [plainRun, h, if_true]
      exact ⟨by omega, fun a h1 h2 => absurd h2 (by omega), fun _ => h⟩
    · obtain ⟨hle, hnone, hstop⟩ := ih (e + 1)
      have hrun : plainRun m i v (n + 1) e = plainRun m i v n (e + 1) + 1 := by rw [plainRun, if_neg h]
      rw [hrun]
      refine ⟨by omega, fun a h1 h2 => ?_, fun hlt => ?_⟩
      · by_cases ha : a = e
        · exact ha ▸ h
        · exact hnone a (by omega) (by omega)
      · have := hstop (by omega)
        rwa [show e + (plainRun m i v n (e + 1) + 1) = e + 1 + plainRun m i v n (e + 1) by omega]

/-- R104: an entry redirected, or of a region whose entries do not adjoin, is filled alone. -/
theorem zeroRun_alone {s : State} {c : CtxId} {w : Work}
    (h : (remapOf (s.spareMap (s.ctx c).dst) w.id w.entry (s.ctx c).dstView).isSome = true ∨
      (w.region.geom (s.ctx c).dstView).pitch ≠ w.region.width) : s.zeroRun c w = 1 := by
  simp only [State.zeroRun]
  exact if_pos (by simpa using h)

/-- R104: entries that adjoin are filled together, up to the end of the segment, the greatest FILL, or a redirected entry. -/
theorem zeroRun_run {s : State} {c : CtxId} {w : Work} {g : Segment}
    (hs : ¬ (remapOf (s.spareMap (s.ctx c).dst) w.id w.entry (s.ctx c).dstView).isSome = true)
    (hp : (w.region.geom (s.ctx c).dstView).pitch = w.region.width) (hg : (s.ctx c).curSeg = some g) :
    s.zeroRun c w = plainRun (s.spareMap (s.ctx c).dst) w.id (s.ctx c).dstView
      (min (g.first + g.count - w.entry) (4096 / w.region.width)) w.entry := by
  simp only [State.zeroRun]
  rw [if_neg (by simpa [hp] using hs), hg]
  rfl

/-- What bounds a plain run from above, in words of the FILL's length. -/
theorem plainRun_bounds {m : List SpareRec} {i : RegionId} {v : View} {w e f n : Nat} (hw : 1 ≤ w) (hw' : w ≤ 16)
    (he : e < f) (hs : ¬ (remapOf m i e v).isSome = true) (hn : n = plainRun m i v (min (f - e) (4096 / w)) e) :
    1 ≤ n ∧ n * w ≤ 4096 ∧ (∀ a, e ≤ a → a < e + n → ¬ (remapOf m i a v).isSome = true) ∧ e + n ≤ f ∧
      (e + n = f ∨ 4096 < (n + 1) * w ∨ (remapOf m i (e + n) v).isSome = true) := by
  obtain ⟨hle, hnone, hstop⟩ := plainRun_spec m i v (min (f - e) (4096 / w)) e
  rw [← hn] at hle hnone hstop
  have hquot : 1 ≤ 4096 / w := (Nat.one_le_div_iff (by omega)).2 (by omega)
  have hpos : 1 ≤ n := by
    by_contra h0
    have hzero : n = 0 := by omega
    exact hs (by simpa [hzero] using hstop (by omega))
  have hfill : n * w ≤ 4096 := (Nat.le_div_iff_mul_le (by omega)).1 (by omega)
  refine ⟨hpos, hfill, hnone, by omega, ?_⟩
  rcases Nat.lt_or_eq_of_le hle with hlt | heq
  · exact .inr (.inr (hstop hlt))
  · by_cases hend : e + n = f
    · exact .inl hend
    · have hlast : n = 4096 / w := by omega
      exact .inr (.inl (by rw [hlast, mul_comm]; exact Nat.lt_mul_div_succ 4096 (by omega)))

/-! ### The grants (R90, R103, R104) -/

theorem exec_walkFetchIssue {s : State} (h : s.startup ≠ .held) :
    exec .walkFetchIssue s = .next (s.grantIf false State.grantFetch) :=
  congrArg _ (unlessHeld_of h _)

theorem exec_zeroFillIssue {s : State} (h : s.startup ≠ .held) :
    exec .zeroFillIssue s = .next (s.grantIf true State.grantZero) :=
  congrArg _ (unlessHeld_of h _)

theorem exec_paceTimerExpiry {s : State} (h : s.startup ≠ .held) (c : CtxId) :
    exec (.paceTimerExpiry c) s = .next (s.setCtx c { s.ctx c with paceRunning := false }) := by
  refine congrArg _ ((unlessHeld_of h _).trans ?_)
  rw [modCtx_eq]

theorem grantIf_none {s : State} (h : s.arbiter = none) (z : Bool) (f : State → CtxId → Work → State) :
    s.grantIf z f = s := by
  simp only [State.grantIf, h]

theorem grantIf_same {s : State} {c : CtxId} {w : Work} (h : s.arbiter = some c) (hw : s.nextWork c = some w)
    (f : State → CtxId → Work → State) : s.grantIf w.zero f = f s c w := by
  simp only [State.grantIf, h, hw, if_true]

theorem grantIf_other {s : State} {c : CtxId} {w : Work} {z : Bool} (h : s.arbiter = some c) (hw : s.nextWork c = some w)
    (hz : w.zero ≠ z) (f : State → CtxId → Work → State) : s.grantIf z f = s := by
  simp only [State.grantIf, h, hw, hz, if_false]

/-- R90: the stop point of a context fires before a fetch. -/
theorem stopFires_iff {x : Ctx} {i : RegionId} {e : Nat} : x.stopFires i e = true ↔
    x.phase = .walk ∧ x.held ≠ some (i, e) ∧ ∃ p, x.stop = some p ∧ (p.region = none ∨ p.region = some i) ∧
      BitVec.ofNat 24 e &&& p.mask = p.value &&& p.mask := by
  unfold Ctx.stopFires StopPoint.hits
  cases x.stop <;> simp [and_assoc]

theorem grantFetch_fires {s : State} {c : CtxId} {w : Work} {p : StopPoint} (h : (s.ctx c).stopFires w.id w.entry = true)
    (hp : (s.ctx c).stop = some p) :
    s.grantFetch c w = ((s.served c).setCtx c { s.ctx c with
      state := .paused, pauseReason := some .stopPoint, held := some (w.id, w.entry)
      stop := if p.again then some p else none }).raise .ctxStopped (BitVec.ofNat 8 c) := by
  have hfire : (s.ctx c).firePoint w.id w.entry = { s.ctx c with
      state := .paused, pauseReason := some .stopPoint, held := some (w.id, w.entry)
      stop := if p.again then some p else none } := by
    simp only [Ctx.firePoint, hp, Option.filter_some]
  rw [State.grantFetch, if_pos (show ((s.served c).ctx c).stopFires w.id w.entry = true from h), modCtx_eq,
    show ((s.served c).ctx c) = s.ctx c from rfl, hfire]
  rfl

theorem freeStaging_of_lowest {s : State} {g : StagingId} (h : Lowest (fun g : StagingId => s.staging[g] = none) g) :
    s.freeStaging? = some g :=
  find_finRange_of_lowest (fun _ => Option.isNone_iff_eq_none) h

/-- The lowest number that no flight record bears is the one a new record takes (R98). -/
theorem freeFlight_of_lowest {x : Ctx} {n : FlightNum} (h : Lowest (fun n => ∀ f ∈ x.flights, f.num ≠ n) n) :
    x.freeFlight = n := by
  have hfind := find_finRange_of_lowest (n := 4) (f := fun n : FlightNum => !(x.flights.any fun f => f.num == n))
    (fun j => by simp) h
  rw [Ctx.freeFlight, show ([0, 1, 2, 3] : List FlightNum) = List.finRange 4 by decide, hfind]
  rfl

/-- R103 steps 2 to 6, with the lowest pending entry and the lowest staging entry that are free. -/
theorem issueFetch_of {s : State} {c : CtxId} {w : Work} {j : PendIdx} {g : StagingId}
    (hr : s.isReady (s.ctx c).src = true) (hq : (s.slot (s.ctx c).src).queue.length < 48)
    (hj : Lowest (fun j => (s.slot (s.ctx c).src).pend[j] = none) j) (hg : Lowest (fun g : StagingId => s.staging[g] = none) g) :
    s.issueFetch c w = (((s.setSlot (s.ctx c).src { s.queued (s.ctx c).src
        [⟨{ (s.walkFetch c w).txn with tag := BitVec.ofNat 8 j }, .bridgeGenerated⟩] with
      pend := (s.slot (s.ctx c).src).pend.set j (some ⟨.queued, .fetch, w.region.width, .walk c (s.ctx c).freeFlight⟩)
        }).setStaging g (some [])).setCtx c ((s.ctx c).issued w g)).testSynced c := by
  have hclaim := claim_pend s (s.ctx c).src (s.walkFetch c w) _ j hr rfl hq hj
  simp only [State.issueFetch, freeStaging_of_lowest hg, hclaim, modCtx_eq]
  rfl

theorem grantFetch_issues {s : State} {c : CtxId} {w : Work} (h : ¬ (s.ctx c).stopFires w.id w.entry = true) :
    s.grantFetch c w = (s.served c).issueFetch c w := if_neg h

/-- R104: the FILL of a zero run is taken where there is room. -/
theorem grantZero_of {s : State} {c : CtxId} {w : Work} (hr : s.isReady (s.ctx c).dst = true)
    (hq : (s.slot (s.ctx c).dst).queue.length < 48) :
    s.grantZero c w = (((s.served c).setSlot (s.ctx c).dst (s.queued (s.ctx c).dst
      [⟨(s.zeroFill c w).txn, .bridgeGenerated⟩])).setCtx c ((s.ctx c).zeroed w.entry (s.zeroRun c w))).testSynced c := by
  have hclaim := claim_plain (s.served c) (s.ctx c).dst (s.zeroFill c w) hr rfl hq
  simp only [State.grantZero]
  rw [show ((s.served c).zeroFill c w) = s.zeroFill c w from rfl, show ((s.served c).ctx c) = s.ctx c from rfl, hclaim]
  exact congrArg (fun u : State => u.testSynced c) (modCtx_eq _ _ _)

/-- The front of the revisit list is gone, and what is left of its range stands in list order (R110, R123). -/
theorem popRevisit_perm {x : Ctx} {q : Range} {qs : List Range} (h : x.revisit = q :: qs) :
    x.popRevisit.Perm (if q.first < q.last then { q with first := q.first + 1 } :: qs else qs) := by
  by_cases hq : q.first < q.last
  · simp only [Ctx.popRevisit, h, hq, if_true]
    exact placeRange_perm _ _ _
  · simp only [Ctx.popRevisit, h, hq, if_false]
    exact .refl _

/-- The list order of R123 looks at the segment list alone. -/
theorem placeRange_congr {x y : Ctx} (hs : x.segs = y.segs) (g : Range) (l : List Range) :
    x.placeRange g l = y.placeRange g l := by
  have hb : x.rangeBefore = y.rangeBefore := by
    funext p q
    unfold Ctx.rangeBefore Ctx.segPlace
    rw [hs]
  induction l with
  | nil => rfl
  | cons h l ih => simp only [Ctx.placeRange, hb, ih]

theorem popRevisit_congr {x y : Ctx} (hs : x.segs = y.segs) (hr : x.revisit = y.revisit) : x.popRevisit = y.popRevisit := by
  unfold Ctx.popRevisit
  simp only [hr, placeRange_congr hs]

/-- R103 steps 4 and 6: the record of a fetch, ahead of the step of the walk. -/
def Ctx.fetched (x : Ctx) (w : Work) (g : StagingId) : Ctx :=
  { x with
    held := if x.held = some (w.id, w.entry) then none else x.held, paceRunning := x.paceRunning || x.pace.isSome
    flights := x.flights ++ [⟨x.freeFlight, w.id, w.entry, .fetch, g, false, false, false⟩] }

theorem issued_walk {x : Ctx} (h : x.phase = .walk) (w : Work) (g : StagingId) :
    x.issued w g = (x.fetched w g).advance (w.entry + 1) := by
  cases x
  subst h
  exact startPace_advance _ _

theorem issued_revisit {x : Ctx} (h : x.phase = .revisit) (w : Work) (g : StagingId) :
    x.issued w g = { x.fetched w g with revisit := x.popRevisit } := by
  rw [← popRevisit_congr (x := { x.fetched w g with paceRunning := x.paceRunning }) (y := x) rfl rfl]
  cases x
  subst h
  rfl

theorem zeroed_eq (x : Ctx) (e n : Nat) :
    x.zeroed e n = ({ x with
      paceRunning := x.paceRunning || x.pace.isSome
      counters := { x.counters with entriesWritten := satAdd x.counters.entriesWritten n } } : Ctx).advance (e + n) :=
  startPace_advance _ _

/-- What the arbiter has found of the context that it chose (R101). -/
theorem workEligible_of_arbiter {s : State} {c : CtxId} {w : Work} (h : s.arbiter = some c) (hw : s.nextWork c = some w) :
    s.workEligible c w = true := by
  obtain ⟨hpick, -⟩ := arbiter_eq_some h
  obtain ⟨-, he, -⟩ := pick_eq_some hpick
  obtain ⟨-, -, v, hv, hwork⟩ := eligible_iff_nextWork.1 he
  obtain rfl : w = v := Option.some.inj (hw.symm.trans hv)
  exact hwork

/-- Settles O51: the grant of the context that the arbiter chose, by the kind of its next work. -/
theorem walkGrants : Obligations.WalkGrants := by
  unfold Obligations.WalkGrants
  intro s c hs x stepped served ordered
  have hstep : ∀ (n : Nat) (g : Segment), x.cur = some n → x.segs[n]? = some g → ∀ y : Ctx, y.cur = x.cur → y.segs = x.segs →
      ∀ f, y.advance f = stepped f y := fun n g hn hg y hc hy f => advance_eq_steppedAs hn hg hc hy f
  refine ⟨exec_paceTimerExpiry hs c, fun ha => ⟨?_, ?_⟩, fun i r e ha hf => ?_, fun i r e ha hz h1 h16 hend => ?_⟩
  · rw [exec_walkFetchIssue hs, grantIf_none ha]
  · rw [exec_zeroFillIssue hs, grantIf_none ha]
  · have hw := nextWork_fetch_iff.2 hf
    have hgrant := grantIf_same ha hw State.grantFetch
    obtain ⟨-, -, -, hr, hq, -⟩ := workEligible_fetch_iff.1 (workEligible_of_arbiter ha hw)
    intro fires
    refine ⟨?_, fun p hp hfire => ?_, fun j g n hno hj hg hn => ?_⟩
    · rw [exec_zeroFillIssue hs, grantIf_other ha hw Bool.false_ne_true]
    · rw [exec_walkFetchIssue hs]
      exact congrArg _ (hgrant.trans (grantFetch_fires (stopFires_iff.2 hfire) hp))
    · obtain rfl : x.freeFlight = n := freeFlight_of_lowest hn
      have hissue := hgrant.trans ((grantFetch_issues (mt stopFires_iff.1 hno)).trans
        (issueFetch_of (s := s.served c) (w := ⟨false, i, r, e⟩) hr hq hj hg))
      intro y u
      refine ⟨fun hwalk => ?_, fun q qs hrev hrange => ⟨x.popRevisit, ?_, popRevisit_perm hrange, popRevisit_ordered x⟩⟩
      · obtain ⟨-, ⟨-, -, -, m, k, hm, hk, -⟩ | ⟨hrev, -⟩⟩ := hf
        · have hput := (issued_walk hwalk ⟨false, i, r, e⟩ g).trans (hstep m k hm hk y rfl rfl (e + 1))
          exact (exec_walkFetchIssue hs).trans (congrArg _ (hissue.trans
            (congrArg (fun z => ((u.setCtx c z).testSynced c)) hput)))
        · exact absurd (hwalk.symm.trans hrev) (by decide)
      · exact (exec_walkFetchIssue hs).trans (congrArg _ (hissue.trans
          (congrArg (fun z => ((u.setCtx c z).testSynced c)) (issued_revisit hrev ⟨false, i, r, e⟩ g))))
  · have hw := nextWork_zero_iff.2 hz
    obtain ⟨-, hr, hq⟩ := workEligible_zero_iff.1 (workEligible_of_arbiter ha hw)
    obtain ⟨-, -, -, -, m, g, hm, hg, -⟩ := id hz
    have hseg : x.curSeg = some g := curSeg_eq_some_iff.2 ⟨m, hm, hg⟩
    have hput := fun n => (zeroed_eq x e n).trans (hstep m g hm hg { x with
      paceRunning := x.paceRunning || x.pace.isSome
      counters := { x.counters with entriesWritten := satAdd x.counters.entriesWritten n } } rfl rfl (e + n))
    have hgrant := (grantIf_same ha hw State.grantZero).trans (grantZero_of hr hq)
    intro v spared
    have hspared : ∀ a, (remapOf (s.spareMap x.dst) i a v).isSome = true ↔ spared a := fun a => remapOf_isSome_iff
    refine ⟨?_, s.zeroRun c ⟨true, i, r, e⟩, ?_⟩
    · rw [exec_walkFetchIssue hs, grantIf_other ha hw Bool.false_ne_true.symm]
    have hexec := (exec_zeroFillIssue hs).trans (congrArg _ (hgrant.trans
      (congrArg (fun z => ((((s.served c).setSlot x.dst _).setCtx c z).testSynced c)) (hput _))))
    by_cases halone : spared e ∨ (r.geom v).pitch ≠ r.width
    · have hone : s.zeroRun c ⟨true, i, r, e⟩ = 1 := zeroRun_alone (halone.imp_left (hspared e).2)
      exact ⟨hone.ge, fun _ => hone, fun hns hp => absurd halone (not_or.2 ⟨hns, not_not.2 hp⟩), hexec⟩
    · obtain ⟨hns, hp⟩ := not_or.1 halone
      obtain ⟨hpos, hfill, hnone, hle, hstop⟩ := plainRun_bounds h1 h16 (hend m g hm hg) (mt (hspared e).1 hns)
        (zeroRun_run (w := ⟨true, i, r, e⟩) (mt (hspared e).1 hns) (not_not.1 hp) hseg)
      refine ⟨hpos, fun h => absurd h halone, fun _ _ => ⟨hfill, fun a ha hb => mt (hspared a).2 (hnone a ha hb), ?_⟩, hexec⟩
      intro m' g' hm' hg'
      obtain rfl : m = m' := Option.some.inj (hm.symm.trans hm')
      obtain rfl : g = g' := Option.some.inj (hg.symm.trans hg')
      exact ⟨hle, hstop.imp_right (Or.imp_right (hspared _).1)⟩

end Sys2Proof.Machine
end

section

namespace Sys2Proof.Machine

/-! ### Claims of several transactions (R14) -/

theorem enqueueAll_append (p : SlotPort) (as bs : List ClaimTxn) :
    p.enqueueAll (as ++ bs) = (p.enqueueAll as).bind (fun q => q.enqueueAll bs) := by
  induction as generalizing p with
  | nil => rfl
  | cons a as ih =>
    simp only [List.cons_append, SlotPort.enqueueAll]
    cases p.enqueue a with
    | none => rfl
    | some q => exact ih q

/-- STOREs and FILLs ahead of a FETCH or FENCE: where all of them fit, the last takes the lowest FREE entry (R16). -/
theorem enqueueAll_plain_one {p : SlotPort} {cs : List ClaimTxn} {c : ClaimTxn} {e : PendEntry} {i : PendIdx}
    (hcs : ∀ d ∈ cs, d.pend = none) (hc : c.pend = some e) (hl : p.queue.length + cs.length + 1 ≤ 48)
    (hi : Lowest (fun i : PendIdx => p.pend[i] = none) i) :
    p.enqueueAll (cs ++ [c]) = some { p with
      queue := p.queue ++ (cs.map ClaimTxn.asQueued ++ [⟨{ c.txn with tag := BitVec.ofNat 8 i }, c.mark⟩])
      pend := p.pend.set i (some e) } := by
  have hdepth : Config.slotQueueDepth = 48 := rfl
  have hone := enqueueAll_one { p with queue := p.queue ++ cs.map ClaimTxn.asQueued } c e i hc (freeEntry_of_lowest hi)
    (by simp only [List.length_append, List.length_map]; omega)
  rw [enqueueAll_append, enqueueAll_plain p cs hcs (by omega), Option.bind_some, ← List.append_assoc]
  exact hone

/-- With no room for all, or no FREE entry for the last, the claim waits. -/
theorem enqueueAll_plain_one_waits {p : SlotPort} {cs : List ClaimTxn} {c : ClaimTxn} {e : PendEntry}
    (hcs : ∀ d ∈ cs, d.pend = none) (hc : c.pend = some e)
    (h : 48 < p.queue.length + cs.length + 1 ∨ ∀ i : PendIdx, p.pend[i] ≠ none) : p.enqueueAll (cs ++ [c]) = none := by
  have hdepth : Config.slotQueueDepth = 48 := rfl
  by_contra hsome
  obtain ⟨q, hq⟩ := Option.ne_none_iff_exists'.1 hsome
  have hroom := enqueueAll_fits hq (by simp)
  rw [List.length_append, List.length_singleton] at hroom
  rcases h with hlong | hfull
  · omega
  · rw [enqueueAll_append, enqueueAll_plain p cs hcs (by omega), Option.bind_some, SlotPort.enqueueAll, SlotPort.enqueue, hc,
      if_pos (by simp only [List.length_append, List.length_map]; omega)] at hq
    simp only [freeEntry_of_full (p := { p with queue := p.queue ++ _ }) hfull] at hq
    exact absurd hq (by simp)

theorem claim_of_ready {s : State} {k : SlotId} (h : s.isReady k = true) (cs : List ClaimTxn) :
    s.claim k cs = ((s.slot k).enqueueAll cs).map (s.setSlot k) := by
  rw [State.claim, if_pos h]
  cases (s.slot k).enqueueAll cs <;> rfl

/-! ### A write claim and what follows it (R106, R107, R134, R135, R138) -/

theorem exec_writeClaimTaken {s : State} (h : s.startup ≠ .held) (c : CtxId) (n : FlightNum) :
    exec (.writeClaimTaken c n) s = .next (s.takeWrite c n) := congrArg _ (unlessHeld_of h _)

theorem exec_verifyClaimTaken {s : State} (h : s.startup ≠ .held) (c : CtxId) (n : FlightNum) :
    exec (.verifyClaimTaken c n) s = .next (s.takeVerify c n) := congrArg _ (unlessHeld_of h _)

theorem exec_cutoverClaimTaken {s : State} (h : s.startup ≠ .held) (c : CtxId) :
    exec (.cutoverClaimTaken c) s = .next (s.takeCutover c) := congrArg _ (unlessHeld_of h _)

theorem takeWrite_waits {s : State} {c : CtxId} (hl : 48 ≤ (s.slot (s.ctx c).dst).queue.length) (n : FlightNum) :
    s.takeWrite c n = s := by
  unfold State.takeWrite
  split
  · rfl
  · split
    · split
      · rfl
      · rw [claim_full _ _ _ hl]
    · rfl

theorem takeWrite_of {s t : State} {c : CtxId} {f : Flight} {r : Region} (hf : (s.ctx c).flight? f.num = some f)
    (hp : f.phase = .staged) (hc : f.claim = true) (hr : s.region f.region = some r)
    (ht : s.claim (s.ctx c).dst [s.walkStore c f r] = some t) : s.takeWrite c f.num = t.written c f r := by
  simp only [State.takeWrite, hf, hp, hc, hr, ht, and_self, if_true]

/-- The gap records once a write has been made: good data repair the gap of their entry (R135). -/
def State.repaired (s : State) (c : CtxId) (f : Flight) : List Gap :=
  if f.poison then s.gaps else s.gaps.filter (fun g : Gap => g ≠ (⟨c, f.region, f.entry⟩ : Gap))

/-- The record of a context once a write has been made (R107, R138). -/
def Ctx.wrote (x : Ctx) (n : Nat) : Ctx :=
  { x with verifyCounter := n, counters := { x.counters with entriesWritten := satAdd x.counters.entriesWritten 1 } }

theorem written_eq (s : State) (c : CtxId) (f : Flight) (r : Region) :
    s.written c f r =
      if (selectVerify r f (s.ctx c).verifyCounter).1 then
        (({ s with gaps := s.repaired c f } : State).setCtx c
          (((s.ctx c).wrote (selectVerify r f (s.ctx c).verifyCounter).2).putFlight
            { f with phase := .verify, claim := s.isReady (s.ctx c).dst }))
      else (({ s with gaps := s.repaired c f } : State).setCtx c
          ((s.ctx c).wrote (selectVerify r f (s.ctx c).verifyCounter).2)).leaveFlight c f := by
  have hgaps : (if f.poison then s.modCtx c fun x => x.wrote (selectVerify r f (s.ctx c).verifyCounter).2
      else (s.modCtx c fun x => x.wrote (selectVerify r f (s.ctx c).verifyCounter).2).dropGap c f.region f.entry) =
      ({ s with gaps := s.repaired c f } : State).setCtx c ((s.ctx c).wrote (selectVerify r f (s.ctx c).verifyCounter).2) := by
    unfold State.repaired
    cases f.poison <;> rfl
  have hctx : (({ s with gaps := s.repaired c f } : State).setCtx c
      ((s.ctx c).wrote (selectVerify r f (s.ctx c).verifyCounter).2)).ctx c =
        (s.ctx c).wrote (selectVerify r f (s.ctx c).verifyCounter).2 := ctx_setCtx_same _ _ _
  unfold State.written
  refine (congrArg (fun t : State => if (selectVerify r f (s.ctx c).verifyCounter).1 then
    t.modCtx c (Ctx.putFlight { f with phase := .verify, claim := t.isReady (t.ctx c).dst }) else t.leaveFlight c f) hgaps).trans ?_
  simp only [modCtx_eq, hctx, setCtx_twice]
  rfl

/-- R99, R107, R111: the record leaves, its staging entry is free, and the context is tested for SYNCED. -/
theorem leaveFlight_eq {s : State} {c : CtxId} {x : Ctx} (hx : s.ctx c = x) (f : Flight) :
    s.leaveFlight c f =
      (({ s with staging := s.staging.set f.staging none } : State).setCtx c (x.dropFlight f.num)).testSynced c := by
  subst hx
  rfl

theorem leaveFlight_setCtx (s : State) (c : CtxId) (y : Ctx) (f : Flight) :
    (s.setCtx c y).leaveFlight c f =
      (({ s with staging := s.staging.set f.staging none } : State).setCtx c (y.dropFlight f.num)).testSynced c :=
  (leaveFlight_eq (ctx_setCtx_same _ _ _) f).trans (congrArg (fun u : State => u.testSynced c)
    (setCtx_twice ({ s with staging := s.staging.set f.staging none } : State) c y _))

theorem takeVerify_of {s t : State} {c : CtxId} {f : Flight} {r : Region} (hf : (s.ctx c).flight? f.num = some f)
    (hp : f.phase = .verify) (hc : f.claim = true) (hr : s.region f.region = some r)
    (ht : s.claim (s.ctx c).dst [s.verifyFetch c f r] = some t) :
    s.takeVerify c f.num = t.setCtx c ((t.ctx c).putFlight { f with claim := false }) := by
  simp only [State.takeVerify, hf, hp, hc, hr, ht, and_self, if_true, modCtx_eq]

theorem takeVerify_waits {s : State} {c : CtxId} {f : Flight} {r : Region} (hf : (s.ctx c).flight? f.num = some f)
    (hr : s.region f.region = some r) (ht : s.claim (s.ctx c).dst [s.verifyFetch c f r] = none) :
    s.takeVerify c f.num = s := by
  simp only [State.takeVerify, hf, hr, ht, ite_self]

theorem takeCutover_of {s t : State} {c : CtxId} (hs : (s.ctx c).state = .cutting) (hc : (s.ctx c).cutClaim = true)
    (ht : s.claim (s.ctx c).dst (s.cutoverClaim c) = some t) :
    s.takeCutover c = t.setCtx c { t.ctx c with cutClaim := false } := by
  simp only [State.takeCutover, hs, hc, ht, and_self, if_true, modCtx_eq]

theorem takeCutover_waits {s : State} {c : CtxId} (ht : s.claim (s.ctx c).dst (s.cutoverClaim c) = none) :
    s.takeCutover c = s := by
  simp only [State.takeCutover, ht, ite_self]

/-- Settles O52: each claim of the engine waits without room, and is otherwise placed whole; what follows a write is
`written_eq`. -/
theorem engineClaimsAreTaken : Obligations.EngineClaimsAreTaken := by
  unfold Obligations.EngineClaimsAreTaken
  intro s c hs x v q
  refine ⟨fun f r hf hr hc hready => ?_, fun hcut hclaim hready => ?_⟩
  · intro addr
    refine ⟨fun hp hl => ?_, fun hp hl => ?_, fun hp => ⟨fun hw => ?_, fun i hl hi => ?_⟩⟩
    · exact (exec_writeClaimTaken hs _ _).trans (congrArg _ (takeWrite_waits hl _))
    · have ht := claim_plain s x.dst (s.walkStore c f r) hready rfl hl
      have htake := (exec_writeClaimTaken hs _ _).trans
        (congrArg _ ((takeWrite_of hf hp hc hr ht).trans (written_eq _ c f r)))
      have hstill : (s.setSlot x.dst (s.queued x.dst [⟨(s.walkStore c f r).txn, .bridgeGenerated⟩])).isReady x.dst =
          f.claim := by
        rw [hc, ← hready]
        simp [State.isReady, State.queued]
      intro sel y u
      refine ⟨fun hsel => ?_, fun hsel => ?_⟩
      · exact htake.trans (congrArg _ ((if_pos hsel).trans
          (congrArg (fun b => u.setCtx c (y.putFlight { f with phase := .verify, claim := b })) hstill)))
      · exact htake.trans (congrArg _ ((if_neg (Bool.eq_false_iff.1 hsel)).trans (leaveFlight_setCtx u c y f)))
    · refine (exec_verifyClaimTaken hs _ _).trans (congrArg _ (takeVerify_waits hf hr ?_))
      exact hw.elim (claim_full s _ _) (claim_nofree s _ (s.verifyFetch c f r) _ rfl)
    · have ht := claim_pend s x.dst (s.verifyFetch c f r) _ i hready rfl hl hi
      exact (exec_verifyClaimTaken hs _ _).trans (congrArg _ (takeVerify_of hf hp hc hr ht))
  · intro stores
    refine ⟨fun hw => ?_, fun i hl hi => ?_⟩
    · refine (exec_cutoverClaimTaken hs _).trans (congrArg _ (takeCutover_waits ?_))
      rw [claim_of_ready hready, State.cutoverClaim, enqueueAll_plain_one_waits (by simp) rfl (by simpa using hw)]
      rfl
    · refine (exec_cutoverClaimTaken hs _).trans (congrArg _ ((takeCutover_of hcut hclaim
        ((claim_of_ready hready _).trans (congrArg _ (enqueueAll_plain_one (by simp) rfl (by simpa using hl) hi)))).trans ?_))
      simp only [List.map_map]
      rfl

end Sys2Proof.Machine
end

section

namespace Sys2Proof.Machine

/-! ### A reply to the Migration Engine (R18, R19) -/

/-- The entry answered is FREE, and the RETURN goes to its owner. -/
theorem exec_returnReceived_answers {s : State} {k : SlotId} {w : Frame} {t : Txn} {i : PendIdx} {o : Origin}
    (h : Answers s k w t i o .ret) : exec (.returnReceived k w) s = .next ((afterReply s k i).deliverReturn o t) := by
  obtain ⟨hb, hr, hi, ⟨-, he⟩ | ⟨hk, -⟩⟩ := h
  · exact exec_returnReceived_matched hb hr hi he rfl rfl rfl
  · exact absurd hk (by decide)

theorem exec_fenceDoneReceived_answers {s : State} {k : SlotId} {w : Frame} {t : Txn} {i : PendIdx} {o : Origin}
    (h : Answers s k w t i o .fenceDone) :
    exec (.fenceDoneReceived k w) s = .next ((afterReply s k i).deliverFence o) := by
  obtain ⟨hb, hr, hi, ⟨hk, -⟩ | ⟨-, he⟩⟩ := h
  · exact absurd hk (by decide)
  · exact exec_fenceDoneReceived_matched hb hr hi he rfl rfl

/-! ### The RETURN of a walk fetch (R105, R106, R133) -/

/-- R106: the record is STAGED, with its write claim where the destination is READY. -/
theorem stage_eq {s : State} {c : CtxId} {x : Ctx} (hx : s.ctx c = x) (f : Flight) :
    s.stage c f = s.setCtx c { x with
      flights := flightsWith x { f with phase := .staged, claim := s.isReady x.dst } } := by
  subst hx
  rfl

theorem stage_ready {s : State} {c : CtxId} {x : Ctx} {b : Bool} (hx : s.ctx c = x) (hb : s.isReady x.dst = b) (f : Flight) :
    s.stage c f = s.setCtx c { x with flights := flightsWith x { f with phase := .staged, claim := b } } := by
  subst hb
  exact stage_eq hx f

/-- A record staged with data: what matters of the state is its context, its staging and whether the destination is READY. -/
theorem stage_filled {s : State} {c : CtxId} {x : Ctx} {st : Vector (Option (List Word)) 32} {b : Bool} (hx : s.ctx c = x)
    (hs : s.staging = st) (hb : s.isReady x.dst = b) (g : StagingId) (d : List Word) (f : Flight) :
    (s.setStaging g (some d)).stage c f = ({ s with staging := st.set g (some d) } : State).setCtx c { x with
      flights := flightsWith x { f with phase := .staged, claim := b } } := by
  subst hx hs hb
  rfl

theorem staging_raise (s : State) (n : NoticeKind) (d : BitVec 8) : (s.raise n d).staging = s.staging := by
  rw [raise_eq]

theorem walkReturn_good {s : State} {c : CtxId} {f : Flight} (hf : (s.ctx c).flight? f.num = some f) (hp : f.phase = .fetch)
    (data : List Word) : s.walkReturn c f.num retOk data = (s.setStaging f.staging (some data)).stage c f := by
  simp only [State.walkReturn, hf, hp, ne_eq, not_true_eq_false, if_false, if_true]

theorem walkReturn_corrected {s : State} {c : CtxId} {f : Flight} (hf : (s.ctx c).flight? f.num = some f)
    (hp : f.phase = .fetch) (data : List Word) :
    s.walkReturn c f.num retCorrected data = (((s.setStaging f.staging (some data)).setCtx c
      { s.ctx c with counters := (s.ctx c).counters.addCorrected }).stage c f) := by
  have hne : retCorrected ≠ retOk := by decide
  simp only [State.walkReturn, hf, hp, hne, ne_eq, not_true_eq_false, if_false, if_true, modCtx_eq]
  rfl

theorem walkReturn_uncorrectable {s : State} {c : CtxId} {f : Flight} (hf : (s.ctx c).flight? f.num = some f)
    (hp : f.phase = .fetch) (data : List Word) : s.walkReturn c f.num retUncorrectable data = s.unreadable c f := by
  have hok : retUncorrectable ≠ retOk := by decide
  have hne : retUncorrectable ≠ retCorrected := by decide
  simp only [State.walkReturn, hf, hp, hok, hne, ne_eq, not_true_eq_false, if_false, if_true]

theorem walkReturn_refused {s : State} {c : CtxId} {f : Flight} (hf : (s.ctx c).flight? f.num = some f)
    (hp : f.phase = .fetch) (data : List Word) : s.walkReturn c f.num 3 data = s.failCtx c .addressRefused := by
  have hok : (3 : BitVec 4) ≠ retOk := by decide
  have hne : (3 : BitVec 4) ≠ retCorrected := by decide
  have hun : (3 : BitVec 4) ≠ retUncorrectable := by decide
  simp only [State.walkReturn, hf, hp, hok, hne, hun, ne_eq, not_true_eq_false, if_false]

theorem unreadable_full {s : State} {c : CtxId} {f : Flight} (hg : (⟨c, f.region, f.entry⟩ : Gap) ∉ s.gaps)
    (hl : 64 ≤ s.gaps.length) : s.unreadable c f = s.failCtx c .gapsFull :=
  if_pos (by simp [hg, hl, Config.gapListDepth])

/-- R133: with its gap recorded, the entry is staged as the poison word of its region. -/
theorem unreadable_poison {s : State} {c : CtxId} {f : Flight} {r : Region}
    (hg : (⟨c, f.region, f.entry⟩ : Gap) ∈ s.gaps ∨ s.gaps.length < 64) (hr : s.region f.region = some r) :
    s.unreadable c f = (((s.addGap c f.region f.entry).setStaging f.staging (some (List.replicate r.width r.poison))).stage c
      { f with poison := true }) := by
  have hroom : ¬ (!(s.gaps.contains ⟨c, f.region, f.entry⟩) && decide (Config.gapListDepth ≤ s.gaps.length)) = true := by
    rcases hg with hg | hg
    · simp [hg]
    · simp [Config.gapListDepth, Nat.not_le.2 hg]
  rw [State.unreadable, if_neg hroom, hr]

theorem addGap_known {s : State} {c : CtxId} {i : RegionId} {e : Nat} (h : (⟨c, i, e⟩ : Gap) ∈ s.gaps) :
    s.addGap c i e = s := if_pos (by simpa using h)

theorem addGap_new {s : State} {c : CtxId} {i : RegionId} {e : Nat} (h : (⟨c, i, e⟩ : Gap) ∉ s.gaps) :
    s.addGap c i e = (({ s with gaps := s.gaps ++ [(⟨c, i, e⟩ : Gap)] } : State).setCtx c
      { s.ctx c with counters := (s.ctx c).counters.addGap }).raise .gapAdded (BitVec.ofNat 8 c) :=
  if_neg (by simpa using h)

/-- Settles O53: the RETURN reaches the record in FETCH, and its status says what becomes of it. -/
theorem walkReturnByStatus : Obligations.WalkReturnByStatus := by
  unfold Obligations.WalkReturnByStatus
  intro s k w t i c f r ha hf hp hr x u put filled poison
  have hexec : ∀ st, t.status = st → exec (.returnReceived k w) s = .next (u.walkReturn c f.num st t.data) := by
    rintro _ rfl
    exact exec_returnReceived_answers ha
  have hfu : (u.ctx c).flight? f.num = some f := hf
  refine ⟨fun h => ?_, fun h => ?_, fun h hg => ?_, fun h hg hl => ?_, fun h hg hl => ?_, fun h => ?_⟩
  · exact (hexec _ h).trans (congrArg _ ((walkReturn_good hfu hp _).trans (stage_eq rfl f)))
  · refine (hexec _ h).trans (congrArg _ ((walkReturn_corrected hfu hp _).trans ?_))
    exact (stage_eq (ctx_setCtx_same _ _ _) f).trans (setCtx_twice _ _ _ _)
  · refine (hexec _ h).trans (congrArg _ ((walkReturn_uncorrectable hfu hp _).trans ?_))
    rw [unreadable_poison (s := u) (.inl hg) hr, addGap_known (s := u) hg]
    exact stage_eq rfl _
  · intro y
    refine (hexec _ h).trans (congrArg _ ((walkReturn_uncorrectable hfu hp _).trans ?_))
    rw [unreadable_poison (s := u) (.inr hl) hr, addGap_new (s := u) hg]
    exact stage_filled ((ctx_raise _ _ _ c).trans (ctx_setCtx_same _ _ _)) (staging_raise _ _ _) (isReady_raise _ _ _ _) _ _ _
  · exact (hexec _ h).trans (congrArg _ ((walkReturn_uncorrectable hfu hp _).trans (unreadable_full (s := u) hg hl)))
  · exact (hexec _ h).trans (congrArg _ (walkReturn_refused hfu hp _))

end Sys2Proof.Machine
end

section

namespace Sys2Proof.Machine

/-! ### The spare map of an entry (R141, R142) -/

theorem isRemap_iff {z : SpareRec} {r : RegionId} {e : Nat} :
    z.isRemap r e = true ↔ ∃ v n o q, z = .remap r e v n o q := by
  cases z with
  | remap i a v n o q =>
    simp only [SpareRec.isRemap, Bool.and_eq_true, beq_iff_eq]
    constructor
    · rintro ⟨rfl, rfl⟩
      exact ⟨v, n, o, q, rfl⟩
    · rintro ⟨_, _, _, _, h⟩
      cases h
      exact ⟨rfl, rfl⟩
  | retired => simp [SpareRec.isRemap]

/-- The entry's REMAP record, where the map holds one, names the entry. -/
theorem remap_of_find {m : List SpareRec} {r : RegionId} {e : Nat} {z : SpareRec} (h : m.find? (SpareRec.isRemap r e) = some z) :
    ∃ v n o q, z = .remap r e v n o q := isRemap_iff.1 (List.find?_some h :)

theorem ownTally_none {m : List SpareRec} {r : RegionId} {e : Nat} (h : m.find? (SpareRec.isRemap r e) = none) (c : CtxId) :
    ownTally m c r e = 0 := by
  simp only [ownTally, h]

theorem ownTally_some {m : List SpareRec} {r i : RegionId} {e a n q : Nat} {v : View} {o : Option CtxId}
    (h : m.find? (SpareRec.isRemap r e) = some (.remap i a v n o q)) (c : CtxId) :
    ownTally m c r e = if o = some c then q else 0 := by
  simp only [ownTally, h]

/-- R142 step 1: the context has spent its two spares on the entry. -/
theorem ownTally_eq_two_iff {m : List SpareRec} {c : CtxId} {r : RegionId} {e : Nat} :
    ownTally m c r e = 2 ↔ ∃ a n, m.find? (SpareRec.isRemap r e) = some (.remap r e a n (some c) 2) := by
  cases h : m.find? (SpareRec.isRemap r e) with
  | none => simp [ownTally_none h]
  | some z =>
    obtain ⟨v, n, o, q, rfl⟩ := remap_of_find h
    rw [ownTally_some h]
    by_cases ho : o = some c <;> simp [ho]

theorem uses_iff {z : SpareRec} {i : RegionId} {v : View} {n : Nat} :
    z.uses i v n = true ↔ (∃ e o q, z = .remap i e v n o q) ∨ z = .retired i v n := by
  cases z <;> simp [SpareRec.uses, and_assoc]

/-- R141: a spare is in use in a map. -/
def SpareUsed (m : List SpareRec) (i : RegionId) (v : View) (n : Nat) : Prop :=
  ∃ z ∈ m, (∃ e o q, z = .remap i e v n o q) ∨ z = .retired i v n

theorem spareUsed_iff {m : List SpareRec} {i : RegionId} {v : View} {n : Nat} :
    (!(m.any (SpareRec.uses i v n))) = true ↔ ¬ SpareUsed m i v n := by
  simp only [Bool.not_eq_true', ← Bool.not_eq_true, List.any_eq_true, uses_iff]
  rfl

theorem freeSpare_none {m : List SpareRec} {i : RegionId} {r : Region} {v : View}
    (h : ∀ n, n < (r.geom v).spareCount → SpareUsed m i v n) : freeSpare m i r v = none :=
  List.find?_eq_none.2 fun n hn hf => spareUsed_iff.1 hf (h n (List.mem_range.1 hn))

/-- R142 step 2: the lowest spare that is not in use. -/
theorem freeSpare_lowest {m : List SpareRec} {i : RegionId} {r : Region} {v : View} {n : Nat}
    (hn : n < (r.geom v).spareCount) (hfree : ¬ SpareUsed m i v n) (hlow : ∀ j, j < n → SpareUsed m i v j) :
    freeSpare m i r v = some n := by
  rw [freeSpare, List.find?_range_eq_some]
  refine ⟨spareUsed_iff.2 hfree, List.mem_range.2 hn, fun j hj => ?_⟩
  simpa using mt spareUsed_iff.1 (not_not.2 (hlow j hj))

/-- A record that is not the entry's REMAP record stays when that one is retired. -/
theorem retire_of_not_isRemap {z : SpareRec} {r : RegionId} {e : Nat} (h : ¬ z.isRemap r e = true) : z.retire r e = z := by
  cases z with
  | remap => exact if_neg (by simpa [SpareRec.isRemap] using h)
  | retired => rfl

theorem map_retire_of_none {m : List SpareRec} {r : RegionId} {e : Nat} (h : m.find? (SpareRec.isRemap r e) = none) :
    m.map (SpareRec.retire r e) = m := by
  have hid : m.map (SpareRec.retire r e) = m.map id :=
    List.map_congr_left fun z hz => retire_of_not_isRemap (List.find?_eq_none.1 h z hz)
  rw [hid, List.map_id]

/-! ### The RETURN of a read-back (R140, R142) -/

/-- The context once a read-back has been counted (R140). -/
def State.verified (s : State) (c : CtxId) : State :=
  s.setCtx c { s.ctx c with counters := (s.ctx c).counters.addVerify }

theorem verifyReturn_match {s : State} {c : CtxId} {f : Flight} {st : BitVec 4} {data : List Word}
    (hf : (s.ctx c).flight? f.num = some f) (hp : f.phase = .verify) (hst : st = 0 ∨ st = 1)
    (hd : s.staging[f.staging] = some data) : s.verifyReturn c f.num st data = (s.verified c).leaveFlight c f := by
  have hgood : st = retOk ∨ st = retCorrected := hst
  simp only [State.verifyReturn, hf, hp, hgood, hd, ne_eq, not_true_eq_false, if_false, if_true, modCtx_eq]
  rfl

theorem verifyReturn_mismatch {s : State} {c : CtxId} {f : Flight} {st : BitVec 4} {data : List Word}
    (hf : (s.ctx c).flight? f.num = some f) (hp : f.phase = .verify)
    (h : st = 2 ∨ ((st = 0 ∨ st = 1) ∧ s.staging[f.staging] ≠ some data)) :
    s.verifyReturn c f.num st data = (s.verified c).mismatch c f := by
  rcases h with rfl | ⟨hst, hd⟩
  · have hbad : ¬ ((2 : BitVec 4) = retOk ∨ (2 : BitVec 4) = retCorrected) := by decide
    have hun : (2 : BitVec 4) = retUncorrectable := rfl
    simp only [State.verifyReturn, hf, hp, hbad, ne_eq, not_true_eq_false, if_false, modCtx_eq]
    rw [if_pos hun]
    rfl
  · have hgood : st = retOk ∨ st = retCorrected := hst
    simp only [State.verifyReturn, hf, hp, hgood, hd, ne_eq, not_true_eq_false, if_false, if_true, modCtx_eq]
    rfl

theorem verifyReturn_refused {s : State} {c : CtxId} {f : Flight} (data : List Word)
    (hf : (s.ctx c).flight? f.num = some f) (hp : f.phase = .verify) :
    s.verifyReturn c f.num 3 data = (s.verified c).failCtx c .addressRefused := by
  have hbad : ¬ ((3 : BitVec 4) = retOk ∨ (3 : BitVec 4) = retCorrected) := by decide
  have hun : ¬ (3 : BitVec 4) = retUncorrectable := by decide
  simp only [State.verifyReturn, hf, hp, hbad, hun, ne_eq, not_true_eq_false, if_false, modCtx_eq]
  rfl

theorem mismatch_spent {s : State} {c : CtxId} {f : Flight}
    (h : ownTally (s.spareMap (s.ctx c).dst) c f.region f.entry = 2) : s.mismatch c f = s.failCtx c .verifyFailed :=
  if_pos h

theorem mismatch_no_spare {s : State} {c : CtxId} {f : Flight} {r : Region} (hr : s.region f.region = some r)
    (h : ¬ ownTally (s.spareMap (s.ctx c).dst) c f.region f.entry = 2)
    (hn : freeSpare (s.spareMap (s.ctx c).dst) f.region r (s.ctx c).dstView = none) :
    s.mismatch c f = s.failCtx c .sparesExhausted := by
  simp only [State.mismatch, hr, hn]
  exact if_neg h

theorem mismatch_full {s : State} {c : CtxId} {f : Flight} {r : Region} (hr : s.region f.region = some r)
    (h : ¬ ownTally (s.spareMap (s.ctx c).dst) c f.region f.entry = 2)
    (hm : 32 ≤ (s.spareMap (s.ctx c).dst).length) :
    s.mismatch c f = s.failCtx c .sparesExhausted := by
  cases hn : freeSpare (s.spareMap (s.ctx c).dst) f.region r (s.ctx c).dstView with
  | none => exact mismatch_no_spare hr h hn
  | some n =>
    simp only [State.mismatch, hr, hn]
    exact (if_neg h).trans (if_pos hm)

theorem mismatch_takes {s : State} {c : CtxId} {f : Flight} {r : Region} {n : Nat} (hr : s.region f.region = some r)
    (h : ¬ ownTally (s.spareMap (s.ctx c).dst) c f.region f.entry = 2)
    (hn : freeSpare (s.spareMap (s.ctx c).dst) f.region r (s.ctx c).dstView = some n)
    (hm : (s.spareMap (s.ctx c).dst).length < 32) : s.mismatch c f = s.takeSpare c f n := by
  simp only [State.mismatch, hr, hn]
  exact (if_neg h).trans (if_neg (Nat.not_le.2 hm))

/-- R142 steps 4 to 7. -/
theorem takeSpare_eq {s : State} {c : CtxId} {x : Ctx} (hx : s.ctx c = x) (f : Flight) (n : Nat) :
    s.takeSpare c f n =
      (((s.setSpareMap x.dst (withSpare (s.spareMap x.dst) c f.region f.entry x.dstView n)).setCtx c
        { x with counters := x.counters.addSpare }).raise .spareUsed (BitVec.ofNat 8 c)).setCtx c { x with
          counters := x.counters.addSpare
          flights := flightsWith x { f with rewrite := true, phase := .staged, claim := s.isReady x.dst } } := by
  subst hx
  exact stage_ready ((ctx_raise _ _ _ c).trans (ctx_setCtx_same _ _ _)) (isReady_raise _ _ _ _) _

/-- Settles O54: the RETURN reaches the record in VERIFY; a mismatch goes through R142. -/
theorem readBackMatchesOrTakesASpare : Obligations.ReadBackMatchesOrTakesASpare := by
  unfold Obligations.ReadBackMatchesOrTakesASpare
  intro s k w t i c f r ha hf hp hr x y u m v old spent used mismatch
  have hexec : exec (.returnReceived k w) s = .next ((afterReply s k i).verifyReturn c f.num t.status t.data) :=
    exec_returnReceived_answers ha
  have hfu : ((afterReply s k i).ctx c).flight? f.num = some f := hf
  have hu : (afterReply s k i).verified c = u := rfl
  have hctx : u.ctx c = y := ctx_setCtx_same _ _ _
  have hru : u.region f.region = some r := hr
  have hmis : mismatch → exec (.returnReceived k w) s = .next (u.mismatch c f) := fun h =>
    hexec.trans (congrArg _ (verifyReturn_mismatch hfu hp h))
  have htally : ownTally (u.spareMap (u.ctx c).dst) c f.region f.entry = 2 ↔ spent := by
    rw [hctx]
    exact ownTally_eq_two_iff
  refine ⟨fun hst hd => ?_, fun hst => ?_, fun h hs => ?_, fun h hs hfull => ?_, fun n h hs hn hfree hlow hlen => ?_⟩
  · exact hexec.trans (congrArg _ ((verifyReturn_match hfu hp hst hd).trans (leaveFlight_eq (s := u) hctx f)))
  · rw [hst] at hexec
    exact hexec.trans (congrArg _ (verifyReturn_refused _ hfu hp))
  · exact (hmis h).trans (congrArg _ (mismatch_spent (htally.2 hs)))
  · refine (hmis h).trans (congrArg _ ?_)
    rcases hfull with hall | hlong
    · exact mismatch_no_spare hru (mt htally.1 hs) (by rw [hctx]; exact freeSpare_none hall)
    · exact mismatch_full hru (mt htally.1 hs) (by rw [hctx]; exact hlong)
  · have htake := (hmis h).trans (congrArg _ ((mismatch_takes hru (mt htally.1 hs)
      (by rw [hctx]; exact freeSpare_lowest hn hfree hlow) (by rw [hctx]; exact hlen)).trans (takeSpare_eq hctx f n)))
    intro took
    have htook : ∀ l, withSpare m c f.region f.entry v n = l → exec (.returnReceived k w) s = .next (took l) := by
      rintro _ rfl
      exact htake
    refine ⟨fun hold => htook _ ?_, fun a z o q hold => htook _ ?_⟩
    · rw [withSpare, map_retire_of_none hold, ownTally_none hold]
    · rw [withSpare, ownTally_some hold]
      by_cases ho : o = some c <;> simp only [ho, if_true, if_false, zero_add]

end Sys2Proof.Machine
end

section

namespace Sys2Proof.Machine

/-! ### The completion of a cutover (R47, R143, R154, R155, R161) -/

@[simp] theorem entry_deferredSent (s : State) (c : CtxId) (st : ReplyStatus) (ws : List Word) (b : BoardId) :
    (s.deferredSent c st ws).entry b = s.entry b := by
  unfold State.deferredSent
  cases (s.ctx c).deferred <;> rfl

@[simp] theorem isReady_deferredSent (s : State) (c : CtxId) (st : ReplyStatus) (ws : List Word) (k : SlotId) :
    (s.deferredSent c st ws).isReady k = s.isReady k := by
  unfold State.deferredSent
  cases (s.ctx c).deferred <;> rfl

@[simp] theorem entry_raise (s : State) (n : NoticeKind) (d : BitVec 8) (b : BoardId) : (s.raise n d).entry b = s.entry b := by
  rw [raise_eq]
  rfl

theorem isReady_afterReply (s : State) (k : SlotId) (i : PendIdx) (j : SlotId) :
    (afterReply s k i).isReady j = s.isReady j := by
  simp only [State.isReady, afterReply, slot_setSlot]
  split
  · subst j
    rfl
  · rfl

theorem releaseTwinned_bound {s : State} {c : CtxId} (h : (s.entry (s.ctx c).board).twinState = .building)
    (hb : (s.entry (s.ctx c).board).bound = some c) :
    s.releaseTwinned c = s.setEntry (s.ctx c).board { s.entry (s.ctx c).board with twinState := .twinned, bound := none } :=
  if_pos ⟨h, hb⟩

theorem cutoverDone_of {s : State} {c : CtxId} (hs : (s.ctx c).state = .cutting)
    (h : (s.entry (s.ctx c).board).twinState = .building) (hb : (s.entry (s.ctx c).board).bound = some c) :
    s.cutoverDone c =
      (((({ s.setEntry (s.ctx c).board { s.entry (s.ctx c).board with twinState := .twinned, bound := none } with
          spares := s.spares.map (fun m : List SpareRec => m.map (SpareRec.disown c)) } : State).setCtx c
            (s.ctx c).complete).deferredSent c .done []).raise .ctxDone (BitVec.ofNat 8 c)).primaryCheck (s.ctx c).board := by
  rw [State.cutoverDone, if_pos hs, releaseTwinned_bound h hb, sendDeferred_eq]
  rfl

theorem primaryCheck_ready {s : State} {b : BoardId} {p : SlotId} (hp : (s.entry b).primary = some p)
    (hr : s.isReady p = true) : s.primaryCheck b = s := by
  simp only [State.primaryCheck, hp, hr, if_true]

theorem primaryCheck_lost {s : State} {b : BoardId} {p : SlotId} (hp : (s.entry b).primary = some p)
    (hr : s.isReady p = false) : s.primaryCheck b = s.primaryLoss b := by
  simp only [State.primaryCheck, hp, hr, Bool.false_eq_true, if_false]

/-- Settles O55: the FENCE-DONE of the cutover's entry completes it, and the check of the primary is the rule R58. -/
theorem cutoverCompletes : Obligations.CutoverCompletes := by
  unfold Obligations.CutoverCompletes
  intro s k w t i c p q ha hs x b e hst hbound hp hq twinned u done
  have hexec : exec (.fenceDoneReceived k w) s = .next (done.primaryCheck b) :=
    (exec_fenceDoneReceived_answers ha).trans (congrArg _ (cutoverDone_of (s := u) hs hst hbound))
  have hentry : done.entry b = twinned :=
    (entry_raise _ _ _ _).trans ((entry_deferredSent _ _ _ _ _).trans (entry_setEntry_same u b twinned))
  have hready : ∀ j, done.isReady j = s.isReady j := fun j =>
    (isReady_raise _ _ _ _).trans ((isReady_deferredSent _ _ _ _ _).trans (isReady_afterReply s k i j))
  have hprimary : (done.entry b).primary = some p := (congrArg SteerEntry.primary hentry).trans hp
  have hloss := primaryLoss_twinned (s := done) (congrArg SteerEntry.twinState hentry) hprimary
    ((congrArg SteerEntry.twin hentry).trans hq)
  rw [hentry, hready] at hloss
  refine ⟨fun h => ?_, fun hnp hnq hauto => ?_, fun hnp hnq => ?_⟩
  · by_cases hr : s.isReady p = true
    · rw [hexec, primaryCheck_ready hprimary ((hready p).trans hr)]
    · obtain ⟨hrq, hauto⟩ := h.resolve_left hr
      rw [hexec, primaryCheck_lost hprimary ((hready p).trans (Bool.eq_false_iff.2 hr)), hloss, if_pos hrq,
        if_neg (Bool.eq_false_iff.1 hauto)]
  · rw [hexec, primaryCheck_lost hprimary ((hready p).trans hnp), hloss, if_pos hnq, if_pos hauto]
    rfl
  · rw [hexec, primaryCheck_lost hprimary ((hready p).trans hnp), hloss, if_neg (Bool.eq_false_iff.1 hnq)]
    rfl

end Sys2Proof.Machine
end

section

namespace Sys2Proof.Machine

/-! ### The region of an address and the next region's start (R66, R69, R70) -/

theorem covers_iff {r : Region} {v : View} {a : Nat} : r.covers v a = true ↔ r.Extent v a := by
  exact (Bool.and_eq_true_iff).trans (and_congr decide_eq_true_iff decide_eq_true_iff)

theorem lookup_some {s : State} {l : SetId} {v : View} {a : Nat} {i : RegionId} {r : Region}
    (h : s.lookup l v a = some (i, r)) : s.region i = some r ∧ r.set = l ∧ r.Extent v a := by
  obtain ⟨hr, hs⟩ := mem_regionsOf.1 (List.mem_of_find?_eq_some h)
  exact ⟨hr, hs, covers_iff.1 (List.find?_some h :)⟩

theorem lookup_none {s : State} {l : SetId} {v : View} {a : Nat} (h : s.lookup l v a = none) {i : RegionId} {r : Region}
    (hr : s.region i = some r) (hs : r.set = l) : ¬ r.Extent v a := fun he =>
  List.find?_eq_none.1 h (i, r) (mem_regionsOf.2 ⟨hr, hs⟩) (covers_iff.2 he)

/-- The least of a number and the starts above an address that a list of regions gives. -/
def startAbove (v : View) (a : Nat) (xs : List (RegionId × Region)) (m : Nat) : Nat :=
  xs.foldl (fun m x => if a < (x.2.geom v).base.toNat then min m (x.2.geom v).base.toNat else m) m

theorem nextStart_eq (s : State) (l : SetId) (v : View) (a : Nat) :
    s.nextStart l v a = startAbove v a (s.regionsOf l) 4294967296 := rfl

theorem startAbove_cons (v : View) (a : Nat) (x : RegionId × Region) (xs : List (RegionId × Region)) (m : Nat) :
    startAbove v a (x :: xs) m =
      startAbove v a xs (if a < (x.2.geom v).base.toNat then min m (x.2.geom v).base.toNat else m) := rfl

theorem startAbove_le (v : View) (a : Nat) (xs : List (RegionId × Region)) (m : Nat) : startAbove v a xs m ≤ m := by
  induction xs generalizing m with
  | nil => exact le_rfl
  | cons x xs ih =>
    rw [startAbove_cons]
    refine (ih _).trans ?_
    split
    · exact min_le_left _ _
    · exact le_rfl

theorem startAbove_le_start {v : View} {a : Nat} {xs : List (RegionId × Region)} {x : RegionId × Region} (h : x ∈ xs)
    (ha : a < (x.2.geom v).base.toNat) (m : Nat) : startAbove v a xs m ≤ (x.2.geom v).base.toNat := by
  induction xs generalizing m with
  | nil => exact absurd h (List.not_mem_nil)
  | cons y ys ih =>
    rw [startAbove_cons]
    rcases List.mem_cons.1 h with rfl | hy
    · rw [if_pos ha]
      exact (startAbove_le _ _ _ _).trans (min_le_right _ _)
    · exact ih hy _

/-- The value is the number given or the start of one of the regions, above the address. -/
theorem startAbove_cases (v : View) (a : Nat) (xs : List (RegionId × Region)) (m : Nat) :
    startAbove v a xs m = m ∨ ∃ x ∈ xs, a < (x.2.geom v).base.toNat ∧ startAbove v a xs m = (x.2.geom v).base.toNat := by
  induction xs generalizing m with
  | nil => exact .inl rfl
  | cons x xs ih =>
    rw [startAbove_cons]
    rcases ih (if a < (x.2.geom v).base.toNat then min m (x.2.geom v).base.toNat else m) with heq | ⟨y, hy, ha, heq⟩
    · rw [heq]
      by_cases ha : a < (x.2.geom v).base.toNat
      · rw [if_pos ha]
        rcases min_choice m (x.2.geom v).base.toNat with hm | hm
        · exact .inl hm
        · exact .inr ⟨x, List.mem_cons_self, ha, hm⟩
      · exact .inl (if_neg ha)
    · exact .inr ⟨y, List.mem_cons_of_mem _ hy, ha, heq⟩

theorem lt_nextStart {s : State} {l : SetId} {v : View} {a : Nat} (ha : a < 4294967296) : a < s.nextStart l v a := by
  rw [nextStart_eq]
  rcases startAbove_cases v a (s.regionsOf l) 4294967296 with heq | ⟨x, -, hx, heq⟩ <;> omega

theorem nextStart_le {s : State} {l : SetId} {v : View} {a : Nat} {i : RegionId} {r : Region} (hr : s.region i = some r)
    (hs : r.set = l) (ha : a < (r.geom v).base.toNat) : s.nextStart l v a ≤ (r.geom v).base.toNat :=
  startAbove_le_start (x := (i, r)) (mem_regionsOf.2 ⟨hr, hs⟩) ha _

theorem nextStart_cases (s : State) (l : SetId) (v : View) (a : Nat) : s.nextStart l v a = 4294967296 ∨
    ∃ i r, s.region i = some r ∧ r.set = l ∧ (r.geom v).base.toNat = s.nextStart l v a := by
  rcases startAbove_cases v a (s.regionsOf l) 4294967296 with heq | ⟨⟨i, r⟩, hx, -, heq⟩
  · exact .inl heq
  · obtain ⟨hr, hs⟩ := mem_regionsOf.1 hx
    exact .inr ⟨i, r, hr, hs, heq.symm⟩

/-! ### One piece (R69, R70) -/

/-- A piece outside every region. -/
def outsidePiece (s : State) (l : SetId) (v : View) (a pos rem : Nat) : Piece :=
  { kind := .outside, region := none, entry := 0, offset := 0, len := min (s.nextStart l v a - a) rem, view := v
    addr := a, pos := pos, trans := 0 }

/-- A piece of data words, and one of pad words, of the entry of a region in which an address lies. -/
def dataPiece (i : RegionId) (r : Region) (v : View) (e w a pos rem : Nat) : Piece :=
  { kind := r.mode.dataKind, region := some i, entry := e, offset := w, len := min (r.width - w) rem, view := v
    addr := a, pos := pos, trans := r.entryAddr v.other e w }

def padPiece (i : RegionId) (r : Region) (v : View) (e w a pos rem : Nat) : Piece :=
  { kind := .pad, region := some i, entry := e, offset := w, len := min ((r.geom v).pitch - w) rem, view := v
    addr := a, pos := pos, trans := 0 }

/-- Word `w` of entry `e` of a region stands at address `a`. -/
structure Region.Holds (r : Region) (v : View) (e w a : Nat) : Prop where
  entry : e < r.entries
  word : w < (r.geom v).pitch
  addr : a = (r.geom v).base.toNat + e * (r.geom v).pitch + w

theorem Region.Extent.holds {r : Region} {v : View} {a : Nat} (h : r.Extent v a) :
    r.Holds v ((a - (r.geom v).base.toNat) / (r.geom v).pitch) ((a - (r.geom v).base.toNat) % (r.geom v).pitch) a := by
  obtain ⟨hlow, hhigh⟩ := h
  have hpitch : 0 < (r.geom v).pitch := by
    by_contra h0
    have hzero : (r.geom v).pitch = 0 := by omega
    rw [hzero, Nat.mul_zero] at hhigh
    omega
  refine ⟨(Nat.div_lt_iff_lt_mul hpitch).2 (by omega), Nat.mod_lt _ hpitch, ?_⟩
  have hdiv := Nat.div_add_mod (a - (r.geom v).base.toNat) (r.geom v).pitch
  rw [Nat.mul_comm] at hdiv
  omega

/-- A piece begins outside every region, at a data word of an entry, or at a pad word of one. -/
theorem pieceAt_cases (s : State) (l : SetId) (v : View) (a pos rem : Nat) :
    (s.lookup l v a = none ∧ s.pieceAt l v a pos rem = outsidePiece s l v a pos rem) ∨
    ∃ i r e w, s.region i = some r ∧ r.set = l ∧ r.Holds v e w a ∧
      ((w < r.width ∧ s.pieceAt l v a pos rem = dataPiece i r v e w a pos rem) ∨
       (r.width ≤ w ∧ s.pieceAt l v a pos rem = padPiece i r v e w a pos rem)) := by
  cases h : s.lookup l v a with
  | none =>
    refine .inl ⟨rfl, ?_⟩
    simp only [State.pieceAt, h]
    rfl
  | some x =>
    obtain ⟨i, r⟩ := x
    obtain ⟨hr, hs, he⟩ := lookup_some h
    refine .inr ⟨i, r, _, _, hr, hs, he.holds, ?_⟩
    by_cases hw : (a - (r.geom v).base.toNat) % (r.geom v).pitch < r.width
    · refine .inl ⟨hw, ?_⟩
      simp only [State.pieceAt, h, hw, if_true]
      rfl
    · refine .inr ⟨Nat.not_lt.1 hw, ?_⟩
      simp only [State.pieceAt, h, hw, if_false]
      rfl

theorem pieceAt_place (s : State) (l : SetId) (v : View) (a pos rem : Nat) :
    (s.pieceAt l v a pos rem).pos = pos ∧ (s.pieceAt l v a pos rem).addr = a ∧ (s.pieceAt l v a pos rem).view = v := by
  rcases pieceAt_cases s l v a pos rem with ⟨-, heq⟩ | ⟨i, r, e, w, -, -, -, ⟨-, heq⟩ | ⟨-, heq⟩⟩ <;>
    exact heq ▸ ⟨rfl, rfl, rfl⟩

/-- A piece takes at least one word, and no more than there are. -/
theorem pieceAt_len {s : State} {l : SetId} {v : View} {a rem : Nat} (ha : a < 4294967296) (hr : 1 ≤ rem) (pos : Nat) :
    1 ≤ (s.pieceAt l v a pos rem).len ∧ (s.pieceAt l v a pos rem).len ≤ rem := by
  rcases pieceAt_cases s l v a pos rem with ⟨-, heq⟩ | ⟨i, r, e, w, -, -, hw, ⟨hlt, heq⟩ | ⟨-, heq⟩⟩ <;> rw [heq]
  · have := lt_nextStart (s := s) (l := l) (v := v) ha
    exact ⟨le_min (by omega) hr, min_le_right _ _⟩
  · exact ⟨le_min (by omega) hr, min_le_right _ _⟩
  · have := hw.word
    exact ⟨le_min (by omega) hr, min_le_right _ _⟩

/-! ### The pieces of a span (R69, R70) -/

theorem cutFrom_zero (s : State) (l : SetId) (v : View) (fuel a pos : Nat) : s.cutFrom l v fuel a pos 0 = [] := by
  cases fuel <;> rfl

theorem cutFrom_succ {s : State} {l : SetId} {v : View} {fuel a pos rem : Nat} (h : 1 ≤ rem) :
    s.cutFrom l v (fuel + 1) a pos rem = s.pieceAt l v a pos rem ::
      s.cutFrom l v fuel ((a + (s.pieceAt l v a pos rem).len) % 4294967296) (pos + (s.pieceAt l v a pos rem).len)
        (rem - (s.pieceAt l v a pos rem).len) := by
  rw [State.cutFrom, if_neg (by omega)]
  rfl

/-- With fuel for every word, the pieces cover the words that are left. -/
theorem sum_len_cutFrom (s : State) (l : SetId) (v : View) (fuel : Nat) :
    ∀ a pos rem, a < 4294967296 → rem ≤ fuel → ((s.cutFrom l v fuel a pos rem).map (·.len)).sum = rem := by
  induction fuel with
  | zero =>
    intro a pos rem _ hle
    obtain rfl : rem = 0 := by omega
    rfl
  | succ fuel ih =>
    intro a pos rem ha hle
    by_cases h0 : rem = 0
    · subst h0
      rfl
    · obtain ⟨hpos, hmax⟩ := pieceAt_len (s := s) (l := l) (v := v) ha (Nat.pos_of_ne_zero h0) pos
      rw [cutFrom_succ (Nat.pos_of_ne_zero h0), List.map_cons, List.sum_cons,
        ih _ _ _ (Nat.mod_lt _ (by decide)) (by omega)]
      omega

/-- Every piece is cut at its place, with the words that are left there. -/
theorem mem_cutFrom {s : State} {l : SetId} {v : View} {fuel : Nat} {p : Piece} : ∀ {a pos rem : Nat}, a < 4294967296 →
    p ∈ s.cutFrom l v fuel a pos rem →
      ∃ a' pos' rem', a' < 4294967296 ∧ pos' + rem' = pos + rem ∧ 1 ≤ rem' ∧ p = s.pieceAt l v a' pos' rem' := by
  induction fuel with
  | zero => exact fun _ h => absurd h List.not_mem_nil
  | succ fuel ih =>
    intro a pos rem ha h
    by_cases h0 : rem = 0
    · rw [h0, cutFrom_zero] at h
      exact absurd h List.not_mem_nil
    · obtain ⟨-, hmax⟩ := pieceAt_len (s := s) (l := l) (v := v) ha (Nat.pos_of_ne_zero h0) pos
      rw [cutFrom_succ (Nat.pos_of_ne_zero h0)] at h
      rcases List.mem_cons.1 h with rfl | h
      · exact ⟨a, pos, rem, ha, rfl, Nat.pos_of_ne_zero h0, rfl⟩
      · obtain ⟨a', pos', rem', ha', hsum, hrem, rfl⟩ := ih (Nat.mod_lt _ (by decide)) h
        exact ⟨a', pos', rem', ha', by omega, hrem, rfl⟩

/-- The pieces stand one behind the other, in the span and in the address space. -/
theorem getElem_cutFrom {s : State} {l : SetId} {v : View} {fuel : Nat} {p : Piece} : ∀ {n a pos rem : Nat},
    a < 4294967296 → (s.cutFrom l v fuel a pos rem)[n]? = some p →
      p.pos = pos + (((s.cutFrom l v fuel a pos rem).take n).map (·.len)).sum ∧
      p.addr = (a + (((s.cutFrom l v fuel a pos rem).take n).map (·.len)).sum) % 4294967296 := by
  induction fuel with
  | zero => exact fun _ h => absurd h (by simp [State.cutFrom])
  | succ fuel ih =>
    intro n a pos rem ha h
    by_cases h0 : rem = 0
    · rw [h0, cutFrom_zero] at h
      exact absurd h (by simp)
    · rw [cutFrom_succ (Nat.pos_of_ne_zero h0)] at h ⊢
      obtain ⟨hpos, haddr, -⟩ := pieceAt_place s l v a pos rem
      cases n with
      | zero =>
        obtain rfl : s.pieceAt l v a pos rem = p := Option.some.inj h
        simp only [List.take_zero, List.map_nil, List.sum_nil, Nat.add_zero, Nat.mod_eq_of_lt ha]
        exact ⟨hpos, haddr⟩
      | succ n =>
        rw [List.getElem?_cons_succ] at h
        obtain ⟨hp, ha'⟩ := ih (Nat.mod_lt _ (by decide)) h
        rw [List.take_succ_cons, List.map_cons, List.sum_cons, hp, ha', Nat.mod_add_mod]
        exact ⟨by omega, by rw [Nat.add_assoc]⟩

/-- A piece outside every region meets none, and ends with the words left, at the top, or where a region starts. -/
theorem outsidePiece_spec {s : State} {l : SetId} {v : View} {a : Nat} (h : s.lookup l v a = none) (ha : a < 4294967296)
    (pos rem : Nat) :
    (∀ i r b, s.region i = some r → r.set = l → a ≤ b → b < a + (outsidePiece s l v a pos rem).len → ¬ r.Extent v b) ∧
    ((outsidePiece s l v a pos rem).len = rem ∨ a + (outsidePiece s l v a pos rem).len = 4294967296 ∨
      ∃ i r, s.region i = some r ∧ r.set = l ∧ (r.geom v).base.toNat = a + (outsidePiece s l v a pos rem).len) := by
  have hstart := lt_nextStart (s := s) (l := l) (v := v) ha
  have hlen : (outsidePiece s l v a pos rem).len = min (s.nextStart l v a - a) rem := rfl
  refine ⟨fun i r b hr hs hab hb he => ?_, ?_⟩
  · obtain ⟨hbase, htop⟩ := he
    by_cases hlow : (r.geom v).base.toNat ≤ a
    · exact lookup_none h hr hs ⟨hlow, by omega⟩
    · have := nextStart_le hr hs (Nat.not_le.1 hlow)
      omega
  · by_cases hmin : s.nextStart l v a - a < rem
    · have hend : a + (outsidePiece s l v a pos rem).len = s.nextStart l v a := by omega
      rw [hend]
      exact .inr (nextStart_cases s l v a)
    · exact .inl (by omega)

theorem dataKind_eq (m : CopyMode) : m.dataKind = if m = .localOnly then .localData else .entry := by
  cases m <;> rfl

theorem dataKind_ne (m : CopyMode) : m.dataKind ≠ .pad ∧ m.dataKind ≠ .outside := by
  cases m <;> exact ⟨by decide, by decide⟩

/-- Settles O27: a piece is cut at its place in the span, by the three cases of what stands at its address. -/
theorem piecesCoverTheSpan : Obligations.PiecesCoverTheSpan := by
  unfold Obligations.PiecesCoverTheSpan
  intro s l v addr count ps
  have haddr : addr.toNat < 4294967296 := addr.isLt
  have hmem : ∀ p ∈ ps, ∃ a pos rem, a < 4294967296 ∧ pos + rem = count ∧ 1 ≤ rem ∧ p = s.pieceAt l v a pos rem := fun p hp => by
    simpa using mem_cutFrom haddr hp
  refine ⟨sum_len_cutFrom s l v count _ _ _ haddr le_rfl, fun n p hn => ?_, fun p hp => ?_⟩
  · obtain ⟨a, pos, rem, ha, -, hrem, rfl⟩ := hmem p (List.mem_of_getElem? hn)
    obtain ⟨hp, hpa⟩ := getElem_cutFrom haddr hn
    rw [Nat.zero_add] at hp
    exact ⟨hp, hp ▸ hpa, (pieceAt_len ha hrem pos).1, (pieceAt_place s l v a pos rem).2.2⟩
  · obtain ⟨a, pos, rem, ha, rfl, hrem, rfl⟩ := hmem p hp
    rcases pieceAt_cases s l v a pos rem with ⟨hnone, heq⟩ | ⟨i, r, e, w, hr, hs, hw, ⟨hlt, heq⟩ | ⟨hle, heq⟩⟩ <;> rw [heq]
    · obtain ⟨hmiss, hend⟩ := outsidePiece_spec hnone ha pos rem
      exact ⟨iff_of_true rfl rfl, fun _ => ⟨hmiss, hend.imp_left (congrArg (pos + ·))⟩, fun i hi => by cases hi⟩
    · refine ⟨iff_of_false (dataKind_ne r.mode).2 (Option.some_ne_none i), fun h => absurd h (Option.some_ne_none i), fun j hj => ?_⟩
      obtain rfl : i = j := Option.some.inj hj
      refine ⟨r, hr, hs, hw.entry, hw.addr, fun h => absurd h (dataKind_ne r.mode).1, fun _ => ⟨?_, ?_, dataKind_eq _, rfl⟩⟩ <;>
        simp only [dataPiece] <;> omega
    · refine ⟨iff_of_false (by simp [padPiece]) (Option.some_ne_none i), fun h => absurd h (Option.some_ne_none i), fun j hj => ?_⟩
      obtain rfl : i = j := Option.some.inj hj
      have hword := hw.word
      refine ⟨r, hr, hs, hw.entry, hw.addr, fun _ => ⟨hle, ?_, ?_⟩, fun h => absurd rfl h⟩ <;>
        simp only [padPiece] <;> omega

end Sys2Proof.Machine
end

section

namespace Sys2Proof.Machine

/-! ### Redirect (R71, R144) -/

theorem remapOf_eq_none_iff {m : List SpareRec} {i : RegionId} {a : Nat} {v : View} :
    remapOf m i a v = none ↔ ∀ y o t, SpareRec.remap i a v y o t ∉ m := by
  rw [← Option.not_isSome_iff_eq_none, remapOf_isSome_iff]
  push Not
  rfl

theorem remapOf_mem {m : List SpareRec} {i : RegionId} {a x : Nat} {v : View} (h : remapOf m i a v = some x) :
    ∃ o t, SpareRec.remap i a v x o t ∈ m := by
  obtain ⟨z, hz, hx⟩ := List.exists_of_findSome?_eq_some h
  cases z with
  | retired => exact absurd hx (by simp)
  | remap r e u y o t =>
    by_cases hm : r = i ∧ e = a ∧ u = v
    · obtain ⟨rfl, rfl, rfl⟩ := hm
      obtain rfl : y = x := by simpa using hx
      exact ⟨o, t, hz⟩
    · exact absurd hx (by simp [hm])

/-- R144: where the map's REMAP records of an entry in a view agree, the entry is redirected to their spare. -/
theorem remapOf_unique {m : List SpareRec} {i : RegionId} {a x : Nat} {v : View} {o : Option CtxId} {t : Nat}
    (h : SpareRec.remap i a v x o t ∈ m) (hu : ∀ y q n, SpareRec.remap i a v y q n ∈ m → y = x) : remapOf m i a v = some x := by
  obtain ⟨y, hy⟩ := Option.isSome_iff_exists.1 (remapOf_isSome_iff.2 ⟨x, o, t, h⟩)
  obtain ⟨q, n, hmem⟩ := remapOf_mem hy
  rw [hy, hu y q n hmem]

theorem isData_iff {k : PieceKind} : k.isData = true ↔ k = .entry ∨ k = .localData := by
  cases k <;> simp [PieceKind.isData]

theorem redirect_of {s : State} {k : SlotId} {v : View} {p : Piece} {i : RegionId} {r : Region} {x : Nat}
    (hk : p.kind = .entry ∨ p.kind = .localData) (hi : p.region = some i) (hr : s.region i = some r)
    (hx : remapOf (s.spareMap k) i p.entry v = some x) : s.redirect k v p = some (r.spareAddr v x p.offset) := by
  simp only [State.redirect, isData_iff.2 hk, hi, hr, hx]

theorem redirect_isSome_iff {s : State} {k : SlotId} {v : View} {p : Piece} :
    (s.redirect k v p).isSome = true ↔ Redirected s k v p := by
  constructor
  · intro h
    unfold State.redirect at h
    split at h
    · rename_i i hd hi
      cases hr : s.region i with
      | none => simp [hr] at h
      | some r =>
        cases hx : remapOf (s.spareMap k) i p.entry v with
        | none => simp [hr, hx] at h
        | some x =>
          obtain ⟨o, n, hmem⟩ := remapOf_mem hx
          exact ⟨isData_iff.1 hd, i, r, hi, hr, x, o, n, hmem⟩
    · exact absurd h (by simp)
  · rintro ⟨hk, i, r, hi, hr, hmem⟩
    obtain ⟨x, hx⟩ := Option.isSome_iff_exists.1 (remapOf_isSome_iff.2 hmem)
    rw [redirect_of hk hi hr hx]
    rfl

theorem sendAddr_plain {s : State} {k : SlotId} {v : View} {p : Piece} (h : ¬ Redirected s k v p) :
    s.sendAddr k v p = if p.view = v then p.addr else p.trans := by
  have hnone : s.redirect k v p = none := Option.not_isSome_iff_eq_none.1 (mt redirect_isSome_iff.1 h)
  rw [State.sendAddr, hnone, Option.getD_none]

/-! ### Runs (R50) -/

/-- A run is made of a group of pieces: it begins with the first, has the words of all, and stands alone exactly when the first
is redirected. -/
def RunOf (s : State) (k : SlotId) (v : View) (r : Run) : List Piece → Prop
  | [] => False
  | q :: g => r.agent = q.addr ∧ r.addr = s.sendAddr k v q ∧ r.len = ((q :: g).map (·.len)).sum ∧
      r.spans = (q :: g).map (fun p => (p.pos, p.len)) ∧ (r.alone = true ↔ Redirected s k v q)

theorem runOf_pieceRun (s : State) (k : SlotId) (v : View) (p : Piece) : RunOf s k v (s.pieceRun k v p) [p] :=
  ⟨rfl, rfl, by simp [State.pieceRun], rfl, redirect_isSome_iff⟩

/-- A piece joins the run behind it exactly when it joins the run's first piece. -/
theorem pieceRun_joins_iff {s : State} {k : SlotId} {v : View} {p q : Piece} {g : List Piece} {r : Run}
    (h : RunOf s k v r (q :: g)) : (s.pieceRun k v p).joins r = true ↔ Joins s k v p q := by
  obtain ⟨hagent, haddr, -, -, halone⟩ := h
  have hp : (s.pieceRun k v p).alone = true ↔ Redirected s k v p := redirect_isSome_iff
  unfold Run.joins Joins
  rw [Bool.and_eq_true, Bool.and_eq_true, Bool.and_eq_true, Bool.not_eq_true', Bool.not_eq_true', ← Bool.not_eq_true,
    ← Bool.not_eq_true, hp, halone, beq_iff_eq, decide_eq_true_eq, haddr, hagent]
  change ((s.sendAddr k v q = s.sendAddr k v p + p.len ∧ p.addr < q.addr) ∧ _) ∧ _ ↔ _
  tauto

/-- A run with the piece in front of it that joins it. -/
def Run.behind (x r : Run) : Run := ⟨x.agent, x.addr, x.len + r.len, x.spans ++ r.spans, false⟩

theorem runOf_behind {s : State} {k : SlotId} {v : View} {p q : Piece} {g : List Piece} {r : Run}
    (h : RunOf s k v r (q :: g)) (hj : Joins s k v p q) : RunOf s k v ((s.pieceRun k v p).behind r) (p :: q :: g) := by
  obtain ⟨-, -, hlen, hspans, -⟩ := h
  obtain ⟨hplain, -⟩ := hj
  refine ⟨rfl, rfl, ?_, ?_, iff_of_false (by simp [Run.behind]) hplain⟩
  · simp only [Run.behind, State.pieceRun, hlen, List.map_cons, List.sum_cons]
  · simp only [Run.behind, State.pieceRun, hspans, List.map_cons, List.singleton_append]

theorem runsFor_cons_nil {s : State} {k : SlotId} {v : View} {ps : List Piece} (h : s.runsFor k v ps = []) (p : Piece) :
    s.runsFor k v (p :: ps) = [s.pieceRun k v p] := by
  unfold State.runsFor at h ⊢
  rw [List.map_cons, joinRuns, h]

theorem runsFor_cons {s : State} {k : SlotId} {v : View} {ps : List Piece} {r : Run} {rs : List Run}
    (h : s.runsFor k v ps = r :: rs) (p : Piece) :
    s.runsFor k v (p :: ps) = if (s.pieceRun k v p).joins r then (s.pieceRun k v p).behind r :: rs
      else s.pieceRun k v p :: r :: rs := by
  unfold State.runsFor at h ⊢
  rw [List.map_cons, joinRuns, h]
  rfl

/-- Pieces in groups: neighbours of one group join, and neighbours of two groups do not. -/
structure Grouping (s : State) (k : SlotId) (v : View) (ps : List Piece) (gs : List (List Piece)) : Prop where
  all : gs.flatten = ps
  nonempty : [] ∉ gs
  chain : ∀ g ∈ gs, g.IsChain (Joins s k v)
  apart : gs.IsChain (fun g h => ∀ p q, g.getLast? = some p → h.head? = some q → ¬ Joins s k v p q)

theorem Grouping.nil (s : State) (k : SlotId) (v : View) : Grouping s k v [] [] :=
  ⟨rfl, List.not_mem_nil, fun _ h => absurd h List.not_mem_nil, .nil⟩

theorem Grouping.single (s : State) (k : SlotId) (v : View) (p : Piece) : Grouping s k v [p] [[p]] :=
  ⟨rfl, by simp, by simp, .singleton _⟩

/-- A piece that joins the first group. -/
theorem Grouping.join {s : State} {k : SlotId} {v : View} {ps : List Piece} {p q : Piece} {g : List Piece}
    {gs : List (List Piece)} (h : Grouping s k v ps ((q :: g) :: gs)) (hj : Joins s k v p q) :
    Grouping s k v (p :: ps) ((p :: q :: g) :: gs) := by
  obtain ⟨hall, hne, hchain, hapart⟩ := h
  refine ⟨by simpa using hall, by simpa using hne, fun f hf => ?_, ?_⟩
  · rcases List.mem_cons.1 hf with rfl | hf
    · exact .cons_cons hj (hchain _ List.mem_cons_self)
    · exact hchain f (List.mem_cons_of_mem _ hf)
  · cases gs with
    | nil => exact .singleton _
    | cons h hs =>
      obtain ⟨hfirst, hrest⟩ := List.isChain_cons_cons.1 hapart
      exact .cons_cons (fun x y hx hy => hfirst x y (by simpa using hx) hy) hrest

/-- A piece that does not join the first group begins one of its own. -/
theorem Grouping.begin {s : State} {k : SlotId} {v : View} {ps : List Piece} {p q : Piece} {g : List Piece}
    {gs : List (List Piece)} (h : Grouping s k v ps ((q :: g) :: gs)) (hj : ¬ Joins s k v p q) :
    Grouping s k v (p :: ps) ([p] :: (q :: g) :: gs) := by
  obtain ⟨hall, hne, hchain, hapart⟩ := h
  refine ⟨by simpa using hall, by simpa using hne, fun f hf => ?_, .cons_cons (fun x y hx hy => ?_) hapart⟩
  · rcases List.mem_cons.1 hf with rfl | hf
    · exact .singleton _
    · exact hchain f hf
  · obtain rfl : p = x := by simpa using hx
    obtain rfl : q = y := by simpa using hy
    exact hj

/-- R50: the runs of pieces are the groups of pieces that join. -/
theorem exists_groups (s : State) (k : SlotId) (v : View) (ps : List Piece) :
    ∃ gs, Grouping s k v ps gs ∧ List.Forall₂ (RunOf s k v) (s.runsFor k v ps) gs := by
  induction ps with
  | nil => exact ⟨[], .nil s k v, .nil⟩
  | cons p ps ih =>
    obtain ⟨gs, hgroups, hruns⟩ := ih
    cases hrs : s.runsFor k v ps with
    | nil =>
      rw [hrs] at hruns
      cases hruns
      obtain rfl : ps = [] := hgroups.all.symm
      rw [runsFor_cons_nil hrs]
      exact ⟨[[p]], .single s k v p, .cons (runOf_pieceRun s k v p) .nil⟩
    | cons r rs =>
      rw [hrs] at hruns
      cases hruns with
      | @cons _ g _ gs hr hrest =>
        cases g with
        | nil => exact hr.elim
        | cons q g =>
          rw [runsFor_cons hrs]
          by_cases hj : Joins s k v p q
          · rw [if_pos ((pieceRun_joins_iff hr).2 hj)]
            exact ⟨_, hgroups.join hj, .cons (runOf_behind hr hj) hrest⟩
          · rw [if_neg (mt (pieceRun_joins_iff hr).1 hj)]
            exact ⟨_, hgroups.begin hj, .cons (runOf_pieceRun s k v p) (.cons hr hrest)⟩

/-! ### The write-out of a cutover (R149, R151) -/

/-- Words in groups of 16. -/
theorem length_chunks16 (fuel : Nat) (ws : List Word) (h : ws.length ≤ fuel) :
    (chunks16 fuel ws).length = (ws.length + 15) / 16 := by
  have hmax : Config.maxStore = 16 := rfl
  induction fuel generalizing ws with
  | zero =>
    obtain rfl : ws = [] := List.length_eq_zero_iff.1 (by omega)
    rfl
  | succ fuel ih =>
    cases ws with
    | nil => rfl
    | cons w ws =>
      simp only [chunks16, hmax, List.isEmpty_cons, Bool.false_eq_true, if_false, List.length_cons]
      rw [ih _ (by simp only [List.length_drop, List.length_cons] at h ⊢; omega), List.length_drop, List.length_cons]
      omega

theorem getElem_chunks16 (fuel : Nat) (ws : List Word) (j : Nat) (h : ws.length ≤ fuel) (hj : 16 * j < ws.length) :
    (chunks16 fuel ws)[j]? = some ((ws.drop (16 * j)).take 16) := by
  have hmax : Config.maxStore = 16 := rfl
  induction fuel generalizing ws j with
  | zero => omega
  | succ fuel ih =>
    cases ws with
    | nil => exact absurd hj (Nat.not_lt_zero _)
    | cons w ws =>
      simp only [chunks16, hmax, List.isEmpty_cons, Bool.false_eq_true, if_false]
      cases j with
      | zero => rfl
      | succ j =>
        rw [List.getElem?_cons_succ, ih _ j (by simp only [List.length_drop, List.length_cons] at h ⊢; omega)
          (by simp only [List.length_drop]; omega), List.drop_drop, show 16 + 16 * j = 16 * (j + 1) by omega]

theorem getElem_writeOutStores {s : State} {c : CtxId} {j : Nat} (hj : 16 * j < (s.writeOut c).length) :
    (s.writeOutStores c)[j]? = some { kind := .store, count := min 16 ((s.writeOut c).length - 16 * j)
                                      addr := BitVec.ofNat 32 (((s.layout (s.ctxSet c)).base (s.ctx c).dstView).toNat + 16 * j)
                                      data := ((s.writeOut c).drop (16 * j)).take 16 } := by
  simp only [State.writeOutStores, List.getElem?_map, List.getElem?_zipIdx, getElem_chunks16 _ _ j le_rfl hj, Option.map_some,
    List.length_take, List.length_drop, Nat.zero_add]
  rfl

theorem length_writeOutStores (s : State) (c : CtxId) :
    (s.writeOutStores c).length = ((s.writeOut c).length + 15) / 16 := by
  simp only [State.writeOutStores, List.length_map, List.length_zipIdx, length_chunks16 _ _ le_rfl]

/-- R151: the window records, and below the capacity a pair of zero words. -/
theorem writeOut_eq (s : State) (c : CtxId) :
    s.writeOut c = (s.windowRecords (s.ctx c).dst (s.ctxSet c) (s.ctx c).dstView).flatten ++
      if (s.windowRecords (s.ctx c).dst (s.ctxSet c) (s.ctx c).dstView).length < s.windowCap c then [0, 0] else [] := by
  simp only [State.writeOut]
  split
  · rfl
  · rw [List.append_nil]

theorem windowFits_iff {s : State} {c : CtxId} : s.windowFits c = true ↔
    (s.windowRecords (s.ctx c).dst (s.ctxSet c) (s.ctx c).dstView).length ≤ s.windowCap c := decide_eq_true_iff

theorem slotAddr_of_remap {s : State} {k : SlotId} {v : View} {i : RegionId} {e x : Nat}
    (h : remapOf (s.spareMap k) i e v = some x) (r : Region) (w : Nat) : s.slotAddr k v i r e w = r.spareAddr v x w := by
  simp only [State.slotAddr, h]

theorem slotAddr_of_none {s : State} {k : SlotId} {v : View} {i : RegionId} {e : Nat}
    (h : remapOf (s.spareMap k) i e v = none) (r : Region) (w : Nat) : s.slotAddr k v i r e w = r.entryAddr v e w := by
  simp only [State.slotAddr, h]

/-- Settles O28: a redirect is the map's REMAP record; the runs are the groups of `exists_groups`; the write-out is the window
records in groups of 16 words. -/
theorem spareMapsRedirectAndAreWrittenOut : Obligations.SpareMapsRedirectAndAreWrittenOut := by
  unfold Obligations.SpareMapsRedirectAndAreWrittenOut
  refine ⟨fun s k v p => ⟨fun i r x o n hk hi hr hmem hu => ?_, sendAddr_plain⟩, fun s k v ps => ?_,
    fun s k v i r e w x o n => ⟨fun hmem hu => slotAddr_of_remap (remapOf_unique hmem hu) r w,
      fun hnone => slotAddr_of_none (remapOf_eq_none_iff.2 hnone) r w⟩, fun s c => ?_⟩
  · rw [State.sendAddr, redirect_of hk hi hr (remapOf_unique hmem hu)]
    rfl
  · obtain ⟨gs, hgroups, hruns⟩ := exists_groups s k v ps
    refine ⟨gs, hgroups.all, hgroups.nonempty, ?_, hgroups.chain, fun before g h after heq p q hp hq => ?_⟩
    · refine List.forall₂_eq_eq_eq ▸ List.forall₂_map_left_iff.2 (List.forall₂_map_right_iff.2 (hruns.imp fun r g hr => ?_))
      cases g with
      | nil => exact hr.elim
      | cons q g =>
        obtain ⟨-, haddr, hlen, hspans, -⟩ := hr
        exact Prod.ext haddr (Prod.ext hlen hspans)
    · obtain ⟨-, hafter, -⟩ := List.isChain_append.1 (heq ▸ hgroups.apart)
      exact (List.isChain_cons_cons.1 hafter).1 p q hp hq
  · intro x v l recs words
    have hrecs : s.windowRecords x.dst (s.ctxSet c) x.dstView = recs := by
      refine List.filterMap_congr fun z _ => ?_
      cases z with
      | retired => rfl
      | remap i e u n o q =>
        simp only [State.windowRecord]
        cases s.region i <;> rfl
    have hwords : s.writeOut c = words := by
      rw [writeOut_eq, hrecs]
      rfl
    refine ⟨?_, ?_, fun j hj => ?_⟩
    · rw [windowFits_iff, hrecs]
      rfl
    · rw [length_writeOutStores, hwords]
    · rw [getElem_writeOutStores (hwords ▸ hj), hwords]
      rfl

end Sys2Proof.Machine
end

section

namespace Sys2Proof.Machine

/-! ### Classification (R117, R118) -/

theorem segment_has_iff {g : Segment} {i : RegionId} {e : Nat} :
    g.has i e = true ↔ g.region = i ∧ g.first ≤ e ∧ e < g.first + g.count := by
  simp [Segment.has, and_assoc]

theorem segPlace_eq_none_iff {x : Ctx} {i : RegionId} {e : Nat} :
    x.segPlace i e = none ↔ ∀ g ∈ x.segs, ¬ (g.region = i ∧ g.first ≤ e ∧ e < g.first + g.count) := by
  simp only [Ctx.segPlace, List.findIdx?_eq_none_iff, ← segment_has_iff, Bool.not_eq_true]

/-- The segment that covers an entry is the first that does (R84). -/
theorem segPlace_eq_some_iff {x : Ctx} {i : RegionId} {e m : Nat} :
    x.segPlace i e = some m ↔ ∃ g, x.segs[m]? = some g ∧ (g.region = i ∧ g.first ≤ e ∧ e < g.first + g.count) ∧
      ∀ h ∈ x.segs.take m, ¬ (h.region = i ∧ h.first ≤ e ∧ e < h.first + h.count) := by
  simp only [Ctx.segPlace, List.findIdx?_eq_some_iff_getElem, ← segment_has_iff, List.getElem?_eq_some_iff,
    List.mem_take_iff_getElem]
  constructor
  · rintro ⟨hm, hg, hlow⟩
    refine ⟨_, ⟨hm, rfl⟩, hg, ?_⟩
    rintro _ ⟨j, hj, rfl⟩
    exact hlow j (by omega)
  · rintro ⟨g, ⟨hm, rfl⟩, hg, hlow⟩
    exact ⟨hm, hg, fun j hj => hlow _ ⟨j, by omega, rfl⟩⟩

theorem inFlight_iff {x : Ctx} {i : RegionId} {e : Nat} :
    x.inFlight i e = true ↔ ∃ f ∈ x.flights, f.region = i ∧ f.entry = e := by
  simp [Ctx.inFlight]

/-- R118: a covered entry is walked in a finished segment, or below F in the current one. -/
theorem walked_iff {x : Ctx} {i : RegionId} {e : Nat} :
    x.walked i e = true ↔ ∃ m n, x.segPlace i e = some m ∧ x.cur = some n ∧ (m < n ∨ (m = n ∧ e < x.frontier)) := by
  unfold Ctx.walked
  cases x.segPlace i e with
  | none => simp
  | some m =>
    cases x.cur with
    | none => simp
    | some n => simp

theorem classify_mirror (s : State) (c : CtxId) (i : RegionId) (e : Nat) : s.classify c i .mirror e = .mirrorMode := by
  simp only [State.classify, if_true]

theorem classify_uncovered {s : State} {c : CtxId} {i : RegionId} {m : CopyMode} {e : Nat} (hm : m ≠ .mirror)
    (h : (s.ctx c).segPlace i e = none) : s.classify c i m e = .uncovered := by
  simp only [State.classify, hm, h, if_false, if_true, Option.isNone_none]

theorem classify_covered {s : State} {c : CtxId} {i : RegionId} {m : CopyMode} {e : Nat} (hm : m ≠ .mirror)
    (h : (s.ctx c).segPlace i e ≠ none) : s.classify c i m e =
      if (s.ctx c).inFlight i e then .inFlight else if (s.ctx c).walked i e then .walked else .ahead := by
  have hn : ((s.ctx c).segPlace i e).isNone = false := by simpa [Option.isNone_eq_false_iff, Option.isSome_iff_ne_none] using h
  simp only [State.classify, hm, hn, if_false, Bool.false_eq_true]

/-! ### Targets (R49) -/

theorem reachesPrimary_iff {s : State} {e : SteerEntry} {p : Piece} : s.reachesPrimary e p = true ↔
    ∃ k, e.primary = some k ∧ s.isReady k = true ∧ (p.kind = .entry ∨ p.kind = .localData ∨ p.view = e.view) := by
  unfold State.reachesPrimary
  cases e.primary <;> simp [isData_iff, or_assoc]

theorem isMirror_iff {a : Class} : a.isMirror = true ↔ a = .mirrorMode ∨ a = .walked := by
  cases a <;> simp [Class.isMirror]

/-- R116: an ENTRY piece of a BUILDING entry is classified against the context bound to the entry. -/
theorem pieceClass_eq_some_iff {s : State} {e : SteerEntry} {p : Piece} {a : Class} : s.pieceClass e p = some a ↔
    e.twinState = .building ∧ p.kind = .entry ∧ ∃ c i r, e.bound = some c ∧ p.region = some i ∧ s.region i = some r ∧
      s.classify c i r.mode p.entry = a := by
  unfold State.pieceClass
  split
  case h_1 hst hk hb hp => simp [hst, hk, hb, hp]
  case h_2 hno =>
    refine iff_of_false (by simp) ?_
    rintro ⟨hst, hk, c, i, r, hb, hp, -⟩
    exact hno c i hst hk hb hp

theorem reachesTwin_iff {s : State} {e : SteerEntry} {p : Piece} : s.reachesTwin e p = true ↔
    ∃ k, e.twin = some k ∧ s.isReady k = true ∧ p.kind = .entry ∧
      (e.twinState = .twinned ∨ (e.twinState = .building ∧ ∃ a, s.pieceClass e p = some a ∧ a.isMirror = true)) := by
  unfold State.reachesTwin
  cases e.twin with
  | none => simp
  | some k => cases e.twinState <;> simp [Option.any_eq_true, and_assoc]

/-- Settles O29: `State.classify` test by test, and the two targets of a piece. -/
theorem targetsAndClassification : Obligations.TargetsAndClassification := by
  unfold Obligations.TargetsAndClassification
  refine ⟨fun s c i mode e => ?_, fun s e p _ => ⟨reachesPrimary_iff, ?_⟩⟩
  · intro x covers flying walked
    have hwalked : x.walked i e = true ↔ walked := by
      rw [walked_iff]
      simp only [segPlace_eq_some_iff]
      exact ⟨fun ⟨m, n, ⟨g, hg, hc, hl⟩, hn, hlt⟩ => ⟨m, n, g, hg, hc, hl, hn, hlt⟩,
        fun ⟨m, n, g, hg, hc, hl, hn, hlt⟩ => ⟨m, n, ⟨g, hg, hc, hl⟩, hn, hlt⟩⟩
    refine ⟨fun hm => hm ▸ classify_mirror s c i e, fun hm hno => classify_uncovered hm (segPlace_eq_none_iff.2 hno),
      fun hm hcov => ?_⟩
    have hplace : x.segPlace i e ≠ none := fun h => by
      obtain ⟨g, hg, hc⟩ := hcov
      exact segPlace_eq_none_iff.1 h g hg hc
    rw [classify_covered hm hplace]
    refine ⟨fun hf => if_pos (inFlight_iff.2 hf), fun hf hw => ?_, fun hf hw => ?_⟩
    · rw [if_neg (mt inFlight_iff.1 hf), if_pos (hwalked.2 hw)]
    · rw [if_neg (mt inFlight_iff.1 hf), if_neg (mt hwalked.1 hw)]
  · rw [reachesTwin_iff]
    refine exists_congr fun k => and_congr_right fun _ => and_congr_right fun _ => and_congr_right fun hk =>
      or_congr_right (and_congr_right fun hst => ?_)
    simp only [pieceClass_eq_some_iff, isMirror_iff]
    constructor
    · rintro ⟨a, ⟨-, -, c, i, r, hb, hp, hr, rfl⟩, ha⟩
      exact ⟨c, i, r, hb, hp, hr, ha⟩
    · rintro ⟨c, i, r, hb, hp, hr, ha⟩
      exact ⟨_, ⟨hst, hk, c, i, r, hb, hp, hr, rfl⟩, ha⟩

end Sys2Proof.Machine
end

section

namespace Sys2Proof.Machine

/-! ### Additions to a revisit list (R123 to R127) -/

theorem range_free_iff {s : State} (m : RangeId) :
    (!(s.usedRanges.contains m)) = true ↔ ∀ d, ∀ g ∈ (s.ctx d).revisit, g.num ≠ m := by
  simp only [State.usedRanges, Bool.not_eq_true', ← Bool.not_eq_true, List.contains_iff_mem, List.mem_flatMap, List.mem_map,
    not_exists, not_and]
  exact ⟨fun h d g hg hm => h d (mem_allCtxs d) g hg hm, fun h d _ g hg hm => h d g hg hm⟩

theorem freeRange_of_lowest {s : State} {n : RangeId}
    (h : Lowest (fun m : RangeId => ∀ d, ∀ g ∈ (s.ctx d).revisit, g.num ≠ m) n) : s.freeRange? = some n :=
  find_finRange_of_lowest range_free_iff h

theorem freeRange_of_full {s : State} (h : ∀ m : RangeId, ∃ d, ∃ g ∈ (s.ctx d).revisit, g.num = m) : s.freeRange? = none :=
  find_finRange_of_none range_free_iff fun m hm => by
    obtain ⟨d, g, hg, hgm⟩ := h m
    exact hm d g hg hgm

theorem within_iff {x : Ctx} {i : RegionId} {e : Nat} :
    (x.revisit.any fun g => g.has i e) = true ↔ ∃ g ∈ x.revisit, g.region = i ∧ g.first ≤ e ∧ e ≤ g.last := by
  simp [Range.has, and_assoc]

/-- The range that ends just below an entry, and the one that begins just above it (R124). -/
def Ctx.below? (x : Ctx) (i : RegionId) (e : Nat) : Option Range := x.revisit.find? (fun g => g.region == i && g.last + 1 == e)

def Ctx.above? (x : Ctx) (i : RegionId) (e : Nat) : Option Range := x.revisit.find? (fun g => g.region == i && g.first == e + 1)

section

variable {x : Ctx} {i : RegionId} {e : Nat}

theorem extendRevisit_both {b a : Range} (hb : x.below? i e = some b) (ha : x.above? i e = some a) :
    x.extendRevisit i e = some ((x.revisit.filter (fun g => g.num ≠ a.num)).map
      (fun g => if g.num = b.num then { g with last := a.last } else g)) := by
  rw [Ctx.below?] at hb
  rw [Ctx.above?] at ha
  simp only [Ctx.extendRevisit, hb, ha]

theorem extendRevisit_up {b : Range} (hb : x.below? i e = some b) (ha : x.above? i e = none) :
    x.extendRevisit i e = some (x.revisit.map (fun g => if g.num = b.num then { g with last := e } else g)) := by
  rw [Ctx.below?] at hb
  rw [Ctx.above?] at ha
  simp only [Ctx.extendRevisit, hb, ha]

theorem extendRevisit_down {a : Range} (hb : x.below? i e = none) (ha : x.above? i e = some a) :
    x.extendRevisit i e = some (x.placeRange { a with first := e } (x.revisit.filter (fun g => g.num ≠ a.num))) := by
  rw [Ctx.below?] at hb
  rw [Ctx.above?] at ha
  simp only [Ctx.extendRevisit, hb, ha]

theorem extendRevisit_eq_none (hb : x.below? i e = none) (ha : x.above? i e = none) : x.extendRevisit i e = none := by
  rw [Ctx.below?] at hb
  rw [Ctx.above?] at ha
  simp only [Ctx.extendRevisit, hb, ha]

end

theorem addRevisit_within {s : State} {c : CtxId} {i : RegionId} {e : Nat}
    (h : ((s.ctx c).revisit.any fun g => g.has i e) = true) : s.addRevisit c i e = (s, false) := if_pos h

/-- A context with a new revisit list, the addition counted. -/
def State.revisitAdded (s : State) (c : CtxId) (l : List Range) : State :=
  s.setCtx c { s.ctx c with revisit := l, counters := (s.ctx c).counters.addRevisit }

theorem addRevisit_extends {s : State} {c : CtxId} {i : RegionId} {e : Nat} {l : List Range}
    (h : ¬ ((s.ctx c).revisit.any fun g => g.has i e) = true) (hl : (s.ctx c).extendRevisit i e = some l) :
    s.addRevisit c i e = (s.revisitAdded c l, false) := by
  simp only [State.addRevisit, hl, modCtx_eq]
  exact if_neg h

theorem addRevisit_new {s : State} {c : CtxId} {i : RegionId} {e : Nat} {n : RangeId}
    (h : ¬ ((s.ctx c).revisit.any fun g => g.has i e) = true) (hl : (s.ctx c).extendRevisit i e = none)
    (hn : s.freeRange? = some n) :
    s.addRevisit c i e = (s.revisitAdded c ((s.ctx c).placeRange ⟨n, i, e, e⟩ (s.ctx c).revisit), false) := by
  simp only [State.addRevisit, hl, hn, modCtx_eq]
  exact if_neg h

theorem addRevisit_full {s : State} {c : CtxId} {i : RegionId} {e : Nat}
    (h : ¬ ((s.ctx c).revisit.any fun g => g.has i e) = true) (hl : (s.ctx c).extendRevisit i e = none)
    (hn : s.freeRange? = none) : s.addRevisit c i e = (s.exhausted c, true) := by
  simp only [State.addRevisit, hl, hn]
  exact if_neg h

theorem exhausted_rewalks {s : State} {c : CtxId} {g : Segment} {gs : List Segment} (hg : (s.ctx c).segs = g :: gs)
    (h : (s.ctx c).rewalkCount < (s.ctx c).rewalkLimit) :
    s.exhausted c = (s.setCtx c { s.ctx c with
      revisit := [], cur := some 0, frontier := g.first, phase := .walk, rewalkCount := (s.ctx c).rewalkCount + 1, held := none
      counters := (s.ctx c).counters.addRewalk }).raise .rewalk (BitVec.ofNat 8 c) := by
  rw [State.exhausted, if_pos h, modCtx_eq, Ctx.rewalk, Ctx.toHead]
  simp only [hg]
  rfl

theorem exhausted_churns {s : State} {c : CtxId} (h : (s.ctx c).rewalkLimit ≤ (s.ctx c).rewalkCount) :
    s.exhausted c = s.failCtx c .churn := if_neg (Nat.not_lt.2 h)

/-- Settles O30: the cases of R124 in order, then the pool, then R126 and R127. -/
theorem revisitAdditions : Obligations.RevisitAdditions := by
  unfold Obligations.RevisitAdditions
  intro s c i e x within below above ordered added
  refine ⟨fun h => addRevisit_within (within_iff.2 h), fun g h hw hb ha => ?_, fun g hw hb ha => ?_, fun h hw hb ha => ?_,
    fun hw hb ha => ?_⟩
  · exact addRevisit_extends (mt within_iff.1 hw) (extendRevisit_both hb ha)
  · exact addRevisit_extends (mt within_iff.1 hw) (extendRevisit_up hb ha)
  · exact ⟨_, addRevisit_extends (mt within_iff.1 hw) (extendRevisit_down hb ha), placeRange_perm _ _ _,
      fun ho => placeRange_ordered _ _ _ (ho.filter _)⟩
  · have hl : x.extendRevisit i e = none := extendRevisit_eq_none hb ha
    refine ⟨fun n hn => ⟨_, addRevisit_new (mt within_iff.1 hw) hl (freeRange_of_lowest hn), placeRange_perm _ _ _,
      placeRange_ordered _ _ _⟩, fun hfull => ?_⟩
    have hadd := addRevisit_full (mt within_iff.1 hw) hl (freeRange_of_full hfull)
    refine ⟨fun g gs hg hlt => ?_, fun hle => ?_⟩
    · rw [hadd, exhausted_rewalks hg hlt]
      rfl
    · rw [hadd, exhausted_churns hle]

end Sys2Proof.Machine
end

section

namespace Sys2Proof.Machine

/-! ### How many pieces and runs there are (R50, R69) -/

theorem len_of_mem_cut {s : State} {l : SetId} {v : View} {addr : Word} {count : Nat} {p : Piece}
    (h : p ∈ s.cut l v addr count) : 1 ≤ p.len := by
  obtain ⟨a, pos, rem, ha, -, hrem, rfl⟩ := mem_cutFrom addr.isLt h
  exact (pieceAt_len ha hrem pos).1

theorem view_of_mem_cut {s : State} {l : SetId} {v : View} {addr : Word} {count : Nat} {p : Piece}
    (h : p ∈ s.cut l v addr count) : p.view = v := by
  obtain ⟨a, pos, rem, -, -, -, rfl⟩ := mem_cutFrom addr.isLt h
  exact (pieceAt_place s l v a pos rem).2.2

theorem sum_len_cut (s : State) (l : SetId) (v : View) (addr : Word) (count : Nat) :
    ((s.cut l v addr count).map (·.len)).sum = count :=
  sum_len_cutFrom s l v count _ _ _ addr.isLt le_rfl

theorem length_cut_le (s : State) (l : SetId) (v : View) (addr : Word) (count : Nat) :
    (s.cut l v addr count).length ≤ count := by
  have hle := List.length_le_sum_of_one_le ((s.cut l v addr count).map (·.len)) (by
    simpa using fun p hp => len_of_mem_cut hp)
  rwa [sum_len_cut, List.length_map] at hle

theorem cut_ne_nil {s : State} {l : SetId} {v : View} {addr : Word} {count : Nat} (h : 1 ≤ count) :
    s.cut l v addr count ≠ [] := fun hnil => by
  have hsum := sum_len_cut s l v addr count
  rw [hnil] at hsum
  exact absurd hsum (by simp; omega)

@[simp] theorem runsFor_nil (s : State) (k : SlotId) (v : View) : s.runsFor k v [] = [] := rfl

theorem length_runsFor_le (s : State) (k : SlotId) (v : View) (ps : List Piece) : (s.runsFor k v ps).length ≤ ps.length := by
  induction ps with
  | nil => exact le_rfl
  | cons p ps ih =>
    cases hr : s.runsFor k v ps with
    | nil => simp [runsFor_cons_nil hr]
    | cons r rs =>
      rw [hr, List.length_cons] at ih
      rw [runsFor_cons hr]
      split <;> simp only [List.length_cons] <;> omega

theorem runsFor_ne_nil {s : State} {k : SlotId} {v : View} {ps : List Piece} (h : ps ≠ []) : s.runsFor k v ps ≠ [] := by
  obtain ⟨p, ps, rfl⟩ := List.exists_cons_of_ne_nil h
  cases hr : s.runsFor k v ps with
  | nil => simp [runsFor_cons_nil hr]
  | cons r rs =>
    rw [runsFor_cons hr]
    split <;> exact List.cons_ne_nil _ _

theorem length_picked_le (f : Verdict → Bool) (vs : List Verdict) : (picked f vs).length ≤ vs.length := by
  rw [picked, List.length_map]
  exact List.length_filter_le _ _

/-- R2: a STORE, FILL or FETCH has at least one word. -/
theorem one_le_count {t : Txn} (h : t.countOk = true) (hk : t.kind = .store ∨ t.kind = .fill ∨ t.kind = .fetch) :
    1 ≤ t.count := by
  unfold Txn.countOk at h
  rcases hk with hk | hk | hk <;> simp [hk] at h <;> omega

/-! ### The head of intake is taken (R8, R51) -/

theorem exec_storeTaken {s : State} {t : Txn} {b : BoardId} {rest : List Txn} (h : s.Heads .store t b rest) :
    exec .storeTaken s = .next (s.takeStore t b) := congrArg _ (heads_exec h _)

theorem exec_fillStep {s : State} {t : Txn} {b : BoardId} {rest : List Txn} (h : s.Heads .fill t b rest) :
    exec .fillStep s = .next (s.stepFill t b) := congrArg _ (heads_exec h _)

theorem exec_fetchTaken {s : State} {t : Txn} {b : BoardId} {rest : List Txn} (h : s.Heads .fetch t b rest) :
    exec .fetchTaken s = .next (s.takeFetch t b) := congrArg _ (heads_exec h _)

theorem exec_fenceTaken {s : State} {t : Txn} {b : BoardId} {rest : List Txn} (h : s.Heads .fence t b rest) :
    exec .fenceTaken s = .next (s.takeFence t b) := congrArg _ (heads_exec h _)

theorem takeStore_waits {s : State} {t : Txn} {b : BoardId} (h : s.claimAll (s.storeClaims t b) = none) :
    s.takeStore t b = s := by
  simp only [State.takeStore, h]

theorem settled_intake (s : State) (e : SteerEntry) (vs : List Verdict) : (s.settled e vs).intake = s.intake := by
  rw [← settlePieces_eq, settlePieces_intake]

theorem takeStore_taken {s u : State} {t : Txn} {b : BoardId} {rest : List Txn} (hi : s.intake = t :: rest)
    (h : s.claimAll (s.storeClaims t b) = some u) :
    s.takeStore t b = ((u.settled (s.entry b) (s.judgeStore t b)).taken rest).cutHead := by
  have hint : (u.settled (s.entry b) (s.judgeStore t b)).intake = t :: rest := by
    rw [settled_intake, claimAll_intake h, hi]
  simp only [State.takeStore, h, settlePieces_eq, takeHead_of hint]

/-! ### A STORE on its targets (R49 to R51) -/

/-- What the claims of a STORE place is what the statement says. -/
theorem queuesOf_storeClaims {s : State} {b : BoardId} (hl : (s.entry b).Legal) (t : Txn) (k : SlotId) :
    queuesOf (s.storeClaims t b) k = storesFor s t b k := by
  obtain ⟨-, -, -, hdiffer⟩ := hl
  exact queuesOf_claimsFor s (s.entry b) (Run.store t.data) _ _ hdiffer k

theorem mem_picked {f : Verdict → Bool} {vs : List Verdict} {p : Piece} :
    p ∈ picked f vs ↔ ∃ x ∈ vs, f x = true ∧ x.piece = p := by
  simp [picked, and_assoc]

/-- Only a READY primary receives a piece, and only a READY twin. -/
theorem ready_of_picked_primary {s : State} {e : SteerEntry} {ps : List Piece} (h : picked (·.primary) (ps.map (s.judge e)) ≠ [])
    {k : SlotId} (hk : e.primary = some k) : s.isReady k = true := by
  obtain ⟨p, hp⟩ := List.exists_mem_of_ne_nil _ h
  obtain ⟨x, hx, hprim, -⟩ := mem_picked.1 hp
  obtain ⟨q, -, rfl⟩ := List.mem_map.1 hx
  obtain ⟨j, hj, hr, -⟩ := reachesPrimary_iff.1 hprim
  exact Option.some.inj (hj.symm.trans hk) ▸ hr

theorem ready_of_picked_twin {s : State} {e : SteerEntry} {ps : List Piece} (h : picked (·.twin) (ps.map (s.judge e)) ≠ [])
    {k : SlotId} (hk : e.twin = some k) : s.isReady k = true := by
  obtain ⟨p, hp⟩ := List.exists_mem_of_ne_nil _ h
  obtain ⟨x, hx, htwin, -⟩ := mem_picked.1 hp
  obtain ⟨q, -, rfl⟩ := List.mem_map.1 hx
  obtain ⟨j, hj, hr, -⟩ := reachesTwin_iff.1 htwin
  exact Option.some.inj (hj.symm.trans hk) ▸ hr

/-- There are no more runs for a slot than words. -/
theorem length_storesFor_le (s : State) (t : Txn) (b : BoardId) (k : SlotId) : (storesFor s t b k).length ≤ t.count := by
  have hruns : ∀ (v : View) (f : Verdict → Bool),
      ((s.runsFor k v (picked f (s.judgeStore t b))).map (runStore t)).length ≤ t.count := fun v f => by
    have hpieces := length_picked_le f (s.judgeStore t b)
    rw [State.judgeStore, List.length_map] at hpieces
    rw [List.length_map]
    exact (length_runsFor_le s k v _).trans (hpieces.trans (length_cut_le _ _ _ _ _))
  unfold storesFor
  dsimp only
  split
  · exact hruns _ _
  · split
    · exact hruns _ _
    · exact Nat.zero_le _

/-- Settles O20: the claims of a STORE are `storesFor`, taken together or not at all. -/
theorem storeIsTakenWithRoom : Obligations.StoreIsTakenWithRoom := by
  unfold Obligations.StoreIsTakenWithRoom
  intro t b rest s h hl
  obtain ⟨-, hi, -⟩ := id h
  obtain ⟨-, -, -, hdiffer⟩ := id hl
  have hq : queuesOf (s.storeClaims t b) = storesFor s t b := funext (queuesOf_storeClaims hl t)
  refine ⟨fun hlong => ?_, fun hroom => ?_, length_storesFor_le s t b⟩
  · rw [exec_storeTaken h, takeStore_waits (claimAll_claimsFor_none s _ _ _ _ hdiffer (hq.symm ▸ hlong))]
  · have hclaim : s.claimAll (s.storeClaims t b) = some (s.placed (queuesOf (s.storeClaims t b))) :=
      claimAll_claimsFor s _ _ _ _ hdiffer (fun _ => rfl) (fun hn _ hk => ready_of_picked_primary hn hk)
        (fun hn _ hk => ready_of_picked_twin hn hk) (hq.symm ▸ hroom)
    rw [exec_storeTaken h, takeStore_taken hi hclaim, hq]

/-! ### Traffic that finds no board (R49, R54, R56) -/

theorem claimAll_claimsFor_nothing (s : State) (e : SteerEntry) (f : Run → ClaimTxn) :
    s.claimAll (s.claimsFor e f [] []) = some s := by
  cases hp : e.primary <;> cases ht : e.twin <;> simp [State.claimsFor, hp, ht, State.claimAll]

/-- With no slot that takes traffic, no piece finds a target. -/
theorem discarded_of_noBoard {s : State} {b : BoardId} (h : NoBoard s b) (p : Piece) :
    (s.judge (s.entry b) p).discarded = true := by
  obtain ⟨hprimary, htwin⟩ := h
  have hp : s.reachesPrimary (s.entry b) p = false := Bool.eq_false_iff.2 fun hr => by
    obtain ⟨k, hk, hready, -⟩ := reachesPrimary_iff.1 hr
    exact absurd hready (Bool.eq_false_iff.1 (hprimary k hk))
  have ht : s.reachesTwin (s.entry b) p = false := Bool.eq_false_iff.2 fun hr => by
    obtain ⟨k, hk, hready, -, hst⟩ := reachesTwin_iff.1 hr
    exact absurd hready (Bool.eq_false_iff.1 (htwin k hk (hst.elim .inr fun hb => .inl hb.1)))
  simp only [Verdict.discarded, State.judge, hp, ht, Bool.not_false, Bool.and_self]

theorem picked_discarded {vs : List Verdict} (h : ∀ x ∈ vs, x.discarded = true) :
    picked (·.primary) vs = [] ∧ picked (·.twin) vs = [] := by
  have hsplit : ∀ x ∈ vs, x.primary = false ∧ x.twin = false := fun x hx => by simpa [Verdict.discarded] using h x hx
  exact ⟨by simpa [picked] using fun x hx => (hsplit x hx).1, by simpa [picked] using fun x hx => (hsplit x hx).2⟩

/-- Each discarded piece raises NO_BOARD_TRAFFIC, and reports nothing else. -/
theorem foldl_report_discarded {e : SteerEntry} {vs : List Verdict} (h : ∀ x ∈ vs, x.discarded = true) (s : State) (st : Bool) :
    vs.foldl e.report (s, st) =
      (vs.foldl (fun u _ => u.raise .noBoardTraffic ((e.primary.map (fun k => BitVec.ofNat 8 k)).getD 255)) s, st) := by
  induction vs generalizing s with
  | nil => rfl
  | cons x xs ih =>
    have hx : e.report (s, st) x =
        (s.raise .noBoardTraffic ((e.primary.map (fun k => BitVec.ofNat 8 k)).getD 255), st) := if_pos (h x List.mem_cons_self)
    rw [List.foldl_cons, hx, ih fun y hy => h y (List.mem_cons_of_mem _ hy)]
    rfl

theorem gaps_foldl_raise {α : Type} (n : NoticeKind) (d : BitVec 8) (l : List α) (s : State) :
    (l.foldl (fun u _ => u.raise n d) s).gaps = s.gaps := by
  induction l generalizing s with
  | nil => rfl
  | cons x xs ih =>
    rw [List.foldl_cons, ih, raise_eq]

/-- An occurrence leaves its kind pending with its detail. -/
theorem notice_raise_same (s : State) (n : NoticeKind) (d : BitVec 8) :
    ((s.raise n d).notice n).pending = true ∧ ((s.raise n d).notice n).detail = d := by
  rw [notice_raise_eq, if_pos rfl]
  split <;> exact ⟨rfl, rfl⟩

theorem notice_foldl_raise {α : Type} (n : NoticeKind) (d : BitVec 8) {l : List α} (h : l ≠ []) (s : State) :
    ((l.foldl (fun u _ => u.raise n d) s).notice n).pending = true ∧
      ((l.foldl (fun u _ => u.raise n d) s).notice n).detail = d := by
  rw [← List.dropLast_append_getLast h, List.foldl_append]
  exact notice_raise_same _ n d

theorem settled_discarded {e : SteerEntry} {vs : List Verdict} (h : ∀ x ∈ vs, x.discarded = true) (s : State) :
    s.settled e vs =
      { vs.foldl (fun u _ => u.raise .noBoardTraffic ((e.primary.map (fun k => BitVec.ofNat 8 k)).getD 255)) s with
        globals := s.globals.after e vs } := by
  have hgaps : s.gaps.filter (fun g => !vs.any (fun x => x.repairs s e g)) = s.gaps := by
    refine List.filter_eq_self.2 fun g _ => ?_
    rw [Bool.not_eq_true', List.any_eq_false]
    intro x hx
    have htwin : x.twin = false := by
      have := h x hx
      simp only [Verdict.discarded, Bool.and_eq_true, Bool.not_eq_true'] at this
      exact this.2
    simp [Verdict.repairs, htwin]
  rw [State.settled, hgaps, foldl_report_discarded h]
  exact congrArg (fun gs => ({ vs.foldl (fun u _ => u.raise .noBoardTraffic
    ((e.primary.map (fun k => BitVec.ofNat 8 k)).getD 255)) s with globals := s.globals.after e vs, gaps := gs } : State))
      (gaps_foldl_raise _ _ vs s).symm

theorem takeFetch_unanswered {s : State} {t : Txn} {b : BoardId} {rest : List Txn} (hi : s.intake = t :: rest)
    (h : ∀ k, (s.entry b).primary = some k → s.isReady k = false) :
    s.takeFetch t b = { s.taken rest with
      upstream := (s.taken rest).upstream ++ [Txn.noBoardReturn t.tag b t.count] }.cutHead := by
  have hpush : s.takeHead.pushReturn t.tag b retNoBoard t.count [] = { s.taken rest with
      upstream := (s.taken rest).upstream ++ [Txn.noBoardReturn t.tag b t.count] } := by
    rw [takeHead_of hi]
    rfl
  unfold State.takeFetch
  split
  · rw [hpush]
  · rename_i k hk
    rw [if_neg (Bool.eq_false_iff.1 (h k hk)), hpush]

theorem takeFence_untargeted {s : State} {t : Txn} {b : BoardId} {rest : List Txn} (hi : s.intake = t :: rest)
    (h : s.fenceClaims (s.entry b) s.freshGroup = []) :
    s.takeFence t b = { s.taken rest with upstream := (s.taken rest).upstream ++ [Txn.fenceDoneOf t.tag b 4] }.cutHead := by
  simp only [State.takeFence, h, takeHead_of hi]
  rfl

theorem fencePrimary_eq_none {s : State} {e : SteerEntry} (h : ∀ k, e.primary = some k → s.isReady k = false) :
    s.fencePrimary e = none := by
  rw [State.fencePrimary, Option.filter_eq_none_iff]
  exact fun k hk => Bool.eq_false_iff.1 (h k hk)

theorem fencePrimary_eq_some {s : State} {e : SteerEntry} {k : SlotId} (hk : e.primary = some k) (hr : s.isReady k = true) :
    s.fencePrimary e = some k := by
  rw [State.fencePrimary, hk, Option.filter_some, if_pos hr]

/-- The twin takes part in a FENCE (R56, R130). -/
def SteerEntry.Paired (e : SteerEntry) : Prop := e.twinState = .building ∨ e.twinState = .twinned

theorem fenceTwin_paired {s : State} {e : SteerEntry} (h : e.Paired) : s.fenceTwin e = e.twin.filter s.isReady := by
  rcases h with h | h <;> simp only [State.fenceTwin, h]

theorem fenceTwin_eq_none {s : State} {e : SteerEntry} (h : ∀ k, e.twin = some k → e.Paired → s.isReady k = false) :
    s.fenceTwin e = none := by
  by_cases hp : e.Paired
  · rw [fenceTwin_paired hp, Option.filter_eq_none_iff]
    exact fun k hk => Bool.eq_false_iff.1 (h k hk hp)
  · cases hs : e.twinState
    case none => simp only [State.fenceTwin, hs]
    case stale => simp only [State.fenceTwin, hs]
    case building => exact absurd (.inl hs) hp
    case twinned => exact absurd (.inr hs) hp

theorem fenceTwin_eq_some {s : State} {e : SteerEntry} {k : SlotId} (hp : e.Paired) (hk : e.twin = some k)
    (hr : s.isReady k = true) : s.fenceTwin e = some k := by
  rw [fenceTwin_paired hp, hk, Option.filter_some, if_pos hr]

/-- Settles O21: without a target a STORE's pieces are all discarded, and a FETCH or FENCE is answered NO-BOARD. -/
theorem trafficWithoutABoard : Obligations.TrafficWithoutABoard := by
  unfold Obligations.TrafficWithoutABoard
  refine fun t b rest s => ⟨fun h hc hno => ?_, fun h hno => ?_, fun h hno => ?_⟩
  · intro d u
    obtain ⟨-, hi, hk, -⟩ := id h
    have hall : ∀ x ∈ s.judgeStore t b, x.discarded = true := fun x hx => by
      obtain ⟨p, -, rfl⟩ := List.mem_map.1 hx
      exact discarded_of_noBoard hno p
    have hne : s.judgeStore t b ≠ [] := mt List.map_eq_nil_iff.1 (cut_ne_nil (one_le_count hc (.inl hk)))
    obtain ⟨hp, ht⟩ := picked_discarded hall
    have hclaim : s.claimAll (s.storeClaims t b) = some s := by
      rw [State.storeClaims, hp, ht, claimAll_claimsFor_nothing]
    refine ⟨hall, ?_, notice_foldl_raise _ _ hne s⟩
    rw [exec_storeTaken h, takeStore_taken hi hclaim, settled_discarded hall]
  · obtain ⟨-, hi, -⟩ := id h
    rw [exec_fetchTaken h, takeFetch_unanswered hi hno]
  · obtain ⟨-, hi, -⟩ := id h
    obtain ⟨hprimary, htwin⟩ := hno
    have hclaims : s.fenceClaims (s.entry b) s.freshGroup = [] := by
      rw [State.fenceClaims, fencePrimary_eq_none hprimary, fenceTwin_eq_none htwin]
      rfl
    rw [exec_fenceTaken h, takeFence_untargeted hi hclaims]

end Sys2Proof.Machine
end

section

namespace Sys2Proof.Machine

/-! ### A FENCE on its targets (R16, R17, R56, R130) -/

/-- A slot cannot take one more transaction that needs a pending entry. -/
def State.Lacks (s : State) (k : SlotId) : Prop :=
  48 ≤ (s.slot k).queue.length ∨ ∀ i : PendIdx, (s.slot k).pend[i] ≠ none

theorem claim_lacks {s : State} {k : SlotId} (h : s.Lacks k) (g : Nat) (twin : Bool) : s.claim k [fencePart g twin] = none :=
  h.elim (claim_full s k _) (claim_nofree s k _ _ rfl)

theorem claimAll_single (s : State) (k : SlotId) (c : ClaimTxn) : s.claimAll [(k, [c])] = s.claim k [c] := by
  simp only [State.claimAll]
  cases s.claim k [c] <;> rfl

theorem claimAll_pair (s : State) (k j : SlotId) (c d : ClaimTxn) :
    s.claimAll [(k, [c]), (j, [d])] = (s.claim k [c]).bind fun u => u.claim j [d] := by
  rw [State.claimAll]
  cases s.claim k [c] with
  | none => rfl
  | some u => exact claimAll_single u j d

/-- A claim on one slot leaves another's queue and pending table alone. -/
theorem slot_of_claim_other {s u : State} {k j : SlotId} {cs : List ClaimTxn} (h : s.claim k cs = some u) (hkj : k ≠ j) :
    u.slot j = s.slot j := by
  obtain ⟨-, q, -, rfl⟩ := claim_spec h
  rw [slot_setSlot, if_neg hkj]

theorem takeFence_waits {s : State} {t : Txn} {b : BoardId} (hne : s.fenceClaims (s.entry b) s.freshGroup ≠ [])
    (h : s.claimAll (s.fenceClaims (s.entry b) s.freshGroup) = none) : s.takeFence t b = s := by
  obtain ⟨x, xs, hx⟩ := List.exists_cons_of_ne_nil hne
  rw [hx] at h
  simp only [State.takeFence, hx, h]

theorem takeFence_taken {s u : State} {t : Txn} {b : BoardId} {rest : List Txn} (hi : s.intake = t :: rest)
    (hne : s.fenceClaims (s.entry b) s.freshGroup ≠ [])
    (h : s.claimAll (s.fenceClaims (s.entry b) s.freshGroup) = some u) :
    s.takeFence t b = (({ u with fences := u.fences ++ [s.openGroup t b] } : State).taken rest).cutHead := by
  have hint : ({ u with fences := u.fences ++ [s.openGroup t b] } : State).intake = t :: rest := (claimAll_intake h).trans hi
  obtain ⟨x, xs, hx⟩ := List.exists_cons_of_ne_nil hne
  rw [hx] at h
  simp only [State.takeFence, hx, h, takeHead_of hint]

/-- Where the primary lacks room, or the twin, the FENCE stays. -/
theorem takeFence_lacks {s : State} {b : BoardId} {k : SlotId} (hl : s.Lacks k)
    (h : s.fencePrimary (s.entry b) = some k ∨ s.fenceTwin (s.entry b) = some k) (t : Txn) : s.takeFence t b = s := by
  have hwait : ∀ l, s.fenceClaims (s.entry b) s.freshGroup = l → l ≠ [] → s.claimAll l = none → s.takeFence t b = s := by
    rintro _ rfl hne hnone
    exact takeFence_waits hne hnone
  unfold State.fenceClaims at hwait
  cases hp : s.fencePrimary (s.entry b) with
  | none =>
    have htwin := h.resolve_left (by simp [hp])
    rw [hp, htwin] at hwait
    exact hwait _ rfl (List.cons_ne_nil _ _) ((claimAll_single s k _).trans (claim_lacks hl _ _))
  | some p =>
    cases ht : s.fenceTwin (s.entry b) with
    | none =>
      obtain rfl : p = k := Option.some.inj (hp.symm.trans (h.resolve_right (by simp [ht])))
      rw [hp, ht] at hwait
      exact hwait _ rfl (List.cons_ne_nil _ _) ((claimAll_single s p _).trans (claim_lacks hl _ _))
    | some j =>
      rw [hp, ht] at hwait
      refine hwait _ rfl (List.cons_ne_nil _ _) ((claimAll_pair s p j _ _).trans (Option.bind_eq_none_iff.2 fun u hu => ?_))
      have hpk : p ≠ k := by
        rintro rfl
        rw [claim_lacks hl] at hu
        exact absurd hu (by simp)
      obtain rfl : j = k := Option.some.inj (ht.symm.trans (h.resolve_left fun he => hpk (Option.some.inj (hp.symm.trans he))))
      refine claim_lacks ?_ _ _
      unfold State.Lacks
      rw [slot_of_claim_other hu hpk]
      exact hl

/-- One FENCE of a group is taken with the lowest FREE entry. -/
theorem claim_fencePart {s : State} {k : SlotId} {i : PendIdx} (hr : s.isReady k = true) (hq : (s.slot k).queue.length < 48)
    (hi : Lowest (fun j => (s.slot k).pend[j] = none) i) (n : Nat) (twin : Bool) :
    s.claim k [fencePart n twin] = some (s.setSlot k (fenced s k i n twin)) :=
  claim_pend s k (fencePart n twin) _ i hr rfl hq hi

/-- What a FENCE makes of a slot port depends on that port alone. -/
theorem fenced_congr {s u : State} {k : SlotId} (h : u.slot k = s.slot k) (i : PendIdx) (n : Nat) (twin : Bool) :
    fenced u k i n twin = fenced s k i n twin := by
  unfold fenced State.queued
  rw [h]

/-- Settles O24: the claims are the READY targets' parts, taken together or not at all. -/
theorem fenceReachesItsTargets : Obligations.FenceReachesItsTargets := by
  unfold Obligations.FenceReachesItsTargets
  intro t b rest s h e paired free lacks
  obtain ⟨-, hi, -⟩ := id h
  have hfresh : ∀ g ∈ s.fences, g.num ≠ s.freshGroup := fun g hg he =>
    freshNum_not_mem (s.fences.map (·.num)) (List.mem_map.2 ⟨g, hg, he⟩)
  have htaken : ∀ (l : List (SlotId × List ClaimTxn)) (u : State), s.fenceClaims e s.freshGroup = l → l ≠ [] →
      s.claimAll l = some u → exec .fenceTaken s =
        .next (({ u with fences := u.fences ++ [s.openGroup t b] } : State).taken rest).cutHead := by
    rintro _ u rfl hne hu
    rw [exec_fenceTaken h, takeFence_taken hi hne hu]
  refine ⟨fun k hr hl hk => ?_, fun k i hk hr hno hq hf => ⟨_, hfresh, ?_⟩,
    fun k j i m hk hj hkj hpair hrk hrj hqk hqj hfk hfj => ⟨_, hfresh, ?_⟩,
    fun j m hno hj hpair hr hq hf => ⟨_, hfresh, ?_⟩⟩
  · rw [exec_fenceTaken h, takeFence_lacks (k := k) hl (hk.imp (fencePrimary_eq_some · hr) fun ⟨ht, hp⟩ => fenceTwin_eq_some hp ht hr)]
  · have hp := fencePrimary_eq_some hk hr
    have ht : s.fenceTwin e = none := fenceTwin_eq_none hno
    have hclaims : s.fenceClaims e s.freshGroup = [(k, [fencePart s.freshGroup false])] := by
      rw [State.fenceClaims, hp, ht]
      rfl
    rw [htaken _ _ hclaims (List.cons_ne_nil _ _) ((claimAll_single s k _).trans (claim_fencePart hr hq hf _ _)),
      State.openGroup, hp, ht]
    rfl
  · have hp := fencePrimary_eq_some hk hrk
    have ht := fenceTwin_eq_some hpair hj hrj
    have hclaims : s.fenceClaims e s.freshGroup =
        [(k, [fencePart s.freshGroup false]), (j, [fencePart s.freshGroup true])] := by
      rw [State.fenceClaims, hp, ht]
      rfl
    have hslot : (s.setSlot k (fenced s k i s.freshGroup false)).slot j = s.slot j := by rw [slot_setSlot, if_neg hkj]
    have hsecond : (s.setSlot k (fenced s k i s.freshGroup false)).claim j [fencePart s.freshGroup true] =
        some ((s.setSlot k (fenced s k i s.freshGroup false)).setSlot j (fenced s j m s.freshGroup true)) := by
      have hclaim := claim_fencePart (s := s.setSlot k (fenced s k i s.freshGroup false)) (k := j) (i := m)
        (by rw [State.isReady, hslot]; exact hrj) (by rw [hslot]; exact hqj) (by rw [hslot]; exact hfj) s.freshGroup true
      rw [hclaim, fenced_congr hslot]
    have hboth : s.claimAll [(k, [fencePart s.freshGroup false]), (j, [fencePart s.freshGroup true])] =
        some ((s.setSlot k (fenced s k i s.freshGroup false)).setSlot j (fenced s j m s.freshGroup true)) := by
      rw [claimAll_pair, claim_fencePart hrk hqk hfk, Option.bind_some, hsecond]
    rw [htaken _ _ hclaims (List.cons_ne_nil _ _) hboth, State.openGroup, hp, ht]
    rfl
  · have hp : s.fencePrimary e = none := fencePrimary_eq_none hno
    have ht := fenceTwin_eq_some hpair hj hr
    have hclaims : s.fenceClaims e s.freshGroup = [(j, [fencePart s.freshGroup true])] := by
      rw [State.fenceClaims, hp, ht]
      rfl
    rw [htaken _ _ hclaims (List.cons_ne_nil _ _) ((claimAll_single s j _).trans (claim_fencePart hr hq hf _ _)),
      State.openGroup, hp, ht]
    rfl

end Sys2Proof.Machine
end

section

namespace Sys2Proof.Machine

/-! ### The parts of a FETCH (R54, R55) -/

/-- The runs of a FETCH on its primary. -/
def State.fetchRuns (s : State) (t : Txn) (b : BoardId) (k : SlotId) : List Run :=
  s.runsFor k (s.entry b).view (s.cut (s.entry b).layoutSet (s.entry b).view t.addr t.count)

/-- The assembly that the parts of a FETCH name: one of several does, one alone does not. -/
def State.fetchAssembly (s : State) (t : Txn) (b : BoardId) (k : SlotId) : Option Nat :=
  if (s.fetchRuns t b k).length = 1 then none else some s.freshAssembly

theorem fetchParts_eq (s : State) (t : Txn) (b : BoardId) (k : SlotId) : s.fetchParts t b k =
    (s.fetchRuns t b k).zipIdx.map (fetchPart t.tag b (s.fetchRuns t b k).length (s.fetchAssembly t b k)) := rfl

@[simp] theorem length_fetchParts (s : State) (t : Txn) (b : BoardId) (k : SlotId) :
    (s.fetchParts t b k).length = (s.fetchRuns t b k).length := by
  rw [fetchParts_eq, List.length_map, List.length_zipIdx]

theorem fetchParts_pend {s : State} {t : Txn} {b : BoardId} {k : SlotId} {c : ClaimTxn} (h : c ∈ s.fetchParts t b k) :
    c.pend.isSome = true := by
  rw [fetchParts_eq] at h
  obtain ⟨x, -, rfl⟩ := List.mem_map.1 h
  rfl

theorem getElem_fetchParts {s : State} {t : Txn} {b : BoardId} {k : SlotId} {j : Nat} {r : Run}
    (h : (s.fetchRuns t b k)[j]? = some r) : (s.fetchParts t b k)[j]? =
      some (fetchPart t.tag b (s.fetchRuns t b k).length (s.fetchAssembly t b k) (r, j)) := by
  simp only [fetchParts_eq, List.getElem?_map, List.getElem?_zipIdx, h, Option.map_some, Nat.zero_add]

theorem tagged_fetchParts (s : State) (t : Txn) (b : BoardId) (k : SlotId) (is : List PendIdx) :
    List.zipWith ClaimTxn.tagged (s.fetchParts t b k) is = List.zipWith runFetch (s.fetchRuns t b k) is := by
  rw [fetchParts_eq, List.zipWith_map_left]
  conv_rhs => rw [← List.zipIdx_map_fst 0 (s.fetchRuns t b k), List.zipWith_map_left]
  rfl

theorem takeFetch_waits {s : State} {t : Txn} {b : BoardId} {k : SlotId} (hk : (s.entry b).primary = some k)
    (hr : s.isReady k = true) (h : s.claim k (s.fetchParts t b k) = none) : s.takeFetch t b = s := by
  simp only [State.takeFetch, hk, hr, h, if_true]

theorem takeFetch_taken {s u : State} {t : Txn} {b : BoardId} {k : SlotId} {rest : List Txn} (hi : s.intake = t :: rest)
    (hk : (s.entry b).primary = some k) (hr : s.isReady k = true) (h : s.claim k (s.fetchParts t b k) = some u) :
    s.takeFetch t b = (({ u with assemblies := if (s.fetchRuns t b k).length = 1 then u.assemblies
      else u.assemblies ++ [(⟨s.freshAssembly, t.tag, b, t.count, List.replicate (s.fetchRuns t b k).length none⟩ : Assembly)]
        } : State).taken rest).cutHead := by
  have hopen : u.openAssembly s.freshAssembly t b (s.fetchRuns t b k).length =
      { u with assemblies := if (s.fetchRuns t b k).length = 1 then u.assemblies
        else u.assemblies ++ [(⟨s.freshAssembly, t.tag, b, t.count, List.replicate (s.fetchRuns t b k).length none⟩ : Assembly)] } := by
    unfold State.openAssembly
    split <;> rfl
  have hint : (u.openAssembly s.freshAssembly t b (s.fetchRuns t b k).length).intake = t :: rest := by
    obtain ⟨-, q, -, rfl⟩ := claim_spec h
    rw [hopen]
    exact hi
  rw [hopen] at hint
  simp only [State.takeFetch, hk, hr, h, if_true, length_fetchParts, hopen, takeHead_of hint]

/-! ### Assembly (R55) -/

theorem allResolved_eq_none {l : List (Option PartResult)} (h : none ∈ l) : allResolved l = none := by
  induction l with
  | nil => exact absurd h List.not_mem_nil
  | cons x xs ih =>
    cases x with
    | none => rfl
    | some p => rw [allResolved, ih ((List.mem_cons.1 h).resolve_left (by simp)), Option.map_none]

theorem resolvePart_waits {s : State} {a : Assembly} {part : Nat} {r : PartResult}
    (h : s.assemblies.find? (fun x => x.num == a.num) = some a) (hn : allResolved (a.parts.set (part - 1) (some r)) = none) :
    s.resolvePart a.num part r = { s with assemblies := s.assemblies.map (fun x =>
      if x.num = a.num then { a with parts := a.parts.set (part - 1) (some r) } else x) } := by
  simp only [State.resolvePart, h, hn]

theorem resolvePart_last {s : State} {a : Assembly} {part : Nat} {r : PartResult} {ps : List PartResult}
    (h : s.assemblies.find? (fun x => x.num == a.num) = some a)
    (hn : allResolved (a.parts.set (part - 1) (some r)) = some ps) :
    s.resolvePart a.num part r =
      ({ s with assemblies := s.assemblies.filter (fun x => x.num ≠ a.num) } : State).pushAssembled a ps := by
  simp only [State.resolvePart, h, hn]

/-- R55: the worst status is that of a part, or OK, and none is worse. -/
theorem worstStatus_spec (ps : List PartResult) : ∃ p ∈ ((⟨0, []⟩ : PartResult) :: ps),
    p.status = worstStatus ps ∧ ∀ q ∈ ps, q.status ≤ p.status := by
  obtain ⟨-, hworst, heq | ⟨q, hq, heq⟩⟩ := worst_foldl ps retOk
  · exact ⟨⟨0, []⟩, List.mem_cons_self, heq.symm, fun p hp => le_of_le_of_eq (hworst p hp) heq⟩
  · exact ⟨q, List.mem_cons_of_mem _ hq, heq.symm, fun p hp => le_of_le_of_eq (hworst p hp) heq⟩

theorem pushAssembled_eq {s : State} {a : Assembly} {ps : List PartResult} {st : BitVec 4} (h : st = worstStatus ps) :
    s.pushAssembled a ps = { s with
      upstream := s.upstream ++ [{ kind := .ret, board := BitVec.ofNat 4 a.board, status := st, tag := a.tag, count := a.count
                                   data := if st = 0 ∨ st = 1 then ps.flatMap (·.data) else [] }] } := by
  subst h
  rfl

/-- Settles O23: the parts of a FETCH take the lowest FREE entries, all or none; a part's RETURN resolves it, and the last sends
the one RETURN. -/
theorem splitFetchIsTakenAndAssembled : Obligations.SplitFetchIsTakenAndAssembled := by
  unfold Obligations.SplitFetchIsTakenAndAssembled
  refine ⟨fun t b rest k s h hc hk hr => ?_, fun k f t i tag b part parts n s hb hr hi he => ?_, fun s a part r hfind =>
    ⟨fun hn => resolvePart_waits hfind (allResolved_eq_none hn), fun ps hps => ?_⟩⟩
  · intro e rs
    obtain ⟨-, hi, hkind, -⟩ := id h
    have hne : s.fetchParts t b k ≠ [] := by
      rw [← List.length_pos_iff, length_fetchParts, List.length_pos_iff]
      exact runsFor_ne_nil (cut_ne_nil (one_le_count hc (.inr (.inr hkind))))
    refine ⟨fun hlack => ?_, fun is hroom hlen hlow => ?_⟩
    · have hnone : s.claim k (s.fetchParts t b k) = none := by
        rcases hlack with hlong | hfew
        · exact claim_tooLong s k _ hne (by rw [length_fetchParts]; exact hlong)
        · rw [claim_of_ready hr, Option.map_eq_none_iff]
          by_contra hsome
          obtain ⟨q, hq⟩ := Option.ne_none_iff_exists'.1 hsome
          have huses := enqueueAll_uses _ _ q (fun c hc => fetchParts_pend hc) hq
          rw [length_fetchParts] at huses
          exact absurd hfew (Nat.not_lt.2 huses)
      rw [exec_fetchTaken h, takeFetch_waits hk hr hnone]
    · obtain ⟨hasc, hfree, hrest⟩ := hlow
      have hclaim := enqueueAll_pends (s.fetchParts t b k) (s.slot k) is (fun c hc => fetchParts_pend hc)
        (by rw [length_fetchParts]; exact hlen) (by rw [length_fetchParts]; exact hroom) hasc hfree hrest
      refine ⟨s.freshAssembly, entriesTaken (s.slot k).pend (s.fetchParts t b k) is, fun a ha he =>
        freshNum_not_mem (s.assemblies.map (·.num)) (List.mem_map.2 ⟨a, ha, he⟩), fun j r i hj hij => ?_,
        fun i hni => entriesTaken_other _ _ _ i hni, ?_⟩
      · exact entriesTaken_at _ _ (hasc.imp fun hlt => ne_of_lt hlt) _ j _ i (getElem_fetchParts hj) hij
      · rw [exec_fetchTaken h, takeFetch_taken hi hk hr (claim_of_fits s k _ _ hr hclaim), tagged_fetchParts]
        rfl
  · exact exec_returnReceived_matched hb hr hi he rfl rfl rfl
  · obtain ⟨p, hp, hst, hworst⟩ := worstStatus_spec ps
    refine ⟨p, hp, hworst, ?_⟩
    rw [resolvePart_last hfind (hps ▸ allResolved_map ps), pushAssembled_eq hst]

end Sys2Proof.Machine
end

section

namespace Sys2Proof.Machine

/-! ### A FILL in expansion (R52, R53, R129) -/

theorem stepFill_piece {s : State} {t : Txn} {b : BoardId} {p : Piece} {ps : List Piece} {w : List SlotId}
    (h : s.fill = some ⟨p :: ps, some w⟩) : s.stepFill t b = s.fillPiece t (s.entry b) w p ps := by
  simp only [State.stepFill, h]

theorem stepFill_first {s : State} {t : Txn} {b : BoardId} {p : Piece} {ps : List Piece}
    (h : s.fill = some ⟨p :: ps, none⟩) : s.stepFill t b =
      if (s.wholeSet (s.entry b) ((p :: ps).map (s.judge (s.entry b)))).isEmpty then s.fillPiece t (s.entry b) [] p ps
      else s.fillWhole t (s.entry b) (s.wholeSet (s.entry b) ((p :: ps).map (s.judge (s.entry b)))) (p :: ps)
        ((p :: ps).map (s.judge (s.entry b))) := by
  simp only [State.stepFill, h]

theorem endFill_of {s : State} {t : Txn} {rest : List Txn} (h : s.intake = t :: rest) :
    s.endFill = (({ s with fill := none } : State).taken rest).cutHead := by
  have hint : ({ s with fill := none } : State).intake = t :: rest := h
  rw [State.endFill, takeHead_of hint]

theorem hasWhole_iff {w : List SlotId} {o : Option SlotId} : hasWhole w o = true ↔ ∃ k ∈ w, o = some k := by
  cases o <;> simp [hasWhole]

theorem hasWhole_some (w : List SlotId) (k : SlotId) : hasWhole w (some k) = decide (k ∈ w) := by
  simp [hasWhole]

/-! #### The step of one piece -/

/-- The pieces that a following step places on the primary, and on the twin. -/
def State.fillPrimary (s : State) (e : SteerEntry) (w : List SlotId) (p : Piece) : List Piece :=
  if (s.judge e p).primary && !hasWhole w e.primary then [p] else []

def State.fillTwin (s : State) (e : SteerEntry) (w : List SlotId) (p : Piece) : List Piece :=
  if (s.judge e p).twin && !hasWhole w e.twin then [p] else []

/-- The claims of a following step. -/
def State.fillClaims (s : State) (t : Txn) (e : SteerEntry) (w : List SlotId) (p : Piece) : List (SlotId × List ClaimTxn) :=
  s.claimsFor e (Run.fill t.data) (s.fillPrimary e w p) (s.fillTwin e w p)

theorem fillPiece_waits {s : State} {t : Txn} {e : SteerEntry} {w : List SlotId} {p : Piece}
    (h : s.claimAll (s.fillClaims t e w p) = none) (ps : List Piece) : s.fillPiece t e w p ps = s := by
  unfold State.fillClaims State.fillPrimary State.fillTwin at h
  simp only [State.fillPiece, h]

theorem fillPiece_more {s u : State} {t : Txn} {e : SteerEntry} {w : List SlotId} {p : Piece} {ps : List Piece}
    (h : s.claimAll (s.fillClaims t e w p) = some u) (hps : ps ≠ []) :
    s.fillPiece t e w p ps = { u.settled e [s.judge e p] with fill := some ⟨ps, some w⟩ } := by
  unfold State.fillClaims State.fillPrimary State.fillTwin at h
  simp only [State.fillPiece, h, settlePieces_eq, List.isEmpty_eq_false_iff.2 hps, Bool.false_eq_true, if_false]

theorem fillPiece_last {s u : State} {t : Txn} {e : SteerEntry} {w : List SlotId} {p : Piece} {rest : List Txn}
    (hi : s.intake = t :: rest) (h : s.claimAll (s.fillClaims t e w p) = some u) :
    s.fillPiece t e w p [] = (({ u.settled e [s.judge e p] with fill := none } : State).taken rest).cutHead := by
  have hint : (u.settled e [s.judge e p]).intake = t :: rest := by rw [settled_intake, claimAll_intake h, hi]
  unfold State.fillClaims State.fillPrimary State.fillTwin at h
  simp only [State.fillPiece, h, settlePieces_eq, List.isEmpty_nil, if_true, endFill_of hint]

/-- The FILL of a piece that a slot is to receive and did not receive whole. -/
theorem map_fill_piece (s : State) (t : Txn) (k : SlotId) (v : View) (w : List SlotId) (p : Piece) (reaches : Bool) :
    (s.runsFor k v (if reaches && !decide (k ∈ w) then [p] else [])).map (fun r => (Run.fill t.data r).asQueued) =
      if k ∈ w then [] else if reaches = true then
        [⟨{ kind := .fill, count := p.len, addr := BitVec.ofNat 32 (s.sendAddr k v p), data := [t.data.headD 0] },
          .agentDerived⟩] else [] := by
  by_cases hw : k ∈ w
  · simp [hw]
  · cases reaches
    · simp
    · rw [if_neg hw, if_pos rfl, decide_eq_false hw]
      rfl

/-- What the claims of a following step place is what the statement says. -/
theorem queuesOf_fillClaims {s : State} {b : BoardId} (hl : (s.entry b).Legal) (t : Txn) (w : List SlotId) (p : Piece)
    (k : SlotId) : queuesOf (s.fillClaims t (s.entry b) w p) k = fillsFor s t b w p k := by
  obtain ⟨-, -, -, hdiffer⟩ := hl
  rw [State.fillClaims, queuesOf_claimsFor s (s.entry b) (Run.fill t.data) _ _ hdiffer k]
  unfold fillsFor State.fillPrimary State.fillTwin State.judge
  dsimp only
  by_cases hp : (s.entry b).primary = some k
  · rw [if_pos hp, if_pos hp, hp, hasWhole_some, map_fill_piece]
  · rw [if_neg hp, if_neg hp]
    by_cases ht : (s.entry b).twin = some k
    · rw [if_pos ht, if_pos ht, ht, hasWhole_some, map_fill_piece]
    · rw [if_neg ht, if_neg ht, ite_self]

theorem length_fillsFor_le (s : State) (t : Txn) (b : BoardId) (w : List SlotId) (p : Piece) (k : SlotId) :
    (fillsFor s t b w p k).length ≤ 1 := by
  unfold fillsFor
  dsimp only
  split
  · exact Nat.zero_le _
  · split
    · split
      · exact le_rfl
      · exact Nat.zero_le _
    · split
      · split
        · exact le_rfl
        · exact Nat.zero_le _
      · exact Nat.zero_le _

theorem fillClaims_taken {s : State} {b : BoardId} (hl : (s.entry b).Legal) (t : Txn) {w : List SlotId} {p : Piece}
    (hroom : ∀ k, fillsFor s t b w p k ≠ [] → (s.slot k).queue.length < 48) :
    s.claimAll (s.fillClaims t (s.entry b) w p) = some (s.placed (fillsFor s t b w p)) := by
  have hq : queuesOf (s.fillClaims t (s.entry b) w p) = fillsFor s t b w p := funext (queuesOf_fillClaims hl t w p)
  obtain ⟨-, -, -, hdiffer⟩ := hl
  have hready : ∀ {c : Bool}, (if c then [p] else []) ≠ [] → c = true := fun {c} h => by
    cases c
    · exact absurd rfl h
    · rfl
  have hclaim := claimAll_claimsFor s (s.entry b) (Run.fill t.data) (s.fillPrimary (s.entry b) w p) (s.fillTwin (s.entry b) w p)
    hdiffer (fun _ => rfl) (fun hn k hk => ?_) (fun hn k hk => ?_) ?_
  · exact hclaim.trans (congrArg (fun q => some (s.placed q)) hq)
  · obtain ⟨j, hj, hr, -⟩ := reachesPrimary_iff.1 (Bool.and_eq_true_iff.1 (hready hn)).1
    exact Option.some.inj (hj.symm.trans hk) ▸ hr
  · obtain ⟨j, hj, hr, -⟩ := reachesTwin_iff.1 (Bool.and_eq_true_iff.1 (hready hn)).1
    exact Option.some.inj (hj.symm.trans hk) ▸ hr
  · intro k hk
    have hlen := length_fillsFor_le s t b w p k
    have hdepth : Config.slotQueueDepth = 48 := rfl
    rw [State.fillClaims] at hq
    rw [hq] at hk ⊢
    have := hroom k hk
    omega

theorem fillClaims_waits {s : State} {b : BoardId} (hl : (s.entry b).Legal) (t : Txn) {w : List SlotId} {p : Piece}
    (h : ∃ k, fillsFor s t b w p k ≠ [] ∧ 48 ≤ (s.slot k).queue.length) :
    s.claimAll (s.fillClaims t (s.entry b) w p) = none := by
  obtain ⟨k, hk, hlong⟩ := h
  have hq := queuesOf_fillClaims hl t w p k
  obtain ⟨-, -, -, hdiffer⟩ := hl
  have hpos := List.length_pos_iff.2 hk
  have hdepth : Config.slotQueueDepth = 48 := rfl
  rw [State.fillClaims] at hq
  refine claimAll_claimsFor_none s _ _ _ _ hdiffer ⟨k, hq.symm ▸ hk, ?_⟩
  rw [hq]
  omega

/-! #### The whole targets -/

theorem isWhole_iff {s : State} {e : SteerEntry} {k : SlotId} {v : View} {f : Verdict → Bool} {ps : List Piece} :
    s.isWhole e k v f (ps.map (s.judge e)) = true ↔
      e.twinState ≠ .building ∧ (∀ p ∈ ps, f (s.judge e p) = true) ∧ (s.runsFor k v ps).length = 1 := by
  have hpieces : (ps.map (s.judge e)).map (·.piece) = ps := by
    rw [List.map_map]
    exact List.map_id ps
  simp only [State.isWhole, hpieces, Bool.and_eq_true, bne_iff_ne, beq_iff_eq, List.all_eq_true, List.mem_map,
    forall_exists_index, and_imp, forall_apply_eq_imp_iff₂, and_assoc]

theorem wholeSet_eq (s : State) (e : SteerEntry) (vs : List Verdict) : s.wholeSet e vs =
    e.primary.toList.filter (fun k => s.isWhole e k e.view (·.primary) vs) ++
      e.twin.toList.filter (fun k => s.isWhole e k e.view.other (·.twin) vs) := by
  unfold State.wholeSet
  cases e.primary <;> cases e.twin <;> simp [List.filter_cons]

/-- The slots that receive the FILL whole. -/
theorem mem_wholeSet {s : State} {b : BoardId} {ps : List Piece} {k : SlotId} :
    k ∈ s.wholeSet (s.entry b) (ps.map (s.judge (s.entry b))) ↔ TakesWhole s b ps k := by
  simp only [wholeSet_eq, List.mem_append, List.mem_filter, Option.mem_toList, isWhole_iff]
  unfold TakesWhole
  constructor
  · rintro (⟨hk, hst, hrest⟩ | ⟨hk, hst, hrest⟩)
    · exact ⟨hst, .inl ⟨hk, hrest⟩⟩
    · exact ⟨hst, .inr ⟨hk, hrest⟩⟩
  · rintro ⟨hst, ⟨hk, hrest⟩ | ⟨hk, hrest⟩⟩
    · exact .inl ⟨hk, hst, hrest⟩
    · exact .inr ⟨hk, hst, hrest⟩

/-- A list without repetition of at most two members, the first given, is determined by its members. -/
theorem eq_of_mem_iff_of_head {α : Type} {o r : Option α} {w : List α} (hd : o.isSome = true → o ≠ r) (hn : w.Nodup)
    (hm : ∀ k, k ∈ w ↔ o = some k ∨ r = some k) (hh : ∀ k, o = some k → w.head? = some k) :
    w = o.toList ++ r.toList := by
  have hnodup : (o.toList ++ r.toList).Nodup := by
    cases o <;> cases r <;> simp_all
  have hperm : w.Perm (o.toList ++ r.toList) :=
    (List.perm_ext_iff_of_nodup hn hnodup).2 fun k => by simp [hm]
  cases o with
  | none =>
    cases r with
    | none => exact hperm.eq_nil
    | some j => exact List.perm_singleton.1 hperm
  | some k =>
    obtain ⟨l, rfl⟩ := List.head?_eq_some_iff.1 (hh k rfl)
    have hrest := hperm.cons_inv
    cases r with
    | none => exact congrArg (k :: ·) hrest.eq_nil
    | some j => exact congrArg (k :: ·) (List.perm_singleton.1 hrest)

/-- The slots that the statement lists are the model's, in the model's order. -/
theorem eq_wholeSet {s : State} {b : BoardId} {ps : List Piece} {w : List SlotId} (hl : (s.entry b).Legal)
    (hm : ∀ k, k ∈ w ↔ TakesWhole s b ps k) (hn : w.Nodup)
    (hh : ∀ k, (s.entry b).primary = some k → k ∈ w → w.head? = some k) :
    w = s.wholeSet (s.entry b) (ps.map (s.judge (s.entry b))) := by
  obtain ⟨-, -, -, hdiffer⟩ := hl
  have hfilter : ∀ (o : Option SlotId) (f : SlotId → Bool), o.toList.filter f = (o.filter f).toList := fun o f => by
    cases o with
    | none => rfl
    | some k => cases hk : f k <;> simp [hk, Option.filter]
  have hmem : ∀ k, k ∈ w ↔ k ∈ s.wholeSet (s.entry b) (ps.map (s.judge (s.entry b))) := fun k =>
    (hm k).trans mem_wholeSet.symm
  rw [wholeSet_eq, hfilter, hfilter] at hmem ⊢
  refine eq_of_mem_iff_of_head (fun hs he => ?_) hn (fun k => by simpa using hmem k) fun k hk => ?_
  · obtain ⟨k, hk⟩ := Option.isSome_iff_exists.1 hs
    have hp := (Option.filter_eq_some_iff.1 hk).1
    have ht := (Option.filter_eq_some_iff.1 (he.symm.trans hk)).1
    exact hdiffer (Option.isSome_iff_exists.2 ⟨k, hp⟩) (hp.trans ht.symm)
  · refine hh k (Option.filter_eq_some_iff.1 hk).1 ((hmem k).2 ?_)
    rw [hk]
    exact List.mem_append_left _ (by simp)

end Sys2Proof.Machine
end

section

namespace Sys2Proof.Machine

/-! #### The step of the whole targets -/

/-- The pieces that the first step places on the primary, and on the twin: all of them or none. -/
def wholePieces (w : List SlotId) (o : Option SlotId) (ps : List Piece) : List Piece := if hasWhole w o then ps else []

/-- The claims of the first step. -/
def State.wholeClaims (s : State) (t : Txn) (e : SteerEntry) (w : List SlotId) (ps : List Piece) :
    List (SlotId × List ClaimTxn) :=
  s.claimsFor e (Run.fill t.data) (wholePieces w e.primary ps) (wholePieces w e.twin ps)

theorem fillWhole_waits {s : State} {t : Txn} {e : SteerEntry} {w : List SlotId} {ps : List Piece}
    (h : s.claimAll (s.wholeClaims t e w ps) = none) (vs : List Verdict) : s.fillWhole t e w ps vs = s := by
  unfold State.wholeClaims wholePieces at h
  simp only [State.fillWhole, h]

theorem fillWhole_all {s u : State} {t : Txn} {e : SteerEntry} {w : List SlotId} {ps : List Piece} {vs : List Verdict}
    {rest : List Txn} (hi : s.intake = t :: rest) (h : s.claimAll (s.wholeClaims t e w ps) = some u)
    (hall : allWhole e w vs = true) :
    s.fillWhole t e w ps vs = (({ u.settled e vs with fill := none } : State).taken rest).cutHead := by
  have hint : (u.settled e vs).intake = t :: rest := by rw [settled_intake, claimAll_intake h, hi]
  unfold State.wholeClaims wholePieces at h
  simp only [State.fillWhole, h, hall, if_true, settlePieces_eq, endFill_of hint]

theorem fillWhole_some {s u : State} {t : Txn} {e : SteerEntry} {w : List SlotId} {ps : List Piece} {vs : List Verdict}
    (h : s.claimAll (s.wholeClaims t e w ps) = some u) (hall : ¬ allWhole e w vs = true) :
    s.fillWhole t e w ps vs = { u with fill := some ⟨ps, some w⟩ } := by
  unfold State.wholeClaims wholePieces at h
  simp only [State.fillWhole, h, hall, if_false, Bool.false_eq_true]

/-- R52: every target of every piece receives the FILL whole. -/
theorem allWhole_iff {s : State} {e : SteerEntry} {w : List SlotId} {ps : List Piece} :
    allWhole e w (ps.map (s.judge e)) = true ↔ ∀ x ∈ ps, (s.reachesPrimary e x = true → ∃ k ∈ w, e.primary = some k) ∧
      (s.reachesTwin e x = true → ∃ k ∈ w, e.twin = some k) := by
  simp only [allWhole, List.all_eq_true, List.mem_map, forall_exists_index, and_imp, forall_apply_eq_imp_iff₂, State.judge,
    Bool.and_eq_true, ← hasWhole_iff]
  refine forall₂_congr fun x _ => ?_
  cases s.reachesPrimary e x <;> cases s.reachesTwin e x <;> simp

/-- What the claims of the first step place is what the statement says. -/
theorem queuesOf_wholeClaims {s : State} {b : BoardId} {w : List SlotId} {ps : List Piece} (hl : (s.entry b).Legal)
    (hm : ∀ k, k ∈ w ↔ TakesWhole s b ps k) (t : Txn) (k : SlotId) :
    queuesOf (s.wholeClaims t (s.entry b) w ps) k = wholeFor s t b w ps k := by
  obtain ⟨-, -, -, hdiffer⟩ := hl
  have hnil : ∀ v, (s.runsFor k v []).map (fun r => (Run.fill t.data r).asQueued) = [] := fun _ => rfl
  rw [State.wholeClaims, queuesOf_claimsFor s (s.entry b) (Run.fill t.data) _ _ hdiffer k]
  unfold wholeFor wholePieces
  dsimp only
  by_cases hp : (s.entry b).primary = some k
  · rw [if_pos hp, hp, hasWhole_some]
    by_cases hw : k ∈ w
    · rw [if_pos hw, if_pos (decide_eq_true hw), if_pos rfl]
      rfl
    · rw [if_neg hw, if_neg (by simpa using hw), hnil]
  · rw [if_neg hp]
    by_cases ht : (s.entry b).twin = some k
    · rw [if_pos ht, ht, hasWhole_some]
      by_cases hw : k ∈ w
      · rw [if_pos hw, if_pos (decide_eq_true hw), if_neg hp]
        rfl
      · rw [if_neg hw, if_neg (by simpa using hw), hnil]
    · have hw : k ∉ w := fun hw => by
        obtain ⟨-, ⟨h, -⟩ | ⟨h, -⟩⟩ := (hm k).1 hw
        · exact hp h
        · exact ht h
      rw [if_neg ht, if_neg hw]

/-- A slot that receives the FILL whole receives one FILL. -/
theorem length_wholeFor {s : State} {b : BoardId} {w : List SlotId} {ps : List Piece} (hl : (s.entry b).Legal)
    (hm : ∀ k, k ∈ w ↔ TakesWhole s b ps k) (t : Txn) {k : SlotId} (hk : k ∈ w) : (wholeFor s t b w ps k).length = 1 := by
  obtain ⟨-, -, -, hdiffer⟩ := hl
  unfold wholeFor
  dsimp only
  rw [if_pos hk, List.length_map]
  obtain ⟨-, ⟨hp, -, hone⟩ | ⟨ht, -, hone⟩⟩ := (hm k).1 hk
  · rw [if_pos hp, hone]
  · have hp : (s.entry b).primary ≠ some k := fun hp =>
      hdiffer (Option.isSome_iff_exists.2 ⟨k, hp⟩) (hp.trans ht.symm)
    rw [if_neg hp, hone]

theorem mem_of_wholeFor {s : State} {b : BoardId} {w : List SlotId} {ps : List Piece} {t : Txn} {k : SlotId}
    (h : wholeFor s t b w ps k ≠ []) : k ∈ w := by
  by_contra hk
  exact h (if_neg hk)

/-- A slot that receives the FILL whole is READY. -/
theorem isReady_of_takesWhole {s : State} {b : BoardId} {p : Piece} {ps : List Piece} {k : SlotId}
    (h : TakesWhole s b (p :: ps) k) : s.isReady k = true := by
  obtain ⟨-, ⟨hk, hall, -⟩ | ⟨hk, hall, -⟩⟩ := h
  · obtain ⟨j, hj, hr, -⟩ := reachesPrimary_iff.1 (hall p List.mem_cons_self)
    exact Option.some.inj (hj.symm.trans hk) ▸ hr
  · obtain ⟨j, hj, hr, -⟩ := reachesTwin_iff.1 (hall p List.mem_cons_self)
    exact Option.some.inj (hj.symm.trans hk) ▸ hr

theorem mem_of_wholePieces {w : List SlotId} {o : Option SlotId} {ps : List Piece} {k : SlotId} (h : wholePieces w o ps ≠ [])
    (hk : o = some k) : k ∈ w := by
  subst hk
  by_contra hn
  exact h (if_neg (by rw [hasWhole_some]; simpa using hn))

theorem wholeClaims_taken {s : State} {b : BoardId} {w : List SlotId} {p : Piece} {ps : List Piece} (hl : (s.entry b).Legal)
    (hm : ∀ k, k ∈ w ↔ TakesWhole s b (p :: ps) k) (t : Txn) (hroom : ∀ k ∈ w, (s.slot k).queue.length < 48) :
    s.claimAll (s.wholeClaims t (s.entry b) w (p :: ps)) = some (s.placed (wholeFor s t b w (p :: ps))) := by
  have hq : queuesOf (s.wholeClaims t (s.entry b) w (p :: ps)) = wholeFor s t b w (p :: ps) :=
    funext (queuesOf_wholeClaims hl hm t)
  have hlen := fun k => length_wholeFor (k := k) hl hm t
  obtain ⟨-, -, -, hdiffer⟩ := hl
  have hclaim := claimAll_claimsFor s (s.entry b) (Run.fill t.data) (wholePieces w (s.entry b).primary (p :: ps))
    (wholePieces w (s.entry b).twin (p :: ps)) hdiffer (fun _ => rfl)
    (fun hn k hk => isReady_of_takesWhole ((hm k).1 (mem_of_wholePieces hn hk))) (fun hn k hk => isReady_of_takesWhole ((hm k).1 (mem_of_wholePieces hn hk))) ?_
  · exact hclaim.trans (congrArg (fun q => some (s.placed q)) hq)
  · intro k hk
    have hdepth : Config.slotQueueDepth = 48 := rfl
    rw [State.wholeClaims] at hq
    rw [hq] at hk ⊢
    have hmem := mem_of_wholeFor hk
    have hone := hlen k hmem
    have := hroom k hmem
    omega

theorem wholeClaims_waits {s : State} {b : BoardId} {w : List SlotId} {ps : List Piece} (hl : (s.entry b).Legal)
    (hm : ∀ k, k ∈ w ↔ TakesWhole s b ps k) (t : Txn) (h : ∃ k ∈ w, 48 ≤ (s.slot k).queue.length) :
    s.claimAll (s.wholeClaims t (s.entry b) w ps) = none := by
  obtain ⟨k, hk, hlong⟩ := h
  have hq := queuesOf_wholeClaims hl hm t k
  have hlen := length_wholeFor hl hm t hk
  obtain ⟨-, -, -, hdiffer⟩ := hl
  have hdepth : Config.slotQueueDepth = 48 := rfl
  rw [State.wholeClaims] at hq
  refine claimAll_claimsFor_none s _ _ _ _ hdiffer ⟨k, ?_, ?_⟩ <;> rw [hq]
  · exact List.length_pos_iff.1 (hlen ▸ Nat.one_pos)
  · omega

/-- Settles O22: a step places the FILLs of the whole targets, or of one piece, together or not at all. -/
theorem fillAdvancesByOnePiece : Obligations.FillAdvancesByOnePiece := by
  unfold Obligations.FillAdvancesByOnePiece
  intro t b rest p ps s h hl e done
  obtain ⟨-, hi, -⟩ := id h
  refine ⟨fun w hf => ?_, fun w hf hne hm hn hh => ?_⟩
  · have hstep : exec .fillStep s = .next (s.fillPiece t e w p ps) := by
      rw [exec_fillStep h]
      rcases hf with hf | ⟨hf, rfl, hno⟩
      · rw [stepFill_piece hf]
      · have hnone : s.wholeSet e ((p :: ps).map (s.judge e)) = [] :=
          List.eq_nil_iff_forall_not_mem.2 fun k hk => hno k (mem_wholeSet.1 hk)
        rw [stepFill_first hf, hnone]
        rfl
    intro q u
    refine ⟨fun hlong => ?_, fun hroom => ⟨fun hps => ?_, fun hps => ?_⟩⟩
    · rw [hstep, fillPiece_waits (fillClaims_waits hl t hlong)]
    · rw [hstep, fillPiece_more (fillClaims_taken hl t hroom) hps]
    · subst hps
      rw [hstep, fillPiece_last hi (fillClaims_taken hl t hroom)]
  · have hw := eq_wholeSet hl hm hn hh
    have hstep : exec .fillStep s = .next (s.fillWhole t e w (p :: ps) ((p :: ps).map (s.judge e))) := by
      rw [exec_fillStep h, stepFill_first hf, ← hw, if_neg (by simpa using hne)]
    intro q all
    refine ⟨fun hlong => ?_, fun hroom => ⟨fun hall => ?_, fun hall => ?_⟩⟩
    · rw [hstep, fillWhole_waits (wholeClaims_waits hl hm t hlong)]
    · rw [hstep, fillWhole_all hi (wholeClaims_taken hl hm t hroom) (allWhole_iff.2 hall)]
    · rw [hstep, fillWhole_some (wholeClaims_taken hl hm t hroom) (mt allWhole_iff.1 hall)]

end Sys2Proof.Machine
end

section

namespace Sys2Proof.Machine

/-! ### A span that does not wrap is one run (R50, R69) -/

theorem addr_of_head_cutFrom {s : State} {l : SetId} {v : View} {fuel a pos rem : Nat} {p : Piece}
    (h : (s.cutFrom l v fuel a pos rem).head? = some p) : p.addr = a := by
  cases fuel with
  | zero => exact absurd h (by simp [State.cutFrom])
  | succ fuel =>
    by_cases h0 : rem = 0
    · rw [h0, cutFrom_zero] at h
      exact absurd h (by simp)
    · rw [cutFrom_succ (Nat.pos_of_ne_zero h0)] at h
      obtain rfl : s.pieceAt l v a pos rem = p := by simpa using h
      exact (pieceAt_place s l v a pos rem).2.1

/-- Short of the top of the address space each piece begins where the one before it ends. -/
theorem cutFrom_isChain {s : State} {l : SetId} {v : View} {fuel : Nat} : ∀ {a pos rem : Nat}, a + rem ≤ 4294967296 →
    (s.cutFrom l v fuel a pos rem).IsChain (fun p q => q.addr = p.addr + p.len ∧ 1 ≤ p.len) := by
  induction fuel with
  | zero => exact fun _ => .nil
  | succ fuel ih =>
    intro a pos rem htop
    by_cases h0 : rem = 0
    · rw [h0, cutFrom_zero]
      exact .nil
    · obtain ⟨hpos, hmax⟩ := pieceAt_len (s := s) (l := l) (v := v) (a := a) (by omega) (Nat.pos_of_ne_zero h0) pos
      obtain ⟨-, haddr, -⟩ := pieceAt_place s l v a pos rem
      rw [cutFrom_succ (Nat.pos_of_ne_zero h0)]
      by_cases hend : rem - (s.pieceAt l v a pos rem).len = 0
      · rw [hend, cutFrom_zero]
        exact .singleton _
      · have hmod : (a + (s.pieceAt l v a pos rem).len) % 4294967296 = a + (s.pieceAt l v a pos rem).len :=
          Nat.mod_eq_of_lt (by omega)
        rw [hmod]
        exact List.isChain_cons.2 ⟨fun q hq => ⟨by rw [haddr]; exact addr_of_head_cutFrom hq, hpos⟩, ih (by omega)⟩

/-- The words of a span, piece by piece. -/
theorem flatMap_words_cutFrom {s : State} {l : SetId} {v : View} {fuel : Nat} (data : List Word) :
    ∀ {a pos rem : Nat}, a < 4294967296 → rem ≤ fuel →
      (s.cutFrom l v fuel a pos rem).flatMap (fun p => (data.drop p.pos).take p.len) = (data.drop pos).take rem := by
  induction fuel with
  | zero =>
    intro a pos rem _ hle
    obtain rfl : rem = 0 := by omega
    rw [List.take_zero]
    rfl
  | succ fuel ih =>
    intro a pos rem ha hle
    by_cases h0 : rem = 0
    · rw [h0, cutFrom_zero, List.take_zero, List.flatMap_nil]
    · obtain ⟨hpos, hmax⟩ := pieceAt_len (s := s) (l := l) (v := v) ha (Nat.pos_of_ne_zero h0) pos
      obtain ⟨hp, -, -⟩ := pieceAt_place s l v a pos rem
      have hsplit : rem = (s.pieceAt l v a pos rem).len + (rem - (s.pieceAt l v a pos rem).len) := by omega
      rw [cutFrom_succ (Nat.pos_of_ne_zero h0), List.flatMap_cons, ih (Nat.mod_lt _ (by decide)) (by omega), hp]
      conv_rhs => rw [hsplit, List.take_add, List.drop_drop]

/-- Pieces of which each joins the next make one run. -/
theorem runsFor_of_isChain {s : State} {k : SlotId} {v : View} {ps : List Piece} (hne : ps ≠ [])
    (h : ps.IsChain (Joins s k v)) : ∃ r, s.runsFor k v ps = [r] ∧ RunOf s k v r ps := by
  induction ps with
  | nil => exact absurd rfl hne
  | cons p ps ih =>
    cases ps with
    | nil => exact ⟨_, runsFor_cons_nil (runsFor_nil s k v) p, runOf_pieceRun s k v p⟩
    | cons q qs =>
      obtain ⟨hj, hrest⟩ := List.isChain_cons_cons.1 h
      obtain ⟨r, hr, hrun⟩ := ih (List.cons_ne_nil q qs) hrest
      refine ⟨_, ?_, runOf_behind hrun hj⟩
      rw [runsFor_cons hr, if_pos ((pieceRun_joins_iff hrun).2 hj)]

/-- A run that is a whole span: it goes to the span's address with all its words. -/
structure WholeSpan (addr : Word) (count : Nat) (r : Run) : Prop where
  addr : BitVec.ofNat 32 r.addr = addr
  len : r.len = count
  words : ∀ data : List Word, data.length = count → r.words data = data

/-- R50: a span that does not wrap, with no entry redirected, is one run on the slot of the primary view. -/
theorem runsFor_plainSpan {s : State} {b : BoardId} {k : SlotId} {addr : Word} {count : Nat}
    (h : PlainSpan s b k addr count) (hc : 1 ≤ count) :
    ∃ r, s.runsFor k (s.entry b).view (s.cut (s.entry b).layoutSet (s.entry b).view addr count) = [r] ∧
      WholeSpan addr count r := by
  obtain ⟨htop, hplain⟩ := h
  have hne : s.cut (s.entry b).layoutSet (s.entry b).view addr count ≠ [] := cut_ne_nil hc
  have hred : ∀ p ∈ s.cut (s.entry b).layoutSet (s.entry b).view addr count, ¬ Redirected s k (s.entry b).view p := by
    rintro p hp ⟨hk, i, r, hi, -, x, o, n, hmem⟩
    exact hplain p hp i hi (by rcases hk with hk | hk <;> simp [hk]) x o n hmem
  have hsend : ∀ p ∈ s.cut (s.entry b).layoutSet (s.entry b).view addr count, s.sendAddr k (s.entry b).view p = p.addr :=
    fun p hp => (sendAddr_plain (hred p hp)).trans (if_pos (view_of_mem_cut hp))
  have hchain : (s.cut (s.entry b).layoutSet (s.entry b).view addr count).IsChain (Joins s k (s.entry b).view) := by
    refine (cutFrom_isChain htop).imp_of_mem_imp fun p q hp hq hpq => ?_
    obtain ⟨haddr, hlen⟩ := hpq
    exact ⟨hred p hp, hred q hq, by omega, by rw [hsend p hp, hsend q hq, haddr]⟩
  obtain ⟨r, hr, hrun⟩ := runsFor_of_isChain hne hchain
  refine ⟨r, hr, ?_⟩
  have hsum := sum_len_cut s (s.entry b).layoutSet (s.entry b).view addr count
  have hwords := fun data => flatMap_words_cutFrom (s := s) (l := (s.entry b).layoutSet) (v := (s.entry b).view)
    (fuel := count) data (a := addr.toNat) (pos := 0) (rem := count) addr.isLt le_rfl
  obtain ⟨p, ps, hps⟩ := List.exists_cons_of_ne_nil hne
  have hfirst : p.addr = addr.toNat := addr_of_head_cutFrom (show (s.cut _ _ addr count).head? = some p by rw [hps]; rfl)
  have hsendp := hsend p (hps ▸ List.mem_cons_self)
  change ∀ data, (s.cut _ _ addr count).flatMap _ = _ at hwords
  rw [hps] at hrun hsum hwords
  obtain ⟨-, haddr, hlen, hspans, -⟩ := hrun
  refine ⟨?_, hlen.trans hsum, fun data hd => ?_⟩
  · rw [haddr, hsendp, hfirst, BitVec.ofNat_toNat, BitVec.setWidth_eq]
  · rw [Run.words, hspans, List.flatMap_map, hwords, List.drop_zero, ← hd, List.take_length]

end Sys2Proof.Machine
end

section

namespace Sys2Proof.Machine

/-! ### Traffic for one board (R16, R49 to R52, R54) -/

theorem OneBoard_not_rebuilt {s : State} {b : BoardId} {k : SlotId} (h : OneBoard s b k) :
    (s.entry b).twinState ≠ .building ∧ (s.entry b).twinState ≠ .twinned := by
  obtain ⟨-, -, -, hst | hst⟩ := h <;> rw [hst] <;> exact ⟨by decide, by decide⟩

/-- A piece with its address in the primary's view goes to the one board, and to nothing else. -/
theorem judge_oneBoard {s : State} {b : BoardId} {k : SlotId} (h : OneBoard s b k) {p : Piece} (hp : p.view = (s.entry b).view) :
    s.judge (s.entry b) p = ⟨p, true, false, none⟩ := by
  obtain ⟨hb, ht⟩ := OneBoard_not_rebuilt h
  obtain ⟨hk, -, hr, -⟩ := h
  have hprimary : s.reachesPrimary (s.entry b) p = true := reachesPrimary_iff.2 ⟨k, hk, hr, .inr (.inr hp)⟩
  have htwin : s.reachesTwin (s.entry b) p = false := Bool.eq_false_iff.2 fun hreach => by
    obtain ⟨-, -, -, -, hst | ⟨hst, -⟩⟩ := reachesTwin_iff.1 hreach
    · exact ht hst
    · exact hb hst
  have hcls : s.pieceClass (s.entry b) p = none := Option.eq_none_iff_forall_ne_some.2 fun a ha =>
    hb (pieceClass_eq_some_iff.1 ha).1
  rw [State.judge, hprimary, htwin, hcls]

/-- Pieces that reach the primary alone, and are not classified, have no side effects on an entry that is not being rebuilt. -/
theorem settled_plain {e : SteerEntry} {vs : List Verdict} (hb : e.twinState ≠ .building) (ht : e.twinState ≠ .twinned)
    (h : ∀ x ∈ vs, x.primary = true ∧ x.twin = false ∧ x.cls = none) (s : State) : s.settled e vs = s := by
  have hreport : vs.foldl e.report (s, false) = (s, false) := by
    clear hb ht
    induction vs with
    | nil => rfl
    | cons x xs ih =>
      obtain ⟨hp, -, hc⟩ := h x List.mem_cons_self
      have hx : e.report (s, false) x = (s, false) := by
        simp only [SteerEntry.report, Verdict.discarded, hp, hc, Bool.not_true, Bool.false_and, Bool.false_eq_true, if_false,
          reduceCtorEq, false_and]
        split <;> rfl
      rw [List.foldl_cons, hx]
      exact ih fun y hy => h y (List.mem_cons_of_mem _ hy)
  have hgaps : s.gaps.filter (fun g => !vs.any (fun x => x.repairs s e g)) = s.gaps := by
    refine List.filter_eq_self.2 fun g _ => ?_
    rw [Bool.not_eq_true', List.any_eq_false]
    intro x hx
    obtain ⟨-, htwin, -⟩ := h x hx
    simp [Verdict.repairs, htwin]
  have hrebuilt : (e.twinState == .building || e.twinState == .twinned) = false := by simp [hb, ht]
  have hcount : ∀ f : Verdict → Bool, (∀ x ∈ vs, f x = false) → vs.countP f = 0 := fun f hf =>
    List.countP_eq_zero.2 fun x hx => Bool.eq_false_iff.1 (hf x hx)
  have hglobals : s.globals.after e vs = s.globals := by
    unfold GlobalCounters.after
    dsimp only
    rw [hrebuilt, hcount Verdict.discarded fun x hx => by simp [Verdict.discarded, (h x hx).1],
      hcount (fun x => false && x.piece.kind == .pad) fun _ _ => rfl,
      hcount (fun x => false && x.piece.kind == .outside) fun _ _ => rfl,
      hcount (fun x => x.cls == some .uncovered) fun x hx => by simp [(h x hx).2.2]]
    simp only [satAdd_zero]
  rw [State.settled, hreport, hgaps, hglobals]

/-- What goes to the primary alone, as one run, is one claim. -/
theorem claimAll_primary_alone {s : State} {e : SteerEntry} {k : SlotId} {ps : List Piece} {r : Run} (hk : e.primary = some k)
    (hr : s.runsFor k e.view ps = [r]) (f : Run → ClaimTxn) : s.claimAll (s.claimsFor e f ps []) = s.claim k [f r] := by
  cases ht : e.twin <;> simp only [State.claimsFor, hk, ht, hr, List.map_cons, List.map_nil, runsFor_nil, List.append_nil,
    List.cons_append, List.nil_append, State.claimAll] <;> cases s.claim k [f r] <;> rfl

theorem judge_cut_oneBoard {s : State} {b : BoardId} {k : SlotId} (h : OneBoard s b k) (addr : Word) (count : Nat) :
    ∀ x ∈ (s.cut (s.entry b).layoutSet (s.entry b).view addr count).map (s.judge (s.entry b)),
      x.primary = true ∧ x.twin = false ∧ x.cls = none := fun x hx => by
  obtain ⟨p, hp, rfl⟩ := List.mem_map.1 hx
  rw [judge_oneBoard h (view_of_mem_cut hp)]
  exact ⟨rfl, rfl, rfl⟩

theorem picked_all {s : State} {e : SteerEntry} {f : Verdict → Bool} {ps : List Piece}
    (h : ∀ x ∈ ps.map (s.judge e), f x = true) : picked f (ps.map (s.judge e)) = ps := by
  rw [picked, List.filter_eq_self.2 h, List.map_map]
  exact List.map_id ps

theorem picked_none {f : Verdict → Bool} {vs : List Verdict} (h : ∀ x ∈ vs, f x = false) : picked f vs = [] := by
  rw [picked, List.filter_eq_nil_iff.2 fun x hx => Bool.eq_false_iff.1 (h x hx), List.map_nil]

theorem oneBoard_store {t : Txn} {b : BoardId} {rest : List Txn} {k : SlotId} {s : State}
    (hspan : PlainSpan s b k t.addr t.count) (hc : t.countOk = true) (hq : (s.slot k).queue.length < 48)
    (h : s.Heads .store t b rest) (hone : OneBoard s b k) :
    exec .storeTaken s = .next ((s.setSlot k (s.queued k
      [⟨{ kind := .store, count := t.count, addr := t.addr, data := t.data }, .agentDerived⟩])).taken rest).cutHead := by
  obtain ⟨-, hi, hkind, -⟩ := id h
  obtain ⟨hk, -, hr, -⟩ := id hone
  obtain ⟨hb, ht⟩ := OneBoard_not_rebuilt hone
  obtain ⟨r, hrun, hwhole⟩ := runsFor_plainSpan hspan (one_le_count hc (.inl hkind))
  have hvs := judge_cut_oneBoard hone t.addr t.count
  have hdata : t.data.length = t.count := by
    simp only [Txn.countOk, hkind, Bool.and_eq_true, beq_iff_eq] at hc
    exact hc.2
  have hclaim : s.claimAll (s.storeClaims t b) = some (s.setSlot k (s.queued k
      [⟨{ kind := .store, count := t.count, addr := t.addr, data := t.data }, .agentDerived⟩])) := by
    rw [State.storeClaims, State.judgeStore, picked_all fun x hx => (hvs x hx).1, picked_none fun x hx => (hvs x hx).2.1,
      claimAll_primary_alone hk hrun, claim_plain s k (Run.store t.data r) hr rfl hq, Run.store, hwhole.addr, hwhole.len,
      hwhole.words _ hdata]
  rw [exec_storeTaken h, takeStore_taken hi hclaim, State.judgeStore, settled_plain hb ht hvs]

theorem oneBoard_fill {t : Txn} {b : BoardId} {rest : List Txn} {k : SlotId} {s : State}
    (hspan : PlainSpan s b k t.addr t.count) (hc : t.countOk = true) (hq : (s.slot k).queue.length < 48)
    (h : s.Heads .fill t b rest) (hone : OneBoard s b k)
    (hf : s.fill = some ⟨s.cut (s.entry b).layoutSet (s.entry b).view t.addr t.count, none⟩) :
    exec .fillStep s = .next (({ s.setSlot k (s.queued k
      [⟨{ kind := .fill, count := t.count, addr := t.addr, data := [t.data.headD 0] }, .agentDerived⟩]) with
      fill := none } : State).taken rest).cutHead := by
  obtain ⟨-, hi, hkind, -⟩ := id h
  obtain ⟨hk, htw, hr, -⟩ := id hone
  obtain ⟨hb, ht⟩ := OneBoard_not_rebuilt hone
  have hcount := one_le_count hc (.inr (.inl hkind))
  obtain ⟨r, hrun, hwhole⟩ := runsFor_plainSpan hspan hcount
  have hvs := judge_cut_oneBoard hone t.addr t.count
  have hne : s.cut (s.entry b).layoutSet (s.entry b).view t.addr t.count ≠ [] := cut_ne_nil hcount
  have hreach : ∀ p ∈ s.cut (s.entry b).layoutSet (s.entry b).view t.addr t.count, s.judge (s.entry b) p = ⟨p, true, false, none⟩ :=
    fun p hp => judge_oneBoard hone (view_of_mem_cut hp)
  generalize s.cut (s.entry b).layoutSet (s.entry b).view t.addr t.count = ps at hrun hvs hne hreach hf
  have hset : s.wholeSet (s.entry b) (ps.map (s.judge (s.entry b))) = [k] := by
    have hprimary : s.isWhole (s.entry b) k (s.entry b).view (·.primary) (ps.map (s.judge (s.entry b))) = true :=
      isWhole_iff.2 ⟨hb, fun p hp => by rw [hreach p hp], by rw [hrun]; rfl⟩
    have htwin : ∀ j, ¬ s.isWhole (s.entry b) j (s.entry b).view.other (·.twin) (ps.map (s.judge (s.entry b))) = true := fun j hj => by
      obtain ⟨-, hall, -⟩ := isWhole_iff.1 hj
      obtain ⟨p, hp⟩ := List.exists_mem_of_ne_nil _ hne
      have := hall p hp
      rw [hreach p hp] at this
      exact Bool.false_ne_true this
    rw [wholeSet_eq, hk, Option.toList_some, List.filter_singleton, hprimary, List.filter_eq_nil_iff.2 fun j _ => htwin j]
    rfl
  have hclaim : s.claimAll (s.wholeClaims t (s.entry b) [k] ps) = some (s.setSlot k (s.queued k
      [⟨{ kind := .fill, count := t.count, addr := t.addr, data := [t.data.headD 0] }, .agentDerived⟩])) := by
    have hp : wholePieces [k] (s.entry b).primary ps = ps := if_pos (by rw [hk, hasWhole_some]; simp)
    have htn : wholePieces [k] (s.entry b).twin ps = [] := if_neg fun hw => by
      obtain ⟨j, hj, he⟩ := hasWhole_iff.1 hw
      exact htw (by rwa [List.mem_singleton.1 hj] at he)
    rw [State.wholeClaims, hp, htn, claimAll_primary_alone hk hrun, claim_plain s k (Run.fill t.data r) hr rfl hq, Run.fill,
      hwhole.addr, hwhole.len]
  have hall : allWhole (s.entry b) [k] (ps.map (s.judge (s.entry b))) = true := allWhole_iff.2 fun p hp => by
    refine ⟨fun _ => ⟨k, List.mem_singleton_self k, hk⟩, fun htwin => ?_⟩
    have : s.reachesTwin (s.entry b) p = false := congrArg Verdict.twin (hreach p hp)
    exact absurd htwin (Bool.eq_false_iff.1 this)
  obtain ⟨p, qs, rfl⟩ := List.exists_cons_of_ne_nil hne
  rw [exec_fillStep h, stepFill_first hf, hset, List.isEmpty_cons, if_neg Bool.false_ne_true, fillWhole_all hi hclaim hall,
    settled_plain hb ht hvs]

theorem oneBoard_fetch {t : Txn} {b : BoardId} {rest : List Txn} {k : SlotId} {s : State} {i : PendIdx}
    (hspan : PlainSpan s b k t.addr t.count) (hc : t.countOk = true) (hq : (s.slot k).queue.length < 48)
    (h : s.Heads .fetch t b rest) (hk : (s.entry b).primary = some k) (hr : s.isReady k = true)
    (hf : Lowest (fun j => (s.slot k).pend[j] = none) i) :
    exec .fetchTaken s = .next ((s.setSlot k { s.queued k
        [⟨{ kind := .fetch, tag := BitVec.ofNat 8 i, count := t.count, addr := t.addr }, .agentDerived⟩] with
      pend := (s.slot k).pend.set i (some ⟨.queued, .fetch, t.count, .agent t.tag b 1 1 none⟩) }).taken rest).cutHead := by
  obtain ⟨-, hi, hkind, -⟩ := id h
  obtain ⟨r, hrun, hwhole⟩ := runsFor_plainSpan hspan (one_le_count hc (.inr (.inr hkind)))
  have hruns : s.fetchRuns t b k = [r] := hrun
  have hparts : s.fetchParts t b k = [fetchPart t.tag b 1 none (r, 0)] := by
    rw [fetchParts_eq, State.fetchAssembly, hruns]
    rfl
  have hclaim := claim_pend s k (fetchPart t.tag b 1 none (r, 0)) _ i hr rfl hq hf
  rw [← hparts] at hclaim
  rw [exec_fetchTaken h, takeFetch_taken hi hk hr hclaim, hruns, fetchPart, hwhole.addr, hwhole.len]
  rfl

/-- Settles O19: a plain span is one run, and one board is its only target. -/
theorem oneBoardTraffic : Obligations.OneBoardTraffic := by
  unfold Obligations.OneBoardTraffic
  exact fun t b rest k s hspan hc hq => ⟨oneBoard_store hspan hc hq, oneBoard_fill hspan hc hq,
    fun i h hk hr hf => oneBoard_fetch hspan hc hq h hk hr hf⟩

end Sys2Proof.Machine
end

section

namespace Sys2Proof.Machine

/-! ### What the departure finds upstream, and what its row does afterwards (R22, R26, R32, R34, R35) -/

/-- A row takes a slot out of READY by the effects of leaving READY on a state alike, whose upstream queue has at most grown. -/
def State.DepartsTo (k : SlotId) (s u : State) : Prop :=
  ∃ (a : State) (st : SlotState), s.Alike a ∧ (∃ l, a.upstream = s.upstream ++ l) ∧ st ≠ .ready ∧
    (a.leaveReady k st).Concludes k u

section

variable {s a : State} {k : SlotId}

theorem goDown_departsTo (ha : s.Alike a) (hup : a.upstream = s.upstream) (h : s.isReady k = true) :
    s.DepartsTo k (a.goDown k) :=
  ⟨a, .down, ha, ⟨[], by rw [hup, List.append_nil]⟩, by simp, goDown_concludes ((ha.isReady k).trans h)⟩

theorem goHalted_departsTo (ha : s.Alike a) (hup : a.upstream = s.upstream) (h : s.isReady k = true) (source : HaltSource)
    (reason : BitVec 8) : s.DepartsTo k (a.goHalted k source reason) :=
  ⟨a, .halted, ha, ⟨[], by rw [hup, List.append_nil]⟩, by simp, goHalted_concludes ((ha.isReady k).trans h) source reason⟩

theorem helloAccepted_departsTo (h : s.isReady k = true) (r : Arrival) : s.DepartsTo k (s.helloAccepted k r) :=
  ⟨s, .settling, .refl s, ⟨[], (List.append_nil _).symm⟩, by simp, helloAccepted_concludes h r⟩

/-- R35: a SLOT-HALT has taken its request first, and so has granted a credit. -/
theorem slotHalt_departsTo (h : s.isReady k = true) (t : Txn) (rest : List Txn) :
    s.DepartsTo k (((s.taken rest).goHalted k .agent 0).replied t .done) := by
  have ha : s.Alike (s.taken rest) := alike_taken s rest
  rw [goHalted_eq ((ha.isReady k).trans h)]
  exact ⟨_, .halted, ha, ⟨_, rfl⟩, by simp, .answered _ _ t⟩

end

theorem replyExpires_cases (s : State) (k : SlotId) (i : PendIdx) : s.replyExpires k i = s ∨ s.replyExpires k i =
    (s.modSlot k (fun p => { p with counters := p.counters.addReplyTimeout })).goHalted k .replyTimeout 0 := by
  unfold State.replyExpires
  split
  · exact .inr rfl
  · exact .inl rfl

/-- R22, R26, R32, R34, R35: each of the six commands. -/
theorem departs_departsTo {k : SlotId} {cmd : Instr} {s u : State} (h : Departs k cmd s u) : s.DepartsTo k u := by
  obtain ⟨hs, hr, hex, hleft, hcmd⟩ := h
  have hmoved : s ≠ u := by
    rintro rfl
    exact Bool.noConfusion (hr.symm.trans hleft)
  have hnext : ∀ {v w}, exec cmd s = .next v → v = w → w = u := fun hv hw =>
    hw.symm.trans (Host.Outcome.next.inj (hv.symm.trans hex))
  obtain rfl | rfl | ⟨i, rfl⟩ | ⟨f, rfl⟩ | ⟨f, rfl⟩ | rfl := hcmd
  · have ha : s.Alike (s.modSlot k (fun p => { p with presence := false })) := alike_setSlot s k _ rfl
    exact hnext (exec_slotPresenceLost k s) (unlessHeld_of (by exact hs) _) ▸ goDown_departsTo ha rfl hr
  · exact hnext (exec_slotLinkLost k s) (unlessHeld_of hs _) ▸ goDown_departsTo (.refl s) rfl hr
  · have hu := hnext (exec_replyTimerExpiry k i s) (unlessHeld_of hs _)
    have ha : s.Alike (s.modSlot k (fun p => { p with counters := p.counters.addReplyTimeout })) := alike_setSlot s k _ rfl
    obtain he | he := replyExpires_cases s k i
    · exact absurd (he.symm.trans hu) hmoved
    · exact (he.symm.trans hu) ▸ goHalted_departsTo ha rfl hr _ _
  · have hu := hnext (exec_helloReceived k f s) (unlessHeld_of hs _)
    obtain he | ⟨r, he⟩ := helloArrives_cases s k f
    · exact absurd (he.symm.trans hu) hmoved
    · exact (he.symm.trans hu) ▸ helloAccepted_departsTo hr r
  · have hu := hnext (exec_haltReceived k f s) (unlessHeld_of hs _)
    obtain he | ⟨reason, he⟩ := haltArrives_cases s k f
    · exact absurd (he.symm.trans hu) hmoved
    · rw [haltAccepted_live (.inl (isReady_iff.1 hr))] at he
      exact (he.symm.trans hu) ▸ goHalted_departsTo (.refl s) rfl hr _ _
  · have hu := hnext (exec_slotHalt s) rfl
    obtain ⟨t, rest, he⟩ := slotHalt_departs hs hr (hu ▸ hleft)
    exact (he.symm.trans hu) ▸ slotHalt_departsTo hr t rest

/-- What follows a departure in its row leaves the tables of the Migration Engine alone; only DOWN empties the slot's own
spare map (R27). -/
structure Concluded (k : SlotId) (v u : State) : Prop where
  ctx : ∀ c, u.ctx c = v.ctx c
  gaps : u.gaps = v.gaps
  staging : u.staging = v.staging
  slot : ∀ j, j ≠ k → u.slot j = v.slot j
  spares : ∀ j, j ≠ k ∨ (u.slot k).state ≠ .down → u.spareMap j = v.spareMap j
  notice : (v.notice .ctxFailed).pending = true → (u.notice .ctxFailed).pending = true
  upstream : ∃ l, u.upstream = v.upstream ++ l

theorem Concluded.trans {k : SlotId} {v w u : State} (h : Concluded k v w) (g : Concluded k w u)
    (hs : (w.slot k).state = .down → (u.slot k).state = .down) : Concluded k v u where
  ctx c := (g.ctx c).trans (h.ctx c)
  gaps := g.gaps.trans h.gaps
  staging := g.staging.trans h.staging
  slot j hj := (g.slot j hj).trans (h.slot j hj)
  spares j hj := (g.spares j hj).trans (h.spares j (hj.imp_right (mt hs)))
  notice hn := g.notice (h.notice hn)
  upstream := by
    obtain ⟨l, hl⟩ := h.upstream
    obtain ⟨m, hm⟩ := g.upstream
    exact ⟨l ++ m, by rw [hm, hl, List.append_assoc]⟩

theorem concluded_modSlot (k : SlotId) (v : State) (f : SlotPort → SlotPort) : Concluded k v (v.modSlot k f) where
  ctx _ := rfl
  gaps := rfl
  staging := rfl
  slot j hj := by rw [modSlot_eq, slot_setSlot, if_neg hj.symm]
  spares _ _ := rfl
  notice hn := hn
  upstream := ⟨[], (List.append_nil _).symm⟩

theorem concluded_enterDown (k : SlotId) (v : State) : Concluded k v (v.enterDown k) where
  ctx _ := rfl
  gaps := rfl
  staging := rfl
  slot j hj := (concluded_modSlot k v SlotPort.toDown).slot j hj
  spares j hj := by
    have hdown : ((v.enterDown k).slot k).state = .down := by
      rw [State.enterDown, slot_setSpareMap, modSlot_eq, slot_setSlot_same]
      rfl
    have hne := hj.resolve_right (not_not.2 hdown)
    rw [State.enterDown, spareMap_setSpareMap, if_neg hne.symm]
    rfl
  notice hn := hn
  upstream := ⟨[], (List.append_nil _).symm⟩

theorem concluded_raise (k : SlotId) (v : State) (n : NoticeKind) (d : BitVec 8) : Concluded k v (v.raise n d) where
  ctx c := ctx_raise _ _ _ _
  gaps := (Beside.raise v n d).gaps
  staging := staging_raise v n d
  slot j _ := slot_raise _ _ _ _
  spares j _ := by rw [raise_eq]; rfl
  notice := (Beside.raise v n d).notice
  upstream := (Beside.raise v n d).upstream

theorem concluded_replied (k : SlotId) (v : State) (t : Txn) : Concluded k v (v.replied t .done) := by
  rw [replied_eq]
  exact ⟨fun _ => rfl, rfl, rfl, fun _ _ => rfl, fun _ _ => rfl, id, _, rfl⟩

theorem State.Concludes.concluded {k : SlotId} {v u : State} (h : v.Concludes k u) : Concluded k v u := by
  cases h with
  | down => exact (concluded_enterDown k v).trans (concluded_raise k _ _ _) fun hd => by rwa [slot_raise]
  | settling a => exact concluded_modSlot k v _
  | halted source reason => exact (concluded_modSlot k v _).trans (concluded_raise k _ _ _) fun hd => by rwa [slot_raise]
  | answered source reason t =>
    refine ((concluded_modSlot k v _).trans (concluded_raise k _ _ _) fun hd => by rwa [slot_raise]).trans
      (concluded_replied k _ t) fun hd => ?_
    rw [replied_eq]
    exact hd

/-! ### The Migration Engine's reaction after any of them (R86, R106, R113, R114, R156 to R158) -/

theorem State.Alike.staging {s a : State} (h : s.Alike a) : a.staging = s.staging := by rw [h.rest]

theorem State.Alike.spareMap {s a : State} (h : s.Alike a) (j : SlotId) : a.spareMap j = s.spareMap j := by
  rw [h.rest]
  rfl

theorem State.Alike.ctxAfterLoss {s a : State} (h : s.Alike a) (k : SlotId) (c : CtxId) :
    a.ctxAfterLoss k c = s.ctxAfterLoss k c := by
  simp only [State.ctxAfterLoss, h.lossReason, h.ctx]

theorem ctxAfterLoss_lost {s : State} {k : SlotId} {c : CtxId} {r : FailReason} (h : s.lossReason k c = some r) :
    s.ctxAfterLoss k c = (s.ctx c).lost r := by
  simp only [State.ctxAfterLoss, h]
  rfl

/-- Settles O26: a departure comes to `State.leaveReady` on a state alike, which `losing_leaveReady` describes, and what follows in
the row leaves those tables alone. -/
theorem engineReactsToADeparture : Obligations.EngineReactsToADeparture := by
  unfold Obligations.EngineReactsToADeparture
  intro k cmd s u h fails
  obtain ⟨a, st, ha, ⟨l, hl⟩, hst, hconcludes⟩ := departs_departsTo h
  have hend := hconcludes.concluded
  have hlosing := losing_leaveReady a k hst
  have hreason : a.lossReason k = s.lossReason k := funext (ha.lossReason k)
  rw [hreason] at hlosing
  refine ⟨fun c => ?_, ?_, fun c hc b hb hbuild hbound => ?_, fun g => ?_, fun j hj i => ?_, fun j hj => ?_,
    fun c r hr => ⟨?_, fun tag htag => ?_⟩⟩
  · rw [hend.ctx]
    cases hr : s.lossReason k c with
    | none => rw [(hlosing.kept c hr).1, ha.ctxAfterLoss]
    | some r => rw [hlosing.lost c r hr, ctxAfterLoss_lost hr, ha.ctx]
  · rw [hend.gaps, hlosing.gaps, ha.gaps]
  · have hentry := hlosing.bound c b (by rw [ha.ctx]; exact hb) (by rw [ha.entry]; exact hbuild) (by rw [ha.entry]; exact hbound)
    obtain ⟨hsteer, -⟩ := hconcludes.steering
    rw [hsteer, hentry, if_pos hc, ha.entry]
  · have hstaging := hlosing.staging g
    simp only [ha.ctx, ha.staging] at hstaging
    rw [hend.staging, hstaging]
  · have hpend := hlosing.pend j i
    have hopen : a.unclosed k (a.slot k).closeOrder j i = (s.slot j).pend[i] := by
      rw [State.unclosed, if_neg fun hjk => hj hjk.1, ha.slot j]
    rw [hopen] at hpend
    rw [hend.slot j hj, hpend]
    rfl
  · rw [hend.spares j hj, hlosing.spares j, ha.spareMap]
    refine List.map_congr_left fun x _ => ?_
    cases x with
    | retired => rfl
    | remap r e v n o q => cases o <;> rfl
  · exact hend.notice (hlosing.notice ⟨c, Option.isSome_iff_exists.2 ⟨r, hr⟩⟩)
  · obtain ⟨m, hm, hreply⟩ := hlosing.upstream
    obtain ⟨n, hn⟩ := hend.upstream
    refine ⟨l ++ m ++ n, by rw [hn, hm, hl, List.append_assoc, List.append_assoc, List.append_assoc], ?_⟩
    exact List.mem_append_left _ (List.mem_append_right _ (hreply c r tag hr (by rw [ha.ctx]; exact htag)))

end Sys2Proof.Machine
end
